-- ==== Sys2Proof/Word.lean ====
section
/-! DEFINITION. Word.lean: the widths of the block (rule R10, decision D2 and D29) as names. -/

namespace Sys2Proof

/-- One byte of the pixel buffer. -/
abbrev Byte := BitVec 8

/-- A pin descriptor, PIN_W = 8 (R10). -/
abbrev Pin := BitVec 8

/-- A byte count, LEN_W = 16 (R10). -/
abbrev Count := BitVec 16

/-- A pixel-buffer address, ADDR_W = 32 (R10). -/
abbrev Addr := BitVec 32

/-- A value of CYC, US, END_TIME or DLY: CYC_W = US_W = 32 (R10, R24). -/
abbrev Time32 := BitVec 32

/-- A duty entry (R102). -/
abbrev Entry := BitVec 16

/-- A command word `cmd_op, cmd_a, cmd_b, cmd_c`, cmd_op in bits 99:96 (R90). -/
abbrev CmdWord := BitVec 100

end Sys2Proof
end

