-- ==== Sys2Proof/Config.lean ====
section
/-! DEFINITION. Config.lean: the constants of an instance and of its platform (R8 to R14, R21, R106, R108, R240 to
R250), the reference configuration REFCFG (R14) and the free values. No command writes any of it (R21). -/

namespace Sys2Proof

/-- STRATEGY, fixed per instance (R8). -/
inductive Strategy where
  | bitbang
  | pwmdma
  deriving DecidableEq, Repr

/-- TYPE, the six chipsets that have a descriptor (R106, R240). -/
inductive Chip where
  | ws2811
  | ws2812
  | ws2813
  | sk6812rgbw
  | tm1803
  | tm1829
  deriving DecidableEq, Repr

/-- Channel order (R108), carried in the descriptor and read by no rule (R246). -/
inductive Order where
  | rgb
  | grb
  | rbg
  | rgbw
  deriving DecidableEq, Repr

/-- Frequency class (R11). -/
inductive FreqClass where
  | k400
  | k800
  deriving DecidableEq, Repr

/-- HOLD_KIND, how the bit-bang engine times a phase (R10, R154). -/
inductive HoldKind where
  | counted
  | cyccmp
  deriving DecidableEq, Repr

/-- A protocol descriptor DESC; durations in clk cycles (R241). -/
structure Desc where
  order : Order
  bpp : Nat
  cls : FreqClass
  t0h : Nat
  t0l : Nat
  t1h : Nat
  t1l : Nat
  latchUs : Nat
  deriving DecidableEq, Repr

/-- The protocol table, a ROM with one row per chipset (R60 (4), R240). -/
structure Table where
  ws2811 : Desc
  ws2812 : Desc
  ws2813 : Desc
  sk6812rgbw : Desc
  tm1803 : Desc
  tm1829 : Desc
  deriving DecidableEq, Repr

/-- The lookup table(TYPE) (R240, R241). -/
def Table.row (t : Table) : Chip → Desc
  | .ws2811 => t.ws2811
  | .ws2812 => t.ws2812
  | .ws2813 => t.ws2813
  | .sk6812rgbw => t.sk6812rgbw
  | .tm1803 => t.tm1803
  | .tm1829 => t.tm1829

/-- The table with one row replaced: what entering a descriptor at build time does (R246). -/
def Table.setRow (t : Table) (c : Chip) (d : Desc) : Table :=
  match c with
  | .ws2811 => { t with ws2811 := d }
  | .ws2812 => { t with ws2812 := d }
  | .ws2813 => { t with ws2813 := d }
  | .sk6812rgbw => { t with sk6812rgbw := d }
  | .tm1803 => { t with tm1803 := d }
  | .tm1829 => { t with tm1829 := d }

/-- The parameters of one frequency class: duty constants, counter top, fallback timing (R10). -/
structure ClassParams where
  duty0 : Entry
  duty1 : Entry
  top : BitVec 15
  fbPeriod : Nat
  fbT0H : Nat
  fbT1H : Nat
  deriving DecidableEq, Repr

/-- The constants of one instance (R10, R21); periodTol and symbolTol, the tolerances of R186 and of R244 in nanoseconds, have no
value in the source (log 19). -/
structure Config where
  strategy : Strategy
  chip : Chip
  table : Table
  k400 : ClassParams
  k800 : ClassParams
  prescale : BitVec 16
  dutyRamEntries : Nat
  termN : Nat
  backoffUs : Nat
  retryLimit : Option Nat
  holdKind : HoldKind
  periodTol : Nat
  symbolTol : Nat
  deriving DecidableEq, Repr

/-- DESC = table(TYPE) (R21, R241). -/
def Config.desc (c : Config) : Desc := c.table.row c.chip

/-- The parameters of a frequency class (R10, R11). -/
def Config.params (c : Config) : FreqClass → ClassParams
  | .k400 => c.k400
  | .k800 => c.k800

/-- The parameters the instance uses: those of DESC.CLASS (R188, R220). -/
def Config.cp (c : Config) : ClassParams := c.params c.desc.cls

/-- The terminator entry TERM (R104). -/
def term : Entry := 0x8000#16

/-- What all instances of a platform share: F_CLK, N_PINS, N_PWM (R10). -/
structure Platform where
  fClk : Nat
  nPins : Nat
  nPwm : Nat
  deriving DecidableEq, Repr

/-- M, clk cycles per microsecond (R10). -/
def Platform.m (p : Platform) : Nat := p.fClk / 1000000

/-- A duration in nanoseconds as clk cycles, rounded half up (R241). -/
def cyclesOfNs (fClk ns : Nat) : Nat := (2 * ns * fClk + 1000000000) / 2000000000

/-! ## Free values: no body, so nothing can be proved of them -/

/-- The byte the host's memory holds at an address the model has seen no write to. Free value (log 7). -/
opaque Config.hostByte : Nat → Byte

/-- The encoding time E of the n-th ENCODING beyond the draws listed in the state (R191, U17). Free value (log 9). -/
opaque Config.freeEncodingTime : Nat → Nat

/-- An entry of the duty RAM nobody has written since its contents became unspecified, of the number of resets, the instance's
identifier, the generation of its buffer and the index (R64, U11). Free value (log 8). -/
opaque Config.freeDutyEntry : Nat → Nat → Nat → Nat → Entry

/-- The pin field of PSEL after the n-th tear-down, which writes {0, any} (R199). Free value (log 34). -/
opaque Config.freePselPin : Nat → Pin

/-- The level of a line whose drivers disagree, `none` for Z, of the number of resets, the pin and the cycle (U10). Free value
(log 30). -/
opaque Config.contested : Nat → Nat → Nat → Option Bool

/-! ## REFCFG (R14). Only rows the spec gives are its own; the other chipsets' rows are PRESUMED (log 10) -/

/-- The WS2812B row of REFCFG (R14); ORDER from general knowledge G6 (log 10). -/
def Config.refWs2812 : Desc :=
  { order := .grb, bpp := 3, cls := .k800, t0h := 7, t0l := 16, t1h := 14, t1l := 12, latchUs := 300 }

/-- PRESUMED rows: general-knowledge candidates G2, G3, G4, G6, G8 at 20 MHz (log 10). DESIGN CHOICE: the TM1829 row gives bit
value 1 the long high phase and bit value 0 the short one, where R245 says that the source does not say which (log 10). -/
def Config.refTable : Table :=
  { ws2811 := { order := .rgb, bpp := 3, cls := .k400, t0h := 10, t0l := 40, t1h := 24, t1l := 26, latchUs := 50 }
    ws2812 := Config.refWs2812
    ws2813 := { order := .grb, bpp := 3, cls := .k800, t0h := 7, t0l := 16, t1h := 14, t1l := 12, latchUs := 300 }
    sk6812rgbw := { order := .rgbw, bpp := 4, cls := .k800, t0h := 6, t0l := 18, t1h := 12, t1l := 12, latchUs := 80 }
    tm1803 := { order := .rgb, bpp := 3, cls := .k400, t0h := 14, t0l := 27, t1h := 27, t1l := 14, latchUs := 24 }
    tm1829 := { order := .rbg, bpp := 3, cls := .k800, t0h := 6, t0l := 16, t1h := 16, t1l := 6, latchUs := 500 } }

/-- The K400 parameters of REFCFG (R14). -/
def Config.refK400 : ClassParams :=
  { duty0 := 0x800A#16, duty1 := 0x8018#16, top := 50#15, fbPeriod := 50, fbT0H := 10, fbT1H := 24 }

/-- The K800 parameters of REFCFG (R14). -/
def Config.refK800 : ClassParams :=
  { duty0 := 0x8007#16, duty1 := 0x800E#16, top := 25#15, fbPeriod := 25, fbT0H := 7, fbT1H := 14 }

/-- REFCFG (R14) with the STRATEGY a vector names. DESIGN CHOICE: the two tolerances (log 19). -/
def Config.ref (st : Strategy) : Config :=
  { strategy := st
    chip := .ws2812
    table := Config.refTable
    k400 := Config.refK400
    k800 := Config.refK800
    prescale := 1#16
    dutyRamEntries := 4096
    termN := 2
    backoffUs := 300
    retryLimit := none
    holdKind := .counted
    periodTol := 0
    symbolTol := 460 }

/-- The platform of REFCFG: 20 MHz, 32 pins, 4 PWM units (R14). -/
def Platform.ref : Platform := { fClk := 20000000, nPins := 32, nPwm := 4 }

end Sys2Proof
end

