-- ==== Sys2Proof/Syntax.lean ====
section
/-! DEFINITION. Syntax.lean: one constructor per row of spec/opcode_table.json. -/

namespace Sys2Proof

/-- The rows of the opcode table. Which agent executes which row is log 2. -/
inductive Instr where
  /-- SET_PIN p (R260). -/
  | setPin (p : Pin)
  /-- BEGIN (R262). -/
  | beginPin
  /-- END (R264). -/
  | endPin
  /-- UPDATE_LENGTH n (R181, R184). -/
  | updateLength (n : Count)
  /-- TRANSMIT buf, len, dly (R150, R188). -/
  | transmit (buf : Addr) (len : Count) (dly : Time32)
  /-- The eleven reserved opcodes (R96). -/
  | reserved0
  | reserved6
  | reserved7
  | reserved8
  | reserved9
  | reservedA
  | reservedB
  | reservedC
  | reservedD
  | reservedE
  | reservedF
  /-- Wire symbols of the bit-bang engine (R98). -/
  | sym0
  | sym1
  /-- Wire symbols of the fallback engine (R101). -/
  | fbSym0
  | fbSym1
  /-- Wire symbols of a playing PWM unit (R200). -/
  | pwmSym0
  | pwmSym1
  | pwmTerm
  /-- A duty entry for a data bit 0, mostly low (R103). -/
  | dutyZero (cmp : BitVec 15)
  /-- A duty entry for a data bit 1, mostly high (R103). -/
  | dutyOne (cmp : BitVec 15)
  /-- The terminator entry (R104). -/
  | dutyTerm
  /-- A duty entry with P = 0 (R105). -/
  | dutyReserved (cmp : BitVec 15)
  /-- Chipset type tags (R106). -/
  | typeWs2811
  | typeWs2812
  | typeWs2813
  | typeSk6812rgbw
  | typeTm1803
  | typeTm1829
  /-- Reserved type tags (R107). -/
  | typeReserved6
  | typeReserved7
  /-- Channel-order codes (R108). -/
  | orderRgb
  | orderGrb
  | orderRbg
  | orderRgbw
  deriving DecidableEq, Repr

end Sys2Proof
end

