-- ==== Sys2Proof/WellFormed.lean ====
section
/-! DEFINITION. WellFormed.lean: when a platform, a configuration and an instruction are well formed. An instance is
built only from a well-formed configuration (R107, R186, U6); what the checks leave out is log 19. -/

namespace Sys2Proof

/-- F_CLK a positive multiple of 1 MHz (R10, D1); at most 256 pins (D29). -/
def Platform.wf (p : Platform) : Bool :=
  decide (0 < p.fClk) && decide (p.fClk % 1000000 = 0) && decide (p.nPins ≤ 256)

/-- The four durations of a chipset: each at least one cycle; a longer high phase for a 1, except for the TM1829, whose
symbols are one long-high short-low and one short-high long-low (R244, R245). Below 2^32, so that a hold timed by CYC ends
(R17). -/
def Desc.timesWf (c : Chip) (d : Desc) : Bool :=
  decide (1 ≤ d.t0h) && decide (1 ≤ d.t0l) && decide (1 ≤ d.t1h) && decide (1 ≤ d.t1l) &&
  decide (d.t0h < 2 ^ 32) && decide (d.t0l < 2 ^ 32) && decide (d.t1h < 2 ^ 32) && decide (d.t1l < 2 ^ 32) &&
  (if c = .tm1829 then
    (decide (d.t0h < d.t0l) && decide (d.t1l < d.t1h)) || (decide (d.t0l < d.t0h) && decide (d.t1h < d.t1l))
  else decide (d.t0h < d.t1h))

/-- The other fields: BPP (R242), LATCH_US (R247), the RGBW chipset's order (R250). -/
def Desc.fieldsWf (c : Chip) (d : Desc) : Bool :=
  decide (d.bpp = if c = .sk6812rgbw then 4 else 3) &&
  decide (24 ≤ d.latchUs) && decide (d.latchUs ≤ 500) &&
  (if c = .ws2812 then decide (d.latchUs = 300) else true) &&
  (if c = .sk6812rgbw then decide (d.order = .rgbw) else true)

/-- A duration of n cycles is ns nanoseconds to within tol, exactly (R165, R186, R244). -/
def durationNear (p : Platform) (n ns tol : Nat) : Bool :=
  decide ((ns - tol) * p.fClk ≤ n * 1000000000) && decide (n * 1000000000 ≤ (ns + tol) * p.fClk)

/-- The 0-bit of the WS2812, 350 ns high and 800 ns low, each within 150 ns; no other chipset's tolerance is in the source (R13,
R165, R244, R250). -/
def zeroBitWf (p : Platform) (c : Chip) (high low : Nat) : Bool :=
  if c = .ws2812 then durationNear p high 350 150 && durationNear p low 800 150 else true

/-- The bit period of a frequency class in nanoseconds: 1/400 kHz, 1/800 kHz (R11, R186, R244). -/
def FreqClass.periodNs : FreqClass → Nat
  | .k400 => 2500
  | .k800 => 1250

/-- Except for the TM1829, both symbols take the bit period of the class to within tol nanoseconds, and so long as each other
(R244). -/
def Desc.totalsWf (p : Platform) (tol : Nat) (c : Chip) (d : Desc) : Bool :=
  if c = .tm1829 then true
  else
    durationNear p (d.t0h + d.t0l) d.cls.periodNs tol && durationNear p (d.t1h + d.t1l) d.cls.periodNs tol &&
    decide ((d.t0h + d.t0l) * 1000000000 ≤ (d.t1h + d.t1l) * 1000000000 + tol * p.fClk) &&
    decide ((d.t1h + d.t1l) * 1000000000 ≤ (d.t0h + d.t0l) * 1000000000 + tol * p.fClk)

/-- The row an instance uses is within its tolerances at the platform's F_CLK (R165, R244). -/
def Desc.wf (p : Platform) (tol : Nat) (c : Chip) (d : Desc) : Bool := d.totalsWf p tol c && zeroBitWf p c d.t0h d.t0l

/-- What holds of the row of every TYPE (R242, R244, R245, R247, R250). -/
def Desc.rowWf (c : Chip) (d : Desc) : Bool := d.timesWf c && d.fieldsWf c

/-- The rows of the protocol table (R240). -/
def Table.rows (t : Table) : List Desc := [t.ws2811, t.ws2812, t.ws2813, t.sk6812rgbw, t.tm1803, t.tm1829]

/-- The row of every TYPE is well formed (R244, R245, R250), and both ends of the range of LATCH_US are attained (R247). DESIGN
CHOICE: what depends on F_CLK, the nanoseconds of a row to within their tolerances (`Desc.wf`), is checked for the TYPE in use only,
so that at an F_CLK at which another chipset's durations have no whole number of cycles an instance can be built (log 19). -/
def Table.wf (t : Table) : Bool :=
  t.ws2811.rowWf .ws2811 && t.ws2812.rowWf .ws2812 && t.ws2813.rowWf .ws2813 &&
  t.sk6812rgbw.rowWf .sk6812rgbw && t.tm1803.rowWf .tm1803 && t.tm1829.rowWf .tm1829 &&
  t.rows.any (fun d => decide (d.latchUs = 24)) && t.rows.any (fun d => decide (d.latchUs = 500))

/-- The compare value of a duty entry, bits 14:0 (R102). -/
def cmpOf (e : Entry) : BitVec 15 := e.extractLsb' 0 15

/-- The polarity flag P of a duty entry, bit 15 (R102). -/
def polarity (e : Entry) : Bool := e.getLsbD 15

/-- The duty constants of a class: P = 1, 0 < DUTY0 < DUTY1 < TOP, TOP at least 2 (R186). -/
def ClassParams.dutyWf (k : ClassParams) : Bool :=
  polarity k.duty0 && polarity k.duty1 && decide (0 < (cmpOf k.duty0).toNat) &&
  decide ((cmpOf k.duty0).toNat < (cmpOf k.duty1).toNat) && decide ((cmpOf k.duty1).toNat < k.top.toNat) &&
  decide (2 ≤ k.top.toNat)

/-- The fallback timing of a class: 0 < FB_T0H < FB_T1H < FB_PERIOD (R101). DESIGN CHOICE: FB_PERIOD below 2^32, like every
duration, so that a hold compared with CYC ends (log 19). -/
def ClassParams.fbWf (k : ClassParams) : Bool :=
  decide (0 < k.fbT0H) && decide (k.fbT0H < k.fbT1H) && decide (k.fbT1H < k.fbPeriod) && decide (k.fbPeriod < 2 ^ 32)

/-- TOP x PRESCALE cycles are the bit period of the class to within tol nanoseconds (R186). -/
def ClassParams.periodWf (p : Platform) (prescale tol : Nat) (f : FreqClass) (k : ClassParams) : Bool :=
  durationNear p (k.top.toNat * prescale) f.periodNs tol

/-- The 0-bits of the PWM path and of the fallback engine meet the chipset's tolerance too (R101, R165, R338). -/
def Config.zeroBitsWf (c : Config) (p : Platform) : Bool :=
  zeroBitWf p c.chip ((cmpOf c.cp.duty0).toNat * c.prescale.toNat)
    ((c.cp.top.toNat - (cmpOf c.cp.duty0).toNat) * c.prescale.toNat) &&
  zeroBitWf p c.chip c.cp.fbT0H (c.cp.fbPeriod - c.cp.fbT0H)

/-- What only a PWMDMA instance needs (R186, R101, R338). -/
def Config.pwmWf (c : Config) (p : Platform) : Bool :=
  c.k400.dutyWf && c.k800.dutyWf && c.k400.fbWf && c.k800.fbWf && decide (1 ≤ c.prescale.toNat) &&
  c.k400.periodWf p c.prescale.toNat c.periodTol .k400 && c.k800.periodWf p c.prescale.toNat c.periodTol .k800 &&
  c.zeroBitsWf p

/-- A configuration an instance can be built from on a platform: the platform well formed (R10), the table (R13, R240 to R250)
and the row of its TYPE (R165, R244), TERM_N 1 or 2 (D9), a PWMDMA instance's parameters (R186); else it is refused (R107,
U6). -/
def Config.wf (c : Config) (p : Platform) : Bool :=
  p.wf && (c.table.wf && c.desc.wf p c.symbolTol c.chip) && (decide (c.termN = 1) || decide (c.termN = 2)) &&
  decide (c.backoffUs < 2 ^ 32) &&
  (match c.strategy with
   | .bitbang => true
   | .pwmdma => c.pwmWf p)

/-- The instructions an instance with configuration c has an encoding for: the symbols of the fallback engine and of a PWM
unit exist only with PWMDMA parameters (R101, R186); a DUTY_ZERO entry is mostly low and a DUTY_ONE entry mostly high (R103,
log 15), and neither is the terminator (R104). -/
def Instr.wf (c : Config) : Instr → Bool
  | .fbSym0 => c.cp.fbWf
  | .fbSym1 => c.cp.fbWf
  | .pwmSym0 => c.cp.dutyWf && decide (1 ≤ c.prescale.toNat)
  | .pwmSym1 => c.cp.dutyWf && decide (1 ≤ c.prescale.toNat)
  | .pwmTerm => c.cp.dutyWf && decide (1 ≤ c.prescale.toNat)
  | .dutyZero cmp => decide (0 < cmp.toNat) && decide (cmp.toNat < (cmpOf c.cp.duty1).toNat)
  | .dutyOne cmp => decide (0 < cmp.toNat) && decide ((cmpOf c.cp.duty1).toNat ≤ cmp.toNat)
  | .setPin _ => true
  | .beginPin => true
  | .endPin => true
  | .updateLength _ => true
  | .transmit _ _ _ => true
  | .reserved0 => true
  | .reserved6 => true
  | .reserved7 => true
  | .reserved8 => true
  | .reserved9 => true
  | .reservedA => true
  | .reservedB => true
  | .reservedC => true
  | .reservedD => true
  | .reservedE => true
  | .reservedF => true
  | .sym0 => true
  | .sym1 => true
  | .dutyTerm => true
  | .dutyReserved _ => true
  | .typeWs2811 => true
  | .typeWs2812 => true
  | .typeWs2813 => true
  | .typeSk6812rgbw => true
  | .typeTm1803 => true
  | .typeTm1829 => true
  | .typeReserved6 => true
  | .typeReserved7 => true
  | .orderRgb => true
  | .orderGrb => true
  | .orderRbg => true
  | .orderRgbw => true

end Sys2Proof
end

