-- ==== Sys2Proof/Decode.lean ====
section
/-! DEFINITION. Decode.lean: the four encodings of the block (R90 to R108) read into instructions, total on every word,
and after it the encoder. -/

namespace Sys2Proof

/-- The three engines that put symbols on the line (R98, R101, R200). -/
inductive Engine where
  | bitbang
  | fallback
  | pwm
  deriving DecidableEq, Repr

/-- A word of one of the block's encodings: a command word (R90), a duty entry (R102), a type tag (R106), an order code
(R108), or the segments of a wire symbol, high = true (R97). -/
inductive Encoded where
  | cmd (w : CmdWord)
  | duty (w : Entry)
  | chip (w : BitVec 3)
  | order (w : BitVec 2)
  | wire (e : Engine) (segs : List (Bool × Nat))
  deriving DecidableEq, Repr

/-! ## Commands -/

/-- `cmd_op`, bits 99:96 (R90). -/
def cmdOp (w : CmdWord) : BitVec 4 := w.extractLsb' 96 4

/-- `cmd_a`, bits 95:64 (R90). -/
def cmdA (w : CmdWord) : BitVec 32 := w.extractLsb' 64 32

/-- `cmd_b`, bits 63:32 (R90). -/
def cmdB (w : CmdWord) : BitVec 32 := w.extractLsb' 32 32

/-- `cmd_c`, bits 31:0 (R90). -/
def cmdC (w : CmdWord) : BitVec 32 := w.extractLsb' 0 32

/-- The opcode map (R92) and the operands (R94): every word is a command, bits above a field's width are ignored. -/
def decodeCmd (w : CmdWord) : Instr :=
  match (cmdOp w).toNat with
  | 0 => .reserved0
  | 1 => .setPin ((cmdA w).extractLsb' 0 8)
  | 2 => .beginPin
  | 3 => .endPin
  | 4 => .updateLength ((cmdA w).extractLsb' 0 16)
  | 5 => .transmit (cmdA w) ((cmdB w).extractLsb' 0 16) (cmdC w)
  | 6 => .reserved6
  | 7 => .reserved7
  | 8 => .reserved8
  | 9 => .reserved9
  | 10 => .reservedA
  | 11 => .reservedB
  | 12 => .reservedC
  | 13 => .reservedD
  | 14 => .reservedE
  | _ => .reservedF

/-! ## Duty entries, type tags, order codes -/

/-- A duty entry (R102 to R105). P = 0 is reserved; CMP = 0 is the terminator; any other entry is mostly high when CMP
reaches the compare value of DUTY1 and mostly low below it (log 15). -/
def decodeDuty (duty1 w : Entry) : Instr :=
  if polarity w = false then .dutyReserved (cmpOf w)
  else if (cmpOf w).toNat = 0 then .dutyTerm
  else if (cmpOf duty1).toNat ≤ (cmpOf w).toNat then .dutyOne (cmpOf w)
  else .dutyZero (cmpOf w)

/-- A type tag (R106, R107). -/
def decodeChip (w : BitVec 3) : Instr :=
  match w.toNat with
  | 0 => .typeWs2811
  | 1 => .typeWs2812
  | 2 => .typeWs2813
  | 3 => .typeSk6812rgbw
  | 4 => .typeTm1803
  | 5 => .typeTm1829
  | 6 => .typeReserved6
  | _ => .typeReserved7

/-- A channel-order code (R108). -/
def decodeOrder (w : BitVec 2) : Instr :=
  match w.toNat with
  | 0 => .orderRgb
  | 1 => .orderGrb
  | 2 => .orderRbg
  | _ => .orderRgbw

/-! ## Wire symbols -/

/-- The symbol of a data bit in the bit-bang engine (R98). -/
def bbSymbol (c : Config) (b : Bool) : List (Bool × Nat) :=
  [(true, if b then c.desc.t1h else c.desc.t0h), (false, if b then c.desc.t1l else c.desc.t0l)]

/-- The high time of a data bit in the fallback engine, FB_T1H or FB_T0H of the class (R101). -/
def fbHigh (c : Config) (b : Bool) : Nat := if b then c.cp.fbT1H else c.cp.fbT0H

/-- The symbol of a data bit in the fallback engine (R101). -/
def fbSymbol (c : Config) (b : Bool) : List (Bool × Nat) :=
  [(true, fbHigh c b), (false, c.cp.fbPeriod - fbHigh c b)]

/-- W, the length in cycles of one played entry (R195, R200). -/
def pwmPeriod (c : Config) : Nat := c.cp.top.toNat * c.prescale.toNat

/-- h0 or h1, the high time in cycles of a played data bit (R200). -/
def pwmHigh (c : Config) (b : Bool) : Nat :=
  (cmpOf (if b then c.cp.duty1 else c.cp.duty0)).toNat * c.prescale.toNat

/-- The symbol of a data bit as a unit plays it (R200). -/
def pwmSymbol (c : Config) (b : Bool) : List (Bool × Nat) :=
  [(true, pwmHigh c b), (false, pwmPeriod c - pwmHigh c b)]

/-- A terminator as a unit plays it (R200). -/
def pwmTermSymbol (c : Config) : List (Bool × Nat) := [(false, pwmPeriod c)]

/-- The segments an engine sends, read back as its symbol; anything else is no symbol of it (R97, R98, R101, R200). -/
def decodeWire (c : Config) (e : Engine) (segs : List (Bool × Nat)) : Option Instr :=
  match e with
  | .bitbang =>
    if segs = bbSymbol c false then some .sym0 else if segs = bbSymbol c true then some .sym1 else none
  | .fallback =>
    if segs = fbSymbol c false then some .fbSym0 else if segs = fbSymbol c true then some .fbSym1 else none
  | .pwm =>
    if segs = pwmSymbol c false then some .pwmSym0 else if segs = pwmSymbol c true then some .pwmSym1
    else if segs = pwmTermSymbol c then some .pwmTerm else none

/-- The decoder of all five formats. -/
def decode (c : Config) : Encoded → Option Instr
  | .cmd w => some (decodeCmd w)
  | .duty w => some (decodeDuty c.cp.duty1 w)
  | .chip w => some (decodeChip w)
  | .order w => some (decodeOrder w)
  | .wire e segs => decodeWire c e segs

/-! ## The encoder -/

/-- A command word from its four fields (R90). -/
def cmdWord (op : BitVec 4) (a b c : BitVec 32) : CmdWord := op ++ a ++ b ++ c

/-- A duty entry from its two fields (R102). -/
def dutyWord (p : BitVec 1) (cmp : BitVec 15) : Entry := p ++ cmp

/-- The words of an instruction; ignored bits are 0 (R94). -/
def encode (c : Config) : Instr → Encoded
  | .reserved0 => .cmd (cmdWord 0x0#4 0 0 0)
  | .setPin p => .cmd (cmdWord 0x1#4 (p.setWidth 32) 0 0)
  | .beginPin => .cmd (cmdWord 0x2#4 0 0 0)
  | .endPin => .cmd (cmdWord 0x3#4 0 0 0)
  | .updateLength n => .cmd (cmdWord 0x4#4 (n.setWidth 32) 0 0)
  | .transmit buf len dly => .cmd (cmdWord 0x5#4 buf (len.setWidth 32) dly)
  | .reserved6 => .cmd (cmdWord 0x6#4 0 0 0)
  | .reserved7 => .cmd (cmdWord 0x7#4 0 0 0)
  | .reserved8 => .cmd (cmdWord 0x8#4 0 0 0)
  | .reserved9 => .cmd (cmdWord 0x9#4 0 0 0)
  | .reservedA => .cmd (cmdWord 0xA#4 0 0 0)
  | .reservedB => .cmd (cmdWord 0xB#4 0 0 0)
  | .reservedC => .cmd (cmdWord 0xC#4 0 0 0)
  | .reservedD => .cmd (cmdWord 0xD#4 0 0 0)
  | .reservedE => .cmd (cmdWord 0xE#4 0 0 0)
  | .reservedF => .cmd (cmdWord 0xF#4 0 0 0)
  | .sym0 => .wire .bitbang (bbSymbol c false)
  | .sym1 => .wire .bitbang (bbSymbol c true)
  | .fbSym0 => .wire .fallback (fbSymbol c false)
  | .fbSym1 => .wire .fallback (fbSymbol c true)
  | .pwmSym0 => .wire .pwm (pwmSymbol c false)
  | .pwmSym1 => .wire .pwm (pwmSymbol c true)
  | .pwmTerm => .wire .pwm (pwmTermSymbol c)
  | .dutyZero cmp => .duty (dutyWord 1#1 cmp)
  | .dutyOne cmp => .duty (dutyWord 1#1 cmp)
  | .dutyTerm => .duty (dutyWord 1#1 0)
  | .dutyReserved cmp => .duty (dutyWord 0#1 cmp)
  | .typeWs2811 => .chip 0#3
  | .typeWs2812 => .chip 1#3
  | .typeWs2813 => .chip 2#3
  | .typeSk6812rgbw => .chip 3#3
  | .typeTm1803 => .chip 4#3
  | .typeTm1829 => .chip 5#3
  | .typeReserved6 => .chip 6#3
  | .typeReserved7 => .chip 7#3
  | .orderRgb => .order 0#2
  | .orderGrb => .order 1#2
  | .orderRbg => .order 2#2
  | .orderRgbw => .order 3#2

/-- The opcode table's words. More than 16 bits: a command word of 100 bits. 16 bits: a duty entry, read with the constants
of the reference configuration that State.reset carries. 3 or 8 bits: a type tag. 2 bits: an order code, which the table's
width in whole bytes cannot tell from a type tag (log 16). -/
def encodedTableWord (nbits w : Nat) : Option Encoded :=
  if 16 < nbits then (if w < 2 ^ 100 then some (.cmd (BitVec.ofNat 100 w)) else none)
  else if 8 < nbits then (if w < 2 ^ 16 then some (.duty (BitVec.ofNat 16 w)) else none)
  else if nbits = 2 then (if w < 4 then some (.order (BitVec.ofNat 2 w)) else none)
  else (if w < 8 then some (.chip (BitVec.ofNat 3 w)) else none)

/-- The instruction the decoder reads from a word of the opcode table. -/
def decodeTableWord (nbits w : Nat) : Option Instr :=
  match encodedTableWord nbits w with
  | some e => decode (Config.ref .pwmdma) e
  | none => none

end Sys2Proof
end

