-- ==== Sys2Proof/Machine/State.lean ====
section
/-! DEFINITION. State.lean: the state of the platform and of its instances as plain data (10_state.md), why a step can
stop, and the state after reset (R47). -/

namespace Sys2Proof.Machine

/-- FSM (R31). -/
inductive Fsm where
  | idle
  | waitActive
  | waitLatch
  | bbHigh
  | bbLow
  | encoding
  | playing
  | completion
  | fbHigh
  | fbLow
  | fbCheck
  | fbBackoff
  deriving DecidableEq, Repr

/-- The command in progress, "cmd" of R300, with the operand its later action needs. -/
inductive Pending where
  | none
  | endPin
  | updateLength (n : Count)
  | transmit
  deriving DecidableEq, Repr

/-- GPIO_DIR of one pin (R41). -/
inductive Dir where
  | input
  | output
  deriving DecidableEq, Repr

/-- The level of a line: driven high, driven low, not driven (R18). -/
inductive Level where
  | h
  | l
  | z
  deriving DecidableEq, Repr

/-- GPIO_DIR[p] and GPIO_OUT[p] (R41). -/
structure PinState where
  dir : Dir
  out : Bool
  deriving DecidableEq, Repr

/-- The registers of a PWM unit (R39) and the hidden state of a playing one: the entry index j, the entry already fetched
(R46 (a)), T_s and the cycle in which the interval of entry j begins (R194, R195). -/
structure PwmUnit where
  enable : Bool
  prescaler : BitVec 16
  top : BitVec 15
  playcnt : BitVec 8
  seqPtr : BitVec 20
  seqCnt : BitVec 20
  pselConnected : Bool
  pselPin : Pin
  run : Bool
  pos : Nat
  fetched : Option Entry
  start : Nat
  due : Nat
  deriving DecidableEq, Repr

/-- The pixel-buffer space: the bytes the host has written, addresses strictly rising (R60, R62). -/
abbrev Memory := List Host.Cell

/-- The duty RAM: the entries written since it was allocated, indexes strictly rising (R60, R64). -/
abbrev DutyRam := List (Nat × Entry)

/-- One instance: its constants and its registers (R21 to R38). doneAt is the cycle of its last `done` pulse, of which the
signal is a view (`State.done`, log 3). The last six fields are the model's own: maskSince and unmaskedAt, the cycles in which
the masked window last opened and closed (logs 21, 31); dutyGen, how often the contents of the duty RAM have become unspecified
(log 8); encEnd, the cycle in which a begun ENCODING ends (log 9); stuck, a phase that no cycle ends (log 25); waitStart, the
cycle in which the last latch wait or backoff began (log 23). -/
structure Inst where
  id : Nat
  cfg : Config
  pin : Pin
  endTime : Time32
  buf : Addr
  len : Count
  dly : Time32
  cur : Byte
  cycStart : Time32
  bitStart : Time32
  retries : Nat
  unit : Option Nat
  fsm : Fsm
  byteIx : Count
  bitIx : Fin 8
  active : Bool
  irqMask : Bool
  begun : Bool
  dutyCap : BitVec 20
  evt : BitVec 8
  duty : DutyRam
  cmd : Pending
  doneAt : Option Nat
  backoffStart : Time32
  maskSince : Nat
  unmaskedAt : Option Nat
  dutyGen : Nat
  encEnd : Option Nat
  stuck : Bool
  waitStart : Nat
  deriving DecidableEq, Repr

/-- What the host does next (R90, R93, R110 to R112, R306); a command is held until it is accepted. -/
inductive HostMove where
  /-- A command word on the command port (R90). -/
  | cmd (w : CmdWord)
  /-- The pseudo-command WAIT n (R111). -/
  | wait (n : Nat)
  /-- The host writes a byte of its memory between commands (R77). -/
  | write (a : Addr) (b : Byte)
  /-- The host turns to another instance's port (R306). -/
  | select (id : Nat)
  /-- The platform is built anew with this TYPE (R112, R320). -/
  | chip (w : BitVec 3)
  /-- The platform is built anew with this channel order in the descriptor (R246, R320). -/
  | order (w : BitVec 2)
  deriving DecidableEq, Repr

/-- What other users of the platform do (R305, R285). -/
inductive EnvMove where
  /-- ENABLE and PSEL of a unit no instance has claimed. -/
  | unit (u : Nat) (enable connected : Bool) (pin : Pin)
  /-- The sequence-end event of a unit used by something other than an instance (R289). -/
  | seqend (u : Nat)
  /-- GPIO_DIR and GPIO_OUT of a pin. -/
  | gpio (p : Nat) (dir : Dir) (out : Bool)
  deriving DecidableEq, Repr

/-- A segment of the waveform of a line (R18): from cycle start, cycles long. -/
structure Seg where
  pin : Pin
  start : Nat
  level : Level
  cycles : Nat
  deriving DecidableEq, Repr

/-- A masked window [start, stop) of an instance: IRQ_MASK = 1 (R18, R34). -/
structure MaskWindow where
  id : Nat
  start : Nat
  stop : Nat
  deriving DecidableEq, Repr

/-- A `done` pulse of an instance (R18, R93). -/
structure DonePulse where
  id : Nat
  cycle : Nat
  deriving DecidableEq, Repr

/-- The observables recorded since the last reset (R18): the waveform, the closed masked windows, the done pulses. -/
structure Obs where
  wave : List Seg
  masks : List MaskWindow
  dones : List DonePulse
  deriving DecidableEq, Repr

/-- Cycles in which a request is high (R290, U18), periodic from cycle `start` on: those c with (c - start + phase) mod period
below len. With period = 0 nothing repeats: one stretch of len - phase cycles from start on (log 4). -/
structure Window where
  start : Nat
  len : Nat
  period : Nat
  phase : Nat
  deriving DecidableEq, Repr

/-- The one stretch [a, b). -/
def Window.once (a b : Nat) : Window := { start := a, len := b - a, period := 0, phase := 0 }

/-- The state: the running instance, the parked ones, what they share, the inputs still to come, the observations. -/
structure State where
  plat : Platform
  t : Nat
  inst : Inst
  peers : List Inst
  mem : Memory
  gpio : List PinState
  pwm : List PwmUnit
  registry : List (Option Nat)
  pend : List Bool
  host : List HostMove
  env : List (Nat × EnvMove)
  irq : List Window
  nmi : List Window
  rst : List Nat
  encDraws : List Nat
  drawCtr : Nat
  obs : Obs
  past : List Obs
  deriving DecidableEq, Repr

/-- Why a step stops with a fault. No run from a reset state reaches one (R65, R189; log 26). -/
inductive Fault where
  /-- The expander would write at or above DUTY_CAP (R65). Raised by ENCODING; safe. -/
  | dutyOutOfRange
  /-- An action on the claimed PWM unit while UNIT is NONE or no unit has that number (R28). Raised by ENCODING,
  COMPLETION and the instructions a unit executes; safe. -/
  | noUnit
  /-- A pixel byte at or above 2^32 (R62). Raised by the engines' byte reads; safe. -/
  | addressBeyondTop
  deriving DecidableEq, Repr

/-- Why a step is refused. -/
inductive Refusal where
  /-- An instruction that has no meaning yet. Raised by exec's arm; safe. -/
  | notModelled (mnemonic : String)
  /-- BUF + LEN - 1 beyond 2^32 - 1 (R62, U7: "a model refuses the command"). Raised by TRANSMIT; safe. -/
  | bufferWraps
  /-- A duty entry with P = 0 (R105: "a model refuses a playback that reads an entry with bit 15 = 0"). Raised by
  DUTY_RESERVED; safe. -/
  | reservedDutyEntry
  /-- A type tag with no descriptor (R107). Raised by TYPE_RESERVED_6 and TYPE_RESERVED_7; safe. -/
  | reservedTypeTag
  /-- A configuration an instance cannot be built from (R10, R107, R186, U6). Raised by the type tags and order codes; safe. -/
  | illFormedConfig
  /-- A sequence end from outside on a unit an instance has claimed (U20: refuse). Raised by an environment move; safe. -/
  | foreignSeqend
  /-- The host turned to the port of an instance that does not exist (R306). Raised by a host move; safe. -/
  | noSuchInstance
  deriving DecidableEq, Repr

/-- A PWM unit after reset: disabled, disconnected, stopped (R47); the unspecified fields are 0 (log 6). -/
def PwmUnit.reset : PwmUnit :=
  { enable := false, prescaler := 0, top := 0, playcnt := 0, seqPtr := 0, seqCnt := 0, pselConnected := false,
    pselPin := 0, run := false, pos := 0, fetched := none, start := 0, due := 0 }

/-- A pin after reset (R41, R47). -/
def PinState.reset : PinState := { dir := .input, out := false }

/-- An instance after reset, with its constants as built (R47, R320); the unspecified registers are 0 (log 6). -/
def Inst.reset (id : Nat) (cfg : Config) : Inst :=
  { id := id, cfg := cfg, pin := 0, endTime := 0, buf := 0, len := 0, dly := 0, cur := 0, cycStart := 0, bitStart := 0,
    retries := 0, unit := none, fsm := .idle, byteIx := 0, bitIx := 7, active := false, irqMask := false,
    begun := false, dutyCap := 0, evt := 0, duty := [], cmd := .none, doneAt := none, backoffStart := 0,
    maskSince := 0, unmaskedAt := none, dutyGen := 0, encEnd := none, stuck := false, waitStart := 0 }

/-- No observation yet. -/
def Obs.empty : Obs := { wave := [], masks := [], dones := [] }

/-- The platform after reset with one instance of configuration cfg, no host memory written, no input to come (R47). -/
def State.resetWith (plat : Platform) (cfg : Config) : State :=
  { plat := plat, t := 0, inst := Inst.reset 0 cfg, peers := [], mem := [],
    gpio := List.replicate plat.nPins PinState.reset, pwm := List.replicate plat.nPwm PwmUnit.reset,
    registry := List.replicate plat.nPwm none, pend := List.replicate plat.nPwm false,
    host := [], env := [], irq := [], nmi := [], rst := [], encDraws := [], drawCtr := 0,
    obs := Obs.empty, past := [] }

/-- The machine right after reset (R47) in the reference configuration with STRATEGY = PWMDMA (R14, log 10). -/
def State.reset : State := State.resetWith Platform.ref (Config.ref .pwmdma)

end Sys2Proof.Machine
end

