-- ==== Sys2Proof/Machine/Flags.lean ====
section
/-! DEFINITION. Flags.lean: every flag of the block: the EVT bits (R38, R281), ACTIVE, IRQ_MASK, BEGUN, `done`, the tests that
the rules make on counters (R113 (d), (e)). -/

namespace Sys2Proof.Machine

/-- The events (R281). -/
inductive Event where
  | allocFail
  | noPwm
  | fallback
  | resend
  | noopTx
  | badCmd
  | badPin
  | retryExhausted
  deriving DecidableEq, Repr

/-- An event's code, its bit number in EVT (R38, R281). -/
def Event.code : Event → Nat
  | .allocFail => 0
  | .noPwm => 1
  | .fallback => 2
  | .resend => 3
  | .noopTx => 4
  | .badCmd => 5
  | .badPin => 6
  | .retryExhausted => 7

/-- EVT with an event's bit set; the bits are sticky (R38). -/
def setEvt (evt : BitVec 8) (e : Event) : BitVec 8 := evt ||| (1#8 <<< e.code)

/-- Whether EVT records an event (R38). -/
def hasEvt (evt : BitVec 8) (e : Event) : Bool := evt.getLsbD e.code

/-- ACTIVE of the running instance (R33). -/
def State.setActive (s : State) (b : Bool) : State := { s with inst := { s.inst with active := b } }

/-- BEGUN of the running instance (R35). -/
def State.setBegun (s : State) (b : Bool) : State := { s with inst := { s.inst with begun := b } }

/-- FSM of the running instance: this block's `pc <- target` (R16, R31). -/
def State.setFsm (s : State) (f : Fsm) : State := { s with inst := { s.inst with fsm := f } }

/-- Whether maskable preemption is masked: some instance on the host CPU has IRQ_MASK = 1 (R34, R288). -/
def State.masked (s : State) : Bool := s.inst.irqMask || s.peers.any (·.irqMask)

/-- `done` of the running instance: 1 in the cycle in which its command completes, and in no other (R93, log 3). -/
def State.done (s : State) : Bool := decide (s.inst.doneAt = some s.t)

/-- `cmd_ready`: FSM = IDLE, but not in the completing cycle (R91, R93, R298). -/
def State.cmdReady (s : State) : Bool := decide (s.inst.fsm = .idle) && !s.done

/-- The running instance yields the host CPU: it is IDLE or PLAYING; no other state is a suspension point (R197, R198, R306). -/
def State.yields (s : State) : Bool := decide (s.inst.fsm = .idle) || decide (s.inst.fsm = .playing)

/-- The wait in PLAYING is over: the handler has cleared ACTIVE (R197). -/
def Inst.waitOver (i : Inst) : Bool := decide (i.fsm = .playing) && !i.active

/-- CYC = T mod 2^32 (R42). -/
def cycAt (t : Nat) : Time32 := BitVec.ofNat 32 t

/-- US = floor(T / M) mod 2^32 (R43). -/
def usAt (m t : Nat) : Time32 := BitVec.ofNat 32 (t / m)

/-- CYC now (R42). -/
def State.cyc (s : State) : Time32 := cycAt s.t

/-- US now (R43). -/
def State.us (s : State) : Time32 := usAt s.plat.m s.t

/-- A counter has advanced by at least n since a snapshot: (now - since) mod 2^32 >= n, unsigned (R113 (d), R131, R223). -/
def elapsed (now since : Time32) (n : Nat) : Bool := decide (n ≤ (now - since).toNat)

/-- ELAPSED = (CYC - CYC_START) mod 2^32 (R220). -/
def State.elapsedCycles (s : State) : Nat := (s.cyc - s.inst.cycStart).toNat

/-- EXPECTED = 8 LEN FB_PERIOD (R220, R226). -/
def Inst.expectedCycles (i : Inst) : Nat := 8 * i.len.toNat * i.cfg.cp.fbPeriod

/-- The self-check fails: 4 ELAPSED > 5 EXPECTED, exact (R226). -/
def State.checkFails (s : State) : Bool := decide (5 * s.inst.expectedCycles < 4 * s.elapsedCycles)

/-- No resend is left: RETRY_LIMIT is finite and RETRIES has reached it (R220, R229). -/
def Inst.retriesSpent (i : Inst) : Bool := decide (i.cfg.retryLimit = some i.retries)

/-- The latch timer as an FSM of its own (R140). -/
inductive LatchView where
  | armed (since : Time32)
  | holding (since dly : Time32)
  | released
  deriving DecidableEq, Repr

/-- The latch timer of an instance: HOLDING while a TRANSMIT waits, RELEASED while its frame is emitted, else ARMED (R140). -/
def Inst.latchView (i : Inst) : LatchView :=
  match i.fsm with
  | .idle => .armed i.endTime
  | .waitActive => .armed i.endTime
  | .waitLatch => .holding i.endTime i.dly
  | .bbHigh => .released
  | .bbLow => .released
  | .encoding => .released
  | .playing => .released
  | .completion => .released
  | .fbHigh => .released
  | .fbLow => .released
  | .fbCheck => .released
  | .fbBackoff => .released

end Sys2Proof.Machine
end

