-- ==== Sys2Proof/Machine/Operands.lean ====
section
/-! DEFINITION. Operands.lean: every operand form: sparse memories by address or index (R62, R65), the quantities derived
from operands (R95, R113 (a) to (c)), the bit at a position, pins, units, instances. -/

namespace Sys2Proof.Machine

/-! ## Sparse memories: keys strictly rising -/

/-- The value listed at a key. -/
def Sparse.read {α : Type} (k : Nat) : List (Nat × α) → Option α
  | [] => none
  | (j, v) :: r => if j = k then some v else Sparse.read k r

/-- The list with a value at a key, in its place. -/
def Sparse.write {α : Type} (k : Nat) (v : α) : List (Nat × α) → List (Nat × α)
  | [] => [(k, v)]
  | (j, w) :: r =>
    if k < j then (k, v) :: (j, w) :: r
    else if j = k then (k, v) :: r
    else (j, w) :: Sparse.write k v r

/-- Keys strictly rising, all above a bound. -/
def Sparse.wfAbove {α : Type} : Option Nat → List (Nat × α) → Bool
  | _, [] => true
  | none, (j, _) :: r => Sparse.wfAbove (some j) r
  | some b, (j, _) :: r => decide (b < j) && Sparse.wfAbove (some j) r

/-- The canonical form: keys strictly rising. -/
def Sparse.wf {α : Type} (m : List (Nat × α)) : Bool := Sparse.wfAbove none m

/-- The canonical form of the pixel-buffer memory: addresses strictly rising and below 2^32 (R62). An unlisted address
reads as no byte: the model has seen no write to it (log 7). -/
def Memory.wf (m : Memory) : Bool := Sparse.wf m && m.all (fun c => decide (c.1 < 2 ^ 32))

/-- The byte listed at an address. -/
def Memory.read (m : Memory) (a : Nat) : Option Byte := Sparse.read a m

/-- The host writes a byte (R77). -/
def Memory.write (m : Memory) (a : Addr) (b : Byte) : Memory := Sparse.write a.toNat b m

/-- `MemRead(addr, 1)` (R62): the byte the host wrote there, or, where the model has seen no write, the free value of the
host's memory (log 7). -/
def State.memRead (s : State) (a : Nat) : Byte :=
  match Memory.read s.mem a with
  | some b => b
  | none => Config.hostByte a

/-- The contents of the duty RAM are unspecified from here on: no entry of it is written (R64, U11, log 8). -/
def Inst.freshDuty (i : Inst) : Inst := { i with duty := [], dutyGen := i.dutyGen + 1 }

/-! ## Derived quantities (R95) -/

/-- SEQ = 8 LEN + TERM_N, the length of the duty sequence (R95). -/
def Inst.seqLen (i : Inst) : Nat := 8 * i.len.toNat + i.cfg.termN

/-- NEED = 8 n + TERM_N, the entries UPDATE_LENGTH n needs (R95). -/
def Inst.need (i : Inst) (n : Count) : Nat := 8 * n.toNat + i.cfg.termN

/-- The bytes NEED entries take, 2 NEED (R95). -/
def Inst.needBytes (i : Inst) (n : Count) : Nat := 2 * i.need n

/-- A duty entry seen as two bytes, the low byte at the lower address (R71). -/
def entryBytes (e : Entry) : List Byte := [e.extractLsb' 0 8, e.extractLsb' 8 8]

/-- `CUR[k]` (R95). -/
def bitOf (b : Byte) (k : Fin 8) : Bool := b.getLsbD k.val

/-- The bit at the current position (R95). -/
def Inst.curBit (i : Inst) : Bool := bitOf i.cur i.bitIx

/-- The address of the current byte, an unbounded natural (R62, R113 (a)). -/
def Inst.byteAddr (i : Inst) : Nat := i.buf.toNat + i.byteIx.toNat

/-- Whether BUF + LEN - 1 is beyond the address space (R62, U7). -/
def bufferWraps (buf : Addr) (len : Count) : Bool := decide (2 ^ 32 < buf.toNat + len.toNat)

/-- The position is the last bit of the last byte (R30). -/
def Inst.lastBit (i : Inst) : Bool := decide (i.bitIx = 0) && decide (i.len.toNat ≤ i.byteIx.toNat + 1)

/-- The next position: bit 7 of the next byte after bit 0, else the next lower bit (R30). -/
def Inst.nextPos (i : Inst) : Inst :=
  if i.bitIx = 0 then { i with byteIx := i.byteIx + 1, bitIx := 7 } else { i with bitIx := i.bitIx - 1 }

/-! ## Pins, units, instances -/

/-- A pin descriptor that the pin map resolves (R68). -/
def State.pinResolves (s : State) (p : Pin) : Bool := decide (p.toNat < s.plat.nPins)

/-- GPIO_DIR and GPIO_OUT of a pin (R41). -/
def State.pinState (s : State) (p : Nat) : PinState := s.gpio.getD p PinState.reset

/-- PWM unit u. -/
def State.pwmAt (s : State) (u : Nat) : Option PwmUnit := s.pwm[u]?

/-- REGISTRY[u] (R40). -/
def State.registryAt (s : State) (u : Nat) : Option Nat := s.registry.getD u none

/-- PEND[u] (R287). -/
def State.pendAt (s : State) (u : Nat) : Bool := s.pend.getD u false

/-- FREE(u): not enabled and not connected (R190). -/
def PwmUnit.free (u : PwmUnit) : Bool := !u.enable && !u.pselConnected

/-- The scan: the lowest u with FREE(u) (R190). -/
def State.scan (s : State) : Option Nat := s.pwm.findIdx? PwmUnit.free

/-- W, the cycles of one entry: TOP x PRESCALER (R195). -/
def PwmUnit.period (u : PwmUnit) : Nat := u.top.toNat * u.prescaler.toNat

/-- The instance of an identifier, running or parked (R286). -/
def State.instOf (s : State) (id : Nat) : Option Inst :=
  if s.inst.id = id then some s.inst else s.peers.find? (fun i => decide (i.id = id))

/-- Some instance has claimed unit u (R28, R305). -/
def State.claimed (s : State) (u : Nat) : Bool :=
  decide (s.inst.unit = some u) || s.peers.any (fun i => decide (i.unit = some u))

/-- The instance a unit plays for: the one REGISTRY names (R286). -/
def State.owner (s : State) (u : Nat) : Option Inst :=
  match s.registryAt u with
  | none => none
  | some id => s.instOf id

end Sys2Proof.Machine
end

