-- ==== Sys2Proof/Machine/Lines.lean ====
section
/-! DEFINITION. Lines.lean: the duty RAM as a unit's DMA reads it, the units that play, the level of a line, and the segments of
the waveform a pass of time and a playing unit leave on it (R18, R41, R195). -/

namespace Sys2Proof.Machine

/-! ## The duty RAM and the units that play -/

/-- DUTY[k] of instance i: the entry written there, or, where none has been since its contents became unspecified, a free value
(R64, R65, U11, log 8). -/
def State.dutyEntry (s : State) (i : Inst) (k : Nat) : Entry :=
  match Sparse.read k i.duty with
  | some e => e
  | none => Config.freeDutyEntry s.past.length i.id i.dutyGen k

/-- `DutyRead` by the DMA of a unit at entry j of the sequence it plays for instance i (R65, R195). -/
def State.dmaRead (s : State) (i : Inst) (w : PwmUnit) (j : Nat) : Entry := s.dutyEntry i (w.seqPtr.toNat + j)

/-- Unit u plays for an instance and its event has not been raised (R194, R196). -/
def State.playing (s : State) (u : Nat) (w : PwmUnit) : Bool := w.run && (s.owner u).isSome

/-- The units that play, with their numbers. -/
def State.players (s : State) : List (Nat × PwmUnit) :=
  (s.pwm.zipIdx.map (fun p => (p.2, p.1))).filter (fun p => s.playing p.1 p.2)

/-! ## The level of a line -/

/-- The level a running unit drives in cycle t: H for the first CMP x PRESCALER cycles of each entry's interval, L for the
rest and after the last entry (R195, R196). -/
def State.unitLevel (s : State) (u : Nat) (w : PwmUnit) (t : Nat) : Level :=
  match s.owner u with
  | none => .l
  | some i =>
    if (t - w.start) / w.period < w.seqCnt.toNat then
      if (t - w.start) % w.period < (cmpOf (s.dmaRead i w ((t - w.start) / w.period))).toNat * w.prescaler.toNat then .h
      else .l
    else .l

/-- A unit drives the pin it is connected to, PSEL = {1, p}, and the GPIO state is ignored there (R41, R195, D27). -/
def PwmUnit.drives (u : PwmUnit) (p : Pin) : Bool := u.pselConnected && decide (u.pselPin = p)

/-- The level GPIO gives a line (R41). -/
def PinState.level (p : PinState) : Level :=
  match p.dir with
  | .input => .z
  | .output => if p.out then .h else .l

/-- The levels the units that drive p give it now; a stopped one drives low (R195, R196). -/
def State.drivers (s : State) (p : Pin) : List Level :=
  (s.pwm.zipIdx.filter (fun q => q.1.drives p)).map (fun q => if q.1.run then s.unitLevel q.2 q.1 s.t else .l)

/-- The level of a pin in a cycle in which its drivers disagree, after `resets` resets: a free value (U10, R268, R339, log 30). -/
def contestedLevel (resets : Nat) (p : Pin) (c : Nat) : Level :=
  match Config.contested resets p.toNat c with
  | none => .z
  | some true => .h
  | some false => .l

/-- The level a line has when its drivers give it these levels: theirs where they agree, else the free one. -/
def settle (free : Level) (a : Level) (r : List Level) : Level := if r.all (fun b => decide (b = a)) then a else free

/-- The level of line p now: the units', where any drives it, else GPIO's (R41, R195); a pin that does not resolve has no
line (R68). -/
def State.lineLevel (s : State) (p : Pin) : Level :=
  if s.pinResolves p then
    match s.drivers p with
    | [] => (s.pinState p.toNat).level
    | a :: r => settle (contestedLevel s.past.length p s.t) a r
  else .z

/-! ## Segments -/

/-- What holds line p at one level while time passes: GPIO where no unit drives it, a stopped unit on it; `none` where only
running units drive it, whose segments they record themselves (logs 31, 32). -/
def State.restLevel (s : State) (p : Pin) : Option Level :=
  if s.pinResolves p then
    if s.pwm.any (fun w => w.drives p) then
      if s.pwm.any (fun w => w.drives p && !w.run) then some .l else none
    else some (s.pinState p.toNat).level
  else some .z

/-- The pins of the parked instances other than the running instance's, each once (R306). -/
def State.parkedPins (s : State) : List Pin := (s.peers.map (·.pin)).dedup.filter (fun p => decide (p ≠ s.inst.pin))

/-- The segment a pin holds over the cycles [t0, t1), if anything holds it. -/
def State.pinSeg (s : State) (t0 t1 : Nat) (p : Pin) : Option Seg :=
  (s.restLevel p).map (fun lv => { pin := p, start := t0, level := lv, cycles := t1 - t0 })

/-- The segments the lines of the parked instances hold over [t0, t1). -/
def State.parkedSegs (s : State) (t0 t1 : Nat) : List Seg := s.parkedPins.filterMap (s.pinSeg t0 t1)

/-- The segments the lines of all instances hold over [t0, t1), the running instance's first (R18). -/
def State.heldSegs (s : State) (t0 t1 : Nat) : List Seg := (s.pinSeg t0 t1 s.inst.pin).toList ++ s.parkedSegs t0 t1

/-- A segment of a played entry, none when it has no cycles. -/
def playSeg (p : Pin) (start : Nat) (lv : Level) (n : Nat) : List Seg :=
  if n = 0 then [] else [{ pin := p, start := start, level := lv, cycles := n }]

/-- The segments of one entry's interval: high for CMP x PRESCALER cycles, low for the rest of W (R195). A pin that does not
resolve has no line (R202 (h)). -/
def State.playSegs (s : State) (w : PwmUnit) (cmp : BitVec 15) : List Seg :=
  if w.pselConnected && s.pinResolves w.pselPin then
    playSeg w.pselPin w.due .h (min (cmp.toNat * w.prescaler.toNat) w.period) ++
    playSeg w.pselPin (w.due + min (cmp.toNat * w.prescaler.toNat) w.period) .l
      (w.period - min (cmp.toNat * w.prescaler.toNat) w.period)
  else []

/-- The low a unit shows from the end of its sequence, cycle w.due, to cycle c (R196). -/
def State.tailSegs (s : State) (w : PwmUnit) (c : Nat) : List Seg :=
  if w.pselConnected && s.pinResolves w.pselPin then playSeg w.pselPin w.due .l (c - w.due) else []

/-- The entry a unit plays k intervals from now: the one already fetched (R46 (a)), else one its DMA reads. -/
def State.entryAhead (s : State) (i : Inst) (w : PwmUnit) (k : Nat) : Entry :=
  match k, w.fetched with
  | 0, some e => e
  | k, _ => s.dmaRead i w (w.pos + k)

/-- What a playing unit plays before cycle r and has not recorded yet: the rest of its intervals, then its low tail (R195, R321). -/
def State.owedSegs (s : State) (r : Nat) (u : Nat) (w : PwmUnit) : List Seg :=
  match s.owner u with
  | none => []
  | some i =>
    (List.range (w.seqCnt.toNat - w.pos)).flatMap (fun k =>
      s.playSegs { w with due := w.due + k * w.period } (cmpOf (s.entryAhead i w k))) ++
    s.tailSegs { w with due := w.due + (w.seqCnt.toNat - w.pos) * w.period } r

end Sys2Proof.Machine
end

