-- ==== Sys2Proof/Machine/Clock.lean ====
section
/-! DEFINITION. Clock.lean: the stall set and the timed primitives (R17, R291): `hold_counted`, `hold_until`,
`wait_until`, and time passing. A hold or a wait that no cycle ends has none (R336, U2, log 25). -/

namespace Sys2Proof.Machine

/-! ## Requests -/

/-- A request is high in cycle t (R290). -/
def inWindow (t : Nat) (w : Window) : Bool :=
  decide (w.start ≤ t) && decide ((t - w.start + w.phase) % w.period < w.len)

/-- One of the requests is high in cycle t. -/
def inWindows (ws : List Window) (t : Nat) : Bool := ws.any (inWindow t)

/-- The end of the stretch of w that holds cycle t. -/
def Window.stop (w : Window) (t : Nat) : Nat := t + (w.len - (t - w.start + w.phase) % w.period)

/-- The end of a stretch that holds cycle t, or t where none does. -/
def clear (ws : List Window) (t : Nat) : Nat :=
  match ws.find? (inWindow t) with
  | none => t
  | some w => w.stop t

/-- The requests that stall the sequencer: nmi_req, and while IRQ_MASK = 0 irq_req too (R291). -/
def State.blockers (s : State) : List Window := if s.masked then s.nmi else s.nmi ++ s.irq

/-- A cycle from which on every request only repeats. -/
def horizon (ws : List Window) : Nat := (ws.map (fun w => w.start + w.len)).sum

/-- A number of cycles after which every repeating request repeats. -/
def round (ws : List Window) : Nat := (ws.map (fun w => max 1 w.period)).prod

/-! ## Searching the first unstalled cycle -/

/-- The first cycle from t on in which a condition holds and no request is high, looked for over n hops: `due` gives the first
cycle from t on in which the condition holds, so it holds at t exactly when `due t = t`. -/
def search (ws : List Window) (due : Nat → Nat) : Nat → Nat → Option Nat
  | 0, _ => none
  | n + 1, t =>
    if due t = t then if inWindows ws t then search ws due n (clear ws t) else some t
    else search ws due n (due t)

/-- The smallest unstalled T' >= t at which a condition that repeats after `span` cycles holds; none if there is none: a
cycle found at all is found before the condition and all requests have repeated once (R17, R296, log 23). -/
def waitUntil (ws : List Window) (due : Nat → Nat) (span t : Nat) : Option Nat :=
  search ws due (horizon ws - t + round ws * span + 1) t

/-- The smallest T' >= t that is not stalled (R17). -/
def nextFree (ws : List Window) (t : Nat) : Option Nat := waitUntil ws id 1 t

/-- `hold_counted(n)`: the smallest T' such that [t, T') holds exactly n unstalled cycles (R17). -/
def holdCounted (ws : List Window) : Nat → Nat → Option Nat
  | 0, t => some t
  | n + 1, t => (nextFree ws t).bind (fun c => holdCounted ws n (c + 1))

/-- The first unstalled cycle after n unstalled ones: where the action after a counted hold takes effect (R17). -/
def afterCounted (ws : List Window) (n t : Nat) : Option Nat := (holdCounted ws n t).bind (nextFree ws)

/-- The smallest T' >= t with (CYC - t0) mod 2^32 >= n, for n < 2^32 (R17, R223). -/
def dueCyc (t0 : Time32) (n t : Nat) : Nat :=
  if elapsed (cycAt t) t0 n then t else t + (n - (cycAt t - t0).toNat)

/-- The smallest T' >= t with (US - since) mod 2^32 >= d, for d < 2^32: the first cycle of a microsecond (R131). -/
def dueUs (m : Nat) (since : Time32) (d t : Nat) : Nat :=
  if elapsed (usAt m t) since d then t else (t / m + (d - (usAt m t - since).toNat)) * m

/-- `hold_until` on CYC: the first unstalled cycle from t on with CYC at least n past t0 (R17, R223, R296). -/
def untilCyc (ws : List Window) (t0 : Time32) (n t : Nat) : Option Nat := waitUntil ws (dueCyc t0 n) (2 ^ 32) t

/-! ## Time passing -/

/-- Time passes to cycle t': every line of an instance keeps its level and is recorded (R18, R291, log 31). -/
def State.passTo (s : State) (t' : Nat) : State :=
  if t' ≤ s.t then s else { s with t := t', obs := { s.obs with wave := s.obs.wave ++ s.heldSegs s.t t' } }

/-- The sequencer is stalled in this cycle; a request for a maskable interrupt counts from the cycle after the mask closed
(R291, R293, log 21). -/
def State.stalled (s : State) : Bool :=
  inWindows s.nmi s.t || (inWindows s.irq s.t && !s.masked && !decide (s.inst.unmaskedAt = some s.t))

/-- The cycle in which a phase of n cycles begun now ends and the next action executes (R17, R154): n unstalled cycles
(COUNTED, R155), or CYC reaching BIT_START + n (CYCCMP, R156). -/
def State.phaseEnd (s : State) (n : Nat) : Option Nat :=
  match s.inst.cfg.holdKind with
  | .counted => afterCounted s.blockers n s.t
  | .cyccmp => untilCyc s.blockers s.inst.bitStart n s.t

/-- `hold_until(BIT_START, n)` of the fallback engine, whatever HOLD_KIND is (R223). -/
def State.compareEnd (s : State) (n : Nat) : Option Nat := untilCyc s.blockers s.inst.bitStart n s.t

/-! ## `wait_until`: it is over once its condition has held since it began, stalled or not, and the next action comes in the first
unstalled cycle from there on (R17, R132 (d), log 23) -/

/-- The first cycle of the latch wait with (US - END_TIME) mod 2^32 >= DLY (R131). -/
def State.latchDue (s : State) : Nat := dueUs s.plat.m s.inst.endTime s.inst.dly.toNat s.inst.waitStart

/-- The latch wait is over (R131). -/
def State.latchOpen (s : State) : Bool := decide (s.latchDue ≤ s.t)

/-- The cycle in which the latch wait ends (R131, R132). -/
def State.latchEnd (s : State) : Option Nat := nextFree s.blockers (max s.t s.latchDue)

/-- The first cycle of the backoff with (US - t_b) mod 2^32 >= BACKOFF_US (R220, R228). -/
def State.backoffDue (s : State) : Nat := dueUs s.plat.m s.inst.backoffStart s.inst.cfg.backoffUs s.inst.waitStart

/-- The backoff is over (R228). -/
def State.backoffOver (s : State) : Bool := decide (s.backoffDue ≤ s.t)

/-- The cycle in which the backoff ends (R228). -/
def State.backoffEnd (s : State) : Option Nat := nextFree s.blockers (max s.t s.backoffDue)

/-! ## Phases -/

/-- A phase that no cycle ends: the engine is stuck in it and from now on time only passes (R336, U2, log 25). -/
def State.stick (s : State) : State :=
  { s.passTo (s.t + 1) with inst := { (s.passTo (s.t + 1)).inst with stuck := true } }

/-- The line keeps its level to the end of a phase, and the engine goes on with k. -/
def State.holdThen (s : State) (stop : Option Nat) (k : State → State) : State :=
  match stop with
  | some c => k (s.passTo c)
  | none => s.stick

end Sys2Proof.Machine
end

