-- ==== Sys2Proof/Machine/Ops.lean ====
section
/-! DEFINITION. Ops.lean: the named operations the meanings are written with: raising an event, opening and closing the
masked window, the SEQEND handler, the GPIO actions, the stamp, completion, instances, reset. -/

namespace Sys2Proof.Machine

/-- The outcome type of a step of this machine. -/
abbrev Result := Host.Outcome State Fault Refusal

/-- Go on from a next state; a fault or a refusal stays. -/
def onNext (o : Result) (f : State → Result) : Result :=
  match o with
  | .next s => f s
  | .fault r => .fault r
  | .refused r => .refused r

/-! ## Events: the one way a command reports a condition (R281); nothing is saved and control goes on (R292, R295) -/

/-- `raise E` by the running instance: the sticky EVT bit is set and nothing else changes (R38, R281). -/
def State.raise (s : State) (e : Event) : State := { s with inst := { s.inst with evt := setEvt s.inst.evt e } }

/-- Opening the masked window: IRQ_MASK <- 1; nothing is saved (R292). -/
def State.openMask (s : State) : State := { s with inst := { s.inst with irqMask := true, maskSince := s.t } }

/-- Closing the masked window: IRQ_MASK <- 0, unconditionally (R293); irq_req can stall from the next cycle (log 21). The
window [opened, now) is recorded (R18). -/
def State.closeMask (s : State) : State :=
  { s with
    inst := { s.inst with irqMask := false, unmaskedAt := some s.t }
    obs := { s.obs with
      masks := s.obs.masks ++ [{ id := s.inst.id, start := s.inst.maskSince, stop := s.t }] } }

/-! ## GPIO actions (R67, R68) -/

/-- A GPIO action on pin p: a pin that does not resolve changes no GPIO state and raises BadPin (R68). -/
def State.gpioAct (s : State) (p : Pin) (f : PinState → PinState) : State :=
  if s.pinResolves p then { s with gpio := s.gpio.set p.toNat (f (s.pinState p.toNat)) } else s.raise .badPin

/-- `set_high(p)` (R67). -/
def State.setHigh (s : State) (p : Pin) : State := s.gpioAct p (fun q => { q with out := true })

/-- `set_low(p)` (R67). -/
def State.setLow (s : State) (p : Pin) : State := s.gpioAct p (fun q => { q with out := false })

/-- `configure_as_output(p)` (R67). -/
def State.configureOutput (s : State) (p : Pin) : State := s.gpioAct p (fun q => { q with dir := .output })

/-- `configure_as_input(p)` (R67). -/
def State.configureInput (s : State) (p : Pin) : State := s.gpioAct p (fun q => { q with dir := .input })

/-! ## Completion and the stamp -/

/-- `stamp()`: END_TIME <- US(T) (R134). -/
def State.stamp (s : State) : State := { s with inst := { s.inst with endTime := s.us } }

/-- `complete`: done pulses in this cycle, FSM <- IDLE (R16, R93). -/
def State.complete (s : State) : State :=
  { s with
    inst := { s.inst with fsm := .idle, cmd := .none, doneAt := some s.t }
    obs := { s.obs with dones := s.obs.dones ++ [{ id := s.inst.id, cycle := s.t }] } }

/-! ## Shared arrays -/

/-- PWM[u] <- w. -/
def State.setPwm (s : State) (u : Nat) (w : PwmUnit) : State := { s with pwm := s.pwm.set u w }

/-- REGISTRY[u] <- r (R40). -/
def State.setRegistry (s : State) (u : Nat) (r : Option Nat) : State := { s with registry := s.registry.set u r }

/-- PEND[u] <- b (R287). -/
def State.setPend (s : State) (u : Nat) (b : Bool) : State := { s with pend := s.pend.set u b }

/-! ## Instances (R306) -/

/-- Clear ACTIVE of the instance with an identifier, running or parked (R288). -/
def State.clearActive (s : State) (id : Nat) : State :=
  if s.inst.id = id then s.setActive false
  else { s with peers := s.peers.map (fun i => if i.id = id then { i with active := false } else i) }

/-- The instance id runs: it changes places with the running one. `none` when no instance has that identifier. -/
def State.focus (s : State) (id : Nat) : Option State :=
  if s.inst.id = id then some s
  else
    match s.peers.find? (fun i => decide (i.id = id)) with
    | none => none
    | some i => some { s with inst := i, peers := s.peers.map (fun j => if j.id = id then s.inst else j) }

/-- A unit acts for instance id: its instructions see that instance's registers and write none of them, for a unit is an agent
of its own (R194, R195). -/
def State.asInst (s : State) (id : Nat) (f : State → Result) : Result :=
  match s.instOf id with
  | none => .fault .noUnit
  | some i => onNext (f { s with inst := i }) fun t => .next { t with inst := s.inst }

/-- A parked instance acts in the running one's place (R306): f sees and writes its registers and what the instances share. -/
def State.asParked (s : State) (i : Inst) (f : State → Result) : Result :=
  onNext (f { s with inst := i }) fun t =>
    .next { t with inst := s.inst, peers := s.peers.map (fun j => if j.id = i.id then t.inst else j) }

/-- The parked instance whose wait in PLAYING is over and that has the host CPU next: the first of them, once the running one
yields (R197, R306, log 18). -/
def State.finisher (s : State) : Option Inst := if s.yields then s.peers.find? Inst.waitOver else none

/-- The parked instance that completes in this cycle, if it is unstalled (R197, R291). -/
def State.finisherDue (s : State) : Option Inst := if s.stalled then none else s.finisher

/-! ## The SEQEND handler (R285 to R289) -/

/-- The handler of unit u: PEND[u] <- 0; with REGISTRY[u] = NONE nothing else; else RUN <- 0 and ACTIVE <- 0 of the instance
the registry names (R288, R289). -/
def State.seqendHandler (s : State) (u : Nat) : State :=
  match (s.setPend u false).registryAt u, s.pwmAt u with
  | some id, some w => ((s.setPend u false).setPwm u { w with run := false }).clearActive id
  | some id, none => (s.setPend u false).clearActive id
  | none, _ => s.setPend u false

/-- The unit whose handler runs now: the lowest pending one, in an unstalled cycle with no IRQ_MASK = 1 (R285, R288). -/
def State.handlerDue (s : State) : Option Nat :=
  if s.stalled || s.masked then none else s.pend.findIdx? id

/-! ## Reset (R47, R320, R321) -/

/-- A request seen from cycle r as time 0. -/
def Window.shift (r : Nat) (w : Window) : Window := { w with start := w.start - r, phase := w.phase + (r - w.start) }

/-- The part of a segment before cycle r, none if it begins at r or later. -/
def Seg.before (r : Nat) (g : Seg) : Option Seg :=
  if g.start < r then some { g with cycles := min g.cycles (r - g.start) } else none

/-- A masked window cut at cycle r. -/
def MaskWindow.before (r : Nat) (w : MaskWindow) : Option MaskWindow :=
  if w.start < r then some { w with stop := min w.stop r } else none

/-- The masked windows with the one still open, if any. -/
def State.masksSoFar (s : State) : List MaskWindow :=
  if s.inst.irqMask then s.obs.masks ++ [{ id := s.inst.id, start := s.inst.maskSince, stop := s.t }] else s.obs.masks

/-- The waveform with what the playing units play before cycle r and no step has recorded (R195, R321). -/
def State.waveSoFar (s : State) (r : Nat) : List Seg :=
  s.obs.wave ++ s.players.flatMap (fun p => s.owedSegs r p.1 p.2)

/-- The observations cut at cycle r (R321). -/
def State.obsBefore (s : State) (r : Nat) : Obs :=
  { wave := (s.waveSoFar r).filterMap (Seg.before r)
    masks := s.masksSoFar.filterMap (MaskWindow.before r)
    dones := s.obs.dones.filter (fun d => decide (d.cycle < r)) }

/-- The next cycle of `rst` still to come (R321). -/
def State.nextRst (s : State) : Option Nat := s.rst.min?

/-- In the cycle of a reset every pin is an input and no unit is connected: the lines of all instances are Z (R321). -/
def State.resetSegs (s : State) (r : Nat) : List Seg :=
  (s.inst.pin :: s.parkedPins).map (fun p => { pin := p, start := r, level := .z, cycles := 1 })

/-- The observations a reset in cycle r ends: those before it, and its own cycle (R321). -/
def State.lastObs (s : State) (r : Nat) : Obs :=
  { s.obsBefore r with wave := (s.obsBefore r).wave ++ s.resetSegs r }

/-- `rst` in cycle r: every instance, GPIO, every PWM unit, REGISTRY, PEND, CYC and US are reset (R47, R321); constants, host
memory and the inputs still to come stay. `rst` wins over every other input of its cycle: no command is accepted in it, and what
other users do in cycle r or before it is overruled. DESIGN CHOICE: the new time 0 is the cycle after r, and the inputs are counted
from there (log 22). -/
def State.restart (s : State) (r : Nat) : State :=
  { plat := s.plat
    t := 0
    inst := Inst.reset s.inst.id s.inst.cfg
    peers := s.peers.map (fun i => Inst.reset i.id i.cfg)
    mem := s.mem
    gpio := List.replicate s.plat.nPins PinState.reset
    pwm := List.replicate s.plat.nPwm PwmUnit.reset
    registry := List.replicate s.plat.nPwm none
    pend := List.replicate s.plat.nPwm false
    host := s.host
    env := (s.env.filter (fun m => decide (r < m.1))).map (fun m => (m.1 - (r + 1), m.2))
    irq := s.irq.map (Window.shift (r + 1))
    nmi := s.nmi.map (Window.shift (r + 1))
    rst := (s.rst.filter (fun c => decide (r < c))).map (fun c => c - (r + 1))
    encDraws := s.encDraws
    drawCtr := s.drawCtr
    obs := Obs.empty
    past := s.past ++ [s.lastObs r] }

end Sys2Proof.Machine
end

