-- ==== Sys2Proof/Machine/Bitbang.lean ====
section
/-! DEFINITION. Bitbang.lean: the bit-bang engine (41_bitbang.md): the two wire symbols and the steps around them. -/

namespace Sys2Proof.Machine

/-- BIT_START <- CYC (R26). -/
def State.snapBit (s : State) : State := { s with inst := { s.inst with bitStart := s.cyc } }

/-- The snapshot a phase of the bit-bang engine begins with, under HOLD_KIND = CYCCMP only (R156). -/
def State.snapPhase (s : State) : State :=
  match s.inst.cfg.holdKind with
  | .counted => s
  | .cyccmp => s.snapBit

/-- The high phase begins: FSM <- BB_HIGH; set_high(PIN) (R150). -/
def State.beginHigh (s : State) : State := ((s.setFsm .bbHigh).setHigh s.inst.pin).snapPhase

/-- The low phase begins: FSM <- BB_LOW; set_low(PIN) (R150). -/
def State.beginLow (s : State) : State := ((s.setFsm .bbLow).setLow s.inst.pin).snapPhase

/-- `hold(n)`: the line keeps its level until the phase ends (R154); then k. -/
def State.hold (s : State) (n : Nat) (k : State → State) : State := s.holdThen (s.phaseEnd n) k

/-- A data bit: set_high(PIN); hold(high); set_low(PIN); hold(low) (R150). DESIGN CHOICE: both phases are one step, so that another
user's move stamped inside either lands after the low phase, also after the set_low that would have overwritten it (log 5). -/
def State.bbSymbol (s : State) (high low : Nat) : State :=
  s.beginHigh.hold high fun m => m.beginLow.hold low fun r => r

/-- SYM0: high for T0H, then low for T0L (R98, R150). -/
def execSym0 (s : State) : Result := .next (s.bbSymbol s.inst.cfg.desc.t0h s.inst.cfg.desc.t0l)

/-- SYM1: high for T1H, then low for T1L (R98, R150). -/
def execSym1 (s : State) : Result := .next (s.bbSymbol s.inst.cfg.desc.t1h s.inst.cfg.desc.t1l)

/-- CUR <- MemRead(BUF + BYTE_IX, 1), at bit 7 of each byte and at no other time (R153, R224). -/
def State.fetchByte (s : State) : Result :=
  if s.inst.bitIx = 7 then
    if s.inst.byteAddr < 2 ^ 32 then .next { s with inst := { s.inst with cur := s.memRead s.inst.byteAddr } }
    else .fault .addressBeyondTop
  else .next s

/-- The walk begins at byte 0, bit 7 (R30). -/
def State.startWalk (s : State) (f : Fsm) : State :=
  { s with inst := { s.inst with fsm := f, byteIx := 0, bitIx := 7 } }

/-- The walk goes on with the next bit (R30, R300). -/
def State.nextBit (s : State) (f : Fsm) : State := { s with inst := { s.inst.nextPos with fsm := f } }

/-- The latch wait is over: the mask opens and the frame begins (R150, R152). -/
def State.startBitbang (s : State) : State := s.openMask.startWalk .bbHigh

/-- The low hold is over: the next bit, or after the last one mask close, stamp, complete, all in this cycle (R150, R157). -/
def State.afterLow (s : State) : State :=
  if s.inst.lastBit then s.closeMask.stamp.complete else s.nextBit .bbHigh

end Sys2Proof.Machine
end

