-- ==== Sys2Proof/Machine/Construct.lean ====
section
/-! DEFINITION. Construct.lean: the type tags and the order codes, read when an instance is built: construction is the reset
of the platform with the instance's constants (R112, R320, R321, log 20). -/

namespace Sys2Proof.Machine

/-- Build the running instance anew with constants c: reset with them, or refused when no instance can be built from them
(R10, R107, R186, R320, U6). -/
def State.build (s : State) (c : Config) : Result :=
  if c.wf s.plat then .next (({ s with inst := { s.inst with cfg := c } }).restart s.t) else .refused .illFormedConfig

/-- Build with TYPE = chip: DESC is then table(chip) (R9, R106). -/
def State.buildType (s : State) (chip : Chip) : Result := s.build { s.inst.cfg with chip := chip }

/-- The constants with the channel order of the instance's descriptor entered (R246). -/
def Config.withOrder (c : Config) (o : Order) : Config :=
  { c with table := c.table.setRow c.chip { c.desc with order := o } }

/-- Build with the channel order of the descriptor entered (R108, R246). -/
def State.buildOrder (s : State) (o : Order) : Result := s.build (Config.withOrder s.inst.cfg o)

/-- TYPE 0 (R106). -/
def execTypeWs2811 (s : State) : Result := s.buildType .ws2811

/-- TYPE 1 (R106). -/
def execTypeWs2812 (s : State) : Result := s.buildType .ws2812

/-- TYPE 2 (R106). -/
def execTypeWs2813 (s : State) : Result := s.buildType .ws2813

/-- TYPE 3 (R106). -/
def execTypeSk6812rgbw (s : State) : Result := s.buildType .sk6812rgbw

/-- TYPE 4 (R106). -/
def execTypeTm1803 (s : State) : Result := s.buildType .tm1803

/-- TYPE 5 (R106). -/
def execTypeTm1829 (s : State) : Result := s.buildType .tm1829

/-- TYPE 6: no descriptor, no instance (R107). -/
def execTypeReserved6 (_s : State) : Result := .refused .reservedTypeTag

/-- TYPE 7: no descriptor, no instance (R107). -/
def execTypeReserved7 (_s : State) : Result := .refused .reservedTypeTag

/-- ORDER 0 (R108). -/
def execOrderRgb (s : State) : Result := s.buildOrder .rgb

/-- ORDER 1 (R108). -/
def execOrderGrb (s : State) : Result := s.buildOrder .grb

/-- ORDER 2 (R108). -/
def execOrderRbg (s : State) : Result := s.buildOrder .rbg

/-- ORDER 3 (R108). -/
def execOrderRgbw (s : State) : Result := s.buildOrder .rgbw

end Sys2Proof.Machine
end

