-- ==== Sys2Proof/Machine/Fallback.lean ====
section
/-! DEFINITION. Fallback.lean: the fallback engine (43_fallback.md): its two wire symbols, the attempt, the 125% check, the
backoff. -/

namespace Sys2Proof.Machine

/-- A bit begins: BIT_START <- CYC; FSM <- FB_HIGH; set_high(PIN) (R220). -/
def State.fbBeginHigh (s : State) : State := (s.snapBit.setFsm .fbHigh).setHigh s.inst.pin

/-- Its low part begins: FSM <- FB_LOW; set_low(PIN) (R220). -/
def State.fbBeginLow (s : State) : State := (s.setFsm .fbLow).setLow s.inst.pin

/-- `hold_until(BIT_START, n)` (R223); then k. -/
def State.holdUntil (s : State) (n : Nat) (k : State → State) : State := s.holdThen (s.compareEnd n) k

/-- A data bit: high until BIT_START + hb, then low until BIT_START + FB_PERIOD, no time when a late set_low has passed it
(R220, R223, R231). DESIGN CHOICE: both parts are one step, as in `State.bbSymbol` (log 5). -/
def State.fbSymbol (s : State) (hb : Nat) : State :=
  s.fbBeginHigh.holdUntil hb fun m => m.fbBeginLow.holdUntil s.inst.cfg.cp.fbPeriod fun r => r

/-- FB_SYM0 (R101, R220). -/
def execFbSym0 (s : State) : Result := .next (s.fbSymbol s.inst.cfg.cp.fbT0H)

/-- FB_SYM1 (R101, R220). -/
def execFbSym1 (s : State) : Result := .next (s.fbSymbol s.inst.cfg.cp.fbT1H)

/-- An attempt begins: mask open, CYC_START <- CYC, byte 0, bit 7 (R220, R222, R225). -/
def State.startAttempt (s : State) : State :=
  ({ s.openMask with inst := { s.openMask.inst with cycStart := s.cyc } }).startWalk .fbHigh

/-- The fallback begins: EVT.FALLBACK, RETRIES <- 0, the first attempt (R220, R221). -/
def State.startFallback (s : State) : State :=
  ({ s.raise .fallback with inst := { (s.raise .fallback).inst with retries := 0 } }).startAttempt

/-- The period of a bit is over: the next bit, or after the last one mask close and FSM <- FB_CHECK (R220, R225). -/
def State.afterPeriod (s : State) : State :=
  if s.inst.lastBit then s.closeMask.setFsm .fbCheck else s.nextBit .fbHigh

/-- The resend: EVT.RESEND, RETRIES + 1, t_b <- US, FSM <- FB_BACKOFF (R228). -/
def State.resend (s : State) : State :=
  { s.raise .resend with
    inst := { (s.raise .resend).inst with
      retries := s.inst.retries + 1, backoffStart := s.us, waitStart := s.t, fsm := .fbBackoff } }

/-- FB_CHECK: pass, stamp and complete (R227); fail with no resend left, RetryExhausted, stamp and complete (R229); fail,
resend (R226, R228). -/
def State.selfCheck (s : State) : State :=
  if s.checkFails then
    if s.inst.retriesSpent then (s.raise .retryExhausted).stamp.complete else s.resend
  else s.stamp.complete

end Sys2Proof.Machine
end

