-- ==== Sys2Proof/Machine/PinControl.lean ====
section
/-! DEFINITION. PinControl.lean: SET_PIN, BEGIN, END (45_pin_control.md). -/

namespace Sys2Proof.Machine

/-- PIN <- p (R22). -/
def State.setPinReg (s : State) (p : Pin) : State := { s with inst := { s.inst with pin := p } }

/-- SET_PIN p: a begun block releases the old pin, takes the new one and claims it, idle low (R260, R261). -/
def execSetPin (p : Pin) (s : State) : Result :=
  if s.inst.begun then
    .next ((((s.configureInput s.inst.pin).setPinReg p).configureOutput p).setLow p).complete
  else .next (s.setPinReg p).complete

/-- BEGIN: the pin becomes an output, low; BEGUN <- 1 (R262). -/
def execBegin (s : State) : Result :=
  .next (((s.configureOutput s.inst.pin).setLow s.inst.pin).setBegun true).complete

/-- What END does once ACTIVE = 0: the pin becomes an input; BEGUN <- 0 (R264). -/
def State.endAction (s : State) : State := ((s.configureInput s.inst.pin).setBegun false).complete

/-- A command that waits for ACTIVE = 0 (R183, R265, R300). -/
def State.waitFor (s : State) (p : Pending) : State :=
  { s with inst := { s.inst with fsm := .waitActive, cmd := p } }

/-- END: FSM <- WAIT_ACTIVE; with ACTIVE = 0 the wait takes no cycle (R264, R265, log 13). -/
def execEnd (s : State) : Result :=
  if s.inst.active then .next (s.waitFor .endPin) else .next s.endAction

end Sys2Proof.Machine
end

