-- ==== Sys2Proof/Machine/Length.lean ====
section
/-! DEFINITION. Length.lean: UPDATE_LENGTH (R181 to R184). -/

namespace Sys2Proof.Machine

/-- DUTY_CAP <- c over a fresh duty buffer, whose contents are unspecified (R64, R181, log 8). -/
def State.allocate (s : State) (c : BitVec 20) : State := { s with inst := { s.inst.freshDuty with dutyCap := c } }

/-- What UPDATE_LENGTH n does once ACTIVE = 0: n = 0 disables the expander, a size that fits allocates, any other fails with
AllocFail (R181, R182, log 28). -/
def State.updateAction (s : State) (n : Count) : State :=
  if n = 0 then (s.allocate 0).complete
  else if s.inst.need n ≤ s.inst.cfg.dutyRamEntries then (s.allocate (BitVec.ofNat 20 (s.inst.need n))).complete
  else ((s.allocate 0).raise .allocFail).complete

/-- UPDATE_LENGTH n: no effect on a BITBANG instance (R184); else FSM <- WAIT_ACTIVE, and with ACTIVE = 0 the wait takes no
cycle (R181, R183, log 13). -/
def execUpdateLength (n : Count) (s : State) : Result :=
  match s.inst.cfg.strategy with
  | .bitbang => .next s.complete
  | .pwmdma => if s.inst.active then .next (s.waitFor (.updateLength n)) else .next (s.updateAction n)

end Sys2Proof.Machine
end

