-- ==== Sys2Proof/Machine/Pwm.lean ====
section
/-! DEFINITION. Pwm.lean: the duty-cycle expander and the playing PWM units (42_pwm_dma.md): the duty entries as the DMA
reads them, the wire symbols as a unit plays them, claim, encoding, configuration, tear-down. -/

namespace Sys2Proof.Machine

/-! ## The unit the running instance has claimed -/

/-- Act on the claimed unit, UNIT (R28). -/
def State.onUnit (s : State) (f : Nat → PwmUnit → Result) : Result :=
  match s.inst.unit with
  | none => .fault .noUnit
  | some u =>
    match s.pwmAt u with
    | none => .fault .noUnit
    | some w => f u w

/-! ## A duty entry as the unit's DMA reads it (R46 (a), R102, R195) -/

/-- The unit holds a fetched entry. -/
def State.fetchEntry (s : State) (e : Entry) : Result :=
  s.onUnit fun u w => .next (s.setPwm u { w with fetched := some e })

/-- DUTY_ZERO (R102, R103). -/
def execDutyZero (cmp : BitVec 15) (s : State) : Result := s.fetchEntry (dutyWord 1#1 cmp)

/-- DUTY_ONE (R102, R103). -/
def execDutyOne (cmp : BitVec 15) (s : State) : Result := s.fetchEntry (dutyWord 1#1 cmp)

/-- DUTY_TERM (R104). -/
def execDutyTerm (s : State) : Result := s.fetchEntry term

/-- DUTY_RESERVED: a playback that reads an entry with P = 0 is refused (R105). -/
def execDutyReserved (_cmp : BitVec 15) (_s : State) : Result := .refused .reservedDutyEntry

/-! ## An entry as the unit plays it (R195, R200) -/

/-- Entry j is played over its interval; the unit goes on to entry j + 1, not yet fetched (R195, R46 (a)). -/
def State.playEntry (s : State) (cmp : BitVec 15) : Result :=
  s.onUnit fun u w =>
    .next
      { s with
        pwm := s.pwm.set u { w with pos := w.pos + 1, fetched := none, due := w.due + w.period }
        obs := { s.obs with wave := s.obs.wave ++ s.playSegs w cmp } }

/-- PWM_SYM0: high for h0, low for W - h0 (R200). -/
def execPwmSym0 (s : State) : Result := s.playEntry (cmpOf s.inst.cfg.cp.duty0)

/-- PWM_SYM1: high for h1, low for W - h1 (R200). -/
def execPwmSym1 (s : State) : Result := s.playEntry (cmpOf s.inst.cfg.cp.duty1)

/-- PWM_TERM: low for W (R200). -/
def execPwmTerm (s : State) : Result := s.playEntry 0

/-- Sequence end: RUN <- 0, the event is pending; the unit shows low from the end of its last interval on, recorded up to this
step (R196, R285). -/
def State.sequenceEnd (s : State) (u : Nat) (w : PwmUnit) : State :=
  ({ s with
    pwm := s.pwm.set u { w with run := false }
    obs := { s.obs with wave := s.obs.wave ++ s.tailSegs w s.t } }).setPend u true

/-! ## The expander (R188 to R194, R199) -/

/-- Claim unit u: UNIT <- u, ENABLE <- 1, one step with the scan (R190, log 14); FSM <- ENCODING. -/
def State.claim (s : State) (u : Nat) : State :=
  match s.pwmAt u with
  | some w =>
    { s.setPwm u { w with enable := true } with
      inst := { s.inst with unit := some u, fsm := .encoding } }
  | none => { s with inst := { s.inst with unit := some u, fsm := .encoding } }

/-- The latch wait is over on a PWMDMA instance: too small a buffer, the fallback; no free unit, NoPwm and the fallback; else
the claim (R188 to R190, R297). -/
def State.startPwm (s : State) : State :=
  if s.inst.dutyCap.toNat < s.inst.seqLen then s.startFallback
  else
    match s.scan with
    | none => (s.raise .noPwm).startFallback
    | some u => s.claim u

/-- E, the cycles ENCODING takes: a listed draw, else a free value (R191, U17, log 9). -/
def State.encodingTime (s : State) : Nat :=
  match s.encDraws with
  | e :: _ => e
  | [] => Config.freeEncodingTime s.drawCtr

/-- A draw of E is used up. -/
def State.usedDraw (s : State) : State :=
  match s.encDraws with
  | _ :: r => { s with encDraws := r }
  | [] => { s with drawCtr := s.drawCtr + 1 }

/-- The cycle in which ENCODING ends, E unstalled cycles on (R191, R202 (e)): fixed when it begins. -/
def State.encodingEnd (s : State) : Option Nat :=
  match s.inst.encEnd with
  | some c => some c
  | none => afterCounted s.blockers s.encodingTime s.t

/-- ENCODING has begun and will end in cycle c: its draw is used up (log 9). -/
def State.beginEncoding (s : State) (c : Nat) : State :=
  match s.inst.encEnd with
  | some _ => s
  | none => { s.usedDraw with inst := { s.usedDraw.inst with encEnd := some c } }

/-- The bytes of the buffer in ascending order (R70). -/
def State.bufferBytes (s : State) : List Byte :=
  (List.range s.inst.len.toNat).map (fun i => s.memRead (s.inst.buf.toNat + i))

/-- The entries of a byte, bit 7 first (R71, R191). -/
def entriesOf (k : ClassParams) (b : Byte) : List Entry :=
  [7, 6, 5, 4, 3, 2, 1, 0].map (fun i : Fin 8 => if bitOf b i then k.duty1 else k.duty0)

/-- The duty sequence of a buffer: one entry per bit, then TERM_N terminators (R71, R191). -/
def dutySequence (c : Config) (bytes : List Byte) : List Entry :=
  bytes.flatMap (entriesOf c.cp) ++ List.replicate c.termN term

/-- `DutyWrite` of consecutive entries from index i on (R65). -/
def writeEntries (i : Nat) : List Entry → DutyRam → DutyRam
  | [], d => d
  | e :: r, d => writeEntries (i + 1) r (Sparse.write i e d)

/-- Steps 2 and 3: the duty sequence is written, CUR holds the last byte read (R191). -/
def State.encode (s : State) : State :=
  { s with inst := { s.inst with
      duty := writeEntries 0 (dutySequence s.inst.cfg s.bufferBytes) s.inst.duty
      encEnd := none
      cur := s.bufferBytes.getLastD s.inst.cur } }

/-- `configure(u)`, step 4 (R192). -/
def State.configured (s : State) (w : PwmUnit) : PwmUnit :=
  { w with
    enable := true, prescaler := s.inst.cfg.prescale, top := s.inst.cfg.cp.top, playcnt := 1, seqPtr := 0
    seqCnt := BitVec.ofNat 20 s.inst.seqLen, pselConnected := true, pselPin := s.inst.pin }

/-- The start task: RUN <- 1 in this cycle T_s; the unit is at entry 0 (R194, R46 (a)). -/
def PwmUnit.startAt (w : PwmUnit) (t : Nat) : PwmUnit :=
  { w with run := true, pos := 0, fetched := none, start := t, due := t }

/-- BadPin when PIN does not resolve (R202 (h)). -/
def State.raiseIfUnresolved (s : State) : State := if s.pinResolves s.inst.pin then s else s.raise .badPin

/-- Steps 4 and 5: configure, ACTIVE <- 1, REGISTRY[u] <- self, start, FSM <- PLAYING (R192 to R194). -/
def State.startPlayback (s : State) (u : Nat) (w : PwmUnit) : State :=
  (((((s.raiseIfUnresolved).setPwm u ((s.configured w).startAt s.t)).setRegistry u (some s.inst.id)).setActive
    true).setFsm .playing)

/-- ENCODING is over in cycle c: the sequence is written, the unit configured and started (R191 to R194). -/
def State.finishEncoding (s : State) (c u : Nat) (w : PwmUnit) : State :=
  (((s.beginEncoding c).passTo c).encode).startPlayback u w

/-- `teardown(u)`, step 6: PSEL <- {0, any}, a free value; disabled, REGISTRY[u] <- NONE, UNIT <- NONE (R199, log 34). The
contents of the duty RAM are unspecified from here on (U11, log 8). -/
def State.teardown (s : State) (u : Nat) (w : PwmUnit) : State :=
  { s with
    pwm := s.pwm.set u { w with pselConnected := false, pselPin := Config.freePselPin s.drawCtr, enable := false }
    registry := s.registry.set u none
    drawCtr := s.drawCtr + 1
    inst := { s.inst.freshDuty with unit := none } }

/-- COMPLETION: tear-down, stamp, complete (R188, R199). -/
def State.completionStep (s : State) : Result :=
  s.onUnit fun u w => .next (s.teardown u w).stamp.complete

end Sys2Proof.Machine
end

