-- ==== Sys2Proof/Machine/Reserved.lean ====
section
/-! DEFINITION. Reserved.lean: the reserved opcodes (R96): EVT.BAD_CMD, no other effect, completion in the accepting cycle
(log 33). -/

namespace Sys2Proof.Machine

/-- What every reserved opcode does (R96). -/
def State.badCommand (s : State) : State := (s.raise .badCmd).complete

/-- cmd_op = 0x0 (R96). -/
def execReserved0 (s : State) : Result := .next s.badCommand

/-- cmd_op = 0x6 (R96). -/
def execReserved6 (s : State) : Result := .next s.badCommand

/-- cmd_op = 0x7 (R96). -/
def execReserved7 (s : State) : Result := .next s.badCommand

/-- cmd_op = 0x8 (R96). -/
def execReserved8 (s : State) : Result := .next s.badCommand

/-- cmd_op = 0x9 (R96). -/
def execReserved9 (s : State) : Result := .next s.badCommand

/-- cmd_op = 0xA (R96). -/
def execReservedA (s : State) : Result := .next s.badCommand

/-- cmd_op = 0xB (R96). -/
def execReservedB (s : State) : Result := .next s.badCommand

/-- cmd_op = 0xC (R96). -/
def execReservedC (s : State) : Result := .next s.badCommand

/-- cmd_op = 0xD (R96). -/
def execReservedD (s : State) : Result := .next s.badCommand

/-- cmd_op = 0xE (R96). -/
def execReservedE (s : State) : Result := .next s.badCommand

/-- cmd_op = 0xF (R96). -/
def execReservedF (s : State) : Result := .next s.badCommand

end Sys2Proof.Machine
end

