-- ==== Sys2Proof/Machine/Transmit.lean ====
section
/-! DEFINITION. Transmit.lean: the acceptance of TRANSMIT, up to its latch wait (R150 to R152, R188, R297). The frame is
sent by the engines' steps in Sequencer.lean. -/

namespace Sys2Proof.Machine

/-- BUF, LEN, DLY <- the operands (R24, R94). -/
def State.latchOperands (s : State) (buf : Addr) (len : Count) (dly : Time32) : State :=
  { s with inst := { s.inst with buf := buf, len := len, dly := dly } }

/-- FSM <- WAIT_LATCH (R131). -/
def State.enterLatch (s : State) : State := { s with inst := { s.inst with fsm := .waitLatch, cmd := .transmit, waitStart := s.t } }

/-- TRANSMIT buf, len, dly: the operands are latched (D21); a null buffer or zero length is a no-op that waits for nothing
(R151, R297); a buffer that wraps is refused (R62, U7, log 17); else FSM <- WAIT_ACTIVE, and with ACTIVE = 0 the command is
at its latch wait in the same cycle (R150, R188, R300, log 13). -/
def execTransmit (buf : Addr) (len : Count) (dly : Time32) (s : State) : Result :=
  if buf = 0 ∨ len = 0 then .next ((s.latchOperands buf len dly).raise .noopTx).complete
  else if bufferWraps buf len then .refused .bufferWraps
  else if s.inst.active then .next ((s.latchOperands buf len dly).waitFor .transmit)
  else .next (s.latchOperands buf len dly).enterLatch

end Sys2Proof.Machine
end

