-- ==== Sys2Proof/Machine/Dispatch.lean ====
section
/-! DEFINITION. Dispatch.lean: one arm per row of the opcode table. -/

namespace Sys2Proof.Machine

/-- The meaning of an instruction in the cycle T of the state. -/
def exec (i : Instr) (s : State) : Host.Outcome State Fault Refusal :=
  match i with
  | .setPin p => Sys2Proof.Machine.execSetPin p s
  | .beginPin => Sys2Proof.Machine.execBegin s
  | .endPin => Sys2Proof.Machine.execEnd s
  | .updateLength n => Sys2Proof.Machine.execUpdateLength n s
  | .transmit buf len dly => Sys2Proof.Machine.execTransmit buf len dly s
  | .reserved0 => Sys2Proof.Machine.execReserved0 s
  | .reserved6 => Sys2Proof.Machine.execReserved6 s
  | .reserved7 => Sys2Proof.Machine.execReserved7 s
  | .reserved8 => Sys2Proof.Machine.execReserved8 s
  | .reserved9 => Sys2Proof.Machine.execReserved9 s
  | .reservedA => Sys2Proof.Machine.execReservedA s
  | .reservedB => Sys2Proof.Machine.execReservedB s
  | .reservedC => Sys2Proof.Machine.execReservedC s
  | .reservedD => Sys2Proof.Machine.execReservedD s
  | .reservedE => Sys2Proof.Machine.execReservedE s
  | .reservedF => Sys2Proof.Machine.execReservedF s
  | .sym0 => Sys2Proof.Machine.execSym0 s
  | .sym1 => Sys2Proof.Machine.execSym1 s
  | .fbSym0 => Sys2Proof.Machine.execFbSym0 s
  | .fbSym1 => Sys2Proof.Machine.execFbSym1 s
  | .pwmSym0 => Sys2Proof.Machine.execPwmSym0 s
  | .pwmSym1 => Sys2Proof.Machine.execPwmSym1 s
  | .pwmTerm => Sys2Proof.Machine.execPwmTerm s
  | .dutyZero cmp => Sys2Proof.Machine.execDutyZero cmp s
  | .dutyOne cmp => Sys2Proof.Machine.execDutyOne cmp s
  | .dutyTerm => Sys2Proof.Machine.execDutyTerm s
  | .dutyReserved cmp => Sys2Proof.Machine.execDutyReserved cmp s
  | .typeWs2811 => Sys2Proof.Machine.execTypeWs2811 s
  | .typeWs2812 => Sys2Proof.Machine.execTypeWs2812 s
  | .typeWs2813 => Sys2Proof.Machine.execTypeWs2813 s
  | .typeSk6812rgbw => Sys2Proof.Machine.execTypeSk6812rgbw s
  | .typeTm1803 => Sys2Proof.Machine.execTypeTm1803 s
  | .typeTm1829 => Sys2Proof.Machine.execTypeTm1829 s
  | .typeReserved6 => Sys2Proof.Machine.execTypeReserved6 s
  | .typeReserved7 => Sys2Proof.Machine.execTypeReserved7 s
  | .orderRgb => Sys2Proof.Machine.execOrderRgb s
  | .orderGrb => Sys2Proof.Machine.execOrderGrb s
  | .orderRbg => Sys2Proof.Machine.execOrderRbg s
  | .orderRgbw => Sys2Proof.Machine.execOrderRgbw s

end Sys2Proof.Machine
end

