-- ==== Sys2Proof/Machine/Sequencer.lean ====
section
/-! DEFINITION. Sequencer.lean: who acts next, and the one action it does: the environment, the PWM units, the SEQEND handler,
a parked instance whose playback is over, the sequencer (R300). Step.lean only calls `State.cycle`. -/

namespace Sys2Proof.Machine

/-! ## The environment (R285, R289, R305) -/

/-- A move of another user of the platform. A unit an instance has claimed is changed by nobody else (R305); a sequence end
from outside on such a unit is refused (U20). DESIGN CHOICE: no move starts another user's unit: R190 and R305 make its ENABLE and
PSEL inputs and say nothing of its RUN, which stays 0, so that a unit another user has connected drives its line low (log 30). -/
def State.envMove (s : State) (m : EnvMove) : Result :=
  match m with
  | .unit u en con p =>
    if s.claimed u then .next s
    else
      match s.pwmAt u with
      | some w => .next (s.setPwm u { w with enable := en, pselConnected := con, pselPin := p })
      | none => .next s
  | .seqend u => if s.claimed u then .refused .foreignSeqend else .next (s.setPend u true)
  | .gpio p d o => .next { s with gpio := s.gpio.set p { dir := d, out := o } }

/-- The next move of the environment whose cycle has come (log 5). -/
def State.envDue (s : State) : Option EnvMove :=
  match s.env with
  | (c, m) :: _ => if c ≤ s.t then some m else none
  | [] => none

/-! ## The PWM units as agents (R195, R196) -/

/-- The lowest playing unit whose next interval has begun (log 32). -/
def State.unitDue (s : State) : Option (Nat × PwmUnit) := s.players.find? (fun p => decide (p.2.due ≤ s.t))

/-- The wire symbol of a fetched entry: the class's two constants and the terminator have names (R103, R200). -/
def symbolOf (c : Config) (e : Entry) : Option Instr :=
  if (cmpOf e).toNat = 0 then some .pwmTerm
  else if cmpOf e = cmpOf c.cp.duty1 then some .pwmSym1
  else if cmpOf e = cmpOf c.cp.duty0 then some .pwmSym0
  else none

/-- A playing unit at its next interval: the end of the sequence (R196), the DMA read of the entry, decoded and executed, or
the playing of the entry read (R195). An entry that is none of the expander's three values is played by its compare value
(log 15). -/
def State.unitStep (s : State) (u : Nat) (w : PwmUnit) : Result :=
  if w.seqCnt.toNat ≤ w.pos then .next (s.sequenceEnd u w)
  else
    match s.owner u with
    | none => .fault .noUnit
    | some i =>
      match w.fetched with
      | none => s.asInst i.id (exec (decodeDuty i.cfg.cp.duty1 (s.dmaRead i w w.pos)))
      | some e =>
        match symbolOf i.cfg e with
        | some k => s.asInst i.id (exec k)
        | none => s.asInst i.id (fun t => t.playEntry (cmpOf e))

/-! ## The sequencer -/

/-- The cycle in which a pending handler can run: the next unstalled one while no IRQ_MASK = 1 (R288). -/
def State.handlerChance (s : State) : Option Nat :=
  if s.pend.any id && !s.masked then nextFree s.blockers s.t else none

/-- The cycle in which a parked instance whose wait is over can complete: the next unstalled one (R197). -/
def State.finisherChance (s : State) : Option Nat :=
  match s.finisher with
  | some _ => nextFree s.blockers s.t
  | none => none

/-- The cycles in which another agent is known to act: a playing unit, another user, a pending handler, a parked instance whose
playback is over. -/
def State.nextEvents (s : State) : List Nat :=
  s.players.map (fun p => p.2.due) ++ (s.env.head?.map (·.1)).toList ++ s.handlerChance.toList ++ s.finisherChance.toList

/-- The cycle a waiting sequencer lets time pass to: the end of its wait, if it has one, or the next event of another agent before
it; at least the next cycle (R288, log 25). -/
def State.pauseEnd (s : State) (stop : Option Nat) : Nat :=
  max (((stop.toList ++ s.nextEvents).min?).getD (s.t + 1)) (s.t + 1)

/-- The sequencer waits: time passes and nothing else happens. -/
def State.pause (s : State) (stop : Option Nat) : State := s.passTo (s.pauseEnd stop)

/-- An action of the sequencer: it takes effect in an unstalled cycle; a stalled sequencer executes nothing (R17, R291). -/
def State.act (s : State) (k : State → Result) : Result :=
  if s.stalled then .next (s.pause (nextFree s.blockers s.t)) else k s

/-- The move at the head of the host's queue is done. -/
def State.popHost (s : State) : State := { s with host := s.host.tail }

/-- The host turns to another instance (R306, log 18). -/
def State.selectMove (s : State) (id : Nat) : Result :=
  match s.popHost.focus id with
  | some s' => .next s'
  | none => .refused .noSuchInstance

/-- WAIT n: the n cycles pass, up to the next event of another agent; what is left of them stays to be waited (R111), over a reset
too (`State.hostAfter`). -/
def State.waitMove (s : State) (n : Nat) : State :=
  if n = 0 then s.popHost
  else if s.t + n ≤ s.pauseEnd (some (s.t + n)) then s.popHost.passTo (s.t + n)
  else { s.pause (some (s.t + n)) with host := .wait (s.t + n - s.pauseEnd (some (s.t + n))) :: s.host.tail }

/-- ENCODING: E cycles, in which the events of other agents still happen in theirs (R191, R288, log 9). -/
def State.encodingStep (s : State) : Result :=
  if 2 ^ 32 < s.inst.buf.toNat + s.inst.len.toNat then .fault .addressBeyondTop
  else if s.inst.dutyCap.toNat < s.inst.seqLen then .fault .dutyOutOfRange
  else s.onUnit fun u w =>
    match s.encodingEnd with
    | none => .next (s.pause none)
    | some c =>
      if s.nextEvents.all (fun e => decide (c < e)) then .next (s.finishEncoding c u w)
      else .next ((s.beginEncoding c).pause (some c))

/-- IDLE: while `done` is 1 the completing cycle passes (R93, R298); else the host's next move: a command is accepted (R91), WAIT
lets cycles pass (R111), a byte is written (R77), another instance is turned to (R306), the platform is built (R320). With
nothing to do a cycle passes. DESIGN CHOICE: the host's next move begins in the cycle after the `done` of the command before it; so
that cycle is none of the n of a WAIT n (log 12). DESIGN CHOICE: a write into the buffer of a parked instance that is PLAYING is executed, where U1
offers any value or a refusal: its frame is fixed and no later read of that frame sees it (R83, log 27). -/
def State.idleStep (s : State) : Result :=
  if s.done then .next (s.passTo (s.t + 1))
  else
    match s.host with
    | [] => .next (s.passTo (s.t + 1))
    | .wait n :: _ => .next (s.waitMove n)
    | .write a b :: _ => s.act fun s => .next { s.popHost with mem := Memory.write s.mem a b }
    | .select id :: _ => s.act fun s => s.selectMove id
    | .cmd w :: _ => s.act fun s => exec (decodeCmd w) s.popHost
    | .chip w :: _ => exec (decodeChip w) s.popHost
    | .order w :: _ => exec (decodeOrder w) s.popHost

/-- WAIT_ACTIVE with ACTIVE = 0: the command's action (R300). -/
def State.afterActive (s : State) : Result :=
  match s.inst.cmd with
  | .endPin => .next s.endAction
  | .updateLength n => .next (s.updateAction n)
  | .transmit => .next s.enterLatch
  | .none => .next s.complete

/-- The latch wait is over: the engine of the STRATEGY (R300). -/
def State.leaveLatch (s : State) : State :=
  match s.inst.cfg.strategy with
  | .bitbang => s.startBitbang
  | .pwmdma => s.startPwm

/-- The sequencer's action in each state of FSM (R300). In BB_HIGH and FB_HIGH the current bit selects the wire symbol that
is executed (R150, R220). An engine stuck in a phase that no cycle ends lets time pass (log 25). -/
def State.sequence (s : State) : Result :=
  if s.inst.stuck then .next (s.pause none)
  else
  match s.inst.fsm with
  | .idle => s.idleStep
  | .waitActive => if s.inst.active then .next (s.pause none) else s.act State.afterActive
  | .waitLatch => if s.latchOpen then s.act fun s => .next s.leaveLatch else .next (s.pause s.latchEnd)
  | .bbHigh => s.act fun s => onNext s.fetchByte fun t => exec (if t.inst.curBit then .sym1 else .sym0) t
  | .bbLow => s.act fun s => .next s.afterLow
  | .encoding => s.act State.encodingStep
  | .playing =>
    if s.inst.active then
      match s.host with
      | .select id :: _ => s.act fun s => s.selectMove id
      | _ => .next (s.pause none)
    else s.act fun s => .next (s.setFsm .completion)
  | .completion => s.act State.completionStep
  | .fbHigh => s.act fun s => onNext s.fetchByte fun t => exec (if t.inst.curBit then .fbSym1 else .fbSym0) t
  | .fbLow => s.act fun s => .next s.afterPeriod
  | .fbCheck => s.act fun s => .next s.selfCheck
  | .fbBackoff => if s.backoffOver then s.act fun s => .next s.startAttempt else .next (s.pause s.backoffEnd)

/-! ## One step -/

/-- The sequencer of a parked instance whose wait in PLAYING is over: COMPLETION, in the cycle in which the host CPU comes to it
(R188, R197, R200, R300, log 18). -/
def State.finishParked (s : State) (i : Inst) : Result := s.asParked i State.completionStep

/-- Who acts in this cycle: the environment, then a unit whose interval has begun, then a pending handler, then a parked instance
whose playback is over, then the sequencer of the running one (logs 1, 5, 18, 32). -/
def State.agentStep (s : State) : Result :=
  match s.envDue with
  | some m => ({ s with env := s.env.tail }).envMove m
  | none =>
    match s.unitDue with
    | some (u, w) => s.unitStep u w
    | none =>
      match s.handlerDue with
      | some u => .next (s.seqendHandler u)
      | none =>
        match s.finisherDue with
        | some i => s.finishParked i
        | none => s.sequence

/-- The cycles the host is letting pass: WAIT n at an idle instance's port (R111). -/
def State.hostWait (s : State) : Option Nat :=
  match s.inst.fsm, s.done || s.inst.stuck, s.host with
  | .idle, false, .wait n :: _ => some n
  | _, _, _ => none

/-- The host's queue after a reset in cycle r, of a step that would have left h of it. DESIGN CHOICE: a WAIT n is the host's own and
goes on over a reset: those of its n cycles that come after the reset's stay to be waited (log 22). -/
def State.hostAfter (s : State) (r : Nat) (h : List HostMove) : List HostMove :=
  match s.hostWait with
  | some n => .wait (s.t + n - (r + 1)) :: s.host.tail
  | none => h

/-- A reset in cycle r, in a step that without it ends, or begins, in state m (R321). -/
def State.resetAt (s : State) (r : Nat) (m : State) : State := ({ m with host := s.hostAfter r m.host } : State).restart r

/-- `rst` wins over everything else in its cycle: a step that would reach it is cut there (R321, log 22). -/
def State.cutAt (s : State) (r : Nat) (o : Result) : Result :=
  onNext o fun m => if r ≤ m.t then .next (s.resetAt r m) else .next m

/-- One step of the platform. -/
def State.cycle (s : State) : Result :=
  match s.nextRst with
  | none => s.agentStep
  | some r => if r ≤ s.t then .next (s.resetAt r s) else s.cutAt r s.agentStep

/-! ## Placing a table word where the next step reads it -/

/-- Nothing but the sequencer of an idle instance acts next: no input is due, no unit plays, nothing is pending, no playback of a
parked instance is over. -/
def State.quiet (s : State) : State :=
  { s with
    env := [], irq := [], nmi := [], rst := []
    pwm := s.pwm.map (fun w => { w with run := false })
    pend := s.pend.map (fun _ => false)
    peers := s.peers.map (fun i => { i with active := decide (i.fsm = .playing) })
    inst := { s.inst with fsm := .idle, doneAt := none, stuck := false } }

/-- A host move at the head of the queue. -/
def State.withHostMove (s : State) (m : HostMove) : State := { s.quiet with host := m :: s.host }

/-- A duty entry as entry 0 of a playback of unit 0 for the running instance, whose interval begins now. -/
def State.withDutyEntry (s : State) (e : Entry) : State :=
  let q := s.quiet
  let w : PwmUnit :=
    { enable := true, prescaler := s.inst.cfg.prescale, top := s.inst.cfg.cp.top, playcnt := 1, seqPtr := 0,
      seqCnt := 1, pselConnected := true, pselPin := s.inst.pin, run := true, pos := 0, fetched := none,
      start := s.t, due := s.t }
  { q with
    pwm := q.pwm.set 0 w
    registry := q.registry.set 0 (some q.inst.id)
    inst := { q.inst with
      fsm := .playing, active := true, unit := some 0, dutyCap := 1, duty := Sparse.write 0 e q.inst.duty } }

/-- A word of the opcode table placed where the next step reads it. -/
def State.withEncoded (s : State) (e : Encoded) : State :=
  match e with
  | .cmd w => s.withHostMove (.cmd w)
  | .chip w => s.withHostMove (.chip w)
  | .order w => s.withHostMove (.order w)
  | .duty w => s.withDutyEntry w
  | .wire _ _ => s

end Sys2Proof.Machine
end

