-- ==== Sys2Proof/Machine/Step.lean ====
section
/-! DEFINITION. Step.lean: one step of the machine, and a word of the opcode table placed where the next step reads it. -/

namespace Sys2Proof.Machine

/-- One step: one action of one agent, with the cycles it takes (log 1). -/
def step (s : State) : Host.Outcome State Fault Refusal := s.cycle

/-- The state whose next step reads and runs the word w of an opcode-table row of nbits bits (log 12). -/
def State.withFetchWord (s : State) (nbits w : Nat) : State :=
  match encodedTableWord nbits w with
  | some e => s.withEncoded e
  | none => s

end Sys2Proof.Machine
end

