-- ==== Sys2Proof/Safety.lean ====
section
/-! DEFINITION. Safety.lean: the terms the claims are stated in: quiet surroundings, the waveform of a frame, the invariants
of the machine. -/

namespace Sys2Proof.Machine

/-! ## Surroundings -/

/-- S is empty: neither irq_req nor nmi_req is ever raised (R17). -/
abbrev State.unstalled (s : State) : Prop := s.irq = [] ∧ s.nmi = []

/-- No input from outside is to come: no stall, no move of another user, no reset. -/
abbrev State.undisturbed (s : State) : Prop := s.unstalled ∧ s.env = [] ∧ s.rst = []

/-- No unit plays and no sequence end is pending. -/
abbrev State.unitsAtRest (s : State) : Prop :=
  (∀ w ∈ s.pwm, w.run = false) ∧ (∀ b ∈ s.pend, b = false)

/-- No unit of the pool drives a pin. -/
abbrev State.noUnitOn (s : State) (p : Pin) : Prop := ∀ w ∈ s.pwm, w.drives p = false

/-- The line of the running instance is an output its pin map resolves and no unit drives: the engines are seen on it. -/
abbrev State.lineOwned (s : State) : Prop :=
  s.inst.pin.toNat < s.gpio.length ∧ s.gpio.length = s.plat.nPins ∧ (s.pinState s.inst.pin.toNat).dir = .output ∧
  s.noUnitOn s.inst.pin

/-- No parked instance waits to complete a playback that is over. -/
abbrev State.noneFinishing (s : State) : Prop := ∀ i ∈ s.peers, i.waitOver = false

/-- The sequencer of the running instance acts next: no reset is to come; no move of another user, no interval of a unit, no handler,
no completion of a parked instance is due; it is not stuck in a phase that no cycle ends. -/
abbrev State.sequencerTurn (s : State) : Prop :=
  s.nextRst = none ∧ s.envDue = none ∧ s.unitDue = none ∧ s.handlerDue = none ∧ s.finisherDue = none ∧ s.inst.stuck = false

/-- The sequencer acts next, and in an unstalled cycle. -/
abbrev State.freeTurn (s : State) : Prop := s.sequencerTurn ∧ s.stalled = false

/-- The next step only lets time pass, to cycle c: no event of another agent is passed over (R288). -/
abbrev State.passesTo (s : State) (c : Nat) : Prop :=
  s.t < c ∧ step s = .next (s.passTo c) ∧ ∀ e ∈ s.nextEvents, c ≤ e

/-- Time passes to the next event of another agent, or for one cycle where none is known. -/
abbrev State.passesOn (s : State) : Prop :=
  ∃ c, s.passesTo c ∧ (c ∈ s.nextEvents ∨ s.nextEvents = [] ∧ c = s.t + 1)

/-- The sequencer has an action to make, which only a stall can hold up. -/
def State.actionReady (s : State) : Prop :=
  match s.inst.fsm with
  | .idle => s.host ≠ []
  | .waitActive => s.inst.active = false
  | .waitLatch => s.latchOpen = true
  | .playing => s.inst.active = false ∨ ∃ id r, s.host = .select id :: r
  | .fbBackoff => s.backoffOver = true
  | .bbHigh => True
  | .bbLow => True
  | .encoding => True
  | .completion => True
  | .fbHigh => True
  | .fbLow => True
  | .fbCheck => True

/-! ## The next state written out -/

/-- The command in progress completes in this cycle with the registers i: FSM = IDLE, `done` = 1, whose cycle
is doneAt (R93, log 3). -/
def State.completedWith (s : State) (i : Inst) : State :=
  { s with
    inst := { i with fsm := .idle, cmd := .none, doneAt := some s.t }
    obs := { s.obs with dones := s.obs.dones ++ [{ id := s.inst.id, cycle := s.t }] } }

/-- GPIO after an action f on pin p; a pin that does not resolve changes nothing (R67, R68). -/
def gpioUpdate (nPins : Nat) (g : List PinState) (p : Pin) (f : PinState → PinState) : List PinState :=
  if p.toNat < nPins then g.set p.toNat (f (g.getD p.toNat PinState.reset)) else g

/-- EVT after a GPIO action on pin p (R68). -/
def pinEvt (nPins : Nat) (evt : BitVec 8) (p : Pin) : BitVec 8 :=
  if p.toNat < nPins then evt else setEvt evt .badPin

/-- What the line of the running instance shows with GPIO_OUT[PIN] = b while no unit drives it (R41, R68). -/
def State.shown (s : State) (b : Bool) : Level :=
  if s.inst.pin.toNat < s.plat.nPins then
    match (s.gpio.getD s.inst.pin.toNat PinState.reset).dir with
    | .input => .z
    | .output => if b then .h else .l
  else .z

/-- The segments recorded over the cycles [t0, t1), none when t1 = t0: the running instance's line at the level of b, then what
the lines of parked instances hold. -/
def State.shownSegs (s : State) (b : Bool) (t0 t1 : Nat) : List Seg :=
  if t1 ≤ t0 then []
  else { pin := s.inst.pin, start := t0, level := s.shown b, cycles := t1 - t0 } :: s.parkedSegs t0 t1

/-- Cycle c stalls the sequencer while the mask stays as it is (R291). -/
abbrev State.blocked (s : State) (c : Nat) : Prop := inWindows s.blockers c = true

/-- The cycles of [t0, t1) in which the sequencer is not stalled. -/
def State.freeCycles (s : State) (t0 t1 : Nat) : Nat :=
  ((List.range (t1 - t0)).filter (fun k => !inWindows s.blockers (t0 + k))).length

/-- t1 is the first unstalled cycle from t0 on in which CYC has gone at least n past its value in cycle since (R17, R223). -/
abbrev State.firstPast (s : State) (since n t0 t1 : Nat) : Prop :=
  t0 ≤ t1 ∧ ¬ s.blocked t1 ∧ n ≤ (cycAt t1 - cycAt since).toNat ∧
  ∀ c, t0 ≤ c → c < t1 → s.blocked c ∨ (cycAt c - cycAt since).toNat < n

/-- A phase of n cycles begun in cycle t0 is over in cycle t1 (R154 to R156). -/
def State.phaseOver (s : State) (n t0 t1 : Nat) : Prop :=
  match s.inst.cfg.holdKind with
  | .counted => t0 ≤ t1 ∧ ¬ s.blocked t1 ∧ s.freeCycles t0 t1 = n
  | .cyccmp => s.firstPast t0 n t0 t1

/-- The type tag of a chipset (R106). -/
def typeInstr : Chip → Instr
  | .ws2811 => .typeWs2811
  | .ws2812 => .typeWs2812
  | .ws2813 => .typeWs2813
  | .sk6812rgbw => .typeSk6812rgbw
  | .tm1803 => .typeTm1803
  | .tm1829 => .typeTm1829

/-- The code of a channel order (R108). -/
def orderInstr : Order → Instr
  | .rgb => .orderRgb
  | .grb => .orderGrb
  | .rbg => .orderRbg
  | .rgbw => .orderRgbw

/-- The reserved opcodes (R96). -/
def reservedInstrs : List Instr :=
  [.reserved0, .reserved6, .reserved7, .reserved8, .reserved9, .reservedA, .reservedB, .reservedC, .reservedD,
    .reservedE, .reservedF]

/-- The host's next move builds the platform or turns to another instance, in a state of FSM in which that move is taken. -/
def State.hostBuildsOrTurns (s : State) : Bool :=
  match s.host with
  | .chip _ :: _ => decide (s.inst.fsm = .idle)
  | .order _ :: _ => decide (s.inst.fsm = .idle)
  | .select _ :: _ => decide (s.inst.fsm = .idle) || decide (s.inst.fsm = .playing)
  | .cmd _ :: _ => false
  | .wait _ :: _ => false
  | .write _ _ :: _ => false
  | [] => false

/-- The state with every EVT forgotten (R283). -/
def State.forgetEvt (s : State) : State :=
  { s with inst := { s.inst with evt := 0 }, peers := s.peers.map (fun i => { i with evt := 0 }) }

/-- An outcome with every EVT forgotten. -/
def Result.forgetEvt : Result → Result
  | .next s => .next s.forgetEvt
  | .fault r => .fault r
  | .refused r => .refused r

/-! ## The waveform of a line -/

/-- The segments recorded of a line (R18). -/
def Obs.line (o : Obs) (p : Pin) : List Seg := o.wave.filter (fun g => decide (g.pin = p))

/-- The level a line had in cycle c, after `resets` resets: its recorded drivers', the free value where they disagree (R18, U10,
log 30); none in a cycle nothing was recorded in. -/
def Obs.levelAt (o : Obs) (resets : Nat) (p : Pin) (c : Nat) : Option Level :=
  match (o.line p).filter (fun g => decide (g.start ≤ c) && decide (c < g.start + g.cycles)) with
  | [] => none
  | g :: r => some (settle (contestedLevel resets p c) g.level (r.map (·.level)))

/-! ## The waveform of a frame -/

/-- The len bytes from buf on, in ascending order (R70). -/
def State.bytesAt (s : State) (buf : Addr) (len : Count) : List Byte :=
  (List.range len.toNat).map (fun i => s.memRead (buf.toNat + i))

/-- The two segments of a symbol from a cycle on. -/
def symbolSegs (p : Pin) (t high low : Nat) : List Seg :=
  [{ pin := p, start := t, level := .h, cycles := high }, { pin := p, start := t + high, level := .l, cycles := low }]

/-- A byte's bits in the order of transmission, bit 7 first (R70). -/
def bitsOf (b : Byte) : List Bool := [7, 6, 5, 4, 3, 2, 1, 0].map (fun k : Fin 8 => bitOf b k)

/-- The bits of a frame in the order of transmission (R70). -/
def frameBits (bytes : List Byte) : List Bool := bytes.flatMap bitsOf

/-- The segments of a sequence of bits sent from cycle t on, one symbol after another with nothing between (R99). -/
def bitSegs (p : Pin) (high low : Bool → Nat) : Nat → List Bool → List Seg
  | _, [] => []
  | t, b :: r => symbolSegs p t (high b) (low b) ++ bitSegs p high low (t + high b + low b) r

/-- The cycles a sequence of bits takes. -/
def bitTime (high low : Bool → Nat) : List Bool → Nat
  | [] => 0
  | b :: r => high b + low b + bitTime high low r

/-! ## Invariants -/

/-- Every register array has one entry per pin or unit of the platform (R39 to R41). -/
abbrev State.shapeOk (s : State) : Prop :=
  s.gpio.length = s.plat.nPins ∧ s.pwm.length = s.plat.nPwm ∧ s.registry.length = s.plat.nPwm ∧
  s.pend.length = s.plat.nPwm

/-- The memories are in canonical form. -/
abbrev State.memOk (s : State) : Prop :=
  Memory.wf s.mem = true ∧ Sparse.wf s.inst.duty = true ∧ ∀ i ∈ s.peers, Sparse.wf i.duty = true

/-- The states of FSM in which an engine holds the line inside its masked window (R161, R225). -/
def Fsm.inWindow : Fsm → Bool
  | .bbHigh => true
  | .bbLow => true
  | .fbHigh => true
  | .fbLow => true
  | .idle => false
  | .waitActive => false
  | .waitLatch => false
  | .encoding => false
  | .playing => false
  | .completion => false
  | .fbCheck => false
  | .fbBackoff => false

/-- The states of FSM in which a PWM unit is claimed (R28). -/
def Fsm.claims : Fsm → Bool
  | .encoding => true
  | .playing => true
  | .completion => true
  | .idle => false
  | .waitActive => false
  | .waitLatch => false
  | .bbHigh => false
  | .bbLow => false
  | .fbHigh => false
  | .fbLow => false
  | .fbCheck => false
  | .fbBackoff => false

/-- IRQ_MASK = 1 exactly inside a masked window (R34, R161, R225, R294); a phase that no cycle ends is inside one (log 25). -/
abbrev Inst.maskOk (i : Inst) : Prop := i.irqMask = i.fsm.inWindow ∧ (i.stuck = true → i.fsm.inWindow = true)

/-- An instance that is not running is IDLE or PLAYING (R306). -/
abbrev Inst.parked (i : Inst) : Prop := i.fsm = .idle ∨ i.fsm = .playing

/-- The mask discipline of the platform: the masked windows are the engines' (R294), parked instances have none (R306). -/
abbrev State.maskOk (s : State) : Prop := s.inst.maskOk ∧ ∀ i ∈ s.peers, i.parked ∧ i.maskOk

/-- UNIT is not NONE exactly from the claim to the release, and ACTIVE = 1 only while PLAYING (R28, R33, R197); the end of
ENCODING is fixed only in ENCODING (log 9). -/
abbrev Inst.unitOk (i : Inst) : Prop :=
  i.unit.isSome = i.fsm.claims ∧ (i.active = true → i.fsm = .playing) ∧ (i.encEnd.isSome = true → i.fsm = .encoding)

/-- DUTY_CAP is 0 or 8 n + TERM_N for some byte count n, at most DUTY_RAM_ENTRIES (R37). -/
abbrev Inst.capOk (i : Inst) : Prop :=
  i.dutyCap = 0 ∨
  ∃ n : Count, n ≠ 0 ∧ i.dutyCap.toNat = 8 * n.toNat + i.cfg.termN ∧ i.dutyCap.toNat ≤ i.cfg.dutyRamEntries

/-- Every instance's constants are well formed and its DUTY_CAP legal. -/
abbrev State.capOk (s : State) : Prop :=
  (s.inst.cfg.wf s.plat = true ∧ s.inst.capOk) ∧ ∀ i ∈ s.peers, i.cfg.wf s.plat = true ∧ i.capOk

/-- The claim discipline of the platform. -/
abbrev State.unitOk (s : State) : Prop := s.inst.unitOk ∧ ∀ i ∈ s.peers, i.unitOk

/-- EVT bits only ever set: every bit of the first is in the second (R38). -/
abbrev evtGrows (old new : BitVec 8) : Prop := old &&& new = old

end Sys2Proof.Machine
end

