-- ==== Sys2Proof/Certificates/Slice0/Obligations.lean ====
section
/-! DEFINITION. Obligations.lean: the statements for the provers, in the order of OBLIGATIONS.json. -/

open Sys2Proof Sys2Proof.Machine

/-! ## Encodings -/

/-- R90, R92, R94, R98, R101 to R108: decoding what the encoder writes gives every well-formed instruction back. Rests
on the model's choices: log 15. -/
def Obligations.DecodeInvertsEncode : Prop :=
  ∀ (c : Config) (p : Platform) (i : Instr), c.wf p = true → i.wf c = true → decode c (encode c i) = some i

/-- R92, R94, R96: the opcode selects the command and only the named low bits of the named buses are read; the opcodes
0x0 and 0x6 to 0xF are reserved. -/
def Obligations.CommandWordsDecodeByField : Prop :=
  ∀ a b c : BitVec 32,
    decodeCmd (cmdWord 0x1#4 a b c) = .setPin (a.setWidth 8) ∧
    decodeCmd (cmdWord 0x2#4 a b c) = .beginPin ∧
    decodeCmd (cmdWord 0x3#4 a b c) = .endPin ∧
    decodeCmd (cmdWord 0x4#4 a b c) = .updateLength (a.setWidth 16) ∧
    decodeCmd (cmdWord 0x5#4 a b c) = .transmit a (b.setWidth 16) c ∧
    ∀ op : BitVec 4, op = 0x0#4 ∨ 0x6#4 ≤ op → decodeCmd (cmdWord op a b c) ∈ reservedInstrs

/-- R90, R92, R94, R102, R104, R106, R108: words written out bit by bit decode to the instructions they stand for. -/
def Obligations.SampleWordsDecode : Prop :=
  decodeCmd 0x1000000060000000000000000#100 = .setPin 6#8 ∧
  decodeCmd 0x2000000000000000000000000#100 = .beginPin ∧
  decodeCmd 0x500002000000000030000012c#100 = .transmit 0x2000#32 3#16 300#32 ∧
  decodeDuty 0x800E#16 0x8007#16 = .dutyZero 7#15 ∧
  decodeDuty 0x800E#16 0x800E#16 = .dutyOne 14#15 ∧
  decodeDuty 0x800E#16 0x8000#16 = .dutyTerm ∧
  decodeDuty 0x800E#16 0x0007#16 = .dutyReserved 7#15 ∧
  decodeChip 5#3 = .typeTm1829 ∧ decodeChip 6#3 = .typeReserved6 ∧ decodeOrder 1#2 = .orderGrb

/-- R102, R104, R105: every 16-bit word is a duty entry; bit 15 clear is reserved, a zero compare value is the
terminator, and the compare value is bits 14:0. The threshold between mostly low and mostly high is the model's (log
15). -/
def Obligations.DutyEntriesDecodeByField : Prop :=
  ∀ (p : BitVec 1) (cmp : BitVec 15) (d1 : Entry),
    decodeDuty d1 (dutyWord p cmp) =
      if p = 0#1 then .dutyReserved cmp else if cmp = 0#15 then .dutyTerm
      else if cmpOf d1 ≤ cmp then .dutyOne cmp else .dutyZero cmp

/-! ## Events, GPIO, counters -/

/-- R38, R281: raising an event sets its own bit of EVT, the one of its code, and no other. -/
def Obligations.RaiseSetsItsOwnBit : Prop :=
  ∀ (s : State) (e : Event),
    s.raise e = { s with inst := { s.inst with evt := setEvt s.inst.evt e } } ∧
    (∀ k, (setEvt s.inst.evt e).getLsbD k = (decide (k = e.code) || s.inst.evt.getLsbD k)) ∧
    [Event.allocFail, .noPwm, .fallback, .resend, .noopTx, .badCmd, .badPin, .retryExhausted].map Event.code
      = [0, 1, 2, 3, 4, 5, 6, 7]

/-- R67, R68: the four GPIO actions take no time and change one bit of one pin; on a pin the pin map does not resolve
they change no GPIO state and set EVT.BAD_PIN. -/
def Obligations.GpioActionsChangeOnePin : Prop :=
  ∀ (s : State) (p : Pin), let n := p.toNat
    (n < s.plat.nPins →
      s.setHigh p = { s with gpio := s.gpio.set n { s.pinState n with out := true } } ∧
      s.setLow p = { s with gpio := s.gpio.set n { s.pinState n with out := false } } ∧
      s.configureOutput p = { s with gpio := s.gpio.set n { s.pinState n with dir := .output } } ∧
      s.configureInput p = { s with gpio := s.gpio.set n { s.pinState n with dir := .input } }) ∧
    (s.plat.nPins ≤ n →
      s.setHigh p = s.raise .badPin ∧ s.setLow p = s.raise .badPin ∧
      s.configureOutput p = s.raise .badPin ∧ s.configureInput p = s.raise .badPin)

/-- R42, R43: CYC is T modulo 2^32, US is T / M modulo 2^32, and both are 0 at reset. -/
def Obligations.CountersFollowTime : Prop :=
  (∀ s : State, s.cyc.toNat = s.t % 2 ^ 32 ∧ s.us.toNat = s.t / s.plat.m % 2 ^ 32) ∧
  State.reset.cyc = 0 ∧ State.reset.us = 0

/-! ## Reset -/

/-- R47: the values the spec gives after reset, in the reset state and in every state a reset leaves (`done` = 0: no pulse in this
cycle, log 3). The unspecified
registers are 0 by the model's choice (log 6) and are not named here. -/
def Obligations.ResetLeavesTheSpecsValues : Prop :=
  ∀ t : State, (t = State.reset ∨ ∃ s r, t = State.restart s r) →
    (∀ i ∈ t.inst :: t.peers,
      i.fsm = .idle ∧ i.byteIx = 0 ∧ i.bitIx = 7 ∧ i.pin = 0 ∧ i.begun = false ∧ i.active = false ∧ i.irqMask = false ∧
      i.endTime = 0 ∧ i.dutyCap = 0 ∧ i.unit = none ∧ i.retries = 0 ∧ i.evt = 0 ∧ i.doneAt ≠ some t.t) ∧
    t.cyc = 0 ∧ t.us = 0 ∧ t.cmdReady = true ∧
    t.registry = List.replicate t.plat.nPwm none ∧ t.pend = List.replicate t.plat.nPwm false ∧
    t.gpio = List.replicate t.plat.nPins { dir := .input, out := false } ∧
    t.pwm.length = t.plat.nPwm ∧
    ∀ w ∈ t.pwm, w.enable = false ∧ w.pselConnected = false ∧ w.run = false

/-- R298, R320, R321: a reset wins over every other input of its cycle, and over a step it falls into: a reset that is due is the
step; a step that would end at or after it is cut there, and a step that ends before it is the step of the state in which no reset
is to come. A reset resets every instance with its constants as built and the platform with it, leaves the host's memory and the
host's moves (no command is accepted in its cycle; of a WAIT the host is in, the cycles after the reset's stay to be waited), and
ends the observations made before it in its cycle, in which every
instance's line is Z, with no stamp and no `done`. The inputs that are left come in the cycles they were to come in, the cycle
after the reset being the new time 0. Rests on the model's choices: log 22. -/
def Obligations.ResetWinsOverEverything : Prop :=
  (∀ (s : State) (r : Nat), s.nextRst = some r →
    (r ≤ s.t → step s = .next (s.resetAt r s)) ∧
    (s.t < r →
      (∀ m, s.agentStep = .next m → (m.t < r → step s = .next m) ∧ (r ≤ m.t → step s = .next (s.resetAt r m))) ∧
      (∀ f, s.agentStep = .fault f → step s = .fault f) ∧ (∀ f, s.agentStep = .refused f → step s = .refused f) ∧
      (∀ m, step { s with rst := [] } = .next m → m.past = s.past →
        (m.t < r → step s = .next { m with rst := s.rst }) ∧
        (r ≤ m.t → step s = .next (s.resetAt r { m with rst := s.rst }))) ∧
      (∀ f, step { s with rst := [] } = .fault f → step s = .fault f) ∧
      ∀ f, step { s with rst := [] } = .refused f → step s = .refused f)) ∧
  (∀ (s m : State) (r : Nat),
    let waiting := s.inst.fsm = .idle ∧ s.done = false ∧ s.inst.stuck = false
    s.resetAt r m = { m.restart r with host := (s.resetAt r m).host } ∧
    (∀ n q, waiting → s.host = .wait n :: q → (s.resetAt r m).host = .wait (s.t + n - (r + 1)) :: q) ∧
    (¬ (waiting ∧ ∃ n q, s.host = .wait n :: q) → (s.resetAt r m).host = m.host)) ∧
  ∀ (m : State) (r : Nat), let t := m.restart r
    t.plat = m.plat ∧ t.t = 0 ∧ t.inst = Inst.reset m.inst.id m.inst.cfg ∧
    t.peers = m.peers.map (fun i => Inst.reset i.id i.cfg) ∧ t.mem = m.mem ∧
    t.gpio = List.replicate m.plat.nPins PinState.reset ∧ t.pwm = List.replicate m.plat.nPwm PwmUnit.reset ∧
    t.registry = List.replicate m.plat.nPwm none ∧ t.pend = List.replicate m.plat.nPwm false ∧
    t.host = m.host ∧ t.env = (m.env.filter (fun x => decide (r < x.1))).map (fun x => (x.1 - (r + 1), x.2)) ∧
    t.rst = (m.rst.filter (fun c => decide (r < c))).map (fun c => c - (r + 1)) ∧
    (∀ c, inWindows t.irq c = inWindows m.irq (r + 1 + c) ∧ inWindows t.nmi c = inWindows m.nmi (r + 1 + c)) ∧
    t.obs = Obs.empty ∧
    t.past = m.past ++ [{ m.obsBefore r with
      wave := (m.obsBefore r).wave ++
        (m.inst.pin :: m.parkedPins).map (fun p => { pin := p, start := r, level := .z, cycles := 1 }) }] ∧
    (∀ g ∈ (m.obsBefore r).wave, g.start < r ∧ g.start + g.cycles ≤ r) ∧
    (∀ w ∈ (m.obsBefore r).masks, w.start < r ∧ w.stop ≤ r) ∧
    (∀ d, d ∈ (m.obsBefore r).dones ↔ d ∈ m.obs.dones ∧ d.cycle < r) ∧
    (∀ g ∈ m.obs.wave, 0 < g.cycles → g.start + g.cycles ≤ r → g ∈ (m.obsBefore r).wave) ∧
    ∀ u w k i, m.pwmAt u = some w → w.run = true → m.owner u = some i → w.pos + k < w.seqCnt.toNat →
      ∀ g ∈ m.playSegs { w with due := w.due + k * w.period } (cmpOf (m.entryAhead i w k)),
        g.start < r → { g with cycles := min g.cycles (r - g.start) } ∈ (m.obsBefore r).wave

/-! ## SET_PIN, BEGIN, END -/

/-- R260, R261 (a), (b), (e): SET_PIN is opcode 0x1 with the pin in the low 8 bits of `cmd_a`. It takes the new pin;
when the block is begun it makes the old pin an input, and the new pin an output, low. Nothing else changes but BAD_PIN
for a pin that does not resolve. -/
def Obligations.SetPinMovesThePin : Prop :=
  (∀ a b c : BitVec 32, decodeCmd (cmdWord 0x1#4 a b c) = .setPin (a.setWidth 8)) ∧
  ∀ (p : Pin) (s : State), let n := s.plat.nPins
    (s.inst.begun = false → exec (.setPin p) s = .next (s.completedWith { s.inst with pin := p })) ∧
    (s.inst.begun = true →
      exec (.setPin p) s = .next
        { s.completedWith { s.inst with pin := p, evt := pinEvt n (pinEvt n s.inst.evt s.inst.pin) p } with
          gpio := gpioUpdate n (gpioUpdate n s.gpio s.inst.pin (fun q => { q with dir := .input })) p
            (fun _ => { dir := .output, out := false }) })

/-- R262: BEGIN is opcode 0x2. It makes the pin an output, low, and sets BEGUN; nothing else changes but BAD_PIN for a
pin that does not resolve. -/
def Obligations.BeginClaimsThePin : Prop :=
  (∀ a b c : BitVec 32, decodeCmd (cmdWord 0x2#4 a b c) = .beginPin) ∧
  ∀ s : State,
    exec .beginPin s = .next
      { s.completedWith { s.inst with begun := true, evt := pinEvt s.plat.nPins s.inst.evt s.inst.pin } with
        gpio := gpioUpdate s.plat.nPins s.gpio s.inst.pin (fun _ => { dir := .output, out := false }) }

/-- R264: END with ACTIVE = 0 makes the pin an input, leaves its output bit, and clears BEGUN. -/
def Obligations.EndReleasesThePin : Prop :=
  ∀ s : State, s.inst.active = false →
    exec .endPin s = .next
      { s.completedWith { s.inst with begun := false, evt := pinEvt s.plat.nPins s.inst.evt s.inst.pin } with
        gpio := gpioUpdate s.plat.nPins s.gpio s.inst.pin (fun q => { q with dir := .input }) }

/-- R183, R265, R300: while ACTIVE = 1, END, UPDATE_LENGTH (PWMDMA) and a TRANSMIT that is no no-op only enter
WAIT_ACTIVE (a TRANSMIT with its operands latched); there time passes, in steps that end where another agent acts, and
nothing else happens until ACTIVE = 0, and then the command does what it does when it is accepted with ACTIVE = 0. Rests on the model's choices: log 13, log 25. -/
def Obligations.CommandsWaitForActive : Prop :=
  (∀ s : State, s.inst.active = true →
    exec .endPin s = .next { s with inst := { s.inst with fsm := .waitActive, cmd := .endPin } } ∧
    (s.inst.cfg.strategy = .pwmdma → ∀ n,
      exec (.updateLength n) s = .next { s with inst := { s.inst with fsm := .waitActive, cmd := .updateLength n } }) ∧
    ∀ (buf : Addr) (len : Count) (dly : Time32), buf ≠ 0 → len ≠ 0 → buf.toNat + len.toNat ≤ 2 ^ 32 →
      exec (.transmit buf len dly) s =
        .next { s with inst := { s.inst with buf := buf, len := len, dly := dly, fsm := .waitActive, cmd := .transmit } }) ∧
  (∀ s : State, s.sequencerTurn → s.inst.fsm = .waitActive → s.inst.active = true → s.passesOn) ∧
  ∀ s : State, s.freeTurn → s.inst.fsm = .waitActive → s.inst.active = false →
    (s.inst.cmd = .endPin → step s = exec .endPin s) ∧
    (∀ n, s.inst.cmd = .updateLength n → s.inst.cfg.strategy = .pwmdma → step s = exec (.updateLength n) s) ∧
    (s.inst.cmd = .transmit → s.inst.buf ≠ 0 → s.inst.len ≠ 0 → s.inst.buf.toNat + s.inst.len.toNat ≤ 2 ^ 32 →
      step s = exec (.transmit s.inst.buf s.inst.len s.inst.dly) s)

/-! ## UPDATE_LENGTH -/

/-- R184: UPDATE_LENGTH on a BITBANG instance completes and changes nothing. -/
def Obligations.UpdateLengthOnBitbangDoesNothing : Prop :=
  ∀ (n : Count) (s : State), s.inst.cfg.strategy = .bitbang →
    exec (.updateLength n) s = .next (s.completedWith s.inst)

/-- R181, R182: UPDATE_LENGTH n on a PWMDMA instance: 0 disables the expander, a size that fits is allocated, any other
size disables it with EVT.ALLOC_FAIL. The new buffer's contents are free values (R64, U11). Rests on the model's choices
log 8, log 28. -/
def Obligations.UpdateLengthAllocates : Prop :=
  ∀ (n : Count) (s : State), s.inst.cfg.strategy = .pwmdma → s.inst.active = false →
    let need := 8 * n.toNat + s.inst.cfg.termN
    let fresh (cap : BitVec 20) : Inst := { s.inst with dutyCap := cap, duty := [], dutyGen := s.inst.dutyGen + 1 }
    (n = 0 → exec (.updateLength n) s = .next (s.completedWith (fresh 0))) ∧
    (n ≠ 0 → need ≤ s.inst.cfg.dutyRamEntries →
      exec (.updateLength n) s = .next (s.completedWith (fresh (BitVec.ofNat 20 need)))) ∧
    (n ≠ 0 → s.inst.cfg.dutyRamEntries < need →
      exec (.updateLength n) s = .next
        (s.completedWith { fresh 0 with evt := setEvt s.inst.evt .allocFail })) ∧
    ∀ (cap : BitVec 20) (k : Nat),
      s.dutyEntry (fresh cap) k = Config.freeDutyEntry s.past.length s.inst.id (s.inst.dutyGen + 1) k

/-! ## TRANSMIT -/

/-- R151, R297: with a null buffer or a zero length TRANSMIT waits for nothing and does nothing: its operands are
latched, EVT.NOOP_TX is set, it completes in the accepting cycle, for both strategies and whatever ACTIVE is. -/
def Obligations.TransmitNoop : Prop :=
  ∀ (buf : Addr) (len : Count) (dly : Time32) (s : State), buf = 0 ∨ len = 0 →
    exec (.transmit buf len dly) s = .next
      (s.completedWith { s.inst with buf := buf, len := len, dly := dly, evt := setEvt s.inst.evt .noopTx })

/-- R24, R94, R131, R300: any other TRANSMIT with ACTIVE = 0 latches its operands and is at its latch wait; a buffer
that wraps the address space is refused (R62). Rests on the model's choices: log 13, log 17, log 23. -/
def Obligations.TransmitReachesTheLatchWait : Prop :=
  ∀ (buf : Addr) (len : Count) (dly : Time32) (s : State), buf ≠ 0 → len ≠ 0 →
    (buf.toNat + len.toNat ≤ 2 ^ 32 → s.inst.active = false →
      exec (.transmit buf len dly) s =
        .next { s with inst := { s.inst with buf := buf, len := len, dly := dly, fsm := .waitLatch, cmd := .transmit, waitStart := s.t } }) ∧
    (2 ^ 32 < buf.toNat + len.toNat → exec (.transmit buf len dly) s = .refused .bufferWraps)

/-- R96: a command word with opcode 0x0 or 0x6 to 0xF is a reserved one, and every reserved one sets EVT.BAD_CMD,
changes nothing else and completes in the accepting cycle. -/
def Obligations.ReservedOpcodesOnlySetBadCmd : Prop :=
  (∀ (op : BitVec 4) (a b c : BitVec 32), op = 0x0#4 ∨ 0x6#4 ≤ op → decodeCmd (cmdWord op a b c) ∈ reservedInstrs) ∧
  ∀ (s : State), ∀ i ∈ reservedInstrs,
    exec i s = .next (s.completedWith { s.inst with evt := setEvt s.inst.evt .badCmd })

/-! ## Wire symbols of the bit-bang engine -/

/-- R98, R150, R154: when nothing stalls, SYM0 and SYM1 put the line high for T0H or T1H cycles and then low for T0L or
T1L, with nothing between; only the pin's output bit, FSM, BIT_START under CYCCMP (R156) and BAD_PIN for a pin that does
not resolve change; the lines of parked instances are recorded beside it. Of a line no PWM unit drives. That both phases are one step, so that another
user's move stamped inside the bit comes after it, is the model's choice (log 5). Rests on the model's choices: log 5, log 31. -/
def Obligations.SymbolHoldsBothPhases : Prop :=
  ∀ (s : State) (b : Bool), s.unstalled → s.noUnitOn s.inst.pin → s.inst.cfg.wf s.plat = true →
    let high := if b then s.inst.cfg.desc.t1h else s.inst.cfg.desc.t0h
    let low := if b then s.inst.cfg.desc.t1l else s.inst.cfg.desc.t0l
    exec (if b then .sym1 else .sym0) s = .next { s with
      t := s.t + high + low
      inst := { s.inst with
        fsm := .bbLow
        evt := pinEvt s.plat.nPins s.inst.evt s.inst.pin
        bitStart := match s.inst.cfg.holdKind with
          | .counted => s.inst.bitStart
          | .cyccmp => cycAt (s.t + high) }
      gpio := gpioUpdate s.plat.nPins s.gpio s.inst.pin (fun q => { q with out := false })
      obs := { s.obs with wave := s.obs.wave ++
        ({ pin := s.inst.pin, start := s.t, level := s.shown true, cycles := high } :: s.parkedSegs s.t (s.t + high) ++
         { pin := s.inst.pin, start := s.t + high, level := s.shown false, cycles := low } ::
           s.parkedSegs (s.t + high) (s.t + high + low)) } }

/-- R154 to R156: under any stall set each phase of a symbol is over in the first unstalled cycle after it has held its
cycles: n unstalled cycles under COUNTED, CYC n past the phase's start under CYCCMP. With requests that end, there is such
a cycle; in a phase no cycle ends the engine is stuck. Of a line no PWM unit drives. That both phases are one step, so that another user's
move stamped inside the bit comes after it, is the model's choice (log 5), and so is that the lines of parked instances are recorded
beside it (log 31). Rests on the model's choices: log 5, log 23, log 25, log 31. -/
def Obligations.SymbolPhasesUnderStalls : Prop :=
  ∀ (s : State) (b : Bool), s.noUnitOn s.inst.pin → s.inst.cfg.wf s.plat = true →
    let high := if b then s.inst.cfg.desc.t1h else s.inst.cfg.desc.t0h
    let low := if b then s.inst.cfg.desc.t1l else s.inst.cfg.desc.t0l
    let after (f : Fsm) (out : Bool) (since c : Nat) (st : Bool) (segs : List Seg) : State := { s with
      t := c
      inst := { s.inst with
        fsm := f
        evt := pinEvt s.plat.nPins s.inst.evt s.inst.pin
        stuck := st
        bitStart := match s.inst.cfg.holdKind with
          | .counted => s.inst.bitStart
          | .cyccmp => cycAt since }
      gpio := gpioUpdate s.plat.nPins s.gpio s.inst.pin (fun q => { q with out := out })
      obs := { s.obs with wave := s.obs.wave ++ segs } }
    (∀ t1 t2, s.phaseOver high s.t t1 → s.phaseOver low t1 t2 → s.t < t1 ∧ t1 < t2 ∧
      exec (if b then .sym1 else .sym0) s =
        .next (after .bbLow false t1 t2 s.inst.stuck (s.shownSegs true s.t t1 ++ s.shownSegs false t1 t2))) ∧
    ((∀ t1, ¬ s.phaseOver high s.t t1) →
      exec (if b then .sym1 else .sym0) s =
        .next (after .bbHigh true s.t (s.t + 1) true (s.shownSegs true s.t (s.t + 1)))) ∧
    (∀ t1, s.phaseOver high s.t t1 → (∀ t2, ¬ s.phaseOver low t1 t2) →
      exec (if b then .sym1 else .sym0) s =
        .next (after .bbLow false t1 (t1 + 1) true (s.shownSegs true s.t t1 ++ s.shownSegs false t1 (t1 + 1)))) ∧
    ((∀ w ∈ s.nmi ++ s.irq, w.period = 0) → ∃ t1 t2, s.phaseOver high s.t t1 ∧ s.phaseOver low t1 t2)

/-- R17: an action takes effect in the smallest unstalled cycle; `hold_counted(n)` ends at the smallest T' such that [T,
T') holds exactly n cycles that are not in S, and at T + n when S is empty; where the model finds no such cycle there is
none. Rests on the model's choices: log 23. -/
def Obligations.HoldCountedHoldsExactly : Prop :=
  ∀ (s : State) (n t : Nat),
    (∀ e, holdCounted s.blockers n t = some e ↔
      t ≤ e ∧ s.freeCycles t e = n ∧ ∀ c, t ≤ c → c < e → s.freeCycles t c < n) ∧
    (holdCounted s.blockers n t = none ↔ ∀ e, t ≤ e → s.freeCycles t e < n) ∧
    (s.unstalled → holdCounted s.blockers n t = some (t + n)) ∧
    (∀ c, nextFree s.blockers t = some c ↔ t ≤ c ∧ ¬ s.blocked c ∧ ∀ k, t ≤ k → k < c → s.blocked k) ∧
    (nextFree s.blockers t = none ↔ ∀ c, t ≤ c → s.blocked c)

/-! ## Wire symbols of the fallback engine -/

/-- R101, R220, R223: when nothing stalls, the fallback engine's symbols are high for FB_T0H or FB_T1H cycles and low
for the rest of FB_PERIOD, both measured from BIT_START; the lines of parked instances are recorded beside it. Of a
line no PWM unit drives. That both parts are one step, so that another user's move stamped inside the bit comes after it, is the
model's choice (log 5). Rests on the model's choices: log 5, log 31. -/
def Obligations.FallbackSymbolFillsThePeriod : Prop :=
  ∀ (s : State) (b : Bool), s.unstalled → s.noUnitOn s.inst.pin → s.inst.cfg.cp.fbWf = true →
    let hb := if b then s.inst.cfg.cp.fbT1H else s.inst.cfg.cp.fbT0H
    let t2 := s.t + s.inst.cfg.cp.fbPeriod
    exec (if b then .fbSym1 else .fbSym0) s = .next { s with
      t := t2
      inst := { s.inst with
        fsm := .fbLow, evt := pinEvt s.plat.nPins s.inst.evt s.inst.pin, bitStart := cycAt s.t }
      gpio := gpioUpdate s.plat.nPins s.gpio s.inst.pin (fun q => { q with out := false })
      obs := { s.obs with wave := s.obs.wave ++
        ({ pin := s.inst.pin, start := s.t, level := s.shown true, cycles := hb } :: s.parkedSegs s.t (s.t + hb) ++
         { pin := s.inst.pin, start := s.t + hb, level := s.shown false, cycles := s.inst.cfg.cp.fbPeriod - hb } ::
           s.parkedSegs (s.t + hb) t2) } }

/-- R223, R231 (a) to (d): under any stall set the high part ends in the first unstalled cycle with CYC at least the
high time past BIT_START, the bit in the first unstalled cycle from there on with CYC at least FB_PERIOD past it; a part
of no cycles puts nothing on the line. With requests that end, there are such cycles; in a part no cycle ends the engine
is stuck. Of a line no PWM unit drives. That both parts are one step, so that another user's move stamped inside the bit comes after
it, is the model's choice (log 5), and so is that the lines of parked instances are recorded beside it (log 31). Rests on the
model's choices: log 5, log 23, log 25, log 31. -/
def Obligations.FallbackSymbolUnderStalls : Prop :=
  ∀ (s : State) (b : Bool), s.noUnitOn s.inst.pin → s.inst.cfg.cp.fbWf = true →
    let hb := if b then s.inst.cfg.cp.fbT1H else s.inst.cfg.cp.fbT0H
    let after (f : Fsm) (out : Bool) (c : Nat) (st : Bool) (segs : List Seg) : State := { s with
      t := c
      inst := { s.inst with
        fsm := f, evt := pinEvt s.plat.nPins s.inst.evt s.inst.pin, bitStart := cycAt s.t, stuck := st }
      gpio := gpioUpdate s.plat.nPins s.gpio s.inst.pin (fun q => { q with out := out })
      obs := { s.obs with wave := s.obs.wave ++ segs } }
    (∀ t1 t2, s.firstPast s.t hb s.t t1 → s.firstPast s.t s.inst.cfg.cp.fbPeriod t1 t2 →
      exec (if b then .fbSym1 else .fbSym0) s =
        .next (after .fbLow false t2 s.inst.stuck (s.shownSegs true s.t t1 ++ s.shownSegs false t1 t2))) ∧
    ((∀ t1, ¬ s.firstPast s.t hb s.t t1) →
      exec (if b then .fbSym1 else .fbSym0) s =
        .next (after .fbHigh true (s.t + 1) true (s.shownSegs true s.t (s.t + 1)))) ∧
    (∀ t1, s.firstPast s.t hb s.t t1 → (∀ t2, ¬ s.firstPast s.t s.inst.cfg.cp.fbPeriod t1 t2) →
      exec (if b then .fbSym1 else .fbSym0) s =
        .next (after .fbLow false (t1 + 1) true (s.shownSegs true s.t t1 ++ s.shownSegs false t1 (t1 + 1)))) ∧
    ((∀ w ∈ s.nmi ++ s.irq, w.period = 0) →
      ∃ t1 t2, s.firstPast s.t hb s.t t1 ∧ s.firstPast s.t s.inst.cfg.cp.fbPeriod t1 t2)

/-! ## The PWM units -/

/-- R195, R200: a configured unit plays a data bit as h0 or h1 high cycles and low cycles for the rest of W, a
terminator as W low cycles, from the start of the entry's interval on, and goes on to the next entry; on a pin that does
not resolve no line changes (R202 (h)). Rests on the model's choices: log 32. -/
def Obligations.PwmSymbolFillsItsInterval : Prop :=
  ∀ (s : State) (u : Nat) (w : PwmUnit), s.inst.unit = some u → s.pwmAt u = some w → w.pselConnected = true →
    s.inst.cfg.cp.dutyWf = true → 1 ≤ s.inst.cfg.prescale.toNat → w.prescaler = s.inst.cfg.prescale →
    w.top = s.inst.cfg.cp.top →
    let period := s.inst.cfg.cp.top.toNat * s.inst.cfg.prescale.toNat
    let after (segs : List Seg) : State := { s with
      pwm := s.pwm.set u { w with pos := w.pos + 1, fetched := none, due := w.due + period }
      obs := { s.obs with wave := s.obs.wave ++ if w.pselPin.toNat < s.plat.nPins then segs else [] } }
    (∀ b : Bool,
      let high := (cmpOf (if b then s.inst.cfg.cp.duty1 else s.inst.cfg.cp.duty0)).toNat * s.inst.cfg.prescale.toNat
      exec (if b then .pwmSym1 else .pwmSym0) s = .next (after (symbolSegs w.pselPin w.due high (period - high)))) ∧
    exec .pwmTerm s =
      .next (after [{ pin := w.pselPin, start := w.due, level := .l, cycles := period }])

/-- R102 to R104, R46 (a): a duty entry read by the DMA of the claimed unit is held by it as the 16 bits it is. Rests on
the model's choices: log 2. -/
def Obligations.DutyEntryIsFetchedWhole : Prop :=
  ∀ (s : State) (u : Nat) (w : PwmUnit) (cmp : BitVec 15), s.inst.unit = some u → s.pwmAt u = some w →
    let after (e : Entry) : State := { s with pwm := s.pwm.set u { w with fetched := some e } }
    exec (.dutyZero cmp) s = .next (after (dutyWord 1#1 cmp)) ∧
    exec (.dutyOne cmp) s = .next (after (dutyWord 1#1 cmp)) ∧
    exec .dutyTerm s = .next (after 0x8000#16)

/-- R105, R107: a playback that reads an entry with bit 15 = 0 is refused, and no instance can be built with a reserved
tag. -/
def Obligations.ReservedEncodingsAreRefused : Prop :=
  ∀ s : State, (∀ cmp : BitVec 15, exec (.dutyReserved cmp) s = .refused .reservedDutyEntry) ∧
    exec .typeReserved6 s = .refused .reservedTypeTag ∧ exec .typeReserved7 s = .refused .reservedTypeTag

/-- R195: whatever stalls the sequencer, a unit at the start of its interval reads the entry SEQ_PTR + j of its
instance's duty RAM, which is the one written there where one is, and plays it over W cycles: high for the first CMP x
PRESCALER cycles, low for the rest; a part of no cycles, an unconnected unit and a pin that does not resolve put nothing
on a line. Rests on the model's choices: log 8, log 32. -/
def Obligations.UnitPlaysTheEntryItReads : Prop :=
  ∀ (s : State) (u : Nat) (w : PwmUnit) (i : Inst),
    s.nextRst = none → s.envDue = none → s.unitDue = some (u, w) → s.owner u = some i → i.unit = some u →
    w.pos < w.seqCnt.toNat → w.fetched = none →
    let j := w.seqPtr.toNat + w.pos
    let e := s.dutyEntry i j
    let period := w.top.toNat * w.prescaler.toNat
    let high := min ((cmpOf e).toNat * w.prescaler.toNat) period
    (∀ x, Sparse.read j i.duty = some x → e = x) ∧
    (polarity e = false → step s = .refused .reservedDutyEntry) ∧
    (polarity e = true →
      ∃ m, step s = .next m ∧ m = { s with pwm := s.pwm.set u { w with fetched := some e } } ∧
        step m = .next { s with
          pwm := s.pwm.set u { w with pos := w.pos + 1, fetched := none, due := w.due + period }
          obs := { s.obs with
            wave := s.obs.wave ++ (if w.pselConnected = true ∧ w.pselPin.toNat < s.plat.nPins then
              (symbolSegs w.pselPin w.due high (period - high)).filter (fun g => decide (0 < g.cycles)) else []) } })

/-- R196, R285, R287: at the end of its sequence a unit stops, showing low since then, and its event is pending; nothing
else changes, and it does not loop. Rests on the model's choices: log 32. -/
def Obligations.UnitStopsAtSequenceEnd : Prop :=
  ∀ (s : State) (u : Nat) (w : PwmUnit),
    s.nextRst = none → s.envDue = none → s.unitDue = some (u, w) → w.seqCnt.toNat ≤ w.pos →
    step s = .next { s with
      pwm := s.pwm.set u { w with run := false }
      pend := s.pend.set u true
      obs := { s.obs with
        wave := s.obs.wave ++ (if w.pselConnected = true ∧ w.pselPin.toNat < s.plat.nPins ∧ w.due < s.t then
          [{ pin := w.pselPin, start := w.due, level := .l, cycles := s.t - w.due }] else []) } }

/-! ## The SEQEND handler -/

/-- R288, R289: the handler of the lowest pending unit runs in an unstalled cycle with no IRQ_MASK = 1, and in the first
one: while PEND is set and nothing is masked no step lets time pass beyond it. It clears PEND; for a unit of an instance it
also clears RUN and that instance's ACTIVE, running or parked, and nothing else. -/
def Obligations.SeqendHandlerClearsActive : Prop :=
  (∀ (s s' : State) (c : Nat), true ∈ s.pend → s.masked = false → step s = .next s' → s'.past = s.past →
    s.t ≤ c → ¬ s.blocked c → s'.t ≤ c) ∧
  ∀ (s : State) (u : Nat), s.nextRst = none → s.envDue = none → s.unitDue = none → s.handlerDue = some u →
    s.stalled = false ∧ s.masked = false ∧ s.pendAt u = true ∧ (∀ v, v < u → s.pendAt v = false) ∧
    (s.registryAt u = none → step s = .next { s with pend := s.pend.set u false }) ∧
    ∀ id w, s.registryAt u = some id → s.pwmAt u = some w →
      step s = .next { s with
        pend := s.pend.set u false
        pwm := s.pwm.set u { w with run := false }
        inst := if s.inst.id = id then { s.inst with active := false } else s.inst
        peers := if s.inst.id = id then s.peers
          else s.peers.map (fun i => if i.id = id then { i with active := false } else i) }

/-! ## Building an instance -/

/-- R9, R106, R320: a type tag builds the instance with that chipset's row of the table, in the state after reset; the
host's memory stays. Where no instance can be built with that row the tag is refused (R107, U6). Rests on the model's
choices: log 19, log 20. -/
def Obligations.TypeTagBuildsTheInstance : Prop :=
  ∀ (s : State) (c : Chip),
    (({ s.inst.cfg with chip := c } : Config).wf s.plat = false → exec (typeInstr c) s = .refused .illFormedConfig) ∧
    (({ s.inst.cfg with chip := c } : Config).wf s.plat = true →
    ∃ t, exec (typeInstr c) s = .next t ∧ t.plat = s.plat ∧ t.mem = s.mem ∧ t.host = s.host ∧ t.t = 0 ∧
      t.inst = Inst.reset s.inst.id { s.inst.cfg with chip := c } ∧ t.inst.cfg.desc = s.inst.cfg.table.row c ∧
      t.peers = s.peers.map (fun i => Inst.reset i.id i.cfg) ∧
      t.gpio = List.replicate s.plat.nPins PinState.reset ∧ t.pwm = List.replicate s.plat.nPwm PwmUnit.reset ∧
      t.registry = List.replicate s.plat.nPwm none ∧ t.pend = List.replicate s.plat.nPwm false)

/-- R108, R246, R250: an order code builds the instance with that channel order in its descriptor, every other constant
as it was; the RGBW chipset takes no other order. Rests on the model's choices: log 20. -/
def Obligations.OrderCodeOnlyEntersTheOrder : Prop :=
  ∀ (s : State) (o : Order), s.inst.cfg.wf s.plat = true →
    (s.inst.cfg.chip ≠ .sk6812rgbw ∨ o = .rgbw →
      ∃ t, exec (orderInstr o) s = .next t ∧ t.plat = s.plat ∧ t.mem = s.mem ∧ t.host = s.host ∧ t.t = 0 ∧
        t.inst = Inst.reset s.inst.id t.inst.cfg ∧ t.inst.cfg.desc = { s.inst.cfg.desc with order := o } ∧
        t.inst.cfg = { s.inst.cfg with table := t.inst.cfg.table } ∧
        (∀ c, c ≠ s.inst.cfg.chip → t.inst.cfg.table.row c = s.inst.cfg.table.row c) ∧
        ∀ b, bbSymbol t.inst.cfg b = bbSymbol s.inst.cfg b ∧ fbSymbol t.inst.cfg b = fbSymbol s.inst.cfg b ∧
          pwmSymbol t.inst.cfg b = pwmSymbol s.inst.cfg b) ∧
    (s.inst.cfg.chip = .sk6812rgbw → o ≠ .rgbw → exec (orderInstr o) s = .refused .illFormedConfig)

/-! ## One step -/

/-- A step runs the decoded instruction: the host's command word in an idle instance (R91), the tag or code it builds
with, the duty entry the DMA reads (R195), the current bit's symbol in an engine (R150, R220), the entry a unit plays
(R200). Rests on the model's choices: log 2. -/
def Obligations.StepRunsTheDecodedInstruction : Prop :=
  (∀ (s : State) (w : CmdWord) (r : List HostMove), s.freeTurn → s.inst.fsm = .idle → s.done = false →
    s.host = .cmd w :: r → step s = exec (decodeCmd w) { s with host := r }) ∧
  (∀ (s : State) (r : List HostMove), s.sequencerTurn → s.inst.fsm = .idle → s.done = false →
    (∀ w, s.host = .chip w :: r → step s = exec (decodeChip w) { s with host := r }) ∧
    ∀ w, s.host = .order w :: r → step s = exec (decodeOrder w) { s with host := r }) ∧
  (∀ s : State, s.freeTurn → s.inst.bitIx ≠ 7 →
    (s.inst.fsm = .bbHigh → step s = exec (if s.inst.curBit then .sym1 else .sym0) s) ∧
    (s.inst.fsm = .fbHigh → step s = exec (if s.inst.curBit then .fbSym1 else .fbSym0) s)) ∧
  ∀ (s : State) (u : Nat) (w : PwmUnit) (i : Inst),
    s.nextRst = none → s.envDue = none → s.unitDue = some (u, w) → w.pos < w.seqCnt.toNat → s.owner u = some i →
    (w.fetched = none →
      step s = s.asInst i.id (exec (decodeDuty i.cfg.cp.duty1 (s.dutyEntry i (w.seqPtr.toNat + w.pos))))) ∧
    ∀ e k, w.fetched = some e → symbolOf i.cfg e = some k → step s = s.asInst i.id (exec k)

/-- R153, R224, R62: at bit 7 the engine reads the byte at BUF + BYTE_IX, and sends its bit 7, in the same cycle; the
byte is the one the host wrote there. -/
def Obligations.ByteIsReadAtBitSeven : Prop :=
  ∀ s : State, s.freeTurn → s.inst.bitIx = 7 → s.inst.buf.toNat + s.inst.byteIx.toNat < 2 ^ 32 →
    let byte := s.memRead (s.inst.buf.toNat + s.inst.byteIx.toNat)
    let read : State := { s with inst := { s.inst with cur := byte } }
    (s.inst.fsm = .bbHigh → step s = exec (if byte.getLsbD 7 then .sym1 else .sym0) read) ∧
    (s.inst.fsm = .fbHigh → step s = exec (if byte.getLsbD 7 then .fbSym1 else .fbSym0) read) ∧
    ∀ b, Memory.read s.mem (s.inst.buf.toNat + s.inst.byteIx.toNat) = some b → byte = b

/-- R30, R99, R157, R225: after the low phase the next bit follows in the same cycle; after the last bit the bit-bang
engine closes the mask, stamps and completes, the fallback engine closes the mask and makes its check. (doneAt: the cycle of `done`,
log 3.) -/
def Obligations.NextBitFollowsAtOnce : Prop :=
  ∀ s : State, s.freeTurn →
    let next (f : Fsm) : State :=
      if s.inst.bitIx = 0 then { s with inst := { s.inst with byteIx := s.inst.byteIx + 1, bitIx := 7, fsm := f } }
      else { s with inst := { s.inst with bitIx := s.inst.bitIx - 1, fsm := f } }
    let last := s.inst.bitIx = 0 ∧ s.inst.len.toNat ≤ s.inst.byteIx.toNat + 1
    (s.inst.fsm = .bbLow →
      (¬ last → step s = .next (next .bbHigh)) ∧
      (last → step s = .next
        { s with
          inst := { s.inst with
            irqMask := false, unmaskedAt := some s.t, endTime := s.us, fsm := .idle, cmd := .none, doneAt := some s.t }
          obs := { s.obs with
            masks := s.obs.masks ++ [{ id := s.inst.id, start := s.inst.maskSince, stop := s.t }]
            dones := s.obs.dones ++ [{ id := s.inst.id, cycle := s.t }] } })) ∧
    (s.inst.fsm = .fbLow →
      (¬ last → step s = .next (next .fbHigh)) ∧
      (last → step s = .next
        { s with
          inst := { s.inst with irqMask := false, unmaskedAt := some s.t, fsm := .fbCheck }
          obs := { s.obs with
            masks := s.obs.masks ++ [{ id := s.inst.id, start := s.inst.maskSince, stop := s.t }] } }))

/-! ## The latch timer -/

/-- R17, R131, R132: the latch wait is over once US has been at least DLY past END_TIME since it began, and ends in the first
unstalled cycle from there on; until then only time passes, in steps that end there or where another agent acts (R288), and with
the condition met on entry no cycle passes. Rests on the model's choices: log 23, log 25. -/
def Obligations.LatchWaitEndsAtTheFirstChance : Prop :=
  ∀ s : State, s.sequencerTurn → s.inst.fsm = .waitLatch → 0 < s.plat.m →
    let open_ (c : Nat) : Prop :=
      ∃ k, s.inst.waitStart ≤ k ∧ k ≤ c ∧ s.inst.dly.toNat ≤ (usAt s.plat.m k - s.inst.endTime).toNat
    (¬ open_ s.t → ∃ c, s.t < c ∧ step s = .next (s.passTo c) ∧
      (∀ k, s.t ≤ k → k < c → s.blocked k ∨ ¬ open_ k) ∧ (∀ e ∈ s.nextEvents, c ≤ e) ∧
      (open_ c ∧ ¬ s.blocked c ∨ c ∈ s.nextEvents ∨ ∀ k, s.t ≤ k → s.blocked k ∨ ¬ open_ k)) ∧
    (open_ s.t → s.stalled = false →
      (s.inst.cfg.strategy = .bitbang →
        step s = .next { s with
          inst := { s.inst with irqMask := true, maskSince := s.t, fsm := .bbHigh, byteIx := 0, bitIx := 7 } }) ∧
      (s.inst.cfg.strategy = .pwmdma → step s = .next s.startPwm))

/-- R132 (c), R136 to R138, R329: a step that leaves WAIT_LATCH, and with it starts the frame, is made in a cycle at least
(DLY - 1) x M + 1 after the cycle t0 of the stamp in END_TIME, made before the wait began, whatever the counters have wrapped; with END_TIME = 0, its
reset value, in no cycle before DLY x M. (A reset leaves WAIT_LATCH too, and starts no frame.) The cycle the wait began in is a field of the
model's own (log 23). -/
def Obligations.LatchSilenceIsKept : Prop :=
  ∀ s s' : State, s'.past = s.past → s.inst.fsm = .waitLatch → step s = .next s' → s'.inst.fsm ≠ .waitLatch →
    0 < s.plat.m → 1 ≤ s.inst.dly.toNat →
    s'.t = s.t ∧
    (∀ t0, t0 ≤ s.inst.waitStart → s.inst.endTime = usAt s.plat.m t0 → (s.inst.dly.toNat - 1) * s.plat.m + 1 ≤ s.t - t0) ∧
    (s.inst.endTime = State.reset.inst.endTime → s.inst.dly.toNat * s.plat.m ≤ s.t)

/-! ## The expander -/

/-- R188 to R190, R220, R221, R297: when the latch wait is over on a PWMDMA instance, a sequence too long for the buffer
takes the fallback; else the lowest unit with ENABLE = 0 and PSEL disconnected is claimed; with none, EVT.NO_PWM and the
fallback. Rests on the model's choices: log 14. -/
def Obligations.ExpanderClaimsOrFallsBack : Prop :=
  ∀ s : State, s.freeTurn → s.inst.fsm = .waitLatch → s.inst.cfg.strategy = .pwmdma → s.latchOpen = true →
    let fallback (evt : BitVec 8) : State := { s with
      inst := { s.inst with
        evt := setEvt evt .fallback, retries := 0, irqMask := true, maskSince := s.t, cycStart := cycAt s.t
        fsm := .fbHigh, byteIx := 0, bitIx := 7 } }
    let seq := 8 * s.inst.len.toNat + s.inst.cfg.termN
    (s.inst.dutyCap.toNat < seq → step s = .next (fallback s.inst.evt)) ∧
    (seq ≤ s.inst.dutyCap.toNat → (∀ w ∈ s.pwm, w.enable = true ∨ w.pselConnected = true) →
      step s = .next (fallback (setEvt s.inst.evt .noPwm))) ∧
    ∀ u w, seq ≤ s.inst.dutyCap.toNat → s.pwmAt u = some w → w.enable = false → w.pselConnected = false →
      (∀ v w', v < u → s.pwmAt v = some w' → w'.enable = true ∨ w'.pselConnected = true) →
      step s = .next { s with
        pwm := s.pwm.set u { w with enable := true }, inst := { s.inst with unit := some u, fsm := .encoding } }

/-- R191: after ENCODING, DUTY[8 i + 7 - k] is DUTY1 or DUTY0 of the class as bit k of byte i is 1 or 0, the terminators
follow, and every other entry is as it was. -/
def Obligations.EncodingWritesTheSequence : Prop :=
  ∀ s : State,
    (∀ (i : Nat) (k : Fin 8), i < s.inst.len.toNat →
      Sparse.read (8 * i + (7 - k.val)) s.encode.inst.duty =
        some (if (s.memRead (s.inst.buf.toNat + i)).getLsbD k.val then s.inst.cfg.cp.duty1 else s.inst.cfg.cp.duty0)) ∧
    (∀ j, j < s.inst.cfg.termN → Sparse.read (8 * s.inst.len.toNat + j) s.encode.inst.duty = some 0x8000#16) ∧
    ∀ j, 8 * s.inst.len.toNat + s.inst.cfg.termN ≤ j → Sparse.read j s.encode.inst.duty = Sparse.read j s.inst.duty

/-- R192 to R194, R288: ENCODING ends after E unstalled cycles with the sequence written, the claimed unit configured for
the pin and the whole sequence, ACTIVE = 1, the registry naming the instance, and the unit running from that cycle; where
another agent acts before, only time passes to it. Rests on the model's choices: log 9. -/
def Obligations.EncodingConfiguresAndStarts : Prop :=
  ∀ (s : State) (u : Nat) (w : PwmUnit) (c : Nat), s.freeTurn → s.inst.fsm = .encoding → s.inst.unit = some u →
    s.pwmAt u = some w → s.inst.buf.toNat + s.inst.len.toNat ≤ 2 ^ 32 →
    8 * s.inst.len.toNat + s.inst.cfg.termN ≤ s.inst.dutyCap.toNat → s.encodingEnd = some c →
    (s.inst.encEnd = none → s.t ≤ c ∧ ¬ s.blocked c ∧ s.freeCycles s.t c = s.encodingTime) ∧
    ((∀ e ∈ s.nextEvents, c < e) → ∃ t, step s = .next t ∧ t.t = max s.t c ∧
      t.pwm = s.pwm.set u
        { w with
          enable := true, prescaler := s.inst.cfg.prescale, top := s.inst.cfg.cp.top, playcnt := 1, seqPtr := 0
          seqCnt := BitVec.ofNat 20 (8 * s.inst.len.toNat + s.inst.cfg.termN), pselConnected := true
          pselPin := s.inst.pin, run := true, pos := 0, fetched := none
          start := max s.t c, due := max s.t c } ∧
      t.registry = s.registry.set u (some s.inst.id) ∧ t.gpio = s.gpio ∧ t.mem = s.mem ∧ t.peers = s.peers ∧
      t.pend = s.pend ∧ t.host = s.host ∧ t.plat = s.plat ∧ t.obs = (s.passTo c).obs ∧
      t.inst = { s.inst with
        active := true, fsm := .playing, evt := pinEvt s.plat.nPins s.inst.evt s.inst.pin
        duty := s.encode.inst.duty, encEnd := none, cur := s.encode.inst.cur }) ∧
    ∀ e ∈ s.nextEvents, e ≤ c → ∃ t, step s = .next t ∧ s.t < t.t ∧ t.t ≤ e ∧ t.inst = { s.inst with encEnd := some c } ∧
      t.obs = (s.passTo t.t).obs ∧ t.pwm = s.pwm ∧ t.registry = s.registry ∧ t.gpio = s.gpio ∧ t.mem = s.mem ∧
      t.peers = s.peers ∧ t.pend = s.pend ∧ t.host = s.host ∧ t.plat = s.plat

/-- R197 to R200, R188, R306: while ACTIVE is set a playing instance, unless the host turns to another, only lets time pass, in
steps that end where another agent acts; when it is clear the instance tears its unit down (disconnected, its pin field any value,
disabled, out of the registry, no longer claimed), stamps and completes: the running one in two steps that take no cycle, a parked
one in one, in an unstalled cycle in which the running one is IDLE or PLAYING, whatever the host does, and in the first one: no step
from such a state lets time pass beyond it. Nothing else changes, and no register of another instance. The contents of the duty RAM
are unspecified from then on (U11). Rests on the model's choices: log 3 (doneAt), log 8, log 18, log 34. -/
def Obligations.CompletionTearsDown : Prop :=
  (∀ (s s' : State) (c : Nat), (s.inst.fsm = .idle ∨ s.inst.fsm = .playing) →
    (∃ i ∈ s.peers, i.fsm = .playing ∧ i.active = false) → step s = .next s' → s'.past = s.past →
    s.t ≤ c → ¬ s.blocked c → s'.t ≤ c) ∧
  (∀ s : State, s.nextRst = none → s.envDue = none → s.unitDue = none → s.handlerDue = none → s.stalled = false →
    (s.inst.fsm = .idle ∨ s.inst.fsm = .playing) → (∃ i ∈ s.peers, i.fsm = .playing ∧ i.active = false) →
    ∃ i ∈ s.peers, i.fsm = .playing ∧ i.active = false ∧ ∀ u w, i.unit = some u → s.pwmAt u = some w →
      step s = .next { s with
        peers := s.peers.map (fun j => if j.id = i.id then
          { i with
            unit := none, endTime := s.us, fsm := .idle, cmd := .none, doneAt := some s.t, duty := []
            dutyGen := i.dutyGen + 1 } else j)
        pwm := s.pwm.set u { w with pselConnected := false, pselPin := Config.freePselPin s.drawCtr, enable := false }
        drawCtr := s.drawCtr + 1
        registry := s.registry.set u none
        obs := { s.obs with dones := s.obs.dones ++ [{ id := i.id, cycle := s.t }] } }) ∧
  (∀ s : State, s.sequencerTurn → s.inst.fsm = .playing → s.inst.active = true → (∀ id r, s.host ≠ .select id :: r) →
    s.passesOn) ∧
  ∀ s : State, s.freeTurn →
    (s.inst.fsm = .playing → s.inst.active = false → step s = .next { s with inst := { s.inst with fsm := .completion } }) ∧
    ∀ u w, s.inst.fsm = .completion → s.inst.unit = some u → s.pwmAt u = some w →
      step s = .next
        { s.completedWith { s.inst with unit := none, endTime := s.us, duty := [], dutyGen := s.inst.dutyGen + 1 } with
          pwm := s.pwm.set u { w with pselConnected := false, pselPin := Config.freePselPin s.drawCtr, enable := false }
          drawCtr := s.drawCtr + 1
          registry := s.registry.set u none }

/-! ## The fallback's self-check -/

/-- R226 to R229: the attempt fails exactly when 4 ELAPSED > 5 EXPECTED; a pass stamps and completes, a failure with
resends left sets EVT.RESEND, counts and backs off, a failure with none left sets EVT.RETRY_EXHAUSTED, stamps and
completes. The cycle the backoff begins in is a field of the model's own (log 23). -/
def Obligations.SelfCheckAt125Percent : Prop :=
  ∀ s : State, s.freeTurn → s.inst.fsm = .fbCheck →
    let elapsed := (cycAt s.t - s.inst.cycStart).toNat
    let expected := 8 * s.inst.len.toNat * s.inst.cfg.cp.fbPeriod
    (4 * elapsed ≤ 5 * expected → step s = .next (s.completedWith { s.inst with endTime := s.us })) ∧
    (5 * expected < 4 * elapsed → s.inst.cfg.retryLimit ≠ some s.inst.retries →
      step s = .next { s with
        inst := { s.inst with
          evt := setEvt s.inst.evt .resend, retries := s.inst.retries + 1, backoffStart := s.us, waitStart := s.t
          fsm := .fbBackoff } }) ∧
    (5 * expected < 4 * elapsed → s.inst.cfg.retryLimit = some s.inst.retries →
      step s = .next (s.completedWith { s.inst with evt := setEvt s.inst.evt .retryExhausted, endTime := s.us }))

/-- R17, R228, R225, R301: in the backoff only time passes, until the first unstalled cycle from the one on in which US is first
BACKOFF_US past the check, in steps that end there or where another agent acts (R288); then a whole new attempt begins
with a new masked window and a new CYC_START. Rests on the model's choices: log 23, log 25. -/
def Obligations.BackoffThenAWholeNewAttempt : Prop :=
  ∀ s : State, s.sequencerTurn → s.inst.fsm = .fbBackoff → 0 < s.plat.m → s.inst.cfg.backoffUs < 2 ^ 32 →
    let past (c : Nat) : Prop :=
      ∃ k, s.inst.waitStart ≤ k ∧ k ≤ c ∧ s.inst.cfg.backoffUs ≤ (usAt s.plat.m k - s.inst.backoffStart).toNat
    (¬ past s.t → ∃ c, s.t < c ∧ step s = .next (s.passTo c) ∧
      (∀ k, s.t ≤ k → k < c → s.blocked k ∨ ¬ past k) ∧ (∀ e ∈ s.nextEvents, c ≤ e) ∧
      (past c ∧ ¬ s.blocked c ∨ c ∈ s.nextEvents ∨ ∀ k, s.t ≤ k → s.blocked k ∨ ¬ past k)) ∧
    (past s.t → s.stalled = false →
      step s = .next { s with
        inst := { s.inst with
          irqMask := true, maskSince := s.t, cycStart := cycAt s.t, fsm := .fbHigh, byteIx := 0, bitIx := 7 } })

/-! ## Stalls -/

/-- R291: inside a masked window only `nmi_req` stalls the sequencer; outside one `irq_req` does too, from the cycle
after the window closed (R293). The form of the requests is the model's (log 4), the cycle after the close too (log 21). -/
def Obligations.MaskKeepsIrqOut : Prop :=
  ∀ s : State,
    let raised (ws : List Window) : Prop := ∃ w ∈ ws, w.start ≤ s.t ∧ (s.t - w.start + w.phase) % w.period < w.len
    (s.masked = true → (s.stalled = true ↔ raised s.nmi)) ∧
    (s.masked = false → s.inst.unmaskedAt ≠ some s.t → (s.stalled = true ↔ raised (s.nmi ++ s.irq)))

/-- R17, R291: a stalled sequencer executes no action: its step only lets time pass, and not beyond the next event of another
agent; an action that only the stall holds up is made in the first unstalled cycle: the step lets stalled cycles pass, up to
that cycle or such an event. The host's waits and builds and the passing of the cycle of `done` are no actions of the sequencer; that a
command, a write or a turn at the head of the host's queue is not accepted in a stalled cycle is the model's choice (log
11). So is the step of an engine stuck in a phase no cycle ends (log 25). Rests on the model's choices: log 11, log 25,
log 31. -/
def Obligations.StalledSequencerOnlyLetsTimePass : Prop :=
  ∀ s : State,
    (∀ c, s.t < c → s.passTo c = { s with t := c, obs := { s.obs with wave := s.obs.wave ++ s.heldSegs s.t c } }) ∧
    (s.sequencerTurn → s.stalled = true →
      (s.inst.fsm = .idle → s.done = false ∧
        (s.host = [] ∨ (∃ w r, s.host = .cmd w :: r) ∨ (∃ a b r, s.host = .write a b :: r) ∨
          ∃ id r, s.host = .select id :: r)) →
      ∃ c, s.passesTo c ∧ (s.actionReady →
        (∀ k, s.t ≤ k → k < c → s.blocked k) ∧ (¬ s.blocked c ∨ c ∈ s.nextEvents ∨ ∀ k, s.t ≤ k → s.blocked k))) ∧
    (s.nextRst = none → s.envDue = none → s.unitDue = none → s.handlerDue = none → s.finisherDue = none → s.inst.stuck = true →
      s.passesOn)

/-! ## Whole-machine rules -/

/-- R61, R62, R77, R160: no step changes the pixel-buffer memory but the host's own write; that write lands in an idle,
unstalled instance's cycle, the byte is read back there and every other byte is as it was. That it waits for an unstalled
cycle is the model's choice (log 11). -/
def Obligations.PixelMemoryIsOnlyTheHosts : Prop :=
  (∀ s s' : State, step s = .next s' →
    s'.mem = s.mem ∨ ∃ a b, s.host.head? = some (.write a b) ∧ s.inst.fsm = .idle ∧ s'.mem = Memory.write s.mem a b) ∧
  ∀ (s : State) (a : Addr) (b : Byte) (r : List HostMove), s.freeTurn → s.inst.fsm = .idle → s.done = false →
    s.host = .write a b :: r → Memory.wf s.mem = true →
    ∃ t, step s = .next t ∧ t = { s with host := r, mem := t.mem } ∧ t.memRead a.toNat = b ∧
      ∀ k, k ≠ a.toNat → t.memRead k = s.memRead k

/-- R21: no step that is no build and no turn to another instance changes the constants of the running instance, and no
step at all those of the platform. -/
def Obligations.ConstantsStayConstant : Prop :=
  ∀ s s' : State, step s = .next s' →
    s'.plat = s.plat ∧
    (s.hostBuildsOrTurns = false → s'.inst.cfg = s.inst.cfg ∧ s'.inst.id = s.inst.id)

/-- R29, R79, R139: a step, but a reset or a turn to another instance, changes no register of an instance that is not the running
one, except that the SEQEND handler clears the ACTIVE of the one it names, and that a playing one whose ACTIVE is clear tears down,
stamps and completes (R197). -/
def Obligations.OtherInstancesKeepTheirRegisters : Prop :=
  ∀ s s' : State, s'.past = s.past → s.hostBuildsOrTurns = false → step s = .next s' →
    s'.peers = s.peers ∨
    (∃ u id, s.handlerDue = some u ∧ s.registryAt u = some id ∧
      s'.peers = s.peers.map (fun i => if i.id = id then { i with active := false } else i)) ∨
    ∃ i ∈ s.peers, i.fsm = .playing ∧ i.active = false ∧ s'.inst = s.inst ∧
      s'.peers = s.peers.map (fun j => if j.id = i.id then
        { i with
          unit := none, endTime := s.us, fsm := .idle, cmd := .none, doneAt := some s.t, duty := []
          dutyGen := i.dutyGen + 1 } else j)

/-- R38: an EVT bit, once set, stays set in every step that is no reset and no turn to another instance; a build is a
reset. -/
def Obligations.EvtBitsAreSticky : Prop :=
  ∀ s s' : State, s'.past = s.past → s.hostBuildsOrTurns = false → step s = .next s' →
    ∀ e, hasEvt s.inst.evt e = true → hasEvt s'.inst.evt e = true

/-- R134, R135: but for a reset or a turn to another instance END_TIME changes only in a step that completes a frame: the bit-bang engine's last bit, the tear-down,
the self-check; it becomes US, and the command is complete in that cycle. -/
def Obligations.OnlyAFinishedFrameStamps : Prop :=
  ∀ s s' : State, s'.past = s.past → s.hostBuildsOrTurns = false → step s = .next s' →
    s'.inst.endTime ≠ s.inst.endTime →
    (s.inst.fsm = .bbLow ∨ s.inst.fsm = .completion ∨ s.inst.fsm = .fbCheck) ∧
    s'.inst.endTime = s.us ∧ s'.inst.fsm = .idle ∧ s'.done = true ∧ s'.t = s.t

/-- R83, R183, R191: but for a reset or a turn to another instance the duty RAM of the running instance changes only in ENCODING, in an allocation and at COMPLETION
(U11, log 8); while it plays it does not change. -/
def Obligations.DutyRamIsFixedDuringPlayback : Prop :=
  ∀ s s' : State, s'.past = s.past → s.hostBuildsOrTurns = false → step s = .next s' →
    s'.inst.duty ≠ s.inst.duty → s.inst.fsm ≠ .playing ∧
      (s.inst.fsm = .encoding ∨
        (s'.inst.duty = [] ∧ (s.inst.fsm = .idle ∨ s.inst.fsm = .waitActive ∨ s.inst.fsm = .completion)))

/-! ## Invariants -/

/-- The memories keep their canonical form in every step. -/
def Obligations.MemoriesStayCanonical : Prop := ∀ s s' : State, s.memOk → step s = .next s' → s'.memOk

/-- R34, R161, R225, R294, R306: IRQ_MASK = 1 exactly while an engine holds the line, and no parked instance has it;
every step keeps it so. So it keeps the model's own: a stuck phase is an engine's (log 25). -/
def Obligations.MaskDisciplineKept : Prop := ∀ s s' : State, s.maskOk → step s = .next s' → s'.maskOk

/-- R28, R33: UNIT is not NONE exactly from the claim to the release, and ACTIVE = 1 only while PLAYING; every step
keeps it so. So it keeps the model's own: the end of ENCODING is fixed only in ENCODING (log 9). -/
def Obligations.ClaimDisciplineKept : Prop := ∀ s s' : State, s.unitOk → step s = .next s' → s'.unitOk

/-- R37: DUTY_CAP stays 0 or 8 n + TERM_N, at most DUTY_RAM_ENTRIES, and the constants of every instance stay well formed
(R10, R107, R186). -/
def Obligations.DutyCapStaysLegal : Prop := ∀ s s' : State, s.capOk → step s = .next s' → s'.capOk

/-- The reset state has every invariant. -/
def Obligations.ResetHasTheInvariants : Prop :=
  State.reset.memOk ∧ State.reset.maskOk ∧ State.reset.unitOk ∧ State.reset.capOk ∧ State.reset.shapeOk

/-! ## Whole frames -/

/-- R150, R157, R161, R134: undisturbed and with its latch interval over, a TRANSMIT on a BITBANG instance emits exactly
the symbols of its bits, first byte first, bit 7 first, with no gap; the masked window is that interval; the mask close,
the stamp and `done` are in the cycle after it. Rests on the model's choices: log 31. -/
def Obligations.BitbangTransmitSendsItsFrame : Prop :=
  ∀ (s : State) (buf : Addr) (len : Count) (dly : Time32),
    s.undisturbed → s.unitsAtRest → s.lineOwned → s.inst.stuck = false → s.inst.cfg.wf s.plat = true →
    s.inst.cfg.strategy = .bitbang →
    s.inst.active = false → buf ≠ 0 → len ≠ 0 → buf.toNat + len.toNat ≤ 2 ^ 32 →
    elapsed s.us s.inst.endTime dly.toNat = true →
    let high (b : Bool) := if b then s.inst.cfg.desc.t1h else s.inst.cfg.desc.t0h
    let low (b : Bool) := if b then s.inst.cfg.desc.t1l else s.inst.cfg.desc.t0l
    let bits := frameBits (s.bytesAt buf len)
    let t1 := s.t + bitTime high low bits
    ∃ m t, exec (.transmit buf len dly) s = .next m ∧ Sys2Proof.core.run (1 + 16 * len.toNat) m = .next t ∧
      t.t = t1 ∧
      t.obs.line s.inst.pin = s.obs.line s.inst.pin ++ bitSegs s.inst.pin high low s.t bits ∧
      t.obs.masks = s.obs.masks ++ [{ id := s.inst.id, start := s.t, stop := t1 }] ∧
      t.obs.dones = s.obs.dones ++ [{ id := s.inst.id, cycle := t1 }] ∧
      t.inst.fsm = .idle ∧ t.done = true ∧ t.inst.irqMask = false ∧ t.inst.endTime = usAt s.plat.m t1 ∧
      t.inst.evt = s.inst.evt ∧ t.inst.pin = s.inst.pin ∧ t.inst.begun = s.inst.begun ∧ t.inst.active = false ∧
      t.inst.dutyCap = s.inst.dutyCap ∧ t.inst.duty = s.inst.duty ∧ t.inst.unit = s.inst.unit ∧
      t.inst.retries = s.inst.retries ∧ t.inst.cfg = s.inst.cfg ∧
      t.plat = s.plat ∧ t.peers = s.peers ∧ t.mem = s.mem ∧ t.pwm = s.pwm ∧ t.registry = s.registry ∧ t.pend = s.pend ∧
      t.host = s.host ∧ t.gpio = gpioUpdate s.plat.nPins s.gpio s.inst.pin (fun q => { q with out := false })

/-- R188, R225, R227, R230: undisturbed and with its latch interval over, a TRANSMIT on a PWMDMA instance whose buffer
is too small or for which no unit is free sends its frame once with the fallback engine's symbols, in exactly 8 LEN
FB_PERIOD cycles, passes its check, stamps and completes with no resend. Rests on the model's choices: log 31. -/
def Obligations.FallbackTransmitSendsItsFrame : Prop :=
  ∀ (s : State) (buf : Addr) (len : Count) (dly : Time32),
    s.undisturbed → s.unitsAtRest → s.lineOwned → s.inst.stuck = false → s.inst.cfg.wf s.plat = true →
    s.inst.cfg.strategy = .pwmdma →
    s.inst.active = false → buf ≠ 0 → len ≠ 0 → buf.toNat + len.toNat ≤ 2 ^ 32 →
    elapsed s.us s.inst.endTime dly.toNat = true →
    let short := s.inst.dutyCap.toNat < 8 * len.toNat + s.inst.cfg.termN
    (short ∨ ∀ w ∈ s.pwm, w.enable = true ∨ w.pselConnected = true) →
    8 * len.toNat * s.inst.cfg.cp.fbPeriod < 2 ^ 32 →
    let high (b : Bool) := if b then s.inst.cfg.cp.fbT1H else s.inst.cfg.cp.fbT0H
    let t1 := s.t + 8 * len.toNat * s.inst.cfg.cp.fbPeriod
    ∃ m t, exec (.transmit buf len dly) s = .next m ∧ Sys2Proof.core.run (2 + 16 * len.toNat) m = .next t ∧
      t.t = t1 ∧
      t.obs.line s.inst.pin = s.obs.line s.inst.pin ++
        bitSegs s.inst.pin high (fun b => s.inst.cfg.cp.fbPeriod - high b) s.t (frameBits (s.bytesAt buf len)) ∧
      t.obs.masks = s.obs.masks ++ [{ id := s.inst.id, start := s.t, stop := t1 }] ∧
      t.obs.dones = s.obs.dones ++ [{ id := s.inst.id, cycle := t1 }] ∧
      t.inst.fsm = .idle ∧ t.done = true ∧ t.inst.irqMask = false ∧ t.inst.retries = 0 ∧
      t.inst.endTime = usAt s.plat.m t1 ∧
      (short → t.inst.evt = setEvt s.inst.evt .fallback) ∧
      (¬ short → t.inst.evt = setEvt (setEvt s.inst.evt .noPwm) .fallback) ∧
      t.inst.pin = s.inst.pin ∧ t.inst.begun = s.inst.begun ∧ t.inst.active = false ∧ t.inst.unit = s.inst.unit ∧
      t.inst.dutyCap = s.inst.dutyCap ∧ t.inst.duty = s.inst.duty ∧ t.inst.cfg = s.inst.cfg ∧
      t.plat = s.plat ∧ t.peers = s.peers ∧ t.mem = s.mem ∧ t.pwm = s.pwm ∧ t.registry = s.registry ∧ t.pend = s.pend ∧
      t.host = s.host ∧ t.gpio = gpioUpdate s.plat.nPins s.gpio s.inst.pin (fun q => { q with out := false })

/-- R188, R191 to R201: undisturbed and with its latch interval over, a TRANSMIT on a PWMDMA instance with a large
enough buffer and a free unit plays its frame on that unit from cycle T_s = E cycles on: each bit h0 or h1 high and low
for the rest of W, then TERM_N low intervals; then the unit is released, the stamp made and the command complete, in the
cycle the sequence ends. GPIO and IRQ_MASK are not touched. Rests on the model's choices: log 9, log 31, log 32. -/
def Obligations.PwmTransmitPlaysItsFrame : Prop :=
  ∀ (s : State) (buf : Addr) (len : Count) (dly : Time32) (u : Nat) (w : PwmUnit),
    s.undisturbed → s.unitsAtRest → s.inst.stuck = false → s.inst.encEnd = none → s.masked = false →
    (∀ id r, s.host ≠ .select id :: r) → s.noneFinishing → u < s.pend.length → u < s.registry.length → s.inst.pin.toNat < s.plat.nPins →
    s.noUnitOn s.inst.pin → s.inst.cfg.wf s.plat = true → s.inst.cfg.strategy = .pwmdma →
    s.inst.active = false → buf ≠ 0 → len ≠ 0 → buf.toNat + len.toNat ≤ 2 ^ 32 →
    elapsed s.us s.inst.endTime dly.toNat = true → 8 * len.toNat + s.inst.cfg.termN ≤ s.inst.dutyCap.toNat →
    s.scan = some u → s.pwmAt u = some w →
    let seq := 8 * len.toNat + s.inst.cfg.termN
    let period := s.inst.cfg.cp.top.toNat * s.inst.cfg.prescale.toNat
    let high (b : Bool) := (cmpOf (if b then s.inst.cfg.cp.duty1 else s.inst.cfg.cp.duty0)).toNat * s.inst.cfg.prescale.toNat
    let start := s.t + s.encodingTime
    let t1 := start + seq * period
    ∃ m t, exec (.transmit buf len dly) s = .next m ∧ Sys2Proof.core.run (6 + 3 * seq) m = .next t ∧
      t.t = t1 ∧
      t.obs.line s.inst.pin = (s.passTo start).obs.line s.inst.pin ++
        bitSegs s.inst.pin high (fun b => period - high b) start (frameBits (s.bytesAt buf len)) ++
        (List.range s.inst.cfg.termN).map (fun j =>
          { pin := s.inst.pin, start := start + (8 * len.toNat + j) * period, level := .l, cycles := period }) ∧
      t.obs.masks = s.obs.masks ∧ t.obs.dones = s.obs.dones ++ [{ id := s.inst.id, cycle := t1 }] ∧
      t.inst.fsm = .idle ∧ t.done = true ∧ t.inst.active = false ∧ t.inst.unit = none ∧
      t.inst.endTime = usAt s.plat.m t1 ∧ t.inst.evt = s.inst.evt ∧ t.inst.irqMask = s.inst.irqMask ∧
      t.inst.pin = s.inst.pin ∧ t.inst.begun = s.inst.begun ∧ t.inst.dutyCap = s.inst.dutyCap ∧
      t.inst.retries = s.inst.retries ∧ t.inst.cfg = s.inst.cfg ∧
      (∀ v, t.pwmAt v = if v = u then t.pwmAt u else s.pwmAt v) ∧
      (∀ w', t.pwmAt u = some w' → w'.enable = false ∧ w'.pselConnected = false ∧ w'.run = false) ∧
      t.registry = s.registry.set u none ∧ t.pend = s.pend ∧
      t.plat = s.plat ∧ t.peers = s.peers ∧ t.mem = s.mem ∧ t.gpio = s.gpio ∧ t.host = s.host

/-! ## Observers and faults -/

/-- R38, R283: no rule reads EVT: a step with every EVT forgotten gives what the step gives, with every EVT forgotten. -/
def Obligations.EvtIsNeverRead : Prop :=
  ∀ s : State, Result.forgetEvt (step s.forgetEvt) = Result.forgetEvt (step s)

/-! ## A frame that never completes -/

/-- R229, R336: with no limit on resends and a stall pattern that fails every attempt, the command never completes: from the
start of an attempt, with `nmi_req` high in all but one cycle of every p cycles, p at least FB_PERIOD and more than 5/4 of
it, every run answers a next state in which the fallback goes on, no `done` has pulsed and no phase is stuck (U2). The
periodic form of a request is the model's (log 4). -/
def Obligations.ResendLoopNeverEnds : Prop :=
  ∀ (s : State) (start phase p n : Nat),
    s.inst.cfg.retryLimit = none → s.inst.cfg.cp.fbWf = true → 5 * s.inst.cfg.cp.fbPeriod < 4 * p →
    8 * s.inst.len.toNat * p < 2 ^ 32 → s.nmi = [{ start := start, len := p - 1, period := p, phase := phase }] →
    start ≤ s.t → s.env = [] → s.rst = [] → s.unitsAtRest → s.noUnitOn s.inst.pin → s.inst.len ≠ 0 →
    s.inst.buf.toNat + s.inst.len.toNat ≤ 2 ^ 32 → s.inst.fsm = .fbHigh → s.inst.irqMask = true → s.inst.stuck = false →
    s.inst.byteIx = 0 → s.inst.bitIx = 7 → s.inst.cycStart = cycAt s.t → s.stalled = false →
    ∃ t, Sys2Proof.core.run n s = .next t ∧ t.inst.fsm ∈ [Fsm.fbHigh, .fbLow, .fbCheck, .fbBackoff] ∧
      t.inst.stuck = false ∧ t.obs.dones = s.obs.dones
end

