-- ==== Sys2Proof/Laws/State.lean ====
section
/-! SUPPORT. Laws/State.lean: what each named update does to each field of the state, so that no proof unfolds an update. -/

namespace Sys2Proof.Machine

@[simp] theorem State.setActive_plat (s : State) (b : Bool) : (s.setActive b).plat = s.plat := rfl
@[simp] theorem State.setActive_t (s : State) (b : Bool) : (s.setActive b).t = s.t := rfl
@[simp] theorem State.setActive_inst (s : State) (b : Bool) : (s.setActive b).inst = { s.inst with active := b } := rfl
@[simp] theorem State.setActive_peers (s : State) (b : Bool) : (s.setActive b).peers = s.peers := rfl
@[simp] theorem State.setActive_mem (s : State) (b : Bool) : (s.setActive b).mem = s.mem := rfl
@[simp] theorem State.setActive_gpio (s : State) (b : Bool) : (s.setActive b).gpio = s.gpio := rfl
@[simp] theorem State.setActive_pwm (s : State) (b : Bool) : (s.setActive b).pwm = s.pwm := rfl
@[simp] theorem State.setActive_registry (s : State) (b : Bool) : (s.setActive b).registry = s.registry := rfl
@[simp] theorem State.setActive_pend (s : State) (b : Bool) : (s.setActive b).pend = s.pend := rfl
@[simp] theorem State.setActive_host (s : State) (b : Bool) : (s.setActive b).host = s.host := rfl
@[simp] theorem State.setActive_env (s : State) (b : Bool) : (s.setActive b).env = s.env := rfl
@[simp] theorem State.setActive_irq (s : State) (b : Bool) : (s.setActive b).irq = s.irq := rfl
@[simp] theorem State.setActive_nmi (s : State) (b : Bool) : (s.setActive b).nmi = s.nmi := rfl
@[simp] theorem State.setActive_rst (s : State) (b : Bool) : (s.setActive b).rst = s.rst := rfl
@[simp] theorem State.setActive_encDraws (s : State) (b : Bool) : (s.setActive b).encDraws = s.encDraws := rfl
@[simp] theorem State.setActive_drawCtr (s : State) (b : Bool) : (s.setActive b).drawCtr = s.drawCtr := rfl
@[simp] theorem State.setActive_obs (s : State) (b : Bool) : (s.setActive b).obs = s.obs := rfl
@[simp] theorem State.setActive_past (s : State) (b : Bool) : (s.setActive b).past = s.past := rfl

@[simp] theorem State.setBegun_plat (s : State) (b : Bool) : (s.setBegun b).plat = s.plat := rfl
@[simp] theorem State.setBegun_t (s : State) (b : Bool) : (s.setBegun b).t = s.t := rfl
@[simp] theorem State.setBegun_inst (s : State) (b : Bool) : (s.setBegun b).inst = { s.inst with begun := b } := rfl
@[simp] theorem State.setBegun_peers (s : State) (b : Bool) : (s.setBegun b).peers = s.peers := rfl
@[simp] theorem State.setBegun_mem (s : State) (b : Bool) : (s.setBegun b).mem = s.mem := rfl
@[simp] theorem State.setBegun_gpio (s : State) (b : Bool) : (s.setBegun b).gpio = s.gpio := rfl
@[simp] theorem State.setBegun_pwm (s : State) (b : Bool) : (s.setBegun b).pwm = s.pwm := rfl
@[simp] theorem State.setBegun_registry (s : State) (b : Bool) : (s.setBegun b).registry = s.registry := rfl
@[simp] theorem State.setBegun_pend (s : State) (b : Bool) : (s.setBegun b).pend = s.pend := rfl
@[simp] theorem State.setBegun_host (s : State) (b : Bool) : (s.setBegun b).host = s.host := rfl
@[simp] theorem State.setBegun_env (s : State) (b : Bool) : (s.setBegun b).env = s.env := rfl
@[simp] theorem State.setBegun_irq (s : State) (b : Bool) : (s.setBegun b).irq = s.irq := rfl
@[simp] theorem State.setBegun_nmi (s : State) (b : Bool) : (s.setBegun b).nmi = s.nmi := rfl
@[simp] theorem State.setBegun_rst (s : State) (b : Bool) : (s.setBegun b).rst = s.rst := rfl
@[simp] theorem State.setBegun_encDraws (s : State) (b : Bool) : (s.setBegun b).encDraws = s.encDraws := rfl
@[simp] theorem State.setBegun_drawCtr (s : State) (b : Bool) : (s.setBegun b).drawCtr = s.drawCtr := rfl
@[simp] theorem State.setBegun_obs (s : State) (b : Bool) : (s.setBegun b).obs = s.obs := rfl
@[simp] theorem State.setBegun_past (s : State) (b : Bool) : (s.setBegun b).past = s.past := rfl

@[simp] theorem State.setFsm_plat (s : State) (f : Fsm) : (s.setFsm f).plat = s.plat := rfl
@[simp] theorem State.setFsm_t (s : State) (f : Fsm) : (s.setFsm f).t = s.t := rfl
@[simp] theorem State.setFsm_inst (s : State) (f : Fsm) : (s.setFsm f).inst = { s.inst with fsm := f } := rfl
@[simp] theorem State.setFsm_peers (s : State) (f : Fsm) : (s.setFsm f).peers = s.peers := rfl
@[simp] theorem State.setFsm_mem (s : State) (f : Fsm) : (s.setFsm f).mem = s.mem := rfl
@[simp] theorem State.setFsm_gpio (s : State) (f : Fsm) : (s.setFsm f).gpio = s.gpio := rfl
@[simp] theorem State.setFsm_pwm (s : State) (f : Fsm) : (s.setFsm f).pwm = s.pwm := rfl
@[simp] theorem State.setFsm_registry (s : State) (f : Fsm) : (s.setFsm f).registry = s.registry := rfl
@[simp] theorem State.setFsm_pend (s : State) (f : Fsm) : (s.setFsm f).pend = s.pend := rfl
@[simp] theorem State.setFsm_host (s : State) (f : Fsm) : (s.setFsm f).host = s.host := rfl
@[simp] theorem State.setFsm_env (s : State) (f : Fsm) : (s.setFsm f).env = s.env := rfl
@[simp] theorem State.setFsm_irq (s : State) (f : Fsm) : (s.setFsm f).irq = s.irq := rfl
@[simp] theorem State.setFsm_nmi (s : State) (f : Fsm) : (s.setFsm f).nmi = s.nmi := rfl
@[simp] theorem State.setFsm_rst (s : State) (f : Fsm) : (s.setFsm f).rst = s.rst := rfl
@[simp] theorem State.setFsm_encDraws (s : State) (f : Fsm) : (s.setFsm f).encDraws = s.encDraws := rfl
@[simp] theorem State.setFsm_drawCtr (s : State) (f : Fsm) : (s.setFsm f).drawCtr = s.drawCtr := rfl
@[simp] theorem State.setFsm_obs (s : State) (f : Fsm) : (s.setFsm f).obs = s.obs := rfl
@[simp] theorem State.setFsm_past (s : State) (f : Fsm) : (s.setFsm f).past = s.past := rfl

@[simp] theorem State.raise_plat (s : State) (e : Event) : (s.raise e).plat = s.plat := rfl
@[simp] theorem State.raise_t (s : State) (e : Event) : (s.raise e).t = s.t := rfl
@[simp] theorem State.raise_inst (s : State) (e : Event) : (s.raise e).inst = { s.inst with evt := setEvt s.inst.evt e } := rfl
@[simp] theorem State.raise_peers (s : State) (e : Event) : (s.raise e).peers = s.peers := rfl
@[simp] theorem State.raise_mem (s : State) (e : Event) : (s.raise e).mem = s.mem := rfl
@[simp] theorem State.raise_gpio (s : State) (e : Event) : (s.raise e).gpio = s.gpio := rfl
@[simp] theorem State.raise_pwm (s : State) (e : Event) : (s.raise e).pwm = s.pwm := rfl
@[simp] theorem State.raise_registry (s : State) (e : Event) : (s.raise e).registry = s.registry := rfl
@[simp] theorem State.raise_pend (s : State) (e : Event) : (s.raise e).pend = s.pend := rfl
@[simp] theorem State.raise_host (s : State) (e : Event) : (s.raise e).host = s.host := rfl
@[simp] theorem State.raise_env (s : State) (e : Event) : (s.raise e).env = s.env := rfl
@[simp] theorem State.raise_irq (s : State) (e : Event) : (s.raise e).irq = s.irq := rfl
@[simp] theorem State.raise_nmi (s : State) (e : Event) : (s.raise e).nmi = s.nmi := rfl
@[simp] theorem State.raise_rst (s : State) (e : Event) : (s.raise e).rst = s.rst := rfl
@[simp] theorem State.raise_encDraws (s : State) (e : Event) : (s.raise e).encDraws = s.encDraws := rfl
@[simp] theorem State.raise_drawCtr (s : State) (e : Event) : (s.raise e).drawCtr = s.drawCtr := rfl
@[simp] theorem State.raise_obs (s : State) (e : Event) : (s.raise e).obs = s.obs := rfl
@[simp] theorem State.raise_past (s : State) (e : Event) : (s.raise e).past = s.past := rfl

@[simp] theorem State.openMask_plat (s : State) : (s.openMask).plat = s.plat := rfl
@[simp] theorem State.openMask_t (s : State) : (s.openMask).t = s.t := rfl
@[simp] theorem State.openMask_inst (s : State) : (s.openMask).inst = { s.inst with irqMask := true, maskSince := s.t } := rfl
@[simp] theorem State.openMask_peers (s : State) : (s.openMask).peers = s.peers := rfl
@[simp] theorem State.openMask_mem (s : State) : (s.openMask).mem = s.mem := rfl
@[simp] theorem State.openMask_gpio (s : State) : (s.openMask).gpio = s.gpio := rfl
@[simp] theorem State.openMask_pwm (s : State) : (s.openMask).pwm = s.pwm := rfl
@[simp] theorem State.openMask_registry (s : State) : (s.openMask).registry = s.registry := rfl
@[simp] theorem State.openMask_pend (s : State) : (s.openMask).pend = s.pend := rfl
@[simp] theorem State.openMask_host (s : State) : (s.openMask).host = s.host := rfl
@[simp] theorem State.openMask_env (s : State) : (s.openMask).env = s.env := rfl
@[simp] theorem State.openMask_irq (s : State) : (s.openMask).irq = s.irq := rfl
@[simp] theorem State.openMask_nmi (s : State) : (s.openMask).nmi = s.nmi := rfl
@[simp] theorem State.openMask_rst (s : State) : (s.openMask).rst = s.rst := rfl
@[simp] theorem State.openMask_encDraws (s : State) : (s.openMask).encDraws = s.encDraws := rfl
@[simp] theorem State.openMask_drawCtr (s : State) : (s.openMask).drawCtr = s.drawCtr := rfl
@[simp] theorem State.openMask_obs (s : State) : (s.openMask).obs = s.obs := rfl
@[simp] theorem State.openMask_past (s : State) : (s.openMask).past = s.past := rfl

@[simp] theorem State.closeMask_plat (s : State) : (s.closeMask).plat = s.plat := rfl
@[simp] theorem State.closeMask_t (s : State) : (s.closeMask).t = s.t := rfl
@[simp] theorem State.closeMask_inst (s : State) : (s.closeMask).inst = { s.inst with irqMask := false, unmaskedAt := some s.t } := rfl
@[simp] theorem State.closeMask_peers (s : State) : (s.closeMask).peers = s.peers := rfl
@[simp] theorem State.closeMask_mem (s : State) : (s.closeMask).mem = s.mem := rfl
@[simp] theorem State.closeMask_gpio (s : State) : (s.closeMask).gpio = s.gpio := rfl
@[simp] theorem State.closeMask_pwm (s : State) : (s.closeMask).pwm = s.pwm := rfl
@[simp] theorem State.closeMask_registry (s : State) : (s.closeMask).registry = s.registry := rfl
@[simp] theorem State.closeMask_pend (s : State) : (s.closeMask).pend = s.pend := rfl
@[simp] theorem State.closeMask_host (s : State) : (s.closeMask).host = s.host := rfl
@[simp] theorem State.closeMask_env (s : State) : (s.closeMask).env = s.env := rfl
@[simp] theorem State.closeMask_irq (s : State) : (s.closeMask).irq = s.irq := rfl
@[simp] theorem State.closeMask_nmi (s : State) : (s.closeMask).nmi = s.nmi := rfl
@[simp] theorem State.closeMask_rst (s : State) : (s.closeMask).rst = s.rst := rfl
@[simp] theorem State.closeMask_encDraws (s : State) : (s.closeMask).encDraws = s.encDraws := rfl
@[simp] theorem State.closeMask_drawCtr (s : State) : (s.closeMask).drawCtr = s.drawCtr := rfl
@[simp] theorem State.closeMask_obs (s : State) : (s.closeMask).obs = { s.obs with masks := s.obs.masks ++ [{ id := s.inst.id, start := s.inst.maskSince, stop := s.t }] } := rfl
@[simp] theorem State.closeMask_past (s : State) : (s.closeMask).past = s.past := rfl

@[simp] theorem State.stamp_plat (s : State) : (s.stamp).plat = s.plat := rfl
@[simp] theorem State.stamp_t (s : State) : (s.stamp).t = s.t := rfl
@[simp] theorem State.stamp_inst (s : State) : (s.stamp).inst = { s.inst with endTime := s.us } := rfl
@[simp] theorem State.stamp_peers (s : State) : (s.stamp).peers = s.peers := rfl
@[simp] theorem State.stamp_mem (s : State) : (s.stamp).mem = s.mem := rfl
@[simp] theorem State.stamp_gpio (s : State) : (s.stamp).gpio = s.gpio := rfl
@[simp] theorem State.stamp_pwm (s : State) : (s.stamp).pwm = s.pwm := rfl
@[simp] theorem State.stamp_registry (s : State) : (s.stamp).registry = s.registry := rfl
@[simp] theorem State.stamp_pend (s : State) : (s.stamp).pend = s.pend := rfl
@[simp] theorem State.stamp_host (s : State) : (s.stamp).host = s.host := rfl
@[simp] theorem State.stamp_env (s : State) : (s.stamp).env = s.env := rfl
@[simp] theorem State.stamp_irq (s : State) : (s.stamp).irq = s.irq := rfl
@[simp] theorem State.stamp_nmi (s : State) : (s.stamp).nmi = s.nmi := rfl
@[simp] theorem State.stamp_rst (s : State) : (s.stamp).rst = s.rst := rfl
@[simp] theorem State.stamp_encDraws (s : State) : (s.stamp).encDraws = s.encDraws := rfl
@[simp] theorem State.stamp_drawCtr (s : State) : (s.stamp).drawCtr = s.drawCtr := rfl
@[simp] theorem State.stamp_obs (s : State) : (s.stamp).obs = s.obs := rfl
@[simp] theorem State.stamp_past (s : State) : (s.stamp).past = s.past := rfl

@[simp] theorem State.complete_plat (s : State) : (s.complete).plat = s.plat := rfl
@[simp] theorem State.complete_t (s : State) : (s.complete).t = s.t := rfl
@[simp] theorem State.complete_inst (s : State) : (s.complete).inst = { s.inst with fsm := .idle, cmd := .none, doneAt := some s.t } := rfl
@[simp] theorem State.complete_peers (s : State) : (s.complete).peers = s.peers := rfl
@[simp] theorem State.complete_mem (s : State) : (s.complete).mem = s.mem := rfl
@[simp] theorem State.complete_gpio (s : State) : (s.complete).gpio = s.gpio := rfl
@[simp] theorem State.complete_pwm (s : State) : (s.complete).pwm = s.pwm := rfl
@[simp] theorem State.complete_registry (s : State) : (s.complete).registry = s.registry := rfl
@[simp] theorem State.complete_pend (s : State) : (s.complete).pend = s.pend := rfl
@[simp] theorem State.complete_host (s : State) : (s.complete).host = s.host := rfl
@[simp] theorem State.complete_env (s : State) : (s.complete).env = s.env := rfl
@[simp] theorem State.complete_irq (s : State) : (s.complete).irq = s.irq := rfl
@[simp] theorem State.complete_nmi (s : State) : (s.complete).nmi = s.nmi := rfl
@[simp] theorem State.complete_rst (s : State) : (s.complete).rst = s.rst := rfl
@[simp] theorem State.complete_encDraws (s : State) : (s.complete).encDraws = s.encDraws := rfl
@[simp] theorem State.complete_drawCtr (s : State) : (s.complete).drawCtr = s.drawCtr := rfl
@[simp] theorem State.complete_obs (s : State) : (s.complete).obs = { s.obs with dones := s.obs.dones ++ [{ id := s.inst.id, cycle := s.t }] } := rfl
/-- `done` is 1 in the cycle of the completion (R93). -/
@[simp] theorem State.complete_done (s : State) : s.complete.done = true := by simp [State.done, State.complete]
@[simp] theorem State.complete_past (s : State) : (s.complete).past = s.past := rfl

@[simp] theorem State.setPwm_plat (s : State) (u : Nat) (w : PwmUnit) : (s.setPwm u w).plat = s.plat := rfl
@[simp] theorem State.setPwm_t (s : State) (u : Nat) (w : PwmUnit) : (s.setPwm u w).t = s.t := rfl
@[simp] theorem State.setPwm_inst (s : State) (u : Nat) (w : PwmUnit) : (s.setPwm u w).inst = s.inst := rfl
@[simp] theorem State.setPwm_peers (s : State) (u : Nat) (w : PwmUnit) : (s.setPwm u w).peers = s.peers := rfl
@[simp] theorem State.setPwm_mem (s : State) (u : Nat) (w : PwmUnit) : (s.setPwm u w).mem = s.mem := rfl
@[simp] theorem State.setPwm_gpio (s : State) (u : Nat) (w : PwmUnit) : (s.setPwm u w).gpio = s.gpio := rfl
@[simp] theorem State.setPwm_pwm (s : State) (u : Nat) (w : PwmUnit) : (s.setPwm u w).pwm = s.pwm.set u w := rfl
@[simp] theorem State.setPwm_registry (s : State) (u : Nat) (w : PwmUnit) : (s.setPwm u w).registry = s.registry := rfl
@[simp] theorem State.setPwm_pend (s : State) (u : Nat) (w : PwmUnit) : (s.setPwm u w).pend = s.pend := rfl
@[simp] theorem State.setPwm_host (s : State) (u : Nat) (w : PwmUnit) : (s.setPwm u w).host = s.host := rfl
@[simp] theorem State.setPwm_env (s : State) (u : Nat) (w : PwmUnit) : (s.setPwm u w).env = s.env := rfl
@[simp] theorem State.setPwm_irq (s : State) (u : Nat) (w : PwmUnit) : (s.setPwm u w).irq = s.irq := rfl
@[simp] theorem State.setPwm_nmi (s : State) (u : Nat) (w : PwmUnit) : (s.setPwm u w).nmi = s.nmi := rfl
@[simp] theorem State.setPwm_rst (s : State) (u : Nat) (w : PwmUnit) : (s.setPwm u w).rst = s.rst := rfl
@[simp] theorem State.setPwm_encDraws (s : State) (u : Nat) (w : PwmUnit) : (s.setPwm u w).encDraws = s.encDraws := rfl
@[simp] theorem State.setPwm_drawCtr (s : State) (u : Nat) (w : PwmUnit) : (s.setPwm u w).drawCtr = s.drawCtr := rfl
@[simp] theorem State.setPwm_obs (s : State) (u : Nat) (w : PwmUnit) : (s.setPwm u w).obs = s.obs := rfl
@[simp] theorem State.setPwm_past (s : State) (u : Nat) (w : PwmUnit) : (s.setPwm u w).past = s.past := rfl

@[simp] theorem State.setRegistry_plat (s : State) (u : Nat) (r : Option Nat) : (s.setRegistry u r).plat = s.plat := rfl
@[simp] theorem State.setRegistry_t (s : State) (u : Nat) (r : Option Nat) : (s.setRegistry u r).t = s.t := rfl
@[simp] theorem State.setRegistry_inst (s : State) (u : Nat) (r : Option Nat) : (s.setRegistry u r).inst = s.inst := rfl
@[simp] theorem State.setRegistry_peers (s : State) (u : Nat) (r : Option Nat) : (s.setRegistry u r).peers = s.peers := rfl
@[simp] theorem State.setRegistry_mem (s : State) (u : Nat) (r : Option Nat) : (s.setRegistry u r).mem = s.mem := rfl
@[simp] theorem State.setRegistry_gpio (s : State) (u : Nat) (r : Option Nat) : (s.setRegistry u r).gpio = s.gpio := rfl
@[simp] theorem State.setRegistry_pwm (s : State) (u : Nat) (r : Option Nat) : (s.setRegistry u r).pwm = s.pwm := rfl
@[simp] theorem State.setRegistry_registry (s : State) (u : Nat) (r : Option Nat) : (s.setRegistry u r).registry = s.registry.set u r := rfl
@[simp] theorem State.setRegistry_pend (s : State) (u : Nat) (r : Option Nat) : (s.setRegistry u r).pend = s.pend := rfl
@[simp] theorem State.setRegistry_host (s : State) (u : Nat) (r : Option Nat) : (s.setRegistry u r).host = s.host := rfl
@[simp] theorem State.setRegistry_env (s : State) (u : Nat) (r : Option Nat) : (s.setRegistry u r).env = s.env := rfl
@[simp] theorem State.setRegistry_irq (s : State) (u : Nat) (r : Option Nat) : (s.setRegistry u r).irq = s.irq := rfl
@[simp] theorem State.setRegistry_nmi (s : State) (u : Nat) (r : Option Nat) : (s.setRegistry u r).nmi = s.nmi := rfl
@[simp] theorem State.setRegistry_rst (s : State) (u : Nat) (r : Option Nat) : (s.setRegistry u r).rst = s.rst := rfl
@[simp] theorem State.setRegistry_encDraws (s : State) (u : Nat) (r : Option Nat) : (s.setRegistry u r).encDraws = s.encDraws := rfl
@[simp] theorem State.setRegistry_drawCtr (s : State) (u : Nat) (r : Option Nat) : (s.setRegistry u r).drawCtr = s.drawCtr := rfl
@[simp] theorem State.setRegistry_obs (s : State) (u : Nat) (r : Option Nat) : (s.setRegistry u r).obs = s.obs := rfl
@[simp] theorem State.setRegistry_past (s : State) (u : Nat) (r : Option Nat) : (s.setRegistry u r).past = s.past := rfl

@[simp] theorem State.setPend_plat (s : State) (u : Nat) (b : Bool) : (s.setPend u b).plat = s.plat := rfl
@[simp] theorem State.setPend_t (s : State) (u : Nat) (b : Bool) : (s.setPend u b).t = s.t := rfl
@[simp] theorem State.setPend_inst (s : State) (u : Nat) (b : Bool) : (s.setPend u b).inst = s.inst := rfl
@[simp] theorem State.setPend_peers (s : State) (u : Nat) (b : Bool) : (s.setPend u b).peers = s.peers := rfl
@[simp] theorem State.setPend_mem (s : State) (u : Nat) (b : Bool) : (s.setPend u b).mem = s.mem := rfl
@[simp] theorem State.setPend_gpio (s : State) (u : Nat) (b : Bool) : (s.setPend u b).gpio = s.gpio := rfl
@[simp] theorem State.setPend_pwm (s : State) (u : Nat) (b : Bool) : (s.setPend u b).pwm = s.pwm := rfl
@[simp] theorem State.setPend_registry (s : State) (u : Nat) (b : Bool) : (s.setPend u b).registry = s.registry := rfl
@[simp] theorem State.setPend_pend (s : State) (u : Nat) (b : Bool) : (s.setPend u b).pend = s.pend.set u b := rfl
@[simp] theorem State.setPend_host (s : State) (u : Nat) (b : Bool) : (s.setPend u b).host = s.host := rfl
@[simp] theorem State.setPend_env (s : State) (u : Nat) (b : Bool) : (s.setPend u b).env = s.env := rfl
@[simp] theorem State.setPend_irq (s : State) (u : Nat) (b : Bool) : (s.setPend u b).irq = s.irq := rfl
@[simp] theorem State.setPend_nmi (s : State) (u : Nat) (b : Bool) : (s.setPend u b).nmi = s.nmi := rfl
@[simp] theorem State.setPend_rst (s : State) (u : Nat) (b : Bool) : (s.setPend u b).rst = s.rst := rfl
@[simp] theorem State.setPend_encDraws (s : State) (u : Nat) (b : Bool) : (s.setPend u b).encDraws = s.encDraws := rfl
@[simp] theorem State.setPend_drawCtr (s : State) (u : Nat) (b : Bool) : (s.setPend u b).drawCtr = s.drawCtr := rfl
@[simp] theorem State.setPend_obs (s : State) (u : Nat) (b : Bool) : (s.setPend u b).obs = s.obs := rfl
@[simp] theorem State.setPend_past (s : State) (u : Nat) (b : Bool) : (s.setPend u b).past = s.past := rfl

@[simp] theorem State.setPinReg_plat (s : State) (p : Pin) : (s.setPinReg p).plat = s.plat := rfl
@[simp] theorem State.setPinReg_t (s : State) (p : Pin) : (s.setPinReg p).t = s.t := rfl
@[simp] theorem State.setPinReg_inst (s : State) (p : Pin) : (s.setPinReg p).inst = { s.inst with pin := p } := rfl
@[simp] theorem State.setPinReg_peers (s : State) (p : Pin) : (s.setPinReg p).peers = s.peers := rfl
@[simp] theorem State.setPinReg_mem (s : State) (p : Pin) : (s.setPinReg p).mem = s.mem := rfl
@[simp] theorem State.setPinReg_gpio (s : State) (p : Pin) : (s.setPinReg p).gpio = s.gpio := rfl
@[simp] theorem State.setPinReg_pwm (s : State) (p : Pin) : (s.setPinReg p).pwm = s.pwm := rfl
@[simp] theorem State.setPinReg_registry (s : State) (p : Pin) : (s.setPinReg p).registry = s.registry := rfl
@[simp] theorem State.setPinReg_pend (s : State) (p : Pin) : (s.setPinReg p).pend = s.pend := rfl
@[simp] theorem State.setPinReg_host (s : State) (p : Pin) : (s.setPinReg p).host = s.host := rfl
@[simp] theorem State.setPinReg_env (s : State) (p : Pin) : (s.setPinReg p).env = s.env := rfl
@[simp] theorem State.setPinReg_irq (s : State) (p : Pin) : (s.setPinReg p).irq = s.irq := rfl
@[simp] theorem State.setPinReg_nmi (s : State) (p : Pin) : (s.setPinReg p).nmi = s.nmi := rfl
@[simp] theorem State.setPinReg_rst (s : State) (p : Pin) : (s.setPinReg p).rst = s.rst := rfl
@[simp] theorem State.setPinReg_encDraws (s : State) (p : Pin) : (s.setPinReg p).encDraws = s.encDraws := rfl
@[simp] theorem State.setPinReg_drawCtr (s : State) (p : Pin) : (s.setPinReg p).drawCtr = s.drawCtr := rfl
@[simp] theorem State.setPinReg_obs (s : State) (p : Pin) : (s.setPinReg p).obs = s.obs := rfl
@[simp] theorem State.setPinReg_past (s : State) (p : Pin) : (s.setPinReg p).past = s.past := rfl

@[simp] theorem State.waitFor_plat (s : State) (p : Pending) : (s.waitFor p).plat = s.plat := rfl
@[simp] theorem State.waitFor_t (s : State) (p : Pending) : (s.waitFor p).t = s.t := rfl
@[simp] theorem State.waitFor_inst (s : State) (p : Pending) : (s.waitFor p).inst = { s.inst with fsm := .waitActive, cmd := p } := rfl
@[simp] theorem State.waitFor_peers (s : State) (p : Pending) : (s.waitFor p).peers = s.peers := rfl
@[simp] theorem State.waitFor_mem (s : State) (p : Pending) : (s.waitFor p).mem = s.mem := rfl
@[simp] theorem State.waitFor_gpio (s : State) (p : Pending) : (s.waitFor p).gpio = s.gpio := rfl
@[simp] theorem State.waitFor_pwm (s : State) (p : Pending) : (s.waitFor p).pwm = s.pwm := rfl
@[simp] theorem State.waitFor_registry (s : State) (p : Pending) : (s.waitFor p).registry = s.registry := rfl
@[simp] theorem State.waitFor_pend (s : State) (p : Pending) : (s.waitFor p).pend = s.pend := rfl
@[simp] theorem State.waitFor_host (s : State) (p : Pending) : (s.waitFor p).host = s.host := rfl
@[simp] theorem State.waitFor_env (s : State) (p : Pending) : (s.waitFor p).env = s.env := rfl
@[simp] theorem State.waitFor_irq (s : State) (p : Pending) : (s.waitFor p).irq = s.irq := rfl
@[simp] theorem State.waitFor_nmi (s : State) (p : Pending) : (s.waitFor p).nmi = s.nmi := rfl
@[simp] theorem State.waitFor_rst (s : State) (p : Pending) : (s.waitFor p).rst = s.rst := rfl
@[simp] theorem State.waitFor_encDraws (s : State) (p : Pending) : (s.waitFor p).encDraws = s.encDraws := rfl
@[simp] theorem State.waitFor_drawCtr (s : State) (p : Pending) : (s.waitFor p).drawCtr = s.drawCtr := rfl
@[simp] theorem State.waitFor_obs (s : State) (p : Pending) : (s.waitFor p).obs = s.obs := rfl
@[simp] theorem State.waitFor_past (s : State) (p : Pending) : (s.waitFor p).past = s.past := rfl

@[simp] theorem State.allocate_plat (s : State) (c : BitVec 20) : (s.allocate c).plat = s.plat := rfl
@[simp] theorem State.allocate_t (s : State) (c : BitVec 20) : (s.allocate c).t = s.t := rfl
@[simp] theorem State.allocate_inst (s : State) (c : BitVec 20) : (s.allocate c).inst = { s.inst with dutyCap := c, duty := [], dutyGen := s.inst.dutyGen + 1 } := rfl
@[simp] theorem State.allocate_peers (s : State) (c : BitVec 20) : (s.allocate c).peers = s.peers := rfl
@[simp] theorem State.allocate_mem (s : State) (c : BitVec 20) : (s.allocate c).mem = s.mem := rfl
@[simp] theorem State.allocate_gpio (s : State) (c : BitVec 20) : (s.allocate c).gpio = s.gpio := rfl
@[simp] theorem State.allocate_pwm (s : State) (c : BitVec 20) : (s.allocate c).pwm = s.pwm := rfl
@[simp] theorem State.allocate_registry (s : State) (c : BitVec 20) : (s.allocate c).registry = s.registry := rfl
@[simp] theorem State.allocate_pend (s : State) (c : BitVec 20) : (s.allocate c).pend = s.pend := rfl
@[simp] theorem State.allocate_host (s : State) (c : BitVec 20) : (s.allocate c).host = s.host := rfl
@[simp] theorem State.allocate_env (s : State) (c : BitVec 20) : (s.allocate c).env = s.env := rfl
@[simp] theorem State.allocate_irq (s : State) (c : BitVec 20) : (s.allocate c).irq = s.irq := rfl
@[simp] theorem State.allocate_nmi (s : State) (c : BitVec 20) : (s.allocate c).nmi = s.nmi := rfl
@[simp] theorem State.allocate_rst (s : State) (c : BitVec 20) : (s.allocate c).rst = s.rst := rfl
@[simp] theorem State.allocate_encDraws (s : State) (c : BitVec 20) : (s.allocate c).encDraws = s.encDraws := rfl
@[simp] theorem State.allocate_drawCtr (s : State) (c : BitVec 20) : (s.allocate c).drawCtr = s.drawCtr := rfl
@[simp] theorem State.allocate_obs (s : State) (c : BitVec 20) : (s.allocate c).obs = s.obs := rfl
@[simp] theorem State.allocate_past (s : State) (c : BitVec 20) : (s.allocate c).past = s.past := rfl

@[simp] theorem State.latchOperands_plat (s : State) (a : Addr) (n : Count) (d : Time32) : (s.latchOperands a n d).plat = s.plat := rfl
@[simp] theorem State.latchOperands_t (s : State) (a : Addr) (n : Count) (d : Time32) : (s.latchOperands a n d).t = s.t := rfl
@[simp] theorem State.latchOperands_inst (s : State) (a : Addr) (n : Count) (d : Time32) : (s.latchOperands a n d).inst = { s.inst with buf := a, len := n, dly := d } := rfl
@[simp] theorem State.latchOperands_peers (s : State) (a : Addr) (n : Count) (d : Time32) : (s.latchOperands a n d).peers = s.peers := rfl
@[simp] theorem State.latchOperands_mem (s : State) (a : Addr) (n : Count) (d : Time32) : (s.latchOperands a n d).mem = s.mem := rfl
@[simp] theorem State.latchOperands_gpio (s : State) (a : Addr) (n : Count) (d : Time32) : (s.latchOperands a n d).gpio = s.gpio := rfl
@[simp] theorem State.latchOperands_pwm (s : State) (a : Addr) (n : Count) (d : Time32) : (s.latchOperands a n d).pwm = s.pwm := rfl
@[simp] theorem State.latchOperands_registry (s : State) (a : Addr) (n : Count) (d : Time32) : (s.latchOperands a n d).registry = s.registry := rfl
@[simp] theorem State.latchOperands_pend (s : State) (a : Addr) (n : Count) (d : Time32) : (s.latchOperands a n d).pend = s.pend := rfl
@[simp] theorem State.latchOperands_host (s : State) (a : Addr) (n : Count) (d : Time32) : (s.latchOperands a n d).host = s.host := rfl
@[simp] theorem State.latchOperands_env (s : State) (a : Addr) (n : Count) (d : Time32) : (s.latchOperands a n d).env = s.env := rfl
@[simp] theorem State.latchOperands_irq (s : State) (a : Addr) (n : Count) (d : Time32) : (s.latchOperands a n d).irq = s.irq := rfl
@[simp] theorem State.latchOperands_nmi (s : State) (a : Addr) (n : Count) (d : Time32) : (s.latchOperands a n d).nmi = s.nmi := rfl
@[simp] theorem State.latchOperands_rst (s : State) (a : Addr) (n : Count) (d : Time32) : (s.latchOperands a n d).rst = s.rst := rfl
@[simp] theorem State.latchOperands_encDraws (s : State) (a : Addr) (n : Count) (d : Time32) : (s.latchOperands a n d).encDraws = s.encDraws := rfl
@[simp] theorem State.latchOperands_drawCtr (s : State) (a : Addr) (n : Count) (d : Time32) : (s.latchOperands a n d).drawCtr = s.drawCtr := rfl
@[simp] theorem State.latchOperands_obs (s : State) (a : Addr) (n : Count) (d : Time32) : (s.latchOperands a n d).obs = s.obs := rfl
@[simp] theorem State.latchOperands_past (s : State) (a : Addr) (n : Count) (d : Time32) : (s.latchOperands a n d).past = s.past := rfl

@[simp] theorem State.enterLatch_plat (s : State) : (s.enterLatch).plat = s.plat := rfl
@[simp] theorem State.enterLatch_t (s : State) : (s.enterLatch).t = s.t := rfl
@[simp] theorem State.enterLatch_inst (s : State) : (s.enterLatch).inst = { s.inst with fsm := .waitLatch, cmd := .transmit, waitStart := s.t } := rfl
@[simp] theorem State.enterLatch_peers (s : State) : (s.enterLatch).peers = s.peers := rfl
@[simp] theorem State.enterLatch_mem (s : State) : (s.enterLatch).mem = s.mem := rfl
@[simp] theorem State.enterLatch_gpio (s : State) : (s.enterLatch).gpio = s.gpio := rfl
@[simp] theorem State.enterLatch_pwm (s : State) : (s.enterLatch).pwm = s.pwm := rfl
@[simp] theorem State.enterLatch_registry (s : State) : (s.enterLatch).registry = s.registry := rfl
@[simp] theorem State.enterLatch_pend (s : State) : (s.enterLatch).pend = s.pend := rfl
@[simp] theorem State.enterLatch_host (s : State) : (s.enterLatch).host = s.host := rfl
@[simp] theorem State.enterLatch_env (s : State) : (s.enterLatch).env = s.env := rfl
@[simp] theorem State.enterLatch_irq (s : State) : (s.enterLatch).irq = s.irq := rfl
@[simp] theorem State.enterLatch_nmi (s : State) : (s.enterLatch).nmi = s.nmi := rfl
@[simp] theorem State.enterLatch_rst (s : State) : (s.enterLatch).rst = s.rst := rfl
@[simp] theorem State.enterLatch_encDraws (s : State) : (s.enterLatch).encDraws = s.encDraws := rfl
@[simp] theorem State.enterLatch_drawCtr (s : State) : (s.enterLatch).drawCtr = s.drawCtr := rfl
@[simp] theorem State.enterLatch_obs (s : State) : (s.enterLatch).obs = s.obs := rfl
@[simp] theorem State.enterLatch_past (s : State) : (s.enterLatch).past = s.past := rfl

@[simp] theorem State.snapBit_plat (s : State) : (s.snapBit).plat = s.plat := rfl
@[simp] theorem State.snapBit_t (s : State) : (s.snapBit).t = s.t := rfl
@[simp] theorem State.snapBit_inst (s : State) : (s.snapBit).inst = { s.inst with bitStart := s.cyc } := rfl
@[simp] theorem State.snapBit_peers (s : State) : (s.snapBit).peers = s.peers := rfl
@[simp] theorem State.snapBit_mem (s : State) : (s.snapBit).mem = s.mem := rfl
@[simp] theorem State.snapBit_gpio (s : State) : (s.snapBit).gpio = s.gpio := rfl
@[simp] theorem State.snapBit_pwm (s : State) : (s.snapBit).pwm = s.pwm := rfl
@[simp] theorem State.snapBit_registry (s : State) : (s.snapBit).registry = s.registry := rfl
@[simp] theorem State.snapBit_pend (s : State) : (s.snapBit).pend = s.pend := rfl
@[simp] theorem State.snapBit_host (s : State) : (s.snapBit).host = s.host := rfl
@[simp] theorem State.snapBit_env (s : State) : (s.snapBit).env = s.env := rfl
@[simp] theorem State.snapBit_irq (s : State) : (s.snapBit).irq = s.irq := rfl
@[simp] theorem State.snapBit_nmi (s : State) : (s.snapBit).nmi = s.nmi := rfl
@[simp] theorem State.snapBit_rst (s : State) : (s.snapBit).rst = s.rst := rfl
@[simp] theorem State.snapBit_encDraws (s : State) : (s.snapBit).encDraws = s.encDraws := rfl
@[simp] theorem State.snapBit_drawCtr (s : State) : (s.snapBit).drawCtr = s.drawCtr := rfl
@[simp] theorem State.snapBit_obs (s : State) : (s.snapBit).obs = s.obs := rfl
@[simp] theorem State.snapBit_past (s : State) : (s.snapBit).past = s.past := rfl

@[simp] theorem State.startWalk_plat (s : State) (f : Fsm) : (s.startWalk f).plat = s.plat := rfl
@[simp] theorem State.startWalk_t (s : State) (f : Fsm) : (s.startWalk f).t = s.t := rfl
@[simp] theorem State.startWalk_inst (s : State) (f : Fsm) : (s.startWalk f).inst = { s.inst with fsm := f, byteIx := 0, bitIx := 7 } := rfl
@[simp] theorem State.startWalk_peers (s : State) (f : Fsm) : (s.startWalk f).peers = s.peers := rfl
@[simp] theorem State.startWalk_mem (s : State) (f : Fsm) : (s.startWalk f).mem = s.mem := rfl
@[simp] theorem State.startWalk_gpio (s : State) (f : Fsm) : (s.startWalk f).gpio = s.gpio := rfl
@[simp] theorem State.startWalk_pwm (s : State) (f : Fsm) : (s.startWalk f).pwm = s.pwm := rfl
@[simp] theorem State.startWalk_registry (s : State) (f : Fsm) : (s.startWalk f).registry = s.registry := rfl
@[simp] theorem State.startWalk_pend (s : State) (f : Fsm) : (s.startWalk f).pend = s.pend := rfl
@[simp] theorem State.startWalk_host (s : State) (f : Fsm) : (s.startWalk f).host = s.host := rfl
@[simp] theorem State.startWalk_env (s : State) (f : Fsm) : (s.startWalk f).env = s.env := rfl
@[simp] theorem State.startWalk_irq (s : State) (f : Fsm) : (s.startWalk f).irq = s.irq := rfl
@[simp] theorem State.startWalk_nmi (s : State) (f : Fsm) : (s.startWalk f).nmi = s.nmi := rfl
@[simp] theorem State.startWalk_rst (s : State) (f : Fsm) : (s.startWalk f).rst = s.rst := rfl
@[simp] theorem State.startWalk_encDraws (s : State) (f : Fsm) : (s.startWalk f).encDraws = s.encDraws := rfl
@[simp] theorem State.startWalk_drawCtr (s : State) (f : Fsm) : (s.startWalk f).drawCtr = s.drawCtr := rfl
@[simp] theorem State.startWalk_obs (s : State) (f : Fsm) : (s.startWalk f).obs = s.obs := rfl
@[simp] theorem State.startWalk_past (s : State) (f : Fsm) : (s.startWalk f).past = s.past := rfl

@[simp] theorem State.nextBit_plat (s : State) (f : Fsm) : (s.nextBit f).plat = s.plat := rfl
@[simp] theorem State.nextBit_t (s : State) (f : Fsm) : (s.nextBit f).t = s.t := rfl
@[simp] theorem State.nextBit_inst (s : State) (f : Fsm) : (s.nextBit f).inst = { s.inst.nextPos with fsm := f } := rfl
@[simp] theorem State.nextBit_peers (s : State) (f : Fsm) : (s.nextBit f).peers = s.peers := rfl
@[simp] theorem State.nextBit_mem (s : State) (f : Fsm) : (s.nextBit f).mem = s.mem := rfl
@[simp] theorem State.nextBit_gpio (s : State) (f : Fsm) : (s.nextBit f).gpio = s.gpio := rfl
@[simp] theorem State.nextBit_pwm (s : State) (f : Fsm) : (s.nextBit f).pwm = s.pwm := rfl
@[simp] theorem State.nextBit_registry (s : State) (f : Fsm) : (s.nextBit f).registry = s.registry := rfl
@[simp] theorem State.nextBit_pend (s : State) (f : Fsm) : (s.nextBit f).pend = s.pend := rfl
@[simp] theorem State.nextBit_host (s : State) (f : Fsm) : (s.nextBit f).host = s.host := rfl
@[simp] theorem State.nextBit_env (s : State) (f : Fsm) : (s.nextBit f).env = s.env := rfl
@[simp] theorem State.nextBit_irq (s : State) (f : Fsm) : (s.nextBit f).irq = s.irq := rfl
@[simp] theorem State.nextBit_nmi (s : State) (f : Fsm) : (s.nextBit f).nmi = s.nmi := rfl
@[simp] theorem State.nextBit_rst (s : State) (f : Fsm) : (s.nextBit f).rst = s.rst := rfl
@[simp] theorem State.nextBit_encDraws (s : State) (f : Fsm) : (s.nextBit f).encDraws = s.encDraws := rfl
@[simp] theorem State.nextBit_drawCtr (s : State) (f : Fsm) : (s.nextBit f).drawCtr = s.drawCtr := rfl
@[simp] theorem State.nextBit_obs (s : State) (f : Fsm) : (s.nextBit f).obs = s.obs := rfl
@[simp] theorem State.nextBit_past (s : State) (f : Fsm) : (s.nextBit f).past = s.past := rfl

@[simp] theorem State.popHost_plat (s : State) : (s.popHost).plat = s.plat := rfl
@[simp] theorem State.popHost_t (s : State) : (s.popHost).t = s.t := rfl
@[simp] theorem State.popHost_inst (s : State) : (s.popHost).inst = s.inst := rfl
@[simp] theorem State.popHost_peers (s : State) : (s.popHost).peers = s.peers := rfl
@[simp] theorem State.popHost_mem (s : State) : (s.popHost).mem = s.mem := rfl
@[simp] theorem State.popHost_gpio (s : State) : (s.popHost).gpio = s.gpio := rfl
@[simp] theorem State.popHost_pwm (s : State) : (s.popHost).pwm = s.pwm := rfl
@[simp] theorem State.popHost_registry (s : State) : (s.popHost).registry = s.registry := rfl
@[simp] theorem State.popHost_pend (s : State) : (s.popHost).pend = s.pend := rfl
@[simp] theorem State.popHost_host (s : State) : (s.popHost).host = s.host.tail := rfl
@[simp] theorem State.popHost_env (s : State) : (s.popHost).env = s.env := rfl
@[simp] theorem State.popHost_irq (s : State) : (s.popHost).irq = s.irq := rfl
@[simp] theorem State.popHost_nmi (s : State) : (s.popHost).nmi = s.nmi := rfl
@[simp] theorem State.popHost_rst (s : State) : (s.popHost).rst = s.rst := rfl
@[simp] theorem State.popHost_encDraws (s : State) : (s.popHost).encDraws = s.encDraws := rfl
@[simp] theorem State.popHost_drawCtr (s : State) : (s.popHost).drawCtr = s.drawCtr := rfl
@[simp] theorem State.popHost_obs (s : State) : (s.popHost).obs = s.obs := rfl
@[simp] theorem State.popHost_past (s : State) : (s.popHost).past = s.past := rfl

@[simp] theorem State.gpioAct_plat (s : State) (p : Pin) (f : PinState → PinState) :
    (s.gpioAct p f).plat = s.plat := by
  unfold State.gpioAct State.pinResolves; by_cases h : p.toNat < s.plat.nPins <;> simp [h, State.pinState]
@[simp] theorem State.gpioAct_t (s : State) (p : Pin) (f : PinState → PinState) :
    (s.gpioAct p f).t = s.t := by
  unfold State.gpioAct State.pinResolves; by_cases h : p.toNat < s.plat.nPins <;> simp [h, State.pinState]
@[simp] theorem State.gpioAct_inst (s : State) (p : Pin) (f : PinState → PinState) :
    (s.gpioAct p f).inst = { s.inst with evt := pinEvt s.plat.nPins s.inst.evt p } := by
  unfold State.gpioAct pinEvt State.pinResolves; by_cases h : p.toNat < s.plat.nPins <;> simp [h, State.pinState]
@[simp] theorem State.gpioAct_peers (s : State) (p : Pin) (f : PinState → PinState) :
    (s.gpioAct p f).peers = s.peers := by
  unfold State.gpioAct State.pinResolves; by_cases h : p.toNat < s.plat.nPins <;> simp [h, State.pinState]
@[simp] theorem State.gpioAct_mem (s : State) (p : Pin) (f : PinState → PinState) :
    (s.gpioAct p f).mem = s.mem := by
  unfold State.gpioAct State.pinResolves; by_cases h : p.toNat < s.plat.nPins <;> simp [h, State.pinState]
@[simp] theorem State.gpioAct_gpio (s : State) (p : Pin) (f : PinState → PinState) :
    (s.gpioAct p f).gpio = gpioUpdate s.plat.nPins s.gpio p f := by
  unfold State.gpioAct gpioUpdate State.pinResolves; by_cases h : p.toNat < s.plat.nPins <;> simp [h, State.pinState]
@[simp] theorem State.gpioAct_pwm (s : State) (p : Pin) (f : PinState → PinState) :
    (s.gpioAct p f).pwm = s.pwm := by
  unfold State.gpioAct State.pinResolves; by_cases h : p.toNat < s.plat.nPins <;> simp [h, State.pinState]
@[simp] theorem State.gpioAct_registry (s : State) (p : Pin) (f : PinState → PinState) :
    (s.gpioAct p f).registry = s.registry := by
  unfold State.gpioAct State.pinResolves; by_cases h : p.toNat < s.plat.nPins <;> simp [h, State.pinState]
@[simp] theorem State.gpioAct_pend (s : State) (p : Pin) (f : PinState → PinState) :
    (s.gpioAct p f).pend = s.pend := by
  unfold State.gpioAct State.pinResolves; by_cases h : p.toNat < s.plat.nPins <;> simp [h, State.pinState]
@[simp] theorem State.gpioAct_host (s : State) (p : Pin) (f : PinState → PinState) :
    (s.gpioAct p f).host = s.host := by
  unfold State.gpioAct State.pinResolves; by_cases h : p.toNat < s.plat.nPins <;> simp [h, State.pinState]
@[simp] theorem State.gpioAct_env (s : State) (p : Pin) (f : PinState → PinState) :
    (s.gpioAct p f).env = s.env := by
  unfold State.gpioAct State.pinResolves; by_cases h : p.toNat < s.plat.nPins <;> simp [h, State.pinState]
@[simp] theorem State.gpioAct_irq (s : State) (p : Pin) (f : PinState → PinState) :
    (s.gpioAct p f).irq = s.irq := by
  unfold State.gpioAct State.pinResolves; by_cases h : p.toNat < s.plat.nPins <;> simp [h, State.pinState]
@[simp] theorem State.gpioAct_nmi (s : State) (p : Pin) (f : PinState → PinState) :
    (s.gpioAct p f).nmi = s.nmi := by
  unfold State.gpioAct State.pinResolves; by_cases h : p.toNat < s.plat.nPins <;> simp [h, State.pinState]
@[simp] theorem State.gpioAct_rst (s : State) (p : Pin) (f : PinState → PinState) :
    (s.gpioAct p f).rst = s.rst := by
  unfold State.gpioAct State.pinResolves; by_cases h : p.toNat < s.plat.nPins <;> simp [h, State.pinState]
@[simp] theorem State.gpioAct_encDraws (s : State) (p : Pin) (f : PinState → PinState) :
    (s.gpioAct p f).encDraws = s.encDraws := by
  unfold State.gpioAct State.pinResolves; by_cases h : p.toNat < s.plat.nPins <;> simp [h, State.pinState]
@[simp] theorem State.gpioAct_drawCtr (s : State) (p : Pin) (f : PinState → PinState) :
    (s.gpioAct p f).drawCtr = s.drawCtr := by
  unfold State.gpioAct State.pinResolves; by_cases h : p.toNat < s.plat.nPins <;> simp [h, State.pinState]
@[simp] theorem State.gpioAct_obs (s : State) (p : Pin) (f : PinState → PinState) :
    (s.gpioAct p f).obs = s.obs := by
  unfold State.gpioAct State.pinResolves; by_cases h : p.toNat < s.plat.nPins <;> simp [h, State.pinState]
@[simp] theorem State.gpioAct_past (s : State) (p : Pin) (f : PinState → PinState) :
    (s.gpioAct p f).past = s.past := by
  unfold State.gpioAct State.pinResolves; by_cases h : p.toNat < s.plat.nPins <;> simp [h, State.pinState]

@[simp] theorem State.setHigh_plat (s : State) (p : Pin) : (s.setHigh p).plat = s.plat :=
  State.gpioAct_plat s p _
@[simp] theorem State.setHigh_t (s : State) (p : Pin) : (s.setHigh p).t = s.t :=
  State.gpioAct_t s p _
@[simp] theorem State.setHigh_inst (s : State) (p : Pin) : (s.setHigh p).inst = { s.inst with evt := pinEvt s.plat.nPins s.inst.evt p } :=
  State.gpioAct_inst s p _
@[simp] theorem State.setHigh_peers (s : State) (p : Pin) : (s.setHigh p).peers = s.peers :=
  State.gpioAct_peers s p _
@[simp] theorem State.setHigh_mem (s : State) (p : Pin) : (s.setHigh p).mem = s.mem :=
  State.gpioAct_mem s p _
@[simp] theorem State.setHigh_gpio (s : State) (p : Pin) : (s.setHigh p).gpio = gpioUpdate s.plat.nPins s.gpio p (fun q => { q with out := true }) :=
  State.gpioAct_gpio s p _
@[simp] theorem State.setHigh_pwm (s : State) (p : Pin) : (s.setHigh p).pwm = s.pwm :=
  State.gpioAct_pwm s p _
@[simp] theorem State.setHigh_registry (s : State) (p : Pin) : (s.setHigh p).registry = s.registry :=
  State.gpioAct_registry s p _
@[simp] theorem State.setHigh_pend (s : State) (p : Pin) : (s.setHigh p).pend = s.pend :=
  State.gpioAct_pend s p _
@[simp] theorem State.setHigh_host (s : State) (p : Pin) : (s.setHigh p).host = s.host :=
  State.gpioAct_host s p _
@[simp] theorem State.setHigh_env (s : State) (p : Pin) : (s.setHigh p).env = s.env :=
  State.gpioAct_env s p _
@[simp] theorem State.setHigh_irq (s : State) (p : Pin) : (s.setHigh p).irq = s.irq :=
  State.gpioAct_irq s p _
@[simp] theorem State.setHigh_nmi (s : State) (p : Pin) : (s.setHigh p).nmi = s.nmi :=
  State.gpioAct_nmi s p _
@[simp] theorem State.setHigh_rst (s : State) (p : Pin) : (s.setHigh p).rst = s.rst :=
  State.gpioAct_rst s p _
@[simp] theorem State.setHigh_encDraws (s : State) (p : Pin) : (s.setHigh p).encDraws = s.encDraws :=
  State.gpioAct_encDraws s p _
@[simp] theorem State.setHigh_drawCtr (s : State) (p : Pin) : (s.setHigh p).drawCtr = s.drawCtr :=
  State.gpioAct_drawCtr s p _
@[simp] theorem State.setHigh_obs (s : State) (p : Pin) : (s.setHigh p).obs = s.obs :=
  State.gpioAct_obs s p _
@[simp] theorem State.setHigh_past (s : State) (p : Pin) : (s.setHigh p).past = s.past :=
  State.gpioAct_past s p _

@[simp] theorem State.setLow_plat (s : State) (p : Pin) : (s.setLow p).plat = s.plat :=
  State.gpioAct_plat s p _
@[simp] theorem State.setLow_t (s : State) (p : Pin) : (s.setLow p).t = s.t :=
  State.gpioAct_t s p _
@[simp] theorem State.setLow_inst (s : State) (p : Pin) : (s.setLow p).inst = { s.inst with evt := pinEvt s.plat.nPins s.inst.evt p } :=
  State.gpioAct_inst s p _
@[simp] theorem State.setLow_peers (s : State) (p : Pin) : (s.setLow p).peers = s.peers :=
  State.gpioAct_peers s p _
@[simp] theorem State.setLow_mem (s : State) (p : Pin) : (s.setLow p).mem = s.mem :=
  State.gpioAct_mem s p _
@[simp] theorem State.setLow_gpio (s : State) (p : Pin) : (s.setLow p).gpio = gpioUpdate s.plat.nPins s.gpio p (fun q => { q with out := false }) :=
  State.gpioAct_gpio s p _
@[simp] theorem State.setLow_pwm (s : State) (p : Pin) : (s.setLow p).pwm = s.pwm :=
  State.gpioAct_pwm s p _
@[simp] theorem State.setLow_registry (s : State) (p : Pin) : (s.setLow p).registry = s.registry :=
  State.gpioAct_registry s p _
@[simp] theorem State.setLow_pend (s : State) (p : Pin) : (s.setLow p).pend = s.pend :=
  State.gpioAct_pend s p _
@[simp] theorem State.setLow_host (s : State) (p : Pin) : (s.setLow p).host = s.host :=
  State.gpioAct_host s p _
@[simp] theorem State.setLow_env (s : State) (p : Pin) : (s.setLow p).env = s.env :=
  State.gpioAct_env s p _
@[simp] theorem State.setLow_irq (s : State) (p : Pin) : (s.setLow p).irq = s.irq :=
  State.gpioAct_irq s p _
@[simp] theorem State.setLow_nmi (s : State) (p : Pin) : (s.setLow p).nmi = s.nmi :=
  State.gpioAct_nmi s p _
@[simp] theorem State.setLow_rst (s : State) (p : Pin) : (s.setLow p).rst = s.rst :=
  State.gpioAct_rst s p _
@[simp] theorem State.setLow_encDraws (s : State) (p : Pin) : (s.setLow p).encDraws = s.encDraws :=
  State.gpioAct_encDraws s p _
@[simp] theorem State.setLow_drawCtr (s : State) (p : Pin) : (s.setLow p).drawCtr = s.drawCtr :=
  State.gpioAct_drawCtr s p _
@[simp] theorem State.setLow_obs (s : State) (p : Pin) : (s.setLow p).obs = s.obs :=
  State.gpioAct_obs s p _
@[simp] theorem State.setLow_past (s : State) (p : Pin) : (s.setLow p).past = s.past :=
  State.gpioAct_past s p _

@[simp] theorem State.configureOutput_plat (s : State) (p : Pin) : (s.configureOutput p).plat = s.plat :=
  State.gpioAct_plat s p _
@[simp] theorem State.configureOutput_t (s : State) (p : Pin) : (s.configureOutput p).t = s.t :=
  State.gpioAct_t s p _
@[simp] theorem State.configureOutput_inst (s : State) (p : Pin) : (s.configureOutput p).inst = { s.inst with evt := pinEvt s.plat.nPins s.inst.evt p } :=
  State.gpioAct_inst s p _
@[simp] theorem State.configureOutput_peers (s : State) (p : Pin) : (s.configureOutput p).peers = s.peers :=
  State.gpioAct_peers s p _
@[simp] theorem State.configureOutput_mem (s : State) (p : Pin) : (s.configureOutput p).mem = s.mem :=
  State.gpioAct_mem s p _
@[simp] theorem State.configureOutput_gpio (s : State) (p : Pin) : (s.configureOutput p).gpio = gpioUpdate s.plat.nPins s.gpio p (fun q => { q with dir := .output }) :=
  State.gpioAct_gpio s p _
@[simp] theorem State.configureOutput_pwm (s : State) (p : Pin) : (s.configureOutput p).pwm = s.pwm :=
  State.gpioAct_pwm s p _
@[simp] theorem State.configureOutput_registry (s : State) (p : Pin) : (s.configureOutput p).registry = s.registry :=
  State.gpioAct_registry s p _
@[simp] theorem State.configureOutput_pend (s : State) (p : Pin) : (s.configureOutput p).pend = s.pend :=
  State.gpioAct_pend s p _
@[simp] theorem State.configureOutput_host (s : State) (p : Pin) : (s.configureOutput p).host = s.host :=
  State.gpioAct_host s p _
@[simp] theorem State.configureOutput_env (s : State) (p : Pin) : (s.configureOutput p).env = s.env :=
  State.gpioAct_env s p _
@[simp] theorem State.configureOutput_irq (s : State) (p : Pin) : (s.configureOutput p).irq = s.irq :=
  State.gpioAct_irq s p _
@[simp] theorem State.configureOutput_nmi (s : State) (p : Pin) : (s.configureOutput p).nmi = s.nmi :=
  State.gpioAct_nmi s p _
@[simp] theorem State.configureOutput_rst (s : State) (p : Pin) : (s.configureOutput p).rst = s.rst :=
  State.gpioAct_rst s p _
@[simp] theorem State.configureOutput_encDraws (s : State) (p : Pin) : (s.configureOutput p).encDraws = s.encDraws :=
  State.gpioAct_encDraws s p _
@[simp] theorem State.configureOutput_drawCtr (s : State) (p : Pin) : (s.configureOutput p).drawCtr = s.drawCtr :=
  State.gpioAct_drawCtr s p _
@[simp] theorem State.configureOutput_obs (s : State) (p : Pin) : (s.configureOutput p).obs = s.obs :=
  State.gpioAct_obs s p _
@[simp] theorem State.configureOutput_past (s : State) (p : Pin) : (s.configureOutput p).past = s.past :=
  State.gpioAct_past s p _

@[simp] theorem State.configureInput_plat (s : State) (p : Pin) : (s.configureInput p).plat = s.plat :=
  State.gpioAct_plat s p _
@[simp] theorem State.configureInput_t (s : State) (p : Pin) : (s.configureInput p).t = s.t :=
  State.gpioAct_t s p _
@[simp] theorem State.configureInput_inst (s : State) (p : Pin) : (s.configureInput p).inst = { s.inst with evt := pinEvt s.plat.nPins s.inst.evt p } :=
  State.gpioAct_inst s p _
@[simp] theorem State.configureInput_peers (s : State) (p : Pin) : (s.configureInput p).peers = s.peers :=
  State.gpioAct_peers s p _
@[simp] theorem State.configureInput_mem (s : State) (p : Pin) : (s.configureInput p).mem = s.mem :=
  State.gpioAct_mem s p _
@[simp] theorem State.configureInput_gpio (s : State) (p : Pin) : (s.configureInput p).gpio = gpioUpdate s.plat.nPins s.gpio p (fun q => { q with dir := .input }) :=
  State.gpioAct_gpio s p _
@[simp] theorem State.configureInput_pwm (s : State) (p : Pin) : (s.configureInput p).pwm = s.pwm :=
  State.gpioAct_pwm s p _
@[simp] theorem State.configureInput_registry (s : State) (p : Pin) : (s.configureInput p).registry = s.registry :=
  State.gpioAct_registry s p _
@[simp] theorem State.configureInput_pend (s : State) (p : Pin) : (s.configureInput p).pend = s.pend :=
  State.gpioAct_pend s p _
@[simp] theorem State.configureInput_host (s : State) (p : Pin) : (s.configureInput p).host = s.host :=
  State.gpioAct_host s p _
@[simp] theorem State.configureInput_env (s : State) (p : Pin) : (s.configureInput p).env = s.env :=
  State.gpioAct_env s p _
@[simp] theorem State.configureInput_irq (s : State) (p : Pin) : (s.configureInput p).irq = s.irq :=
  State.gpioAct_irq s p _
@[simp] theorem State.configureInput_nmi (s : State) (p : Pin) : (s.configureInput p).nmi = s.nmi :=
  State.gpioAct_nmi s p _
@[simp] theorem State.configureInput_rst (s : State) (p : Pin) : (s.configureInput p).rst = s.rst :=
  State.gpioAct_rst s p _
@[simp] theorem State.configureInput_encDraws (s : State) (p : Pin) : (s.configureInput p).encDraws = s.encDraws :=
  State.gpioAct_encDraws s p _
@[simp] theorem State.configureInput_drawCtr (s : State) (p : Pin) : (s.configureInput p).drawCtr = s.drawCtr :=
  State.gpioAct_drawCtr s p _
@[simp] theorem State.configureInput_obs (s : State) (p : Pin) : (s.configureInput p).obs = s.obs :=
  State.gpioAct_obs s p _
@[simp] theorem State.configureInput_past (s : State) (p : Pin) : (s.configureInput p).past = s.past :=
  State.gpioAct_past s p _

/-- BIT_START after the snapshot of a phase (R156). -/
def State.phaseSnap (s : State) : Time32 :=
  match s.inst.cfg.holdKind with
  | .counted => s.inst.bitStart
  | .cyccmp => s.cyc

@[simp] theorem State.snapPhase_plat (s : State) : s.snapPhase.plat = s.plat := by
  unfold State.snapPhase; cases s.inst.cfg.holdKind <;> rfl
@[simp] theorem State.snapPhase_t (s : State) : s.snapPhase.t = s.t := by
  unfold State.snapPhase; cases s.inst.cfg.holdKind <;> rfl
@[simp] theorem State.snapPhase_inst (s : State) : s.snapPhase.inst = { s.inst with bitStart := s.phaseSnap } := by
  unfold State.snapPhase State.phaseSnap; cases s.inst.cfg.holdKind <;> rfl
@[simp] theorem State.snapPhase_peers (s : State) : s.snapPhase.peers = s.peers := by
  unfold State.snapPhase; cases s.inst.cfg.holdKind <;> rfl
@[simp] theorem State.snapPhase_mem (s : State) : s.snapPhase.mem = s.mem := by
  unfold State.snapPhase; cases s.inst.cfg.holdKind <;> rfl
@[simp] theorem State.snapPhase_gpio (s : State) : s.snapPhase.gpio = s.gpio := by
  unfold State.snapPhase; cases s.inst.cfg.holdKind <;> rfl
@[simp] theorem State.snapPhase_pwm (s : State) : s.snapPhase.pwm = s.pwm := by
  unfold State.snapPhase; cases s.inst.cfg.holdKind <;> rfl
@[simp] theorem State.snapPhase_registry (s : State) : s.snapPhase.registry = s.registry := by
  unfold State.snapPhase; cases s.inst.cfg.holdKind <;> rfl
@[simp] theorem State.snapPhase_pend (s : State) : s.snapPhase.pend = s.pend := by
  unfold State.snapPhase; cases s.inst.cfg.holdKind <;> rfl
@[simp] theorem State.snapPhase_host (s : State) : s.snapPhase.host = s.host := by
  unfold State.snapPhase; cases s.inst.cfg.holdKind <;> rfl
@[simp] theorem State.snapPhase_env (s : State) : s.snapPhase.env = s.env := by
  unfold State.snapPhase; cases s.inst.cfg.holdKind <;> rfl
@[simp] theorem State.snapPhase_irq (s : State) : s.snapPhase.irq = s.irq := by
  unfold State.snapPhase; cases s.inst.cfg.holdKind <;> rfl
@[simp] theorem State.snapPhase_nmi (s : State) : s.snapPhase.nmi = s.nmi := by
  unfold State.snapPhase; cases s.inst.cfg.holdKind <;> rfl
@[simp] theorem State.snapPhase_rst (s : State) : s.snapPhase.rst = s.rst := by
  unfold State.snapPhase; cases s.inst.cfg.holdKind <;> rfl
@[simp] theorem State.snapPhase_encDraws (s : State) : s.snapPhase.encDraws = s.encDraws := by
  unfold State.snapPhase; cases s.inst.cfg.holdKind <;> rfl
@[simp] theorem State.snapPhase_drawCtr (s : State) : s.snapPhase.drawCtr = s.drawCtr := by
  unfold State.snapPhase; cases s.inst.cfg.holdKind <;> rfl
@[simp] theorem State.snapPhase_obs (s : State) : s.snapPhase.obs = s.obs := by
  unfold State.snapPhase; cases s.inst.cfg.holdKind <;> rfl
@[simp] theorem State.snapPhase_past (s : State) : s.snapPhase.past = s.past := by
  unfold State.snapPhase; cases s.inst.cfg.holdKind <;> rfl

@[simp] theorem State.passTo_plat (s : State) (c : Nat) : (s.passTo c).plat = s.plat := by
  unfold State.passTo; split <;> rfl
@[simp] theorem State.passTo_inst (s : State) (c : Nat) : (s.passTo c).inst = s.inst := by
  unfold State.passTo; split <;> rfl
@[simp] theorem State.passTo_peers (s : State) (c : Nat) : (s.passTo c).peers = s.peers := by
  unfold State.passTo; split <;> rfl
@[simp] theorem State.passTo_mem (s : State) (c : Nat) : (s.passTo c).mem = s.mem := by
  unfold State.passTo; split <;> rfl
@[simp] theorem State.passTo_gpio (s : State) (c : Nat) : (s.passTo c).gpio = s.gpio := by
  unfold State.passTo; split <;> rfl
@[simp] theorem State.passTo_pwm (s : State) (c : Nat) : (s.passTo c).pwm = s.pwm := by
  unfold State.passTo; split <;> rfl
@[simp] theorem State.passTo_registry (s : State) (c : Nat) : (s.passTo c).registry = s.registry := by
  unfold State.passTo; split <;> rfl
@[simp] theorem State.passTo_pend (s : State) (c : Nat) : (s.passTo c).pend = s.pend := by
  unfold State.passTo; split <;> rfl
@[simp] theorem State.passTo_host (s : State) (c : Nat) : (s.passTo c).host = s.host := by
  unfold State.passTo; split <;> rfl
@[simp] theorem State.passTo_env (s : State) (c : Nat) : (s.passTo c).env = s.env := by
  unfold State.passTo; split <;> rfl
@[simp] theorem State.passTo_irq (s : State) (c : Nat) : (s.passTo c).irq = s.irq := by
  unfold State.passTo; split <;> rfl
@[simp] theorem State.passTo_nmi (s : State) (c : Nat) : (s.passTo c).nmi = s.nmi := by
  unfold State.passTo; split <;> rfl
@[simp] theorem State.passTo_rst (s : State) (c : Nat) : (s.passTo c).rst = s.rst := by
  unfold State.passTo; split <;> rfl
@[simp] theorem State.passTo_encDraws (s : State) (c : Nat) : (s.passTo c).encDraws = s.encDraws := by
  unfold State.passTo; split <;> rfl
@[simp] theorem State.passTo_drawCtr (s : State) (c : Nat) : (s.passTo c).drawCtr = s.drawCtr := by
  unfold State.passTo; split <;> rfl
@[simp] theorem State.passTo_past (s : State) (c : Nat) : (s.passTo c).past = s.past := by
  unfold State.passTo; split <;> rfl
@[simp] theorem State.passTo_t (s : State) (c : Nat) : (s.passTo c).t = max s.t c := by
  unfold State.passTo
  split
  · omega
  · simp only []; omega

@[simp] theorem State.passTo_masks (s : State) (c : Nat) : (s.passTo c).obs.masks = s.obs.masks := by
  unfold State.passTo; split <;> rfl

@[simp] theorem State.passTo_dones (s : State) (c : Nat) : (s.passTo c).obs.dones = s.obs.dones := by
  unfold State.passTo; split <;> rfl

/-- The segments of a pass of time: what the lines of all instances hold over the cycles that pass. -/
def State.passSegs (s : State) (c : Nat) : List Seg := if c ≤ s.t then [] else s.heldSegs s.t c

@[simp] theorem State.passTo_wave (s : State) (c : Nat) : (s.passTo c).obs.wave = s.obs.wave ++ s.passSegs c := by
  unfold State.passTo State.passSegs
  by_cases h : c ≤ s.t <;> simp [h]

/-- A pass is the same state with time and waveform moved on. -/
theorem State.passTo_eq (s : State) (c : Nat) :
    s.passTo c = { s with t := max s.t c, obs := { s.obs with wave := s.obs.wave ++ s.passSegs c } } := by
  unfold State.passTo State.passSegs
  by_cases h : c ≤ s.t
  · simp [h]
  · simp only [if_neg h, Nat.max_eq_right (Nat.le_of_not_le h)]

/-! ## The segments of a pass of time -/

theorem State.pinSeg_congr {s u : State} (h1 : u.plat = s.plat) (h2 : u.pwm = s.pwm) {p : Pin}
    (h3 : u.gpio.getD p.toNat PinState.reset = s.gpio.getD p.toNat PinState.reset) (t0 t1 : Nat) :
    u.pinSeg t0 t1 p = s.pinSeg t0 t1 p := by
  unfold State.pinSeg State.restLevel State.pinResolves State.pinState; rw [h1, h2, h3]

/-- A GPIO action on the running instance's pin changes no other line. -/
theorem getD_gpioUpdate_ne (n : Nat) (g : List PinState) {p q : Pin} (f : PinState → PinState) (h : q ≠ p) :
    (gpioUpdate n g p f).getD q.toNat PinState.reset = g.getD q.toNat PinState.reset := by
  unfold gpioUpdate
  split
  · have : p.toNat ≠ q.toNat := fun e => h (BitVec.eq_of_toNat_eq e.symm)
    simp [List.getD, this]
  · rfl

theorem State.parkedPins_congr {s u : State} (h1 : u.peers = s.peers) (h2 : u.inst.pin = s.inst.pin) :
    u.parkedPins = s.parkedPins := by unfold State.parkedPins; rw [h1, h2]

theorem State.parkedPins_ne {s : State} {p : Pin} (h : p ∈ s.parkedPins) : p ≠ s.inst.pin := by
  have := (List.mem_filter.mp h).2; simpa using this

/-- What the lines of parked instances hold depends only on the platform, the units, the pins and the other lines' GPIO. -/
theorem State.parkedSegs_congr {s u : State} (h1 : u.plat = s.plat) (h2 : u.pwm = s.pwm) (h3 : u.peers = s.peers)
    (h4 : u.inst.pin = s.inst.pin)
    (h5 : ∀ p, p ≠ s.inst.pin → u.gpio.getD p.toNat PinState.reset = s.gpio.getD p.toNat PinState.reset) (t0 t1 : Nat) :
    u.parkedSegs t0 t1 = s.parkedSegs t0 t1 := by
  unfold State.parkedSegs
  rw [State.parkedPins_congr h3 h4]
  exact List.filterMap_congr fun p hp => State.pinSeg_congr h1 h2 (h5 p (State.parkedPins_ne hp)) t0 t1

/-- No parked instance's segment is on the running instance's line. -/
theorem State.parkedSegs_line (s : State) (t0 t1 : Nat) :
    (s.parkedSegs t0 t1).filter (fun g => decide (g.pin = s.inst.pin)) = [] := by
  rw [List.filter_eq_nil_iff]
  intro g hg
  obtain ⟨p, hp, e⟩ := List.mem_filterMap.mp hg
  obtain ⟨lv, -, rfl⟩ := Option.map_eq_some_iff.mp e
  simpa using State.parkedPins_ne hp

end Sys2Proof.Machine
end

