-- ==== Sys2Proof/Laws/Clock.lean ====
section
/-! SUPPORT. Laws/Clock.lean: what the timed primitives compute: the next unstalled cycle, counted holds, polled waits, the
first cycle in which a counter has advanced far enough; and that they find a cycle whenever there is one. -/

namespace Sys2Proof.Machine

/-! ## Requests -/

theorem inWindow_iff {t : Nat} {w : Window} :
    inWindow t w = true ↔ w.start ≤ t ∧ (t - w.start + w.phase) % w.period < w.len := by
  simp [inWindow]

theorem inWindows_iff {ws : List Window} {t : Nat} :
    inWindows ws t = true ↔ ∃ w ∈ ws, w.start ≤ t ∧ (t - w.start + w.phase) % w.period < w.len := by
  simp [inWindows, inWindow]

@[simp] theorem inWindows_nil (t : Nat) : inWindows [] t = false := rfl

theorem inWindows_append (a b : List Window) (t : Nat) : inWindows (a ++ b) t = (inWindows a t || inWindows b t) := by
  simp [inWindows]

/-- The stretch that holds a cycle goes on to its end. -/
theorem Window.stop_spec {w : Window} {t : Nat} (h : inWindow t w = true) :
    t < w.stop t ∧ ∀ c, t ≤ c → c < w.stop t → inWindow c w = true := by
  obtain ⟨h1, h2⟩ := inWindow_iff.mp h
  refine ⟨by unfold Window.stop; omega, fun c hc hs => inWindow_iff.mpr ⟨by omega, ?_⟩⟩
  obtain ⟨d, rfl⟩ := Nat.exists_eq_add_of_le hc
  unfold Window.stop at hs
  rw [show t + d - w.start + w.phase = t - w.start + w.phase + d by omega, ← Nat.mod_add_mod]
  have := Nat.mod_le ((t - w.start + w.phase) % w.period + d) w.period
  omega

theorem clear_spec {ws : List Window} {t : Nat} (h : inWindows ws t = true) :
    t < clear ws t ∧ ∀ c, t ≤ c → c < clear ws t → inWindows ws c = true := by
  unfold clear
  cases hf : ws.find? (inWindow t) with
  | none =>
    rw [List.find?_eq_none] at hf
    obtain ⟨w, hw, hi⟩ := List.any_eq_true.mp h
    exact absurd hi (hf w hw)
  | some w =>
    obtain ⟨h1, h2⟩ := Window.stop_spec (List.find?_some hf)
    exact ⟨h1, fun c a b => List.any_eq_true.mpr ⟨w, List.mem_of_find?_eq_some hf, h2 c a b⟩⟩

/-- From the horizon on every request repeats after a round. -/
theorem inWindows_repeat (ws : List Window) {t : Nat} (h : horizon ws ≤ t) (k : Nat) :
    inWindows ws (t + k * round ws) = inWindows ws t := by
  have hper : ∀ w ∈ ws, w.period = 0 ∨ ∃ m, round ws = w.period * m := by
    intro w hw
    rcases Nat.eq_zero_or_pos w.period with h0 | h0
    · exact Or.inl h0
    · have hd := List.dvd_prod (List.mem_map_of_mem (f := fun v : Window => max 1 v.period) hw)
      rw [show max 1 w.period = w.period by omega] at hd
      exact Or.inr hd
  have hstart : ∀ w ∈ ws, w.start + w.len ≤ t := fun w hw =>
    Nat.le_trans (List.single_le_sum (by simp) _ (List.mem_map_of_mem (f := fun v : Window => v.start + v.len) hw)) h
  unfold inWindows
  rw [Bool.eq_iff_iff, List.any_eq_true, List.any_eq_true]
  refine exists_congr fun w => and_congr_right fun hw => ?_
  have hs := hstart w hw
  have e : t + k * round ws - w.start + w.phase = t - w.start + w.phase + k * round ws := by omega
  have key : ((t + k * round ws - w.start + w.phase) % w.period < w.len) ↔ ((t - w.start + w.phase) % w.period < w.len) := by
    rcases hper w hw with h0 | ⟨m, hm⟩
    · rw [h0]; simp only [Nat.mod_zero]; omega
    · rw [e, hm, ← Nat.mul_assoc, Nat.mul_comm k, Nat.mul_assoc, Nat.add_mul_mod_self_left]
  rw [inWindow_iff, inWindow_iff, key]
  exact ⟨fun h => ⟨by omega, h.2⟩, fun h => ⟨by omega, h.2⟩⟩

/-- Requests seen from a reset in cycle r are those from r on (R321). -/
theorem inWindows_shift (r c : Nat) (ws : List Window) : inWindows (ws.map (Window.shift r)) c = inWindows ws (r + c) := by
  have h : ∀ w : Window, inWindow c (w.shift r) = inWindow (r + c) w := fun w => by
    rw [Bool.eq_iff_iff, inWindow_iff, inWindow_iff]
    simp only [Window.shift]
    rw [show (w.start - r ≤ c) ↔ w.start ≤ r + c by omega]
    refine and_congr_right fun h2 => ?_
    rw [show c - (w.start - r) + (w.phase + (r - w.start)) = r + c - w.start + w.phase by omega]
  simp only [inWindows, List.any_map, Function.comp_def, h]

/-- Requests none of which repeats are over from the horizon on. -/
theorem inWindows_over {ws : List Window} (h : ∀ w ∈ ws, w.period = 0) {t : Nat} (ht : horizon ws ≤ t) : inWindows ws t = false := by
  rw [Bool.eq_false_iff]
  intro hx
  obtain ⟨w, hw, h1, h2⟩ := inWindows_iff.mp hx
  have hs : w.start + w.len ≤ t := Nat.le_trans
    (List.single_le_sum (by simp) _ (List.mem_map_of_mem (f := fun v : Window => v.start + v.len) hw)) ht
  rw [h w hw, Nat.mod_zero] at h2
  omega

/-! ## The search -/

/-- `due` gives the first cycle from t on in which a condition holds. -/
structure FirstHolds (cond : Nat → Bool) (due : Nat → Nat) : Prop where
  le : ∀ t, t ≤ due t
  holds : ∀ t, cond (due t) = true
  least : ∀ t c, t ≤ c → c < due t → cond c = false

theorem FirstHolds.fixed {cond : Nat → Bool} {due : Nat → Nat} (h : FirstHolds cond due) {t : Nat} :
    due t = t ↔ cond t = true := by
  constructor
  · intro e; rw [← e]; exact h.holds t
  · intro e
    have := h.le t
    by_contra hc
    have := h.least t t (Nat.le_refl _) (by omega)
    simp [this] at e

/-- What is found is the first unstalled cycle in which the condition holds. -/
theorem search_some {cond : Nat → Bool} {due : Nat → Nat} (hd : FirstHolds cond due) {ws : List Window} :
    ∀ {n t c : Nat}, search ws due n t = some c →
      t ≤ c ∧ inWindows ws c = false ∧ cond c = true ∧ ∀ k, t ≤ k → k < c → inWindows ws k = true ∨ cond k = false
  | 0, _, _, h => nomatch h
  | n + 1, t, c, h => by
    simp only [search] at h
    split at h
    · next he =>
      split at h
      · next hw =>
        obtain ⟨h1, h2⟩ := clear_spec hw
        obtain ⟨a, b, d, e⟩ := search_some hd h
        refine ⟨by omega, b, d, fun k hk hk2 => ?_⟩
        by_cases hx : k < clear ws t
        · exact Or.inl (h2 k hk hx)
        · exact e k (by omega) hk2
      · next hw =>
        cases h
        exact ⟨Nat.le_refl _, by simpa using hw, hd.fixed.mp he, fun k h1 h2 => absurd h2 (by omega)⟩
    · next he =>
      have hle := hd.le t
      obtain ⟨a, b, d, e⟩ := search_some hd h
      refine ⟨by omega, b, d, fun k hk hk2 => ?_⟩
      by_cases hx : k < due t
      · exact Or.inr (hd.least t k hk hx)
      · exact e k (by omega) hk2

/-- Where nothing is found in n hops, there is nothing in the next n cycles. -/
theorem search_none {cond : Nat → Bool} {due : Nat → Nat} (hd : FirstHolds cond due) {ws : List Window} :
    ∀ {n t : Nat}, search ws due n t = none → ∀ k, t ≤ k → k < t + n → inWindows ws k = true ∨ cond k = false
  | 0, t, _, k, h1, h2 => absurd h2 (by omega)
  | n + 1, t, h, k, hk, hk2 => by
    simp only [search] at h
    split at h
    · split at h
      · next hw =>
        obtain ⟨h1, h2⟩ := clear_spec hw
        by_cases hx : k < clear ws t
        · exact Or.inl (h2 k hk hx)
        · exact search_none hd h k (by omega) (by omega)
      · cases h
    · next he =>
      have hle := hd.le t
      by_cases hx : k < due t
      · exact Or.inr (hd.least t k hk hx)
      · exact search_none hd h k (by omega) (by omega)

/-- A polled wait ends in the first unstalled cycle in which its condition holds (R17). -/
theorem waitUntil_some {cond : Nat → Bool} {due : Nat → Nat} (hd : FirstHolds cond due) {ws : List Window} {span t c : Nat}
    (h : waitUntil ws due span t = some c) :
    t ≤ c ∧ inWindows ws c = false ∧ cond c = true ∧ ∀ k, t ≤ k → k < c → inWindows ws k = true ∨ cond k = false :=
  search_some hd h

/-- A polled wait that ends in no cycle has none to end in: its condition never holds in an unstalled cycle. -/
theorem waitUntil_none {cond : Nat → Bool} {due : Nat → Nat} (hd : FirstHolds cond due) {ws : List Window} {span t : Nat}
    (hs : 0 < span) (hp : ∀ c j, cond (c + j * span) = cond c) (h : waitUntil ws due span t = none) :
    ∀ k, t ≤ k → inWindows ws k = true ∨ cond k = false := by
  intro k
  induction k using Nat.strong_induction_on with
  | _ k ih =>
    intro hk
    by_cases hx : k < t + (horizon ws - t + round ws * span + 1)
    · exact search_none hd h k hk hx
    · have hr : 0 < round ws := Nat.pos_of_ne_zero fun e => by
        rw [round, List.prod_eq_zero_iff] at e
        obtain ⟨w, -, hw⟩ := List.mem_map.mp e
        omega
      have hpos := Nat.mul_pos hr hs
      obtain ⟨d, rfl⟩ : ∃ d, k = d + round ws * span := ⟨k - round ws * span, by omega⟩
      rw [hp, Nat.mul_comm, inWindows_repeat ws (by omega)]
      exact ih d (by omega) (by omega)

/-- A polled wait ends in the first unstalled cycle in which its condition holds, and in no other. -/
theorem waitUntil_eq {cond : Nat → Bool} {due : Nat → Nat} (hd : FirstHolds cond due) {ws : List Window} {span t c : Nat}
    (hs : 0 < span) (hp : ∀ c j, cond (c + j * span) = cond c) (h1 : t ≤ c) (h2 : inWindows ws c = false) (h3 : cond c = true)
    (h4 : ∀ k, t ≤ k → k < c → inWindows ws k = true ∨ cond k = false) : waitUntil ws due span t = some c := by
  cases h : waitUntil ws due span t with
  | none => have := waitUntil_none hd hs hp h c h1; simp [h2, h3] at this
  | some d =>
    obtain ⟨a, b, e, g⟩ := waitUntil_some hd h
    rcases Nat.lt_trichotomy c d with hl | rfl | hl
    · have := g c h1 hl; simp [h2, h3] at this
    · rfl
    · have := h4 d a hl; simp [b, e] at this

/-- With no request, a polled wait ends as soon as its condition holds. -/
theorem waitUntil_nil {cond : Nat → Bool} {due : Nat → Nat} (hd : FirstHolds cond due) (span t : Nat) (hs : 0 < span) :
    waitUntil [] due span t = some (due t) := by
  have h0 : search [] due 1 (due t) = some (due t) := by
    simp [search, hd.fixed.mpr (hd.holds t)]
  obtain ⟨k, hk⟩ : ∃ k, horizon [] - t + round [] * span + 1 = k + 2 := ⟨span - 1, by simp [horizon, round]; omega⟩
  rw [waitUntil, hk, search]
  split
  · next he => simp [he]
  · next he => simp [search, hd.fixed.mpr (hd.holds t)]

/-! ## The next unstalled cycle -/

theorem id_first : FirstHolds (fun _ => true) id := ⟨fun _ => Nat.le_refl _, fun _ => rfl, fun t c h1 h2 => by simp at h2; omega⟩

/-- The next unstalled cycle, said whole: it is unstalled and every cycle before it is stalled. -/
theorem nextFree_some {ws : List Window} {t c : Nat} (h : nextFree ws t = some c) :
    t ≤ c ∧ inWindows ws c = false ∧ ∀ k, t ≤ k → k < c → inWindows ws k = true := by
  obtain ⟨a, b, -, d⟩ := waitUntil_some id_first h
  exact ⟨a, b, fun k h1 h2 => (d k h1 h2).resolve_right (by simp)⟩

/-- With no next unstalled cycle every cycle is stalled. -/
theorem nextFree_none {ws : List Window} {t : Nat} (h : nextFree ws t = none) (k : Nat) (hk : t ≤ k) : inWindows ws k = true :=
  (waitUntil_none id_first Nat.one_pos (fun _ _ => rfl) h k hk).resolve_right (by simp)

theorem nextFree_of_free {ws : List Window} {t : Nat} (h : inWindows ws t = false) : nextFree ws t = some t := by
  simp [nextFree, waitUntil, search, h]

@[simp] theorem nextFree_nil (t : Nat) : nextFree [] t = some t := nextFree_of_free rfl

/-- The next unstalled cycle is the only one that is unstalled with only stalled ones before it. -/
theorem nextFree_eq {ws : List Window} {t c : Nat} (h1 : t ≤ c) (h2 : inWindows ws c = false)
    (h3 : ∀ k, t ≤ k → k < c → inWindows ws k = true) : nextFree ws t = some c := by
  cases h : nextFree ws t with
  | none => have := nextFree_none h c h1; simp [h2] at this
  | some d =>
    obtain ⟨a, b, e⟩ := nextFree_some h
    rcases Nat.lt_trichotomy c d with hl | rfl | hl
    · have := e c h1 hl; simp [h2] at this
    · rfl
    · have := h3 d a hl; simp [b] at this

/-! ## Counted holds -/

/-- The unstalled cycles of [t, t + k). -/
def freeIn (ws : List Window) (t : Nat) : Nat → Nat
  | 0 => 0
  | k + 1 => freeIn ws t k + (if inWindows ws (t + k) then 0 else 1)

theorem freeIn_add (ws : List Window) (t j : Nat) : ∀ k,
    freeIn ws t (j + k) = freeIn ws t j + freeIn ws (t + j) k
  | 0 => by simp [freeIn]
  | k + 1 => by
    rw [show j + (k + 1) = (j + k) + 1 by omega]
    simp only [freeIn]
    rw [freeIn_add ws t j k, show t + (j + k) = t + j + k by omega]; omega

theorem freeIn_stalled {ws : List Window} {t : Nat} : ∀ k, (∀ c, t ≤ c → c < t + k → inWindows ws c = true) →
    freeIn ws t k = 0
  | 0, _ => rfl
  | k + 1, h => by
    simp only [freeIn, h (t + k) (by omega) (by omega), if_true]
    rw [freeIn_stalled k fun c h1 h2 => h c h1 (by omega)]

@[simp] theorem freeIn_nil (t : Nat) : ∀ k, freeIn [] t k = k
  | 0 => rfl
  | k + 1 => by simp [freeIn, freeIn_nil t k]

/-- A hold of n cycles holds exactly n unstalled cycles, and no shorter one does (R17). -/
theorem holdCounted_some {ws : List Window} : ∀ {n t e : Nat}, holdCounted ws n t = some e →
    t ≤ e ∧ freeIn ws t (e - t) = n ∧ ∀ k, t + k < e → freeIn ws t k < n
  | 0, t, e, h => by cases h; simp [freeIn]
  | n + 1, t, e, h => by
    obtain ⟨c, hc, he⟩ := Option.bind_eq_some_iff.mp h
    obtain ⟨h1, h2, h3⟩ := nextFree_some hc
    obtain ⟨a, b, d⟩ := holdCounted_some he
    have hj : ∀ j, freeIn ws t (c - t + (1 + j)) = 1 + freeIn ws (c + 1) j := by
      intro j
      rw [freeIn_add, freeIn_add, freeIn_stalled (c - t) fun k x y => h3 k x (by omega), show t + (c - t) = c by omega]
      simp [freeIn, h2]
    refine ⟨by omega, ?_, fun k hk => ?_⟩
    · rw [show e - t = c - t + (1 + (e - (c + 1))) by omega, hj, b]; omega
    · by_cases hx : k ≤ c - t
      · rw [freeIn_stalled k fun i x y => h3 i x (by omega)]; omega
      · obtain ⟨j, rfl⟩ : ∃ j, k = c - t + (1 + j) := ⟨k - (c - t) - 1, by omega⟩
        rw [hj]
        have := d j (by omega)
        omega

/-- Where no hold ends, no stretch from t on holds n unstalled cycles. -/
theorem holdCounted_none {ws : List Window} : ∀ {n t : Nat}, holdCounted ws n t = none → ∀ k, freeIn ws t k < n
  | n + 1, t, h, k => by
    rcases Option.bind_eq_none_iff.mp h with hb
    cases hc : nextFree ws t with
    | none =>
      rw [freeIn_stalled k fun i x _ => nextFree_none hc i x]; omega
    | some c =>
      obtain ⟨h1, h2, h3⟩ := nextFree_some hc
      have hn := hb c hc
      by_cases hx : k ≤ c - t
      · rw [freeIn_stalled k fun i x y => h3 i x (by omega)]; omega
      · obtain ⟨j, rfl⟩ : ∃ j, k = c - t + (1 + j) := ⟨k - (c - t) - 1, by omega⟩
        rw [freeIn_add, freeIn_add, freeIn_stalled (c - t) fun i x y => h3 i x (by omega), show t + (c - t) = c by omega]
        have := holdCounted_none hn j
        simp [freeIn, h2]; omega

@[simp] theorem holdCounted_nil : ∀ n t, holdCounted [] n t = some (t + n)
  | 0, _ => rfl
  | n + 1, t => by simp [holdCounted, holdCounted_nil n]; omega

@[simp] theorem afterCounted_nil (n t : Nat) : afterCounted [] n t = some (t + n) := by simp [afterCounted]

/-- The action after a counted hold: in an unstalled cycle, with exactly n unstalled cycles before it. -/
theorem afterCounted_some {ws : List Window} {n t c : Nat} (h : afterCounted ws n t = some c) :
    t ≤ c ∧ inWindows ws c = false ∧ freeIn ws t (c - t) = n := by
  obtain ⟨e, he, hc⟩ := Option.bind_eq_some_iff.mp h
  obtain ⟨a, b, -⟩ := holdCounted_some he
  obtain ⟨a', b', d'⟩ := nextFree_some hc
  refine ⟨by omega, b', ?_⟩
  rw [show c - t = e - t + (c - e) by omega, freeIn_add, b, freeIn_stalled _ fun k x y => d' k (by omega) (by omega)]
  rfl

/-- Where there is none, no cycle is such. -/
theorem afterCounted_none {ws : List Window} {n t : Nat} (h : afterCounted ws n t = none) {c : Nat} (h1 : t ≤ c)
    (h2 : inWindows ws c = false) : freeIn ws t (c - t) ≠ n := by
  intro hn
  unfold afterCounted at h
  cases he : holdCounted ws n t with
  | none => have := holdCounted_none he (c - t); omega
  | some e =>
    rw [he, Option.bind_some] at h
    obtain ⟨a, b, d⟩ := holdCounted_some he
    by_cases hx : e ≤ c
    · have := nextFree_none h c hx; simp [h2] at this
    · have := d (c - t) (by omega); omega

/-- There is only one such cycle. -/
theorem afterCounted_eq {ws : List Window} {n t c : Nat} (h1 : t ≤ c) (h2 : inWindows ws c = false)
    (h3 : freeIn ws t (c - t) = n) : afterCounted ws n t = some c := by
  cases h : afterCounted ws n t with
  | none => exact absurd h3 (afterCounted_none h h1 h2)
  | some d =>
    obtain ⟨a, b, e⟩ := afterCounted_some h
    have lt : ∀ {x y : Nat}, t ≤ x → x < y → inWindows ws x = false → freeIn ws t (x - t) < freeIn ws t (y - t) := by
      intro x y hx hxy hf
      rw [show y - t = x - t + (1 + (y - x - 1)) by omega, freeIn_add, freeIn_add, show t + (x - t) = x by omega]
      simp [freeIn, hf]
    rcases Nat.lt_trichotomy c d with hl | rfl | hl
    · have := lt h1 hl h2; omega
    · rfl
    · have := lt a hl b; omega

/-! ## The two counters -/

theorem cycAt_sub_toNat (t t0 : Nat) (h : t0 ≤ t) : (cycAt t - cycAt t0).toNat = (t - t0) % 2 ^ 32 := by
  simp only [cycAt, BitVec.toNat_sub, BitVec.toNat_ofNat]
  omega

theorem cycAt_sub_since (t d : Nat) (since : Time32) :
    (cycAt (t + d) - since).toNat = ((cycAt t - since).toNat + d) % 2 ^ 32 := by
  simp only [cycAt, BitVec.toNat_sub, BitVec.toNat_ofNat]
  omega

/-- `dueCyc` is the first cycle in which CYC has advanced by n since a snapshot (R17, R223). -/
theorem dueCyc_first (t0 : Time32) (n : Nat) (hn : n < 2 ^ 32) :
    FirstHolds (fun c => elapsed (cycAt c) t0 n) (dueCyc t0 n) where
  le t := by unfold dueCyc; split <;> omega
  holds t := by
    unfold dueCyc
    split
    · assumption
    · next h =>
      simp only [elapsed, decide_eq_true_eq, Nat.not_le] at h ⊢
      rw [cycAt_sub_since]
      rw [Nat.mod_eq_of_lt (by omega)]; omega
  least t c h1 h2 := by
    unfold dueCyc at h2
    split at h2
    · omega
    · next h =>
      simp only [elapsed, decide_eq_true_eq, Nat.not_le, decide_eq_false_iff_not] at h ⊢
      obtain ⟨d, rfl⟩ := Nat.exists_eq_add_of_le h1
      rw [cycAt_sub_since, Nat.mod_eq_of_lt (by omega)]; omega

theorem usAt_add_sub (m t d : Nat) (since : Time32) (hm : 0 < m) :
    (usAt m ((t / m + d) * m) - since).toNat = ((usAt m t - since).toNat + d) % 2 ^ 32 := by
  simp only [usAt, BitVec.toNat_sub, BitVec.toNat_ofNat, Nat.mul_div_cancel _ hm]
  omega

/-- `dueUs` is the first cycle in which US has advanced by d since a snapshot (R131). -/
theorem dueUs_first (m : Nat) (hm : 0 < m) (since : Time32) (d : Nat) (hd : d < 2 ^ 32) :
    FirstHolds (fun c => elapsed (usAt m c) since d) (dueUs m since d) where
  le t := by
    unfold dueUs
    split
    · omega
    · next h =>
      simp only [elapsed, decide_eq_true_eq, Nat.not_le] at h
      have h1 := Nat.div_add_mod t m
      have h2 := Nat.mod_lt t hm
      have h3 : (t / m + 1) * m ≤ (t / m + (d - (usAt m t - since).toNat)) * m :=
        Nat.mul_le_mul_right m (by omega)
      rw [Nat.add_mul, Nat.mul_comm (t / m) m] at h3
      omega
  holds t := by
    unfold dueUs
    split
    · assumption
    · next h =>
      simp only [elapsed, decide_eq_true_eq, Nat.not_le] at h ⊢
      rw [usAt_add_sub m t _ since hm, Nat.mod_eq_of_lt (by omega)]; omega
  least t c h1 h2 := by
    unfold dueUs at h2
    split at h2
    · omega
    · next h =>
      simp only [elapsed, decide_eq_true_eq, Nat.not_le, decide_eq_false_iff_not] at h ⊢
      have hc : c / m < t / m + (d - (usAt m t - since).toNat) := Nat.div_lt_of_lt_mul (by rwa [Nat.mul_comm])
      have ht : t / m ≤ c / m := Nat.div_le_div_right h1
      obtain ⟨k, hk⟩ := Nat.exists_eq_add_of_le ht
      have e : (usAt m c - since).toNat = ((usAt m t - since).toNat + k) % 2 ^ 32 := by
        simp only [usAt, BitVec.toNat_sub, BitVec.toNat_ofNat, hk]
        omega
      rw [e, Nat.mod_eq_of_lt (by omega)]; omega

/-! ## Waits on the two counters -/

theorem cyc_repeats (t0 : Time32) (n c j : Nat) : elapsed (cycAt (c + j * 2 ^ 32)) t0 n = elapsed (cycAt c) t0 n := by
  have : cycAt (c + j * 2 ^ 32) = cycAt c := by
    apply BitVec.eq_of_toNat_eq
    simp only [cycAt, BitVec.toNat_ofNat, Nat.add_mul_mod_self_right]
  rw [this]

/-- CYC has gone at least n past t0 in the unstalled cycle c, and in no unstalled cycle from t to it (R17, R223). -/
def FirstPast (ws : List Window) (cond : Nat → Bool) (t c : Nat) : Prop :=
  t ≤ c ∧ inWindows ws c = false ∧ cond c = true ∧ ∀ k, t ≤ k → k < c → inWindows ws k = true ∨ cond k = false

theorem untilCyc_iff {ws : List Window} {t0 : Time32} {n t c : Nat} (hn : n < 2 ^ 32) :
    untilCyc ws t0 n t = some c ↔ FirstPast ws (fun k => elapsed (cycAt k) t0 n) t c :=
  ⟨fun h => waitUntil_some (dueCyc_first t0 n hn) h, fun ⟨a, b, d, e⟩ =>
    waitUntil_eq (dueCyc_first t0 n hn) (by decide) (cyc_repeats t0 n) a b d e⟩

/-- The next unstalled cycle, and no other. -/
theorem nextFree_iff {ws : List Window} {t c : Nat} :
    nextFree ws t = some c ↔ t ≤ c ∧ inWindows ws c = false ∧ ∀ k, t ≤ k → k < c → inWindows ws k = true :=
  ⟨nextFree_some, fun ⟨a, b, d⟩ => nextFree_eq a b d⟩

/-- The first unstalled cycle from t on that is not before d. -/
theorem freeFrom_iff {ws : List Window} {t d c : Nat} :
    nextFree ws (max t d) = some c ↔ FirstPast ws (fun k => decide (d ≤ k)) t c := by
  rw [nextFree_iff]
  constructor
  · rintro ⟨h1, h2, h3⟩
    refine ⟨by omega, h2, by simp only [decide_eq_true_eq]; omega, fun k hk hk2 => ?_⟩
    rcases Nat.lt_or_ge k d with h | h
    · exact Or.inr (by simp only [decide_eq_false_iff_not]; omega)
    · exact Or.inl (h3 k (by omega) hk2)
  · rintro ⟨h1, h2, h3, h4⟩
    simp only [decide_eq_true_eq] at h3
    refine ⟨by omega, h2, fun k hk hk2 => (h4 k (by omega) hk2).resolve_right ?_⟩
    simp only [decide_eq_false_iff_not]; omega

theorem freeFrom_none {ws : List Window} {t d : Nat} (h : nextFree ws (max t d) = none) (k : Nat) (hk : t ≤ k) :
    inWindows ws k = true ∨ decide (d ≤ k) = false := by
  rcases Nat.lt_or_ge k d with hd | hd
  · exact Or.inr (by simp only [decide_eq_false_iff_not]; omega)
  · exact Or.inl (nextFree_none h k (by omega))

/-- The first cycle in which a condition holds has come exactly when the condition has held. -/
theorem FirstHolds.le_iff {cond : Nat → Bool} {due : Nat → Nat} (h : FirstHolds cond due) {a c : Nat} :
    due a ≤ c ↔ ∃ k, a ≤ k ∧ k ≤ c ∧ cond k = true := by
  refine ⟨fun e => ⟨_, h.le a, e, h.holds a⟩, fun ⟨k, h1, h2, h3⟩ => ?_⟩
  by_contra hc
  have := h.least a k h1 (by omega)
  rw [h3] at this; cases this

/-- Where a wait on CYC has no end, CYC has gone far enough in no unstalled cycle. -/
theorem untilCyc_none {ws : List Window} {t0 : Time32} {n t : Nat} (hn : n < 2 ^ 32) (h : untilCyc ws t0 n t = none) (k : Nat)
    (hk : t ≤ k) : inWindows ws k = true ∨ elapsed (cycAt k) t0 n = false :=
  waitUntil_none (dueCyc_first t0 n hn) (by decide) (cyc_repeats t0 n) h k hk

/-- With requests that do not repeat a wait on CYC has an end. -/
theorem untilCyc_ends {ws : List Window} (hw : ∀ w ∈ ws, w.period = 0) {t0 : Time32} {n : Nat} (hn : n < 2 ^ 32) (t : Nat) :
    untilCyc ws t0 n t ≠ none := by
  intro h
  have hd := dueCyc_first t0 n hn
  have hle := hd.le (max t (horizon ws))
  rcases untilCyc_none hn h (dueCyc t0 n (max t (horizon ws))) (by omega) with hx | hx
  · rw [inWindows_over hw (by omega)] at hx; cases hx
  · rw [hd.holds] at hx; cases hx

/-- So does a counted hold. -/
theorem afterCounted_ends {ws : List Window} (hw : ∀ w ∈ ws, w.period = 0) (n t : Nat) : afterCounted ws n t ≠ none := by
  have hfree : ∀ k, k ≤ freeIn ws t (horizon ws + k) := fun k => by
    induction k with
    | zero => omega
    | succ k ih =>
      rw [← Nat.add_assoc]
      simp only [freeIn]
      rw [inWindows_over hw (by omega)]
      simp only [Bool.false_eq_true, if_false]; omega
  intro h
  unfold afterCounted at h
  cases he : holdCounted ws n t with
  | none => have := holdCounted_none he (horizon ws + n); have := hfree n; omega
  | some e =>
    rw [he, Option.bind_some] at h
    have := nextFree_none h (max e (horizon ws)) (by omega)
    rw [inWindows_over hw (by omega)] at this; cases this

theorem untilCyc_nil {t0 : Time32} {n : Nat} (hn : n < 2 ^ 32) (t : Nat) : untilCyc [] t0 n t = some (dueCyc t0 n t) :=
  waitUntil_nil (dueCyc_first t0 n hn) _ _ (by decide)

end Sys2Proof.Machine
end

