-- ==== Sys2Proof/Laws/Memory.lean ====
section
/-! SUPPORT. Laws/Memory.lean: read after write, the canonical form and that every write keeps it, consecutive duty writes. -/

namespace Sys2Proof.Machine

variable {α : Type}

/-- A read after a write to the same key gives the value written. -/
@[simp] theorem Sparse.read_write_same (k : Nat) (v : α) : ∀ m, Sparse.read k (Sparse.write k v m) = some v
  | [] => by simp [Sparse.write, Sparse.read]
  | (j, w) :: r => by
    simp only [Sparse.write]
    split
    · simp [Sparse.read]
    · split
      · simp [Sparse.read]
      · next h => simp [Sparse.read, h, Sparse.read_write_same k v r]

/-- A write leaves every other key alone. -/
theorem Sparse.read_write_other {k k' : Nat} (h : k' ≠ k) (v : α) : ∀ m,
    Sparse.read k' (Sparse.write k v m) = Sparse.read k' m
  | [] => by simp [Sparse.write, Sparse.read, Ne.symm h]
  | (j, w) :: r => by
    simp only [Sparse.write]
    split
    · simp [Sparse.read, Ne.symm h]
    · split
      · next e => subst e; simp [Sparse.read, Ne.symm h]
      · simp only [Sparse.read, Sparse.read_write_other h v r]

theorem Sparse.wfAbove_write {k : Nat} {v : α} : ∀ {b : Option Nat} {m : List (Nat × α)},
    Sparse.wfAbove b m = true → (∀ x, b = some x → x < k) → Sparse.wfAbove b (Sparse.write k v m) = true
  | none, [], _, _ => rfl
  | some x, [], _, h => by simp [Sparse.write, Sparse.wfAbove, h x rfl]
  | b, (j, w) :: r, hm, h => by
    have tail : Sparse.wfAbove (some j) r = true := by cases b <;> simp_all [Sparse.wfAbove]
    simp only [Sparse.write]
    split
    · next hk => cases b <;> simp_all [Sparse.wfAbove]
    · split
      · next hk e => subst e; cases b <;> simp_all [Sparse.wfAbove]
      · next hk e =>
        have := Sparse.wfAbove_write (v := v) tail (fun x hx => by cases hx; omega : ∀ x, some j = some x → x < k)
        cases b <;> simp_all [Sparse.wfAbove]

/-- A write keeps the canonical form. -/
theorem Sparse.wf_write {m : List (Nat × α)} (h : Sparse.wf m = true) (k : Nat) (v : α) :
    Sparse.wf (Sparse.write k v m) = true :=
  Sparse.wfAbove_write h (fun _ hx => nomatch hx)

theorem Sparse.read_below {b k : Nat} : ∀ {m : List (Nat × α)}, Sparse.wfAbove (some b) m = true → k ≤ b →
    Sparse.read k m = none
  | [], _, _ => rfl
  | (j, w) :: r, h, hk => by
    simp only [Sparse.wfAbove, Bool.and_eq_true, decide_eq_true_eq] at h
    simp [Sparse.read, show j ≠ k by omega, Sparse.read_below h.2 (show k ≤ j by omega)]

/-- Canonical memories that read alike are equal. -/
theorem Sparse.ext : ∀ {b : Option Nat} {m n : List (Nat × α)}, Sparse.wfAbove b m = true → Sparse.wfAbove b n = true →
    (∀ k, Sparse.read k m = Sparse.read k n) → m = n
  | _, [], [], _, _, _ => rfl
  | _, [], (j, w) :: r, _, _, h => by have := h j; simp [Sparse.read] at this
  | _, (j, w) :: r, [], _, _, h => by have := h j; simp [Sparse.read] at this
  | b, (j, w) :: r, (j', w') :: r', hm, hn, h => by
    have hr : Sparse.wfAbove (some j) r = true := by cases b <;> simp_all [Sparse.wfAbove]
    have hr' : Sparse.wfAbove (some j') r' = true := by cases b <;> simp_all [Sparse.wfAbove]
    have e : j = j' := by
      rcases Nat.lt_trichotomy j j' with hl | e | hl
      · have := h j
        simp [Sparse.read, show j' ≠ j by omega, Sparse.read_below hr' (show j ≤ j' by omega)] at this
      · exact e
      · have := h j'
        simp [Sparse.read, show j ≠ j' by omega, Sparse.read_below hr (show j' ≤ j by omega)] at this
    subst e
    have ew : w = w' := by have := h j; simpa [Sparse.read] using this
    subst ew
    have : r = r' := Sparse.ext hr hr' fun k => by
      by_cases hk : k = j
      · subst hk; rw [Sparse.read_below hr (Nat.le_refl _), Sparse.read_below hr' (Nat.le_refl _)]
      · have := h k; simpa [Sparse.read, Ne.symm hk] using this
    rw [this]

theorem Sparse.all_write (q : Nat → Bool) {k : Nat} (hk : q k = true) (v : α) : ∀ m : List (Nat × α),
    m.all (fun c => q c.1) = true → (Sparse.write k v m).all (fun c => q c.1) = true
  | [], _ => by simp [Sparse.write, hk]
  | (j, w) :: r, h => by
    simp only [List.all_cons, Bool.and_eq_true] at h
    simp only [Sparse.write]
    split
    · simp only [List.all_cons, hk, h.1, h.2, Bool.and_self]
    · split
      · simp only [List.all_cons, hk, h.2, Bool.and_self]
      · simp only [List.all_cons, h.1, Sparse.all_write q hk v r h.2, Bool.and_self]

/-- A host write keeps the canonical form of the pixel-buffer memory. -/
theorem Memory.wf_write {m : Memory} (h : Memory.wf m = true) (a : Addr) (b : Byte) : Memory.wf (Memory.write m a b) = true := by
  simp only [Memory.wf, Bool.and_eq_true] at h ⊢
  exact ⟨Sparse.wf_write h.1 _ _, Sparse.all_write (fun c => decide (c < 2 ^ 32)) (by simpa using a.isLt) _ _ h.2⟩

/-- Consecutive duty writes keep the canonical form. -/
theorem writeEntries_wf : ∀ (es : List Entry) (i : Nat) {d : DutyRam}, Sparse.wf d = true → Sparse.wf (writeEntries i es d) = true
  | [], _, _, h => h
  | _ :: r, i, _, h => writeEntries_wf r (i + 1) (Sparse.wf_write h _ _)

/-- Consecutive duty writes write the entries at their indexes and no other. -/
theorem writeEntries_read : ∀ (es : List Entry) (i j : Nat) (d : DutyRam),
    Sparse.read j (writeEntries i es d) = if i ≤ j then (if h : j - i < es.length then some es[j - i] else Sparse.read j d)
      else Sparse.read j d
  | [], i, j, d => by simp [writeEntries]
  | e :: r, i, j, d => by
    simp only [writeEntries, writeEntries_read r (i + 1) j]
    rcases Nat.lt_trichotomy j i with h | h | h
    · simp [show ¬ i + 1 ≤ j by omega, show ¬ i ≤ j by omega, Sparse.read_write_other (show j ≠ i by omega)]
    · subst h; simp
    · obtain ⟨k, rfl⟩ := Nat.exists_eq_add_of_lt h
      simp [show i + 1 ≤ i + k + 1 by omega, show i ≤ i + k + 1 by omega, show i + k + 1 - (i + 1) = k by omega,
        show i + k + 1 - i = k + 1 by omega, Sparse.read_write_other (show i + k + 1 ≠ i by omega)]

end Sys2Proof.Machine
end

