-- ==== Sys2Proof/Laws/PerInstr.lean ====
section
/-! SUPPORT. Laws/PerInstr.lean: the family RoundTrip, one lemma per constructor of Instr: decoding what the encoder writes gives
the instruction back. -/

namespace Sys2Proof

/-! ## The fields of an assembled word -/

theorem toNat_append_add {n m : Nat} (x : BitVec n) (y : BitVec m) : (x ++ y).toNat = x.toNat * 2 ^ m + y.toNat := by
  rw [BitVec.toNat_append, ← Nat.shiftLeft_add_eq_or_of_lt y.isLt, Nat.shiftLeft_eq]

@[simp] theorem cmdOp_cmdWord (op : BitVec 4) (a b c : BitVec 32) : cmdOp (cmdWord op a b c) = op := by
  apply BitVec.eq_of_toNat_eq
  have := op.isLt; have := a.isLt; have := b.isLt; have := c.isLt
  simp only [cmdOp, cmdWord, BitVec.extractLsb'_toNat, toNat_append_add, Nat.shiftRight_eq_div_pow]
  omega

@[simp] theorem cmdA_cmdWord (op : BitVec 4) (a b c : BitVec 32) : cmdA (cmdWord op a b c) = a := by
  apply BitVec.eq_of_toNat_eq
  have := op.isLt; have := a.isLt; have := b.isLt; have := c.isLt
  simp only [cmdA, cmdWord, BitVec.extractLsb'_toNat, toNat_append_add, Nat.shiftRight_eq_div_pow]
  omega

@[simp] theorem cmdB_cmdWord (op : BitVec 4) (a b c : BitVec 32) : cmdB (cmdWord op a b c) = b := by
  apply BitVec.eq_of_toNat_eq
  have := op.isLt; have := a.isLt; have := b.isLt; have := c.isLt
  simp only [cmdB, cmdWord, BitVec.extractLsb'_toNat, toNat_append_add, Nat.shiftRight_eq_div_pow]
  omega

@[simp] theorem cmdC_cmdWord (op : BitVec 4) (a b c : BitVec 32) : cmdC (cmdWord op a b c) = c := by
  apply BitVec.eq_of_toNat_eq
  have := op.isLt; have := a.isLt; have := b.isLt; have := c.isLt
  simp only [cmdC, cmdWord, BitVec.extractLsb'_toNat, toNat_append_add, Nat.shiftRight_eq_div_pow]
  omega

@[simp] theorem cmpOf_dutyWord (p : BitVec 1) (cmp : BitVec 15) : cmpOf (dutyWord p cmp) = cmp := by
  apply BitVec.eq_of_toNat_eq
  have := p.isLt; have := cmp.isLt
  simp only [cmpOf, dutyWord, BitVec.extractLsb'_toNat, toNat_append_add, Nat.shiftRight_eq_div_pow]
  omega

@[simp] theorem polarity_dutyWord_one (cmp : BitVec 15) : polarity (dutyWord 1#1 cmp) = true := by
  rw [polarity, dutyWord, BitVec.getLsbD_append, if_neg (by decide)]; decide

@[simp] theorem polarity_dutyWord_zero (cmp : BitVec 15) : polarity (dutyWord 0#1 cmp) = false := by
  rw [polarity, dutyWord, BitVec.getLsbD_append, if_neg (by decide)]; decide

/-- A duty entry is its polarity bit and its compare value (R102). -/
theorem dutyWord_of_polarity {e : Entry} (h : polarity e = true) : dutyWord 1#1 (cmpOf e) = e := by
  apply BitVec.eq_of_toNat_eq
  have := (cmpOf e).isLt; have := e.isLt
  have hp : e.toNat / 2 ^ 15 % 2 = 1 := by
    simpa [polarity, BitVec.getLsbD, Nat.testBit, Nat.shiftRight_eq_div_pow, Nat.one_and_eq_mod_two] using h
  simp only [dutyWord, toNat_append_add]
  simp only [cmpOf, BitVec.extractLsb'_toNat, Nat.shiftRight_eq_div_pow]
  simp only [BitVec.toNat_ofNat]
  omega

theorem setWidth_back {n : Nat} (h : n ≤ 32) (p : BitVec n) : (p.setWidth 32).extractLsb' 0 n = p := by
  apply BitVec.eq_of_toNat_eq
  have h1 := p.isLt
  have h2 : 2 ^ n ≤ 2 ^ 32 := Nat.pow_le_pow_right (by omega) h
  simp only [BitVec.extractLsb'_toNat, BitVec.toNat_setWidth, Nat.shiftRight_zero]
  rw [Nat.mod_eq_of_lt (by omega : p.toNat < 2 ^ 32), Nat.mod_eq_of_lt h1]

/-! ## The symbols of an engine differ -/

theorem fb_ne {c : Config} (h : c.cp.fbWf = true) : fbSymbol c true ≠ fbSymbol c false := by
  simp only [ClassParams.fbWf, Bool.and_eq_true, decide_eq_true_eq] at h
  simp [fbSymbol, fbHigh]; omega

/-- A well-formed table has a well-formed row for every TYPE (R244, R250). -/
theorem Table.wf_row {t : Table} (h : t.wf = true) (c : Chip) : (t.row c).rowWf c = true := by
  simp only [Table.wf, Bool.and_eq_true] at h
  cases c <;> simp only [Table.row, h]

/-- The durations of the row a well-formed configuration uses are well formed (R244, R245). -/
theorem Config.wf_times {c : Config} {p : Platform} (h : c.wf p = true) : c.desc.timesWf c.chip = true := by
  simp only [Config.wf, Bool.and_eq_true] at h
  exact (Bool.and_eq_true _ _ ▸ Table.wf_row h.1.1.1.2.1 c.chip).1

theorem bb_ne {c : Config} {p : Platform} (h : c.wf p = true) : bbSymbol c true ≠ bbSymbol c false := by
  have hr := Config.wf_times h
  simp only [Desc.timesWf, Bool.and_eq_true] at hr
  intro e
  simp only [bbSymbol, if_true, if_false, Bool.false_eq_true] at e
  have e1 : c.desc.t1h = c.desc.t0h := by simpa using (List.cons.inj e).1
  have e2 : c.desc.t1l = c.desc.t0l := by simpa using (List.cons.inj (List.cons.inj e).2).1
  have hd := hr.2
  split at hd
  · simp only [Bool.or_eq_true, Bool.and_eq_true, decide_eq_true_eq] at hd; omega
  · simp only [decide_eq_true_eq] at hd; omega

theorem pwm_ne {c : Config} (h : c.cp.dutyWf = true) (hp : 1 ≤ c.prescale.toNat) : pwmSymbol c true ≠ pwmSymbol c false := by
  simp only [ClassParams.dutyWf, Bool.and_eq_true, decide_eq_true_eq] at h
  intro e
  have e1 : pwmHigh c true = pwmHigh c false := by simpa [pwmSymbol] using (List.cons.inj e).1
  simp only [pwmHigh, if_true, if_false, Bool.false_eq_true] at e1
  have := Nat.eq_of_mul_eq_mul_right (by omega) e1
  omega

namespace Laws.RoundTrip

/-- Decoding the encoding of a well-formed instruction gives it back. -/
def Statement (i : Instr) : Prop := ∀ (c : Config) (p : Platform), c.wf p = true → i.wf c = true → decode c (encode c i) = some i

theorem setPin (p : Pin) : Statement (.setPin p) := by
  intro c _ _ _; simp [encode, decode, decodeCmd, setWidth_back]

theorem beginPin : Statement .beginPin := by
  intro c _ _ _; simp [encode, decode, decodeCmd]

theorem endPin : Statement .endPin := by
  intro c _ _ _; simp [encode, decode, decodeCmd]

theorem updateLength (n : Count) : Statement (.updateLength n) := by
  intro c _ _ _; simp [encode, decode, decodeCmd, setWidth_back]

theorem transmit (buf : Addr) (len : Count) (dly : Time32) : Statement (.transmit buf len dly) := by
  intro c _ _ _; simp [encode, decode, decodeCmd, setWidth_back]

theorem reserved0 : Statement .reserved0 := by
  intro c _ _ _; simp [encode, decode, decodeCmd]

theorem reserved6 : Statement .reserved6 := by
  intro c _ _ _; simp [encode, decode, decodeCmd]

theorem reserved7 : Statement .reserved7 := by
  intro c _ _ _; simp [encode, decode, decodeCmd]

theorem reserved8 : Statement .reserved8 := by
  intro c _ _ _; simp [encode, decode, decodeCmd]

theorem reserved9 : Statement .reserved9 := by
  intro c _ _ _; simp [encode, decode, decodeCmd]

theorem reservedA : Statement .reservedA := by
  intro c _ _ _; simp [encode, decode, decodeCmd]

theorem reservedB : Statement .reservedB := by
  intro c _ _ _; simp [encode, decode, decodeCmd]

theorem reservedC : Statement .reservedC := by
  intro c _ _ _; simp [encode, decode, decodeCmd]

theorem reservedD : Statement .reservedD := by
  intro c _ _ _; simp [encode, decode, decodeCmd]

theorem reservedE : Statement .reservedE := by
  intro c _ _ _; simp [encode, decode, decodeCmd]

theorem reservedF : Statement .reservedF := by
  intro c _ _ _; simp [encode, decode, decodeCmd]

theorem sym0 : Statement .sym0 := by
  intro c _ _ _; simp [encode, decode, decodeWire]

theorem sym1 : Statement .sym1 := by
  intro c p h _; simp [encode, decode, decodeWire, bb_ne h]

theorem fbSym0 : Statement .fbSym0 := by
  intro c _ _ _; simp [encode, decode, decodeWire]

theorem fbSym1 : Statement .fbSym1 := by
  intro c _ _ h; simp [encode, decode, decodeWire, fb_ne h]

theorem pwmSym0 : Statement .pwmSym0 := by
  intro c _ _ _; simp [encode, decode, decodeWire]

theorem pwmSym1 : Statement .pwmSym1 := by
  intro c _ _ h; simp only [Instr.wf, Bool.and_eq_true, decide_eq_true_eq] at h; simp [encode, decode, decodeWire, pwm_ne h.1 h.2]

theorem pwmTerm : Statement .pwmTerm := by
  intro c _ _ _; simp [encode, decode, decodeWire, pwmTermSymbol, pwmSymbol]

theorem dutyZero (cmp : BitVec 15) : Statement (.dutyZero cmp) := by
  intro c _ _ h
  simp only [Instr.wf, Bool.and_eq_true, decide_eq_true_eq] at h
  simp [encode, decode, decodeDuty, show ¬ cmp.toNat = 0 by omega, Nat.not_le.mpr h.2]

theorem dutyOne (cmp : BitVec 15) : Statement (.dutyOne cmp) := by
  intro c _ _ h
  simp only [Instr.wf, Bool.and_eq_true, decide_eq_true_eq] at h
  simp [encode, decode, decodeDuty, show ¬ cmp.toNat = 0 by omega, h.2]

theorem dutyTerm : Statement .dutyTerm := by
  intro c _ _ _; simp [encode, decode, decodeDuty]

theorem dutyReserved (cmp : BitVec 15) : Statement (.dutyReserved cmp) := by
  intro c _ _ _; simp [encode, decode, decodeDuty]

theorem typeWs2811 : Statement .typeWs2811 := by
  intro c _ _ _; rfl

theorem typeWs2812 : Statement .typeWs2812 := by
  intro c _ _ _; rfl

theorem typeWs2813 : Statement .typeWs2813 := by
  intro c _ _ _; rfl

theorem typeSk6812rgbw : Statement .typeSk6812rgbw := by
  intro c _ _ _; rfl

theorem typeTm1803 : Statement .typeTm1803 := by
  intro c _ _ _; rfl

theorem typeTm1829 : Statement .typeTm1829 := by
  intro c _ _ _; rfl

theorem typeReserved6 : Statement .typeReserved6 := by
  intro c _ _ _; rfl

theorem typeReserved7 : Statement .typeReserved7 := by
  intro c _ _ _; rfl

theorem orderRgb : Statement .orderRgb := by
  intro c _ _ _; rfl

theorem orderGrb : Statement .orderGrb := by
  intro c _ _ _; rfl

theorem orderRbg : Statement .orderRbg := by
  intro c _ _ _; rfl

theorem orderRgbw : Statement .orderRgbw := by
  intro c _ _ _; rfl

end Laws.RoundTrip

end Sys2Proof
end

