-- ==== Sys2Proof/Laws/Engines.lean ====
section
/-! SUPPORT. Laws/Engines.lean: what the line shows, and what one wire symbol of the bit-bang and of the fallback engine does,
as a written-out next state. -/

namespace Sys2Proof.Machine

/-! ## GPIO actions and the line -/

theorem State.gpioAct_eq (s : State) (p : Pin) (f : PinState → PinState) :
    s.gpioAct p f = { s with
      inst := { s.inst with evt := pinEvt s.plat.nPins s.inst.evt p }
      gpio := gpioUpdate s.plat.nPins s.gpio p f } := by
  unfold State.gpioAct pinEvt gpioUpdate State.pinResolves
  by_cases h : p.toNat < s.plat.nPins <;> simp [h, State.pinState, State.raise]

theorem State.snapPhase_eq (s : State) : s.snapPhase = { s with inst := { s.inst with bitStart := s.phaseSnap } } := by
  unfold State.snapPhase State.phaseSnap; cases s.inst.cfg.holdKind <;> rfl

@[simp] theorem gpioUpdate_length (n : Nat) (g : List PinState) (p : Pin) (f : PinState → PinState) :
    (gpioUpdate n g p f).length = g.length := by
  unfold gpioUpdate; split <;> simp

@[simp] theorem pinEvt_pinEvt (n : Nat) (e : BitVec 8) (p : Pin) : pinEvt n (pinEvt n e p) p = pinEvt n e p := by
  unfold pinEvt
  split
  · rfl
  · simp [setEvt, BitVec.or_assoc]

/-- Two actions on one pin in one cycle are one action (R298). -/
theorem gpioUpdate_twice (n : Nat) (g : List PinState) (p : Pin) (f h : PinState → PinState) :
    gpioUpdate n (gpioUpdate n g p f) p h = gpioUpdate n g p (fun q => h (f q)) := by
  unfold gpioUpdate
  by_cases hp : p.toNat < n
  · simp only [hp, if_true]
    by_cases hl : p.toNat < g.length
    · simp [List.getD, hl]
    · simp [List.getD, List.set_eq_of_length_le (Nat.not_lt.mp hl)]
  · simp [hp]

theorem getD_gpioUpdate_dir (n : Nat) (g : List PinState) (p : Pin) (b : Bool) :
    ((gpioUpdate n g p fun q => { q with out := b }).getD p.toNat PinState.reset).dir
      = (g.getD p.toNat PinState.reset).dir := by
  unfold gpioUpdate
  split
  · by_cases hl : p.toNat < g.length
    · simp [List.getD, hl]
    · simp [List.getD, List.set_eq_of_length_le (Nat.not_lt.mp hl)]
  · rfl

/-- While no unit drives a line, GPIO holds its level (R41, R195). -/
theorem State.restLevel_of_noUnitOn {s : State} {p : Pin} (h : s.noUnitOn p) :
    s.restLevel p = some (if p.toNat < s.plat.nPins then (s.gpio.getD p.toNat PinState.reset).level else .z) := by
  have hn : s.pwm.any (fun w => w.drives p) = false := by
    rw [List.any_eq_false]; intro w hw; simp [h w hw]
  unfold State.restLevel State.pinResolves State.pinState
  rw [hn]
  by_cases hp : p.toNat < s.plat.nPins <;> simp [hp]

/-- The level of the line after GPIO_OUT[PIN] <- b. -/
theorem State.restLevel_out {s t : State} {b : Bool} (hu : s.noUnitOn s.inst.pin)
    (h1 : t.gpio = gpioUpdate s.plat.nPins s.gpio s.inst.pin fun q => { q with out := b }) (h2 : t.plat = s.plat)
    (h3 : t.pwm = s.pwm) : t.restLevel s.inst.pin = some (s.shown b) := by
  rw [State.restLevel_of_noUnitOn (by rw [State.noUnitOn, h3]; exact hu), h2, h1]
  unfold State.shown
  by_cases hp : s.inst.pin.toNat < s.plat.nPins
  · simp only [hp, if_true, gpioUpdate]
    by_cases hl : s.inst.pin.toNat < s.gpio.length
    · cases hd : (s.gpio[s.inst.pin.toNat]'hl).dir <;> simp [List.getD, hl, PinState.level, hd]
    · simp [List.getD, List.set_eq_of_length_le (Nat.not_lt.mp hl), List.getElem?_eq_none (Nat.not_lt.mp hl), PinState.level,
        PinState.reset]
  · simp [hp]

theorem State.shown_congr {s t : State} (b : Bool) (h1 : t.inst.pin = s.inst.pin) (h2 : t.plat = s.plat)
    (h3 : (t.gpio.getD s.inst.pin.toNat PinState.reset).dir = (s.gpio.getD s.inst.pin.toNat PinState.reset).dir) :
    t.shown b = s.shown b := by
  unfold State.shown; rw [h1, h2, h3]

/-! ## The stall set -/

theorem State.blockers_congr {s t : State} (h1 : t.inst.irqMask = s.inst.irqMask) (h2 : t.peers = s.peers)
    (h3 : t.irq = s.irq) (h4 : t.nmi = s.nmi) : t.blockers = s.blockers := by
  have : t.masked = s.masked := by simp only [State.masked, h1, h2]
  unfold State.blockers; rw [this, h3, h4]

theorem State.blockers_unstalled {s : State} (h : s.unstalled) : s.blockers = [] := by
  simp only [State.blockers, h.1, h.2]; split <;> rfl

/-- What all requests have, those that stall have. -/
theorem State.blockers_all {P : Window → Prop} (s : State) (h : ∀ w ∈ s.nmi ++ s.irq, P w) : ∀ w ∈ s.blockers, P w := by
  unfold State.blockers
  split
  · exact fun w hw => h w (List.mem_append_left _ hw)
  · exact h

theorem State.freeCycles_eq (s : State) (t k : Nat) : s.freeCycles t (t + k) = freeIn s.blockers t k := by
  unfold State.freeCycles
  rw [Nat.add_sub_cancel_left]
  induction k with
  | zero => rfl
  | succ k ih => rw [List.range_succ, List.filter_append, List.length_append, ih]; simp [freeIn]; split <;> simp_all

/-! ## The parts of a symbol -/

/-- The state in which a part of a symbol begins: FSM, GPIO_OUT[PIN], BIT_START. -/
def State.began (s : State) (f : Fsm) (b : Bool) (bs : Time32) : State := { s with
  inst := { s.inst with fsm := f, evt := pinEvt s.plat.nPins s.inst.evt s.inst.pin, bitStart := bs }
  gpio := gpioUpdate s.plat.nPins s.gpio s.inst.pin fun q => { q with out := b } }

/-- A part of a symbol held to cycle c. -/
def State.held (s : State) (f : Fsm) (b : Bool) (bs : Time32) (c : Nat) : State := { s.began f b bs with
  t := c
  obs := { s.obs with wave := s.obs.wave ++ s.shownSegs b s.t c } }

/-- A part of a symbol that no cycle ends, one cycle on. -/
def State.stuckIn (s : State) (f : Fsm) (b : Bool) (bs : Time32) : State := { s.held f b bs (s.t + 1) with
  inst := { (s.held f b bs (s.t + 1)).inst with stuck := true } }

/-- Time passing in a part of a symbol: the line shows GPIO_OUT[PIN] where no unit drives it. -/
theorem State.began_passTo {s : State} {f : Fsm} {b : Bool} {bs : Time32} {c : Nat} (hu : s.noUnitOn s.inst.pin) (hc : s.t ≤ c) :
    (s.began f b bs).passTo c = s.held f b bs c := by
  have h1 : (s.began f b bs).restLevel s.inst.pin = some (s.shown b) := State.restLevel_out hu rfl rfl rfl
  have h2 : (s.began f b bs).parkedSegs s.t c = s.parkedSegs s.t c :=
    State.parkedSegs_congr (s := s) (u := s.began f b bs) rfl rfl rfl rfl (fun p hp => getD_gpioUpdate_ne s.plat.nPins s.gpio (fun q => { q with out := b }) hp) _ _
  have h3 : (s.began f b bs).passSegs c = s.shownSegs b s.t c := by
    unfold State.passSegs State.shownSegs State.heldSegs
    rw [show (s.began f b bs).t = s.t from rfl, show (s.began f b bs).inst.pin = s.inst.pin from rfl, h2, State.pinSeg, h1]
    rfl
  rw [State.passTo_eq, h3, show max (s.began f b bs).t c = c from Nat.max_eq_right hc]
  rfl

/-- A part of a symbol: held to its end, or stuck where it has none. -/
theorem State.began_holdThen {s : State} {f : Fsm} {b : Bool} {bs : Time32} {stop : Option Nat} {k : State → State}
    (hu : s.noUnitOn s.inst.pin) (hc : ∀ c, stop = some c → s.t ≤ c) :
    (s.began f b bs).holdThen stop k = stop.elim (s.stuckIn f b bs) (fun c => k (s.held f b bs c)) := by
  cases stop with
  | some c => exact congrArg k (State.began_passTo hu (hc c rfl))
  | none =>
    have := State.began_passTo (f := f) (b := b) (bs := bs) hu (Nat.le_succ s.t)
    simp only [State.holdThen, State.stick, show (s.began f b bs).t = s.t from rfl, this]
    rfl

theorem State.held_shown (s : State) (f : Fsm) (b d : Bool) (bs : Time32) (c : Nat) : (s.held f b bs c).shown d = s.shown d :=
  State.shown_congr d rfl rfl (getD_gpioUpdate_dir _ _ _ _)

theorem State.held_shownSegs (s : State) (f : Fsm) (b d : Bool) (bs : Time32) (c t0 t1 : Nat) :
    (s.held f b bs c).shownSegs d t0 t1 = s.shownSegs d t0 t1 := by
  have h : (s.held f b bs c).parkedSegs t0 t1 = s.parkedSegs t0 t1 :=
    State.parkedSegs_congr (s := s) (u := s.held f b bs c) rfl rfl rfl rfl (fun p hp => getD_gpioUpdate_ne s.plat.nPins s.gpio (fun q => { q with out := b }) hp) _ _
  unfold State.shownSegs
  rw [State.held_shown, h]
  rfl

theorem State.held_blockers (s : State) (f : Fsm) (b : Bool) (bs : Time32) (c : Nat) : (s.held f b bs c).blockers = s.blockers :=
  State.blockers_congr rfl rfl rfl rfl

/-- The second part after the first. -/
theorem State.held_held (s : State) (f g : Fsm) (b d : Bool) (bs bs' : Time32) (c e : Nat) :
    (s.held f b bs c).held g d bs' e = { s with
      t := e
      inst := { s.inst with fsm := g, evt := pinEvt s.plat.nPins s.inst.evt s.inst.pin, bitStart := bs' }
      gpio := gpioUpdate s.plat.nPins s.gpio s.inst.pin fun q => { q with out := d }
      obs := { s.obs with wave := s.obs.wave ++ (s.shownSegs b s.t c ++ s.shownSegs d c e) } } := by
  rw [State.held, State.held_shownSegs]
  simp only [State.began, State.held, gpioUpdate_twice, pinEvt_pinEvt, List.append_assoc]

/-! ## The bit-bang engine's symbols -/

/-- The cycle in which a phase of n cycles begun in cycle t ends, if any. -/
def State.phaseStop (s : State) (n t : Nat) : Option Nat :=
  match s.inst.cfg.holdKind with
  | .counted => afterCounted s.blockers n t
  | .cyccmp => untilCyc s.blockers (cycAt t) n t

/-- BIT_START after a phase begun in cycle t. -/
def State.phaseStart (s : State) (t : Nat) : Time32 :=
  match s.inst.cfg.holdKind with
  | .counted => s.inst.bitStart
  | .cyccmp => cycAt t

theorem State.firstPast_iff (s : State) (since n t c : Nat) :
    s.firstPast since n t c ↔ FirstPast s.blockers (fun k => elapsed (cycAt k) (cycAt since) n) t c := by
  simp only [State.firstPast, State.blocked, FirstPast, elapsed, decide_eq_true_eq, decide_eq_false_iff_not, Bool.not_eq_true,
    Nat.not_le]

/-- A phase ends in the one unstalled cycle after the cycles it holds (R154 to R156). -/
theorem State.phaseStop_iff (s : State) {n : Nat} (t c : Nat) (hn : n < 2 ^ 32) :
    s.phaseStop n t = some c ↔ s.phaseOver n t c := by
  unfold State.phaseOver State.phaseStop
  cases s.inst.cfg.holdKind with
  | counted =>
    simp only [State.blocked, Bool.not_eq_true]
    have hf (h : t ≤ c) : s.freeCycles t c = freeIn s.blockers t (c - t) := by
      have := s.freeCycles_eq t (c - t)
      rwa [show t + (c - t) = c by omega] at this
    constructor
    · intro h
      obtain ⟨a, b, d⟩ := afterCounted_some h
      exact ⟨a, b, by rw [hf a, d]⟩
    · rintro ⟨a, b, d⟩
      exact afterCounted_eq a b (by rw [← hf a, d])
  | cyccmp => simp only [State.firstPast_iff]; exact untilCyc_iff hn

theorem State.phaseStop_none (s : State) {n : Nat} (t : Nat) (hn : n < 2 ^ 32) :
    s.phaseStop n t = none ↔ ∀ c, ¬ s.phaseOver n t c := by
  rw [Option.eq_none_iff_forall_ne_some]
  exact forall_congr' fun c => not_congr (s.phaseStop_iff t c hn)

/-- With requests that do not repeat a phase has an end. -/
theorem State.phaseStop_ends {s : State} (hw : ∀ w ∈ s.nmi ++ s.irq, w.period = 0) {n : Nat} (hn : n < 2 ^ 32) (t : Nat) :
    ∃ c, s.phaseStop n t = some c := by
  rw [← Option.ne_none_iff_exists']
  have hb := s.blockers_all hw
  unfold State.phaseStop
  cases s.inst.cfg.holdKind with
  | counted => exact afterCounted_ends hb n t
  | cyccmp => exact untilCyc_ends hb hn t

theorem State.phaseOver_gt {s : State} {n t c : Nat} (h0 : 0 < n) (h : s.phaseOver n t c) : t < c := by
  unfold State.phaseOver at h
  cases hk : s.inst.cfg.holdKind with
  | counted =>
    simp only [hk] at h
    rcases Nat.lt_or_ge t c with hl | hl
    · exact hl
    · have e : c = t := by omega
      have := h.2.2
      simp [State.freeCycles, e] at this; omega
  | cyccmp =>
    simp only [hk] at h
    rcases Nat.lt_or_ge t c with hl | hl
    · exact hl
    · have e : c = t := by omega
      have := h.2.2.1
      simp [e] at this; omega

theorem State.phaseStop_unstalled {s : State} (h : s.unstalled) (n t : Nat) (hn : n < 2 ^ 32) :
    s.phaseStop n t = some (t + n) := by
  unfold State.phaseStop
  rw [State.blockers_unstalled h]
  cases s.inst.cfg.holdKind with
  | counted => simp
  | cyccmp =>
    simp only [untilCyc_nil hn, dueCyc, elapsed, BitVec.sub_self, BitVec.toNat_ofNat, Nat.zero_mod]
    by_cases hc : n ≤ 0
    · simp [hc]; omega
    · simp [hc]

theorem State.phaseStop_congr {s t : State} (h1 : t.inst.cfg = s.inst.cfg) (h2 : t.blockers = s.blockers) (n c : Nat) :
    t.phaseStop n c = s.phaseStop n c := by
  unfold State.phaseStop; rw [h1, h2]

theorem State.beginHigh_eq (s : State) : s.beginHigh = s.began .bbHigh true (s.phaseStart s.t) := by
  unfold State.beginHigh State.setHigh
  rw [State.snapPhase_eq, State.gpioAct_eq]
  simp only [State.began, State.setFsm, State.phaseSnap, State.phaseStart]
  cases s.inst.cfg.holdKind <;> rfl

theorem State.beginLow_eq (s : State) : s.beginLow = s.began .bbLow false (s.phaseStart s.t) := by
  unfold State.beginLow State.setLow
  rw [State.snapPhase_eq, State.gpioAct_eq]
  simp only [State.began, State.setFsm, State.phaseSnap, State.phaseStart]
  cases s.inst.cfg.holdKind <;> rfl

/-- A level held for one phase of the bit-bang engine (R154). -/
theorem State.began_hold {s : State} {n : Nat} {b : Bool} {f : Fsm} {k : State → State} (hu : s.noUnitOn s.inst.pin)
    (hn : n < 2 ^ 32) : (s.began f b (s.phaseStart s.t)).hold n k =
      (s.phaseStop n s.t).elim (s.stuckIn f b (s.phaseStart s.t)) (fun c => k (s.held f b (s.phaseStart s.t) c)) := by
  have e2 : (s.began f b (s.phaseStart s.t)).phaseEnd n = s.phaseStop n s.t := by
    have hb : (s.began f b (s.phaseStart s.t)).blockers = s.blockers := State.blockers_congr rfl rfl rfl rfl
    unfold State.phaseEnd State.phaseStop
    rw [hb]
    simp only [State.began, State.phaseStart]
    cases s.inst.cfg.holdKind <;> rfl
  rw [State.hold, e2]
  refine State.began_holdThen hu fun c hc => ?_
  have h := (s.phaseStop_iff s.t c hn).mp hc
  unfold State.phaseOver at h
  cases hk : s.inst.cfg.holdKind <;> simp only [hk] at h <;> exact h.1

/-- A symbol of the bit-bang engine: both phases; or stuck in the one that no cycle ends (R98, R150, R154). -/
theorem State.bbSymbol_eq {s : State} {high low : Nat} (hu : s.noUnitOn s.inst.pin) (h1 : high < 2 ^ 32) (h2 : low < 2 ^ 32) :
    s.bbSymbol high low = (s.phaseStop high s.t).elim (s.stuckIn .bbHigh true (s.phaseStart s.t)) fun t1 =>
      (s.phaseStop low t1).elim ((s.held .bbHigh true (s.phaseStart s.t) t1).stuckIn .bbLow false (s.phaseStart t1)) fun t2 =>
        (s.held .bbHigh true (s.phaseStart s.t) t1).held .bbLow false (s.phaseStart t1) t2 := by
  unfold State.bbSymbol
  rw [State.beginHigh_eq, State.began_hold hu h1]
  refine congrArg (Option.elim _ _) (funext fun t1 => ?_)
  have hps : (s.held .bbHigh true (s.phaseStart s.t) t1).phaseStop low t1 = s.phaseStop low t1 :=
    State.phaseStop_congr rfl (s.held_blockers ..) low t1
  have e3 : (s.held .bbHigh true (s.phaseStart s.t) t1).phaseStart t1 = s.phaseStart t1 := by
    unfold State.phaseStart State.held State.began
    cases s.inst.cfg.holdKind <;> rfl
  have et : (s.held .bbHigh true (s.phaseStart s.t) t1).t = t1 := by rw [State.held]
  have e4 := State.began_hold (s := s.held .bbHigh true (s.phaseStart s.t) t1) (b := false) (f := .bbLow) (k := fun r => r) hu h2
  rw [et, e3, hps] at e4
  rw [State.beginLow_eq, et, e3, e4]

/-- A bit-bang symbol whose two phases end. -/
theorem State.bbSymbol_over {s : State} {high low t1 t2 : Nat} (hu : s.noUnitOn s.inst.pin) (h1 : high < 2 ^ 32) (h2 : low < 2 ^ 32)
    (ho1 : s.phaseStop high s.t = some t1) (ho2 : s.phaseStop low t1 = some t2) : s.bbSymbol high low = { s with
      t := t2
      inst := { s.inst with
        fsm := .bbLow, evt := pinEvt s.plat.nPins s.inst.evt s.inst.pin, bitStart := s.phaseStart t1 }
      gpio := gpioUpdate s.plat.nPins s.gpio s.inst.pin fun q => { q with out := false }
      obs := { s.obs with wave := s.obs.wave ++ (s.shownSegs true s.t t1 ++ s.shownSegs false t1 t2) } } := by
  rw [State.bbSymbol_eq hu h1 h2, ho1, Option.elim_some, ho2, Option.elim_some, State.held_held]

/-- A bit-bang symbol when nothing stalls. -/
theorem State.bbSymbol_unstalled {s : State} {high low : Nat} (hs : s.unstalled) (hu : s.noUnitOn s.inst.pin)
    (h1 : high < 2 ^ 32) (h3 : low < 2 ^ 32) : s.bbSymbol high low = { s with
      t := s.t + high + low
      inst := { s.inst with
        fsm := .bbLow, evt := pinEvt s.plat.nPins s.inst.evt s.inst.pin, bitStart := s.phaseStart (s.t + high) }
      gpio := gpioUpdate s.plat.nPins s.gpio s.inst.pin fun q => { q with out := false }
      obs := { s.obs with wave := s.obs.wave ++
        (s.shownSegs true s.t (s.t + high) ++ s.shownSegs false (s.t + high) (s.t + high + low)) } } :=
  State.bbSymbol_over hu h1 h3 (State.phaseStop_unstalled hs _ _ h1) (State.phaseStop_unstalled hs _ _ h3)

/-! ## The fallback engine's symbols -/

/-- The cycle in which a comparison with a snapshot taken in cycle `since` is reached, waiting from cycle t on, if any. -/
def State.compareStop (s : State) (since n t : Nat) : Option Nat := untilCyc s.blockers (cycAt since) n t

theorem State.compareStop_iff (s : State) {n : Nat} (since t c : Nat) (hn : n < 2 ^ 32) :
    s.compareStop since n t = some c ↔ s.firstPast since n t c := by
  rw [State.firstPast_iff]; exact untilCyc_iff hn

theorem State.compareStop_none (s : State) {n : Nat} (since t : Nat) (hn : n < 2 ^ 32) :
    s.compareStop since n t = none ↔ ∀ c, ¬ s.firstPast since n t c := by
  rw [Option.eq_none_iff_forall_ne_some]
  exact forall_congr' fun c => not_congr (s.compareStop_iff since t c hn)

theorem State.compareStop_ends {s : State} (hw : ∀ w ∈ s.nmi ++ s.irq, w.period = 0) {n : Nat} (hn : n < 2 ^ 32) (since t : Nat) :
    ∃ c, s.compareStop since n t = some c := by
  rw [← Option.ne_none_iff_exists']
  exact untilCyc_ends (s.blockers_all hw) hn t

theorem State.compareStop_unstalled {s : State} (h : s.unstalled) {since n t : Nat} (h1 : since ≤ t) (h2 : t ≤ since + n)
    (hn : n < 2 ^ 32) : s.compareStop since n t = some (since + n) := by
  unfold State.compareStop
  rw [State.blockers_unstalled h, untilCyc_nil hn, dueCyc]
  simp only [elapsed, decide_eq_true_eq, cycAt_sub_toNat _ _ h1]
  rw [Nat.mod_eq_of_lt (by omega)]
  split <;> congr 1 <;> omega

/-- A level held until a comparison with BIT_START is reached (R220, R223). -/
theorem State.began_holdUntil {s : State} {n since : Nat} {b : Bool} {f : Fsm} {k : State → State} (hu : s.noUnitOn s.inst.pin)
    (hn : n < 2 ^ 32) : (s.began f b (cycAt since)).holdUntil n k =
      (s.compareStop since n s.t).elim (s.stuckIn f b (cycAt since)) (fun c => k (s.held f b (cycAt since) c)) := by
  have e2 : (s.began f b (cycAt since)).compareEnd n = s.compareStop since n s.t := by
    unfold State.compareEnd State.compareStop
    rw [show (s.began f b (cycAt since)).blockers = s.blockers from State.blockers_congr rfl rfl rfl rfl]
    rfl
  rw [State.holdUntil, e2]
  exact State.began_holdThen hu (fun c hc => ((s.compareStop_iff since s.t c hn).mp hc).1)

theorem State.fbBeginHigh_eq (s : State) : s.fbBeginHigh = s.began .fbHigh true (cycAt s.t) := by
  unfold State.fbBeginHigh State.setHigh
  rw [State.gpioAct_eq]; rfl

theorem State.fbBeginLow_eq (s : State) : s.fbBeginLow = s.began .fbLow false s.inst.bitStart := by
  unfold State.fbBeginLow State.setLow
  rw [State.gpioAct_eq]; rfl

/-- A symbol of the fallback engine: both parts; or stuck in the one that no cycle ends (R101, R220, R231). -/
theorem State.fbSymbol_eq {s : State} {hb : Nat} (hu : s.noUnitOn s.inst.pin) (h1 : hb < 2 ^ 32)
    (h2 : s.inst.cfg.cp.fbPeriod < 2 ^ 32) :
    s.fbSymbol hb = (s.compareStop s.t hb s.t).elim (s.stuckIn .fbHigh true (cycAt s.t)) fun t1 =>
      (s.compareStop s.t s.inst.cfg.cp.fbPeriod t1).elim
        ((s.held .fbHigh true (cycAt s.t) t1).stuckIn .fbLow false (cycAt s.t)) fun t2 =>
        (s.held .fbHigh true (cycAt s.t) t1).held .fbLow false (cycAt s.t) t2 := by
  unfold State.fbSymbol
  rw [State.fbBeginHigh_eq, State.began_holdUntil hu h1]
  refine congrArg (Option.elim _ _) (funext fun t1 => ?_)
  have hcs : (s.held .fbHigh true (cycAt s.t) t1).compareStop s.t s.inst.cfg.cp.fbPeriod t1 =
      s.compareStop s.t s.inst.cfg.cp.fbPeriod t1 := by
    unfold State.compareStop; rw [s.held_blockers]
  have e : (s.held .fbHigh true (cycAt s.t) t1).inst.bitStart = cycAt s.t := by rw [State.held, State.began]
  have et : (s.held .fbHigh true (cycAt s.t) t1).t = t1 := by rw [State.held]
  rw [State.fbBeginLow_eq, e, State.began_holdUntil (s := s.held .fbHigh true (cycAt s.t) t1) hu h2, et, hcs]

/-- A fallback bit whose two parts end. -/
theorem State.fbSymbol_over {s : State} {hb t1 t2 : Nat} (hu : s.noUnitOn s.inst.pin) (h1 : hb < 2 ^ 32)
    (h2 : s.inst.cfg.cp.fbPeriod < 2 ^ 32) (ho1 : s.compareStop s.t hb s.t = some t1)
    (ho2 : s.compareStop s.t s.inst.cfg.cp.fbPeriod t1 = some t2) : s.fbSymbol hb = { s with
      t := t2
      inst := { s.inst with
        fsm := .fbLow, evt := pinEvt s.plat.nPins s.inst.evt s.inst.pin, bitStart := cycAt s.t }
      gpio := gpioUpdate s.plat.nPins s.gpio s.inst.pin fun q => { q with out := false }
      obs := { s.obs with wave := s.obs.wave ++ (s.shownSegs true s.t t1 ++ s.shownSegs false t1 t2) } } := by
  rw [State.fbSymbol_eq hu h1 h2, ho1, Option.elim_some, ho2, Option.elim_some, State.held_held]

/-- A fallback bit when nothing stalls. -/
theorem State.fbSymbol_unstalled {s : State} {hb : Nat} (hs : s.unstalled) (hu : s.noUnitOn s.inst.pin)
    (h1 : hb ≤ s.inst.cfg.cp.fbPeriod) (h2 : s.inst.cfg.cp.fbPeriod < 2 ^ 32) : s.fbSymbol hb = { s with
      t := s.t + s.inst.cfg.cp.fbPeriod
      inst := { s.inst with
        fsm := .fbLow, evt := pinEvt s.plat.nPins s.inst.evt s.inst.pin, bitStart := cycAt s.t }
      gpio := gpioUpdate s.plat.nPins s.gpio s.inst.pin fun q => { q with out := false }
      obs := { s.obs with wave := s.obs.wave ++
        (s.shownSegs true s.t (s.t + hb) ++ s.shownSegs false (s.t + hb) (s.t + s.inst.cfg.cp.fbPeriod)) } } :=
  State.fbSymbol_over hu (by omega) h2 (State.compareStop_unstalled hs (Nat.le_refl _) (by omega) (by omega))
    (State.compareStop_unstalled hs (by omega) (by omega) h2)

/-! ## Whatever drives the line -/

/-- A hold goes on in a later cycle with more segments recorded, or ends stuck there. -/
theorem State.holdThen_form (m : State) (stop : Option Nat) (k : State → State) : ∃ (c : Nat) (g : List Seg), m.t ≤ c ∧
    (m.holdThen stop k = k { m with t := c, obs := { m.obs with wave := m.obs.wave ++ g } } ∨
     m.holdThen stop k = { m with
       t := c, obs := { m.obs with wave := m.obs.wave ++ g }, inst := { m.inst with stuck := true } }) := by
  cases stop with
  | some c => exact ⟨_, _, Nat.le_max_left m.t c, Or.inl (by rw [State.holdThen, State.passTo_eq])⟩
  | none => exact ⟨_, _, Nat.le_max_left m.t (m.t + 1), Or.inr (by rw [State.holdThen, State.stick, State.passTo_eq])⟩

/-- What a symbol of either engine changes: time, FSM, EVT, BIT_START, the stuck field, GPIO_OUT[PIN], the segments recorded. -/
structure State.Symbol (s : State) (high low : Fsm) (s' : State) : Prop where
  form : ∃ (c : Nat) (f : Fsm) (bs : Time32) (st b : Bool) (g : List Seg), s.t ≤ c ∧ (f = high ∨ f = low) ∧ s' = { s with
    t := c
    inst := { s.inst with fsm := f, evt := pinEvt s.plat.nPins s.inst.evt s.inst.pin, bitStart := bs, stuck := st }
    gpio := gpioUpdate s.plat.nPins s.gpio s.inst.pin fun q => { q with out := b }
    obs := { s.obs with wave := s.obs.wave ++ g } }

/-- Two levels held one after the other are a symbol. -/
theorem State.symbol_of {s : State} {high low : Fsm} {bs : Time32} {stop : Option Nat} {k : State → State}
    {stop' : State → Option Nat} (hk : ∀ m : State, ∃ bs', k m = (m.began low false bs').holdThen (stop' m) fun r => r) :
    s.Symbol high low ((s.began high true bs).holdThen stop k) := by
  obtain ⟨c, g, hc, e | e⟩ := (s.began high true bs).holdThen_form stop k
  · obtain ⟨bs', hk⟩ := hk { s.began high true bs with
      t := c, obs := { (s.began high true bs).obs with wave := (s.began high true bs).obs.wave ++ g } }
    rw [hk] at e
    obtain ⟨d, g', hd, e' | e'⟩ := State.holdThen_form (State.began _ low false bs') _ _
    · rw [e'] at e
      refine ⟨d, low, bs', s.inst.stuck, false, g ++ g', Nat.le_trans hc hd, Or.inr rfl, ?_⟩
      rw [e]
      simp only [State.began, gpioUpdate_twice, pinEvt_pinEvt, List.append_assoc]
    · rw [e'] at e
      refine ⟨d, low, bs', true, false, g ++ g', Nat.le_trans hc hd, Or.inr rfl, ?_⟩
      rw [e]
      simp only [State.began, gpioUpdate_twice, pinEvt_pinEvt, List.append_assoc]
  · exact ⟨c, high, bs, true, true, g, hc, Or.inl rfl, e⟩

theorem State.bbSymbol_symbol (s : State) (high low : Nat) : s.Symbol .bbHigh .bbLow (s.bbSymbol high low) := by
  unfold State.bbSymbol
  rw [State.beginHigh_eq, State.hold]
  exact State.symbol_of (stop' := fun m => m.beginLow.phaseEnd low) fun m => ⟨_, by rw [State.hold, ← State.beginLow_eq]⟩

theorem State.fbSymbol_symbol (s : State) (hb : Nat) : s.Symbol .fbHigh .fbLow (s.fbSymbol hb) := by
  unfold State.fbSymbol
  rw [State.fbBeginHigh_eq, State.holdUntil]
  exact State.symbol_of (stop' := fun m => m.fbBeginLow.compareEnd s.inst.cfg.cp.fbPeriod) fun m =>
    ⟨_, by rw [State.holdUntil, ← State.fbBeginLow_eq]⟩

/-- The running instance's own line in the segments of a part. -/
theorem State.shownSegs_line (s : State) (b : Bool) {t0 t1 : Nat} (h : t0 < t1) :
    (s.shownSegs b t0 t1).filter (fun g => decide (g.pin = s.inst.pin)) =
      [{ pin := s.inst.pin, start := t0, level := s.shown b, cycles := t1 - t0 }] := by
  rw [State.shownSegs, if_neg (by omega), List.filter_cons_of_pos (by simp), s.parkedSegs_line]

/-! ## The instructions the engines execute -/

/-- Every duration of a well-formed configuration's descriptor is at least one cycle and below 2^32 (R244). -/
theorem desc_wf {c : Config} {p : Platform} (h : c.wf p = true) :
    (1 ≤ c.desc.t0h ∧ 1 ≤ c.desc.t0l ∧ 1 ≤ c.desc.t1h ∧ 1 ≤ c.desc.t1l) ∧
    (c.desc.t0h < 2 ^ 32 ∧ c.desc.t0l < 2 ^ 32 ∧ c.desc.t1h < 2 ^ 32 ∧ c.desc.t1l < 2 ^ 32) := by
  have hr := Config.wf_times h
  simp only [Desc.timesWf, Bool.and_eq_true, decide_eq_true_eq] at hr
  obtain ⟨⟨⟨⟨⟨⟨⟨⟨h1, h2⟩, h3⟩, h4⟩, h5⟩, h6⟩, h7⟩, h8⟩, -⟩ := hr
  exact ⟨⟨h1, h2, h3, h4⟩, ⟨h5, h6, h7, h8⟩⟩

/-- A well-formed PWMDMA configuration's parameters are well formed for its class (R101, R186). -/
theorem pwm_wf {c : Config} {p : Platform} (h : c.wf p = true) (hs : c.strategy = .pwmdma) :
    c.cp.dutyWf = true ∧ c.cp.fbWf = true ∧ 1 ≤ c.prescale.toNat := by
  simp only [Config.wf, hs, Bool.and_eq_true, Config.pwmWf, decide_eq_true_eq] at h
  obtain ⟨-, ⟨⟨⟨⟨⟨⟨a, b⟩, c'⟩, d⟩, e⟩, -⟩, -⟩, -⟩ := h
  unfold Config.cp Config.params
  cases c.desc.cls <;> exact ⟨by assumption, by assumption, e⟩

theorem exec_sym (s : State) (b : Bool) : exec (if b then .sym1 else .sym0) s =
    .next (s.bbSymbol (if b then s.inst.cfg.desc.t1h else s.inst.cfg.desc.t0h)
      (if b then s.inst.cfg.desc.t1l else s.inst.cfg.desc.t0l)) := by cases b <;> rfl

theorem exec_fbSym (s : State) (b : Bool) : exec (if b then .fbSym1 else .fbSym0) s =
    .next (s.fbSymbol (if b then s.inst.cfg.cp.fbT1H else s.inst.cfg.cp.fbT0H)) := by cases b <;> rfl

end Sys2Proof.Machine
end

