-- ==== Sys2Proof/Laws/Step.lean ====
section
/-! SUPPORT. Laws/Step.lean: said once, everything a command and a step can do: if they answer a next state, it is one of these.
Later proofs go through these lists and never unfold the step. -/

namespace Sys2Proof.Machine

/-! ## Commands -/

/-- Everything an accepted command can do in its accepting cycle. -/
inductive State.Commanded (s : State) : State → Prop
  | setPin (p : Pin) : s.inst.begun = false → Commanded s (s.setPinReg p).complete
  | setPinBegun (p : Pin) : s.inst.begun = true →
      Commanded s ((((s.configureInput s.inst.pin).setPinReg p).configureOutput p).setLow p).complete
  | begin : Commanded s (((s.configureOutput s.inst.pin).setLow s.inst.pin).setBegun true).complete
  | endWait : s.inst.active = true → Commanded s (s.waitFor .endPin)
  | endNow : s.inst.active = false → Commanded s s.endAction
  | updateNone : s.inst.cfg.strategy = .bitbang → Commanded s s.complete
  | updateWait (n : Count) : s.inst.active = true → Commanded s (s.waitFor (.updateLength n))
  | updateNow (n : Count) : s.inst.cfg.strategy = .pwmdma → s.inst.active = false → Commanded s (s.updateAction n)
  | noop (buf : Addr) (len : Count) (dly : Time32) : buf = 0 ∨ len = 0 →
      Commanded s ((s.latchOperands buf len dly).raise .noopTx).complete
  | transmitWait (buf : Addr) (len : Count) (dly : Time32) : len ≠ 0 → bufferWraps buf len = false → s.inst.active = true →
      Commanded s ((s.latchOperands buf len dly).waitFor .transmit)
  | transmitNow (buf : Addr) (len : Count) (dly : Time32) : len ≠ 0 → bufferWraps buf len = false → s.inst.active = false →
      Commanded s (s.latchOperands buf len dly).enterLatch
  | bad : Commanded s s.badCommand

/-- A command word that is accepted does one of these, or is refused because its buffer wraps (R62). -/
theorem exec_command (w : CmdWord) (s : State) :
    (∃ s', exec (decodeCmd w) s = .next s' ∧ s.Commanded s') ∨ exec (decodeCmd w) s = .refused .bufferWraps := by
  have hb : ∀ i, exec i s = .next s.badCommand → (∃ s', exec i s = .next s' ∧ s.Commanded s') ∨ exec i s = .refused .bufferWraps :=
    fun i h => Or.inl ⟨_, h, .bad⟩
  unfold decodeCmd
  split
  · exact hb _ rfl
  · simp only [exec, execSetPin]
    split
    · next h => exact Or.inl ⟨_, rfl, .setPinBegun _ h⟩
    · next h => exact Or.inl ⟨_, rfl, .setPin _ (by simpa using h)⟩
  · exact Or.inl ⟨_, rfl, .begin⟩
  · simp only [exec, execEnd]
    split
    · next h => exact Or.inl ⟨_, rfl, .endWait h⟩
    · next h => exact Or.inl ⟨_, rfl, .endNow (by simpa using h)⟩
  · simp only [exec, execUpdateLength]
    split
    · next h => exact Or.inl ⟨_, rfl, .updateNone h⟩
    · next h0 =>
      split
      · next h => exact Or.inl ⟨_, rfl, .updateWait _ h⟩
      · next h => exact Or.inl ⟨_, rfl, .updateNow _ h0 (by simpa using h)⟩
  · simp only [exec, execTransmit]
    split
    · next h => exact Or.inl ⟨_, rfl, .noop _ _ _ h⟩
    · next h =>
      split
      · exact Or.inr rfl
      · next hw =>
        split
        · next ha => exact Or.inl ⟨_, rfl, .transmitWait _ _ _ (fun e => h (Or.inr e)) (by simpa using hw) ha⟩
        · next ha =>
          exact Or.inl ⟨_, rfl, .transmitNow _ _ _ (fun e => h (Or.inr e)) (by simpa using hw) (by simpa using ha)⟩
  all_goals exact hb _ rfl

/-- A TRANSMIT that is no no-op, wraps nothing and need not wait is at its latch wait (R150, R188). -/
theorem exec_transmit_now {s : State} {buf : Addr} {len : Count} {dly : Time32} (h1 : buf ≠ 0) (h2 : len ≠ 0)
    (h3 : buf.toNat + len.toNat ≤ 2 ^ 32) (h4 : s.inst.active = false) :
    exec (.transmit buf len dly) s = .next (s.latchOperands buf len dly).enterLatch := by
  simp only [exec, execTransmit]
  rw [if_neg (fun h => h.elim h1 h2), if_neg (by simp only [bufferWraps, decide_eq_true_eq]; omega), if_neg (by simp [h4])]

/-! ## Builds -/

/-- A type tag or an order code builds the platform anew, or is refused (R107, R186, R320). -/
theorem exec_chip (w : BitVec 3) (s : State) :
    (∃ c, c.wf s.plat = true ∧ exec (decodeChip w) s = .next (({ s with inst := { s.inst with cfg := c } }).restart s.t)) ∨
    (∃ r, exec (decodeChip w) s = .refused r) := by
  have hb : ∀ k, (∃ c, c.wf s.plat = true ∧ s.buildType k = .next (({ s with inst := { s.inst with cfg := c } }).restart s.t)) ∨
      (∃ r, s.buildType k = .refused r) := by
    intro k
    simp only [State.buildType, State.build]
    split
    · next h => exact Or.inl ⟨_, h, rfl⟩
    · exact Or.inr ⟨_, rfl⟩
  unfold decodeChip
  split
  iterate 6 exact hb _
  all_goals exact Or.inr ⟨_, rfl⟩

theorem exec_order (w : BitVec 2) (s : State) :
    (∃ c, c.wf s.plat = true ∧ exec (decodeOrder w) s = .next (({ s with inst := { s.inst with cfg := c } }).restart s.t)) ∨
    (∃ r, exec (decodeOrder w) s = .refused r) := by
  have hb : ∀ k, (∃ c, c.wf s.plat = true ∧ s.buildOrder k = .next (({ s with inst := { s.inst with cfg := c } }).restart s.t)) ∨
      (∃ r, s.buildOrder k = .refused r) := by
    intro k
    simp only [State.buildOrder, State.build]
    split
    · next h => exact Or.inl ⟨_, h, rfl⟩
    · exact Or.inr ⟨_, rfl⟩
  unfold decodeOrder
  split
  all_goals exact hb _

/-! ## Entries of a playing unit -/

/-- Everything a duty entry read by the DMA of unit u for instance i can do. -/
theorem exec_duty (d1 e : Entry) (s : State) :
    (exec (decodeDuty d1 e) s = s.fetchEntry e) ∨
    (polarity e = false ∧ exec (decodeDuty d1 e) s = .refused .reservedDutyEntry) := by
  unfold decodeDuty
  split
  · next h => exact Or.inr ⟨h, rfl⟩
  · next h =>
    have hp : polarity e = true := by simpa using h
    have hw := dutyWord_of_polarity hp
    left
    split
    · next hz =>
      have : cmpOf e = 0#15 := BitVec.eq_of_toNat_eq (by simpa using hz)
      rw [this] at hw
      show s.fetchEntry term = _
      rw [← hw]; rfl
    · split
      · show s.fetchEntry (dutyWord 1#1 (cmpOf e)) = _; rw [hw]
      · show s.fetchEntry (dutyWord 1#1 (cmpOf e)) = _; rw [hw]

/-- The symbol of an entry plays its compare value. -/
theorem exec_symbolOf {c : Config} {e : Entry} {k : Instr} (h : symbolOf c e = some k) (s : State) (hc : s.inst.cfg = c) :
    exec k s = s.playEntry (cmpOf e) := by
  unfold symbolOf at h
  split at h
  · next hz =>
    cases h
    have : cmpOf e = 0#15 := BitVec.eq_of_toNat_eq (by simpa using hz)
    rw [this]; rfl
  · split at h
    · next he => cases h; rw [he, ← hc]; rfl
    · split at h
      · next he => cases h; rw [he, ← hc]; rfl
      · cases h

/-! ## A parked instance that completes -/

/-- An instance that has torn its unit down, stamped and completed in the cycle of s (R188, R199). -/
def Inst.finished (i : Inst) (s : State) : Inst := { i with
  unit := none, endTime := s.us, fsm := .idle, cmd := .none, doneAt := some s.t, duty := [], dutyGen := i.dutyGen + 1 }

/-- The state after the completion of the parked instance i that held unit u (R197, R199). -/
def State.finishedBy (s : State) (i : Inst) (u : Nat) (w : PwmUnit) : State := { s with
  pwm := s.pwm.set u { w with pselConnected := false, pselPin := Config.freePselPin s.drawCtr, enable := false }
  registry := s.registry.set u none
  drawCtr := s.drawCtr + 1
  peers := s.peers.map (fun j => if j.id = i.id then i.finished s else j)
  obs := { s.obs with dones := s.obs.dones ++ [{ id := i.id, cycle := s.t }] } }

theorem State.finishParked_eq {s : State} {i : Inst} {u : Nat} {w : PwmUnit} (hu : i.unit = some u) (hw : s.pwmAt u = some w) :
    s.finishParked i = .next (s.finishedBy i u w) := by
  have hw' : State.pwmAt { s with inst := i } u = some w := hw
  simp only [State.finishParked, State.asParked, State.completionStep, State.onUnit, hu, hw', onNext]
  rfl

/-! ## One action -/

/-- Everything one action can do when it answers a next state. -/
inductive State.Acts (s : State) : State → Prop
  | envUnit (u : Nat) (w : PwmUnit) (en con : Bool) (p : Pin) : s.claimed u = false → s.pwmAt u = some w →
      Acts s (({ s with env := s.env.tail }).setPwm u { w with enable := en, pselConnected := con, pselPin := p })
  | envNone : Acts s { s with env := s.env.tail }
  | envSeqend (u : Nat) : s.claimed u = false → Acts s (({ s with env := s.env.tail }).setPend u true)
  | envGpio (p : Nat) (d : Dir) (o : Bool) :
      Acts s { s with env := s.env.tail, gpio := s.gpio.set p { dir := d, out := o } }
  | unitEnd (u : Nat) (w : PwmUnit) : s.unitDue = some (u, w) → w.seqCnt.toNat ≤ w.pos → Acts s (s.sequenceEnd u w)
  | unitFetch (i : Inst) (u : Nat) (w : PwmUnit) (e : Entry) : s.instOf i.id = some i → i.unit = some u →
      s.pwmAt u = some w → Acts s (s.setPwm u { w with fetched := some e })
  | unitPlay (i : Inst) (u : Nat) (w : PwmUnit) (e : Entry) : s.instOf i.id = some i → i.unit = some u →
      s.pwmAt u = some w →
      Acts s { s with
        pwm := s.pwm.set u { w with pos := w.pos + 1, fetched := none, due := w.due + w.period }
        obs := { s.obs with wave := s.obs.wave ++ s.playSegs w (cmpOf e) } }
  | handler (u : Nat) : s.handlerDue = some u → Acts s (s.seqendHandler u)
  | finished (i : Inst) (u : Nat) (w : PwmUnit) : s.finisherDue = some i → i.unit = some u → s.pwmAt u = some w →
      Acts s (s.finishedBy i u w)
  | pass (c : Nat) : Acts s (s.passTo c)
  | waited (c : Nat) (h : List HostMove) : s.inst.fsm = .idle → Acts s { s.passTo c with host := h }
  | wrote (a : Addr) (b : Byte) : s.inst.fsm = .idle → s.host.head? = some (.write a b) →
      Acts s { s.popHost with mem := Memory.write s.mem a b }
  | selected (id : Nat) (s' : State) : s.inst.fsm = .idle ∨ s.inst.fsm = .playing → s.host.head? = some (.select id) →
      s.popHost.focus id = some s' → Acts s s'
  | command (w : CmdWord) (s' : State) : s.inst.fsm = .idle → s.done = false → s.stalled = false →
      s.host.head? = some (.cmd w) → s.popHost.Commanded s' → Acts s s'
  | built (c : Config) : s.inst.fsm = .idle → s.hostBuildsOrTurns = true → c.wf s.plat = true →
      Acts s (({ s.popHost with inst := { s.inst with cfg := c } }).restart s.t)
  | afterEnd : s.inst.fsm = .waitActive → s.inst.active = false → s.inst.cmd = .endPin → Acts s s.endAction
  | afterUpdate (n : Count) : s.inst.fsm = .waitActive → s.inst.active = false → s.inst.cmd = .updateLength n →
      Acts s (s.updateAction n)
  | afterTransmit : s.inst.fsm = .waitActive → s.inst.active = false → s.inst.cmd = .transmit → Acts s s.enterLatch
  | afterNone : s.inst.fsm = .waitActive → s.inst.active = false → s.inst.cmd = .none → Acts s s.complete
  | bbStart : s.inst.fsm = .waitLatch → s.latchOpen = true → s.stalled = false → s.inst.cfg.strategy = .bitbang → Acts s s.startBitbang
  | pwmStart : s.inst.fsm = .waitLatch → s.latchOpen = true → s.stalled = false → s.inst.cfg.strategy = .pwmdma →
      Acts s s.startPwm
  | bbBit (s1 : State) (high low : Nat) : s.inst.fsm = .bbHigh → s.fetchByte = .next s1 →
      Acts s (s1.bbSymbol high low)
  | bbAfter : s.inst.fsm = .bbLow → s.inst.stuck = false → Acts s s.afterLow
  | encodes (c e : Nat) : s.inst.fsm = .encoding → Acts s ((s.beginEncoding c).passTo e)
  | encoded (c u : Nat) (w : PwmUnit) : s.inst.fsm = .encoding → s.inst.seqLen ≤ s.inst.dutyCap.toNat → s.inst.unit = some u →
      s.pwmAt u = some w → Acts s (s.finishEncoding c u w)
  | played : s.inst.fsm = .playing → s.inst.active = false → Acts s (s.setFsm .completion)
  | tornDown (u : Nat) (w : PwmUnit) : s.inst.fsm = .completion → s.inst.unit = some u → s.pwmAt u = some w →
      Acts s (s.teardown u w).stamp.complete
  | fbBit (s1 : State) (hb : Nat) : s.inst.fsm = .fbHigh → s.fetchByte = .next s1 → Acts s (s1.fbSymbol hb)
  | fbAfter : s.inst.fsm = .fbLow → s.inst.stuck = false → Acts s s.afterPeriod
  | checked : s.inst.fsm = .fbCheck → Acts s s.selfCheck
  | again : s.inst.fsm = .fbBackoff → s.stalled = false → Acts s s.startAttempt

theorem State.act_cases {s s' : State} {k : State → Result} (h : s.act k = .next s') :
    s.Acts s' ∨ (s.stalled = false ∧ k s = .next s') := by
  unfold State.act at h
  split at h
  · cases h; exact Or.inl (.pass _)
  · next hs => exact Or.inr ⟨by simpa using hs, h⟩

theorem onUnit_next {s s' : State} {f : Nat → PwmUnit → Result} (h : s.onUnit f = .next s') :
    ∃ u w, s.inst.unit = some u ∧ s.pwmAt u = some w ∧ f u w = .next s' := by
  unfold State.onUnit at h
  split at h
  · cases h
  · next u hu =>
    split at h
    · cases h
    · next w hw => exact ⟨u, w, hu, hw, h⟩

theorem onNext_next {o : Result} {f : State → Result} {s' : State} (h : onNext o f = .next s') :
    ∃ m, o = .next m ∧ f m = .next s' := by
  cases o with
  | next m => exact ⟨m, rfl, h⟩
  | fault r => cases h
  | refused r => cases h

theorem State.instOf_id {s : State} {id : Nat} {i : Inst} (h : s.instOf id = some i) : i.id = id := by
  unfold State.instOf at h
  split at h
  · next e => cases h; exact e
  · simpa using List.find?_some h

theorem State.asInst_next {s s' : State} {id : Nat} {f : State → Result} (h : s.asInst id f = .next s') :
    ∃ i m, s.instOf id = some i ∧ f { s with inst := i } = .next m ∧ s' = { m with inst := s.inst } := by
  unfold State.asInst at h
  split at h
  · cases h
  · next i hi =>
    obtain ⟨m, h1, h2⟩ := onNext_next h
    cases h2
    exact ⟨i, m, hi, h1, rfl⟩

theorem State.playEntry_acts {s m : State} {i : Inst} {e : Entry} (hi : s.instOf i.id = some i)
    (h : ({ s with inst := i }).playEntry (cmpOf e) = .next m) : s.Acts { m with inst := s.inst } := by
  obtain ⟨u, w, hu, hw, hn⟩ := onUnit_next h
  cases hn
  exact .unitPlay i u w e hi hu hw

theorem State.unitStep_acts {s s' : State} {u : Nat} {w : PwmUnit} (hd : s.unitDue = some (u, w))
    (h : s.unitStep u w = .next s') : s.Acts s' := by
  unfold State.unitStep at h
  split at h
  · next hp => cases h; exact .unitEnd u w hd hp
  · split at h
    · cases h
    · next i ho =>
      have hi : ∀ {i' : Inst}, s.instOf i.id = some i' → s.instOf i'.id = some i' := fun {i'} e => by
        rw [State.instOf_id e]; exact e
      split at h
      · obtain ⟨i', m, h1, h2, rfl⟩ := State.asInst_next h
        rcases exec_duty i.cfg.cp.duty1 (s.dmaRead i w w.pos) { s with inst := i' } with h3 | ⟨-, h3⟩
        · rw [h3] at h2
          obtain ⟨u', w', hu, hw, hn⟩ := onUnit_next h2
          cases hn
          exact .unitFetch i' u' w' _ (hi h1) hu hw
        · rw [h3] at h2; cases h2
      · next e he =>
        split at h
        · next k hk =>
          obtain ⟨i', m, h1, h2, rfl⟩ := State.asInst_next h
          have : i' = i := by
            have ho' : s.instOf i.id = some i := by
              unfold State.owner at ho
              split at ho
              · cases ho
              · next id _ => rw [State.instOf_id ho]; exact ho
            rw [ho'] at h1; cases h1; rfl
          subst this
          rw [exec_symbolOf hk { s with inst := i' } rfl] at h2
          exact State.playEntry_acts (hi h1) h2
        · obtain ⟨i', m, h1, h2, rfl⟩ := State.asInst_next h
          exact State.playEntry_acts (hi h1) h2

theorem State.envMove_acts {s s' : State} {m : EnvMove} (h : ({ s with env := s.env.tail }).envMove m = .next s') : s.Acts s' := by
  unfold State.envMove at h
  split at h
  · next u en con p =>
    split at h
    · cases h; exact .envNone
    · next hc =>
      split at h
      · next w hw => cases h; exact .envUnit u w en con p (by rw [Bool.not_eq_true] at hc; exact hc) hw
      · cases h; exact .envNone
  · next u =>
    split at h
    · cases h
    · next hc => cases h; exact .envSeqend u (by rw [Bool.not_eq_true] at hc; exact hc)
  · next p d o => cases h; exact .envGpio p d o

theorem State.selectMove_acts {s s' : State} {id : Nat} (hf : s.inst.fsm = .idle ∨ s.inst.fsm = .playing)
    (hh : s.host.head? = some (.select id)) (h : s.selectMove id = .next s') : s.Acts s' := by
  unfold State.selectMove at h
  split at h
  · next t ht => cases h; exact .selected id _ hf hh ht
  · cases h

theorem State.idleStep_acts {s s' : State} (hf : s.inst.fsm = .idle) (h : s.idleStep = .next s') : s.Acts s' := by
  unfold State.idleStep at h
  split at h
  · cases h; exact .pass _
  · next hd =>
    have hd : s.done = false := by simpa using hd
    split at h
    · cases h; exact .pass _
    · next n r hh =>
      cases h
      unfold State.waitMove
      split
      · have := State.Acts.waited s.t s.host.tail hf
        rwa [State.passTo, if_pos (Nat.le_refl _)] at this
      · split
        · have := State.Acts.waited (s.t + n) s.host.tail hf
          rw [State.passTo_eq] at this ⊢
          exact this
        · exact .waited _ _ hf
    · next a b r hh =>
      rcases State.act_cases h with h | ⟨hs, h⟩
      · exact h
      · cases h; exact .wrote a b hf (by rw [hh]; rfl)
    · next id r hh =>
      rcases State.act_cases h with h | ⟨hs, h⟩
      · exact h
      · exact State.selectMove_acts (Or.inl hf) (by rw [hh]; rfl) h
    · next w r hh =>
      rcases State.act_cases h with h | ⟨hs, h⟩
      · exact h
      · rcases exec_command w s.popHost with ⟨m, h1, h2⟩ | h1
        · rw [h1] at h; cases h
          exact .command w _ hf hd hs (by rw [hh]; rfl) h2
        · rw [h1] at h; cases h
    · next w r hh =>
      rcases exec_chip w s.popHost with ⟨c, hc, h1⟩ | ⟨r, h1⟩
      · rw [h1] at h; cases h
        exact .built c hf (by simp [State.hostBuildsOrTurns, hh, hf]) hc
      · rw [h1] at h; cases h
    · next w r hh =>
      rcases exec_order w s.popHost with ⟨c, hc, h1⟩ | ⟨r, h1⟩
      · rw [h1] at h; cases h
        exact .built c hf (by simp [State.hostBuildsOrTurns, hh, hf]) hc
      · rw [h1] at h; cases h

theorem State.sequence_acts {s s' : State} (h : s.sequence = .next s') : s.Acts s' := by
  unfold State.sequence at h
  split at h
  · cases h; exact .pass _
  rename_i hst
  have hst : s.inst.stuck = false := by simpa using hst
  split at h
  · next hf => exact State.idleStep_acts hf h
  · next hf =>
    split at h
    · cases h; exact .pass _
    · next ha =>
      have ha : s.inst.active = false := by simpa using ha
      rcases State.act_cases h with h | ⟨hs, h⟩
      · exact h
      · unfold State.afterActive at h
        split at h
        · next hc => cases h; exact .afterEnd hf ha hc
        · next n hc => cases h; exact .afterUpdate n hf ha hc
        · next hc => cases h; exact .afterTransmit hf ha hc
        · next hc => cases h; exact .afterNone hf ha hc
  · next hf =>
    split at h
    · next ho =>
      rcases State.act_cases h with h | ⟨hs, h⟩
      · exact h
      · cases h
        unfold State.leaveLatch
        split
        · next hst => exact .bbStart hf ho hs hst
        · next hst => exact .pwmStart hf ho hs hst
    · cases h; exact .pass _
  · next hf =>
    rcases State.act_cases h with h | ⟨hs, h⟩
    · exact h
    · obtain ⟨m, h1, h2⟩ := onNext_next h
      split at h2
      · cases h2; exact .bbBit m _ _ hf h1
      · cases h2; exact .bbBit m _ _ hf h1
  · next hf =>
    rcases State.act_cases h with h | ⟨hs, h⟩
    · exact h
    · cases h; exact .bbAfter hf hst
  · next hf =>
    rcases State.act_cases h with h | ⟨hs, h⟩
    · exact h
    · unfold State.encodingStep at h
      split at h
      · cases h
      · split at h
        · cases h
        · next hc =>
          obtain ⟨u, w, hu, hw, hn⟩ := onUnit_next h
          split at hn
          · cases hn; exact .pass _
          · split at hn
            · cases hn; exact .encoded _ u w hf (by omega) hu hw
            · cases hn; exact .encodes _ _ hf
  · next hf =>
    split at h
    · next ha =>
      split at h
      · next id r hh =>
        rcases State.act_cases h with h | ⟨hs, h⟩
        · exact h
        · exact State.selectMove_acts (Or.inr hf) (by rw [hh]; rfl) h
      · cases h; exact .pass _
    · next ha =>
      rcases State.act_cases h with h | ⟨hs, h⟩
      · exact h
      · cases h; exact .played hf (by simpa using ha)
  · next hf =>
    rcases State.act_cases h with h | ⟨hs, h⟩
    · exact h
    · obtain ⟨u, w, hu, hw, hn⟩ := onUnit_next h
      cases hn
      exact .tornDown u w hf hu hw
  · next hf =>
    rcases State.act_cases h with h | ⟨hs, h⟩
    · exact h
    · obtain ⟨m, h1, h2⟩ := onNext_next h
      split at h2
      · cases h2; exact .fbBit m _ hf h1
      · cases h2; exact .fbBit m _ hf h1
  · next hf =>
    rcases State.act_cases h with h | ⟨hs, h⟩
    · exact h
    · cases h; exact .fbAfter hf hst
  · next hf =>
    rcases State.act_cases h with h | ⟨hs, h⟩
    · exact h
    · cases h; exact .checked hf
  · next hf =>
    split at h
    · rcases State.act_cases h with h | ⟨hs, h⟩
      · exact h
      · cases h; exact .again hf hs
    · cases h; exact .pass _

theorem State.finishParked_acts {s s' : State} {i : Inst} (hi : s.finisherDue = some i) (h : s.finishParked i = .next s') :
    s.Acts s' := by
  obtain ⟨m, h1, h2⟩ := onNext_next h
  obtain ⟨u, w, hu, hw, hn⟩ := onUnit_next h1
  cases hn; cases h2
  exact .finished i u w hi hu hw

/-- One action of one agent is one of the list. -/
theorem State.agentStep_acts {s s' : State} (h : s.agentStep = .next s') : s.Acts s' := by
  unfold State.agentStep at h
  split at h
  · exact State.envMove_acts h
  · split at h
    · next u w hd => exact State.unitStep_acts hd h
    · split at h
      · next u hu => cases h; exact .handler u hu
      · split at h
        · next i hi => exact State.finishParked_acts hi h
        · exact State.sequence_acts h

/-- One step is one action, or a reset that wins over it (R321). -/
theorem step_cases {s s' : State} (h : step s = .next s') :
    s.Acts s' ∨ ∃ r, s.nextRst = some r ∧ (s' = s.resetAt r s ∨ ∃ m, s.Acts m ∧ s' = s.resetAt r m) := by
  unfold step State.cycle at h
  split at h
  · exact Or.inl (State.agentStep_acts h)
  · next r hr =>
    split at h
    · cases h; exact Or.inr ⟨r, hr, Or.inl rfl⟩
    · obtain ⟨m, h1, h2⟩ := onNext_next h
      split at h2
      · cases h2; exact Or.inr ⟨r, hr, Or.inr ⟨m, State.agentStep_acts h1, rfl⟩⟩
      · cases h2; exact Or.inl (State.agentStep_acts h1)

/-- With no reset to come, one step is one action. -/
theorem step_acts {s s' : State} (hr : s.nextRst = none) (h : step s = .next s') : s.Acts s' := by
  rcases step_cases h with h | ⟨r, h, -⟩
  · exact h
  · rw [hr] at h; cases h

/-- When the sequencer's turn comes, the step is the sequencer's. -/
theorem step_of_turn {s : State} (h : s.sequencerTurn) : step s = s.sequence := by
  unfold step State.cycle State.agentStep
  rw [h.1, h.2.1, h.2.2.1, h.2.2.2.1, h.2.2.2.2.1]

/-- What the sequencer does when it is not stuck is what its state of FSM says (R300). -/
theorem sequence_of {s : State} (h : s.inst.stuck = false) : s.sequence =
    (match s.inst.fsm with
    | .idle => s.idleStep
    | .waitActive => if s.inst.active then .next (s.pause none) else s.act State.afterActive
    | .waitLatch => if s.latchOpen then s.act fun s => .next s.leaveLatch else .next (s.pause s.latchEnd)
    | .bbHigh => s.act fun s => onNext s.fetchByte fun t => exec (if t.inst.curBit then .sym1 else .sym0) t
    | .bbLow => s.act fun s => .next s.afterLow
    | .encoding => s.act State.encodingStep
    | .playing =>
      if s.inst.active then
        match s.host with
        | .select id :: _ => s.act fun s => s.selectMove id
        | _ => .next (s.pause none)
      else s.act fun s => .next (s.setFsm .completion)
    | .completion => s.act State.completionStep
    | .fbHigh => s.act fun s => onNext s.fetchByte fun t => exec (if t.inst.curBit then .fbSym1 else .fbSym0) t
    | .fbLow => s.act fun s => .next s.afterPeriod
    | .fbCheck => s.act fun s => .next s.selfCheck
    | .fbBackoff => if s.backoffOver then s.act fun s => .next s.startAttempt else .next (s.pause s.backoffEnd)) := by
  unfold State.sequence; rw [h]; rfl

theorem act_of_free {s : State} (h : s.stalled = false) (k : State → Result) : s.act k = k s := by
  unfold State.act; simp [h]

end Sys2Proof.Machine
end

