-- ==== Sys2Proof/Laws/Units.lean ====
section
/-! SUPPORT. Laws/Units.lean: which unit acts, which handler runs, which unit the scan finds: the first with its property. -/

namespace Sys2Proof.Machine

/-- The first numbered entry of a list with a property. -/
theorem find_zipIdx {α : Type} (p : Nat → α → Bool) {u : Nat} {w : α} : ∀ (l : List α) (n : Nat),
    ((l.zipIdx n).map (fun q => (q.2, q.1))).find? (fun q => p q.1 q.2) = some (u, w) ↔
    ∃ k, u = n + k ∧ l[k]? = some w ∧ p u w = true ∧ ∀ j w', j < k → l[j]? = some w' → p (n + j) w' = false
  | [], n => by simp
  | a :: l, n => by
    simp only [List.zipIdx_cons, List.map_cons, List.find?_cons]
    by_cases h : p n a = true
    · simp only [h, Option.some.injEq, Prod.mk.injEq]
      constructor
      · rintro ⟨rfl, rfl⟩
        exact ⟨0, rfl, rfl, h, fun j w' hj => absurd hj (by omega)⟩
      · rintro ⟨k, rfl, h1, h2, h3⟩
        rcases k with _ | k
        · simp at h1; exact ⟨rfl, h1⟩
        · have := h3 0 a (by omega) rfl
          simp [h] at this
    · have h' : p n a = false := by simpa using h
      simp only [h']
      rw [find_zipIdx p l (n + 1)]
      constructor
      · rintro ⟨k, rfl, h1, h2, h3⟩
        refine ⟨k + 1, by omega, by simpa using h1, h2, fun j w' hj hw => ?_⟩
        rcases j with _ | j
        · simp at hw; subst hw; exact h'
        · have := h3 j w' (by omega) (by simpa using hw)
          rwa [show n + (j + 1) = n + 1 + j by omega]
      · rintro ⟨k, rfl, h1, h2, h3⟩
        rcases k with _ | k
        · simp at h1; subst h1; simp [h'] at h2
        · refine ⟨k, by omega, by simpa using h1, h2, fun j w' hj hw => ?_⟩
          have := h3 (j + 1) w' (by omega) (by simpa using hw)
          rwa [show n + 1 + j = n + (j + 1) by omega]

/-- The acting unit is the first that plays and whose interval has begun. -/
theorem State.unitDue_iff (s : State) (u : Nat) (w : PwmUnit) :
    s.unitDue = some (u, w) ↔ s.pwmAt u = some w ∧ (s.playing u w = true ∧ w.due ≤ s.t) ∧
      ∀ v w', v < u → s.pwmAt v = some w' → ¬ (s.playing v w' = true ∧ w'.due ≤ s.t) := by
  unfold State.unitDue State.players
  rw [List.find?_filter]
  have e := find_zipIdx (fun v w => s.playing v w && decide (w.due ≤ s.t)) (u := u) (w := w) s.pwm 0
  simp only [Nat.zero_add] at e
  refine Iff.trans (Eq.to_iff (congrArg (· = some (u, w)) ?_)) (e.trans ?_)
  · congr 1
    funext q
    simp
  · constructor
    · rintro ⟨k, rfl, h1, h2, h3⟩
      refine ⟨h1, by simpa using h2, fun v w' hv hw => by simpa using h3 v w' hv hw⟩
    · rintro ⟨h1, h2, h3⟩
      exact ⟨u, rfl, h1, by simpa using h2, fun j w' hj hw => by simpa using h3 j w' hj hw⟩

/-- With no unit running, none acts. -/
theorem State.unitDue_none {s : State} (h : ∀ w ∈ s.pwm, w.run = false) : s.unitDue = none := by
  cases hd : s.unitDue with
  | none => rfl
  | some q =>
    obtain ⟨h1, ⟨h2, -⟩, -⟩ := (s.unitDue_iff q.1 q.2).mp hd
    have := h q.2 (List.mem_of_getElem? h1)
    simp [State.playing, this] at h2

/-- With nothing pending, no handler runs. -/
theorem State.handlerDue_none {s : State} (h : ∀ b ∈ s.pend, b = false) : s.handlerDue = none := by
  unfold State.handlerDue
  split
  · rfl
  · rw [List.findIdx?_eq_none_iff]
    intro b hb; simpa using h b hb

/-- While the running instance is in an engine no parked one completes (R198, R306). -/
theorem State.finisher_busy {s : State} (h : s.inst.fsm ≠ .idle ∧ s.inst.fsm ≠ .playing) : s.finisher = none := by
  simp [State.finisher, State.yields, h.1, h.2]

theorem State.finisher_none {s : State} (h : s.noneFinishing) : s.finisher = none := by
  unfold State.finisher
  split
  · rw [List.find?_eq_none]; intro i hi; simp [h i hi]
  · rfl

theorem State.finisher_some {s : State} {i : Inst} (h : s.finisher = some i) :
    (s.inst.fsm = .idle ∨ s.inst.fsm = .playing) ∧ i ∈ s.peers ∧ i.fsm = .playing ∧ i.active = false := by
  unfold State.finisher State.yields at h
  split at h
  · next hy =>
    have := List.find?_some h
    simp only [Inst.waitOver, Bool.and_eq_true, decide_eq_true_eq, Bool.not_eq_true'] at this
    exact ⟨by simpa using hy, List.mem_of_find?_eq_some h, this⟩
  · cases h

/-- The parked instance that completes: its playback is over, the cycle is unstalled and the running one yields (R197, R306). -/
theorem State.finisherDue_some {s : State} {i : Inst} (h : s.finisherDue = some i) : s.stalled = false ∧ s.finisher = some i := by
  unfold State.finisherDue at h
  split at h
  · cases h
  · next hs => exact ⟨by simpa using hs, h⟩

theorem State.finisherDue_none {s : State} (h : s.finisher = none) : s.finisherDue = none := by
  unfold State.finisherDue; rw [h]; split <;> rfl

/-- A parked instance whose playback is over has its turn once the running one yields. -/
theorem State.finisher_exists {s : State} {i : Inst} (hf : s.inst.fsm = .idle ∨ s.inst.fsm = .playing) (hi : i ∈ s.peers)
    (h1 : i.fsm = .playing) (h2 : i.active = false) : ∃ j, s.finisher = some j := by
  cases h : s.finisher with
  | some j => exact ⟨j, rfl⟩
  | none =>
    unfold State.finisher at h
    rw [if_pos (by simpa [State.yields] using hf), List.find?_eq_none] at h
    have := h i hi
    simp [Inst.waitOver, h1, h2] at this

theorem State.nextRst_nil {s : State} (h : s.rst = []) : s.nextRst = none := by simp [State.nextRst, h]

theorem State.envDue_nil {s : State} (h : s.env = []) : s.envDue = none := by simp [State.envDue, h]

theorem State.stalled_unstalled {s : State} (h : s.unstalled) : s.stalled = false := by
  simp [State.stalled, h.1, h.2]

/-- With no input but requests to come, the units at rest and no parked instance to complete the sequencer acts. -/
theorem State.turn_of_rest {s : State} (he : s.env = []) (hx : s.rst = []) (hr : s.unitsAtRest) (hf : s.finisher = none)
    (hs : s.inst.stuck = false) : s.sequencerTurn :=
  ⟨State.nextRst_nil hx, State.envDue_nil he, State.unitDue_none hr.1, State.handlerDue_none hr.2, State.finisherDue_none hf, hs⟩

/-- In such surroundings, undisturbed, it acts in an unstalled cycle. -/
theorem State.freeTurn_of_rest {s : State} (h : s.undisturbed) (hr : s.unitsAtRest) (hf : s.finisher = none)
    (hs : s.inst.stuck = false) : s.freeTurn :=
  ⟨State.turn_of_rest h.2.1 h.2.2 hr hf hs, State.stalled_unstalled h.1⟩

/-- The running handler: the lowest pending unit's, in an unstalled cycle with no mask (R285, R288). -/
theorem State.handlerDue_some {s : State} {u : Nat} (h : s.handlerDue = some u) :
    s.stalled = false ∧ s.masked = false ∧ s.pendAt u = true ∧ ∀ v, v < u → s.pendAt v = false := by
  unfold State.handlerDue at h
  split at h
  · cases h
  · next hs =>
    simp only [Bool.or_eq_true, not_or, Bool.not_eq_true] at hs
    rw [List.findIdx?_eq_some_iff_getElem] at h
    obtain ⟨hl, h1, h2⟩ := h
    refine ⟨hs.1, hs.2, ?_, fun v hv => ?_⟩
    · simp only [State.pendAt, List.getD, List.getElem?_eq_getElem hl, Option.getD_some]; exact h1
    · have := h2 v hv
      simp only [State.pendAt, List.getD, List.getElem?_eq_getElem (Nat.lt_trans hv hl), Option.getD_some]
      simpa using this

/-- The scan finds the lowest free unit (R190). -/
theorem State.scan_some {s : State} {u : Nat} {w : PwmUnit} (h1 : s.pwmAt u = some w) (h2 : w.free = true)
    (h3 : ∀ v w', v < u → s.pwmAt v = some w' → w'.free = false) : s.scan = some u := by
  unfold State.scan
  rw [List.findIdx?_eq_some_iff_getElem]
  obtain ⟨hl, rfl⟩ := List.getElem?_eq_some_iff.mp h1
  refine ⟨hl, h2, fun v hv => ?_⟩
  have := h3 v _ hv (List.getElem?_eq_getElem (Nat.lt_trans hv hl))
  simpa using this

theorem State.scan_none {s : State} (h : ∀ w ∈ s.pwm, w.free = false) : s.scan = none := by
  unfold State.scan
  rw [List.findIdx?_eq_none_iff]; exact h

theorem PwmUnit.free_iff {w : PwmUnit} : w.free = true ↔ w.enable = false ∧ w.pselConnected = false := by
  simp [PwmUnit.free]

theorem PwmUnit.not_free_iff {w : PwmUnit} : w.free = false ↔ w.enable = true ∨ w.pselConnected = true := by
  unfold PwmUnit.free; cases w.enable <;> cases w.pselConnected <;> simp

theorem State.owner_instOf {s : State} {u : Nat} {i : Inst} (h : s.owner u = some i) : s.instOf i.id = some i := by
  unfold State.owner at h
  split at h
  · cases h
  · rw [State.instOf_id h]; exact h

theorem State.pwmAt_set {s : State} {u : Nat} {w : PwmUnit} (h : s.pwmAt u = some w) (w' : PwmUnit) :
    (s.pwm.set u w')[u]? = some w' := by
  obtain ⟨hl, -⟩ := List.getElem?_eq_some_iff.mp h
  simp [hl]

theorem playSeg_append (p : Pin) (t0 a b : Nat) :
    playSeg p t0 .h a ++ playSeg p (t0 + a) .l b = (symbolSegs p t0 a b).filter (fun g => decide (0 < g.cycles)) := by
  unfold playSeg symbolSegs
  by_cases h1 : a = 0 <;> by_cases h2 : b = 0 <;> simp [h1, h2, Nat.pos_of_ne_zero]

/-- The segments of a played entry (R195, R202 (h)). -/
theorem State.playSegs_eq (s : State) (w : PwmUnit) (cmp : BitVec 15) :
    s.playSegs w cmp = if w.pselConnected = true ∧ w.pselPin.toNat < s.plat.nPins then
      (symbolSegs w.pselPin w.due (min (cmp.toNat * w.prescaler.toNat) w.period)
        (w.period - min (cmp.toNat * w.prescaler.toNat) w.period)).filter (fun g => decide (0 < g.cycles)) else [] := by
  simp only [State.playSegs, State.pinResolves, Bool.and_eq_true, decide_eq_true_eq, playSeg_append]

/-- The step of an acting unit, when nothing comes before it. -/
theorem step_of_unit {s : State} {u : Nat} {w : PwmUnit} (h1 : s.nextRst = none) (h2 : s.envDue = none)
    (h3 : s.unitDue = some (u, w)) : step s = s.unitStep u w := by
  simp [step, State.cycle, h1, State.agentStep, h2, h3]

/-- A unit that has fetched nothing fetches its entry (R195, R102). -/
theorem State.unitStep_fetch {s : State} {u : Nat} {w : PwmUnit} {i : Inst} {e : Entry} (hw : s.pwmAt u = some w)
    (ho : s.owner u = some i) (hi : i.unit = some u) (hp : w.pos < w.seqCnt.toNat) (hf : w.fetched = none)
    (hrd : s.dmaRead i w w.pos = e) (hpol : polarity e = true) :
    s.unitStep u w = .next { s with pwm := s.pwm.set u { w with fetched := some e } } := by
  rw [State.unitStep, if_neg (by omega), ho]
  simp only [hf, hrd, State.asInst, State.owner_instOf ho]
  rcases exec_duty i.cfg.cp.duty1 e { s with inst := i } with h | ⟨h, -⟩
  · have hw' : State.pwmAt { s with inst := i } u = some w := hw
    rw [h]; simp only [State.fetchEntry, State.onUnit, hi, hw', onNext]; rfl
  · simp [hpol] at h

/-- A unit that has fetched an entry plays it (R195, R200). -/
theorem State.unitStep_play {s : State} {u : Nat} {w : PwmUnit} {i : Inst} {e : Entry} (hw : s.pwmAt u = some w)
    (ho : s.owner u = some i) (hi : i.unit = some u) (hp : w.pos < w.seqCnt.toNat) (hf : w.fetched = some e) :
    s.unitStep u w = .next { s with
      pwm := s.pwm.set u { w with pos := w.pos + 1, fetched := none, due := w.due + w.period }
      obs := { s.obs with wave := s.obs.wave ++ s.playSegs w (cmpOf e) } } := by
  have hio := State.owner_instOf ho
  have hplay : s.asInst i.id (fun t => t.playEntry (cmpOf e)) = .next { s with
      pwm := s.pwm.set u { w with pos := w.pos + 1, fetched := none, due := w.due + w.period }
      obs := { s.obs with wave := s.obs.wave ++ s.playSegs w (cmpOf e) } } := by
    have hw2 : State.pwmAt { s with inst := i } u = some w := hw
    simp only [State.asInst, hio, State.playEntry, State.onUnit, hi, hw2, onNext]
    rfl
  rw [State.unitStep, if_neg (by omega), ho]
  simp only [hf]
  split
  · next k hk =>
    rw [← hplay]
    simp only [State.asInst, hio]
    rw [exec_symbolOf hk { s with inst := i } rfl]
  · exact hplay

/-! ## Waits -/

/-- Time passing with the segments written out. -/
theorem State.passTo_form (s : State) {c : Nat} (h : s.t < c) : s.passTo c = { s with
    t := c, obs := { s.obs with wave := s.obs.wave ++ s.heldSegs s.t c } } := by
  rw [State.passTo, if_neg (by omega)]

/-- The cycle a wait lets time pass to: the end of the wait or an event, the first of them, but at least the next cycle; the next
cycle where there is none. -/
theorem State.pauseEnd_spec (s : State) (stop : Option Nat) :
    s.t < s.pauseEnd stop ∧
    ((stop = none ∧ s.nextEvents = [] ∧ s.pauseEnd stop = s.t + 1) ∨
      ∃ c, (stop = some c ∨ c ∈ s.nextEvents) ∧ s.pauseEnd stop = max c (s.t + 1)) ∧
    (∀ c, stop = some c ∨ c ∈ s.nextEvents → s.pauseEnd stop ≤ max c (s.t + 1)) := by
  have hm : ∀ c, c ∈ stop.toList ++ s.nextEvents ↔ (stop = some c ∨ c ∈ s.nextEvents) := by simp
  unfold State.pauseEnd
  refine ⟨by omega, ?_, fun c hc => ?_⟩
  · cases h : (stop.toList ++ s.nextEvents).min? with
    | none =>
      rw [List.min?_eq_none_iff, List.append_eq_nil_iff] at h
      exact Or.inl ⟨by simpa using h.1, h.2, by simp⟩
    | some c => exact Or.inr ⟨c, (hm c).mp (List.min?_mem h), by simp⟩
  · have hmem := (hm c).mpr hc
    cases h : (stop.toList ++ s.nextEvents).min? with
    | none => rw [List.min?_eq_none_iff] at h; rw [h] at hmem; cases hmem
    | some d =>
      have := (List.min?_eq_some_iff.mp h).2 c hmem
      simp only [Option.getD_some]; omega

/-- A wait without an end goes to the one event to come. -/
theorem State.pauseEnd_event {s : State} {c : Nat} (h1 : c ∈ s.nextEvents) (h2 : ∀ e ∈ s.nextEvents, e = c) (h3 : s.t < c) :
    s.pauseEnd none = c := by
  obtain ⟨-, ⟨-, h, -⟩ | ⟨e, he | he, h⟩, -⟩ := s.pauseEnd_spec none
  · rw [h] at h1; cases h1
  · cases he
  · rw [h, h2 e he]; omega

/-- With no event to come a wait goes to its end. -/
theorem State.pauseEnd_quiet {s : State} (h : s.nextEvents = []) (c : Nat) : s.pauseEnd (some c) = max c (s.t + 1) := by
  simp [State.pauseEnd, h]

theorem State.pauseEnd_none {s : State} (h : s.nextEvents = []) : s.pauseEnd none = s.t + 1 := by
  simp [State.pauseEnd, h]

/-- The events to come are those of playing units and of other users, the running of a pending handler, and the completion of a
parked instance. -/
theorem State.mem_nextEvents (s : State) (c : Nat) : c ∈ s.nextEvents ↔
    (∃ u w, s.pwmAt u = some w ∧ s.playing u w = true ∧ w.due = c) ∨ (∃ m, s.env.head? = some (c, m)) ∨
      s.handlerChance = some c ∨ s.finisherChance = some c := by
  unfold State.nextEvents State.players State.pwmAt
  simp only [List.mem_append, List.mem_map, List.mem_filter, Option.mem_toList, Option.map_eq_some_iff, Prod.exists, or_assoc]
  refine or_congr ⟨?_, ?_⟩ (or_congr ⟨?_, ?_⟩ Iff.rfl)
  · rintro ⟨u, w, ⟨⟨w', u', hm, he⟩, hp⟩, rfl⟩
    cases he
    exact ⟨u, w, List.mk_mem_zipIdx_iff_getElem?.mp hm, hp, rfl⟩
  · rintro ⟨u, w, hw, hp, rfl⟩
    exact ⟨u, w, ⟨⟨w, u, List.mk_mem_zipIdx_iff_getElem?.mpr hw, rfl⟩, hp⟩, rfl⟩
  · rintro ⟨a, m, h, rfl⟩; exact ⟨m, h⟩
  · rintro ⟨m, h⟩; exact ⟨c, m, h, rfl⟩

/-- No other agent acts now: no move of another user, no interval of a unit, no handler and no parked instance's completion is due. -/
abbrev State.othersWait (s : State) : Prop :=
  s.envDue = none ∧ s.unitDue = none ∧ s.handlerDue = none ∧ s.finisherDue = none

theorem State.othersWait_of_turn {s : State} (h : s.sequencerTurn) : s.othersWait := ⟨h.2.1, h.2.2.1, h.2.2.2.1, h.2.2.2.2.1⟩

/-- In a cycle that no request blocks the sequencer is not stalled. -/
theorem State.not_stalled {s : State} (h : ¬ s.blocked s.t) : s.stalled = false := by
  have h : inWindows s.blockers s.t = false := by simpa [State.blocked] using h
  unfold State.blockers at h
  unfold State.stalled
  split at h
  · next hm => simp [h, hm]
  · next hm =>
    rw [inWindows_append, Bool.or_eq_false_iff] at h
    simp [h.1, h.2]

/-- In the sequencer's turn every event is still to come. -/
theorem State.nextEvents_gt {s : State} (h : s.othersWait) {c : Nat} (hc : c ∈ s.nextEvents) : s.t < c := by
  rcases (s.mem_nextEvents c).mp hc with ⟨u, w, hw, hp, rfl⟩ | ⟨m, hm⟩ | hh | hh
  · by_contra hn
    have := h.2.1
    unfold State.unitDue at this
    rw [List.find?_eq_none] at this
    have hmem : (u, w) ∈ s.players := by
      simp only [State.players, List.mem_filter, List.mem_map, Prod.mk.injEq, Prod.exists]
      exact ⟨⟨w, u, List.mem_zipIdx_iff_getElem?.mpr hw, rfl, rfl⟩, hp⟩
    have := this _ hmem
    simp at this; omega
  · have := h.1
    unfold State.envDue at this
    cases he : s.env with
    | nil => rw [he] at hm; cases hm
    | cons x r =>
      rw [he] at hm this
      simp only [List.head?_cons, Option.some.injEq] at hm
      subst hm
      by_contra hn
      simp [show c ≤ s.t by omega] at this
  · unfold State.handlerChance at hh
    split at hh
    · next hx =>
      simp only [Bool.and_eq_true, Bool.not_eq_true'] at hx
      obtain ⟨a, b, -⟩ := nextFree_some hh
      rcases Nat.lt_or_ge s.t c with hl | hl
      · exact hl
      · have e : c = s.t := by omega
        subst e
        have hnot := h.2.2.1
        simp only [State.blockers, hx.2, Bool.false_eq_true, if_false, inWindows_append, Bool.or_eq_false_iff] at b
        unfold State.handlerDue at hnot
        rw [if_neg (by simp [State.stalled, b.1, b.2, hx.2])] at hnot
        rw [List.findIdx?_eq_none_iff] at hnot
        obtain ⟨y, hy, hy2⟩ := List.any_eq_true.mp hx.1
        have := hnot y hy
        simp only [id] at this hy2
        rw [hy2] at this; cases this
    · cases hh
  · unfold State.finisherChance at hh
    split at hh
    · next i hi =>
      obtain ⟨a, b, -⟩ := nextFree_some hh
      rcases Nat.lt_or_ge s.t c with hl | hl
      · exact hl
      · have e : c = s.t := by omega
        subst e
        have hnot := h.2.2.2
        rw [State.finisherDue, State.not_stalled (by simp [State.blocked, b]), hi] at hnot
        cases hnot
    · cases hh

/-- A wait while no other agent acts: it goes to the first of its end and the events, all to come, or one cycle where there is none. -/
theorem State.pauseEnd_wait {s : State} (h : s.othersWait) {stop : Option Nat} (hs : ∀ c, stop = some c → s.t < c) :
    s.t < s.pauseEnd stop ∧ (∀ c, stop = some c ∨ c ∈ s.nextEvents → s.pauseEnd stop ≤ c) ∧
    ((stop = none ∧ s.nextEvents = []) ∨ stop = some (s.pauseEnd stop) ∨ s.pauseEnd stop ∈ s.nextEvents) := by
  have hgt : ∀ c, stop = some c ∨ c ∈ s.nextEvents → s.t < c := fun c hc => hc.elim (hs c) (State.nextEvents_gt h)
  obtain ⟨h1, h2, h3⟩ := s.pauseEnd_spec stop
  refine ⟨h1, fun c hc => ?_, ?_⟩
  · have := h3 c hc; have := hgt c hc; omega
  · rcases h2 with ⟨a, b, -⟩ | ⟨c, hc, e⟩
    · exact Or.inl ⟨a, b⟩
    · have := hgt c hc
      rw [Nat.max_eq_left (by omega)] at e
      rw [e]; exact Or.inr hc

/-- Such a wait with no end of its own only lets time pass, to the next event (R288). -/
theorem State.passesOn_of {s : State} (h : s.othersWait) (e : step s = .next (s.pause none)) : s.passesOn := by
  obtain ⟨g1, g2, g3⟩ := State.pauseEnd_wait h (stop := none) (fun c hc => by cases hc)
  refine ⟨s.pauseEnd none, ⟨g1, e, fun e he => g2 e (Or.inr he)⟩, ?_⟩
  rcases g3 with ⟨-, h1⟩ | h1 | h1
  · exact Or.inr ⟨h1, State.pauseEnd_none h1⟩
  · cases h1
  · exact Or.inl h1

theorem State.nextEvents_nil {s : State} (he : s.env = []) (hr : s.unitsAtRest) (hf : s.finisher = none) : s.nextEvents = [] := by
  rw [List.eq_nil_iff_forall_not_mem]
  intro c hc
  rcases (s.mem_nextEvents c).mp hc with ⟨u, w, hw, hp, -⟩ | ⟨m, hm⟩ | hh | hh
  · have := hr.1 w (List.mem_of_getElem? hw)
    simp [State.playing, this] at hp
  · simp [he] at hm
  · unfold State.handlerChance at hh
    split at hh
    · next h =>
      simp only [Bool.and_eq_true, List.any_eq_true, id] at h
      obtain ⟨⟨b, hb, h1⟩, -⟩ := h
      rw [hr.2 b hb] at h1; cases h1
    · cases hh
  · simp [State.finisherChance, hf] at hh

/-- The latch wait is over once its condition has held since it began (R17, R131). -/
theorem State.latchDue_iff {s : State} (hm : 0 < s.plat.m) (c : Nat) : s.latchDue ≤ c ↔
    ∃ k, s.inst.waitStart ≤ k ∧ k ≤ c ∧ s.inst.dly.toNat ≤ (usAt s.plat.m k - s.inst.endTime).toNat := by
  have := (dueUs_first s.plat.m hm s.inst.endTime s.inst.dly.toNat s.inst.dly.isLt).le_iff (a := s.inst.waitStart) (c := c)
  simpa only [elapsed, decide_eq_true_eq, State.latchDue, State.backoffDue] using this

/-- With the latch condition met on entry the wait takes no cycle (R132 (a), (b)). -/
theorem State.enterLatch_open {s : State} (h : elapsed s.us s.inst.endTime s.inst.dly.toNat = true) : s.enterLatch.latchOpen = true := by
  unfold State.us at h
  simp [State.latchOpen, State.latchDue, State.enterLatch, dueUs, h]

/-- So is the backoff (R228). -/
theorem State.backoffDue_iff {s : State} (hm : 0 < s.plat.m) (hb : s.inst.cfg.backoffUs < 2 ^ 32) (c : Nat) : s.backoffDue ≤ c ↔
    ∃ k, s.inst.waitStart ≤ k ∧ k ≤ c ∧ s.inst.cfg.backoffUs ≤ (usAt s.plat.m k - s.inst.backoffStart).toNat := by
  have := (dueUs_first s.plat.m hm s.inst.backoffStart _ hb).le_iff (a := s.inst.waitStart) (c := c)
  simpa only [elapsed, decide_eq_true_eq, State.latchDue, State.backoffDue] using this

/-! ## ENCODING as a written-out state -/

theorem State.usedDraw_eq (s : State) : s.usedDraw = { s with
    encDraws := s.encDraws.tail, drawCtr := if s.encDraws = [] then s.drawCtr + 1 else s.drawCtr } := by
  unfold State.usedDraw
  cases h : s.encDraws <;> simp

/-- The state ENCODING begins with: its draw is used up unless it has begun before (R191, log 9). -/
theorem State.beginEncoding_eq (s : State) (c : Nat) : s.beginEncoding c = { s with
    encDraws := if s.inst.encEnd = none then s.encDraws.tail else s.encDraws
    drawCtr := if s.inst.encEnd = none ∧ s.encDraws = [] then s.drawCtr + 1 else s.drawCtr
    inst := { s.inst with encEnd := some (s.inst.encEnd.getD c) } } := by
  unfold State.beginEncoding
  cases h : s.inst.encEnd with
  | some e => simp only [Option.getD_some, reduceCtorEq, if_false, false_and]; rw [← h]
  | none => rw [State.usedDraw_eq]; simp

/-- The state ENCODING leaves: time and lines moved on, the sequence written, the unit configured and running, ACTIVE and the
registry set (R191 to R194). -/
theorem State.finishEncoding_eq (s : State) (c u : Nat) (w : PwmUnit) :
    s.finishEncoding c u w = { s with
      t := max s.t c
      encDraws := if s.inst.encEnd = none then s.encDraws.tail else s.encDraws
      drawCtr := if s.inst.encEnd = none ∧ s.encDraws = [] then s.drawCtr + 1 else s.drawCtr
      obs := (s.passTo c).obs
      pwm := s.pwm.set u ((s.configured w).startAt (max s.t c))
      registry := s.registry.set u (some s.inst.id)
      inst := { s.inst with
        active := true, fsm := .playing, evt := pinEvt s.plat.nPins s.inst.evt s.inst.pin
        duty := s.encode.inst.duty, encEnd := none, cur := s.encode.inst.cur } } := by
  have ep : (s.beginEncoding c).passTo c = { s.beginEncoding c with t := max s.t c, obs := (s.passTo c).obs } := by
    rw [State.beginEncoding_eq, State.passTo_eq, State.passTo_eq]; rfl
  rw [State.finishEncoding, ep, State.beginEncoding_eq]
  by_cases h : s.inst.pin.toNat < s.plat.nPins
  · simp [State.startPlayback, State.encode, State.raiseIfUnresolved, State.pinResolves, pinEvt, h, State.setPwm, State.setRegistry,
      State.setActive, State.setFsm, State.configured, State.bufferBytes, State.memRead]
    rfl
  · simp [State.startPlayback, State.encode, State.raiseIfUnresolved, State.pinResolves, pinEvt, h, State.setPwm, State.setRegistry,
      State.setActive, State.setFsm, State.configured, State.bufferBytes, State.memRead, State.raise]
    rfl

end Sys2Proof.Machine
end

