-- ==== Sys2Proof/Laws/Frames.lean ====
section
/-! SUPPORT. Laws/Frames.lean: what one action leaves alone: constants, other instances, EVT bits, END_TIME, the duty RAM, the
pixel-buffer memory; and that the invariants are kept. -/

namespace Sys2Proof.Machine

theorem hasEvt_setEvt {ev : BitVec 8} {e : Event} (x : Event) (h : hasEvt ev e = true) : hasEvt (setEvt ev x) e = true := by
  simp only [hasEvt, setEvt, BitVec.getLsbD_or] at h ⊢; simp [h]

theorem hasEvt_pinEvt {ev : BitVec 8} {e : Event} (n : Nat) (p : Pin) (h : hasEvt ev e = true) :
    hasEvt (pinEvt n ev p) e = true := by
  unfold pinEvt
  split
  · exact h
  · exact hasEvt_setEvt _ h

/-- UPDATE_LENGTH's action, with DUTY_CAP and EVT left open. -/
theorem State.updateAction_eq (s : State) (n : Count) :
    ∃ cap ev, s.updateAction n = ({ s with inst := { s.inst with dutyCap := cap, duty := [], dutyGen := s.inst.dutyGen + 1, evt := ev } }).complete ∧
      (∀ e, hasEvt s.inst.evt e = true → hasEvt ev e = true) ∧
      (cap = 0 ∨ n ≠ 0 ∧ s.inst.need n ≤ s.inst.cfg.dutyRamEntries ∧ cap = BitVec.ofNat 20 (s.inst.need n)) := by
  unfold State.updateAction
  split
  · exact ⟨_, _, rfl, fun e h => h, Or.inl rfl⟩
  · next hn =>
    split
    · next hl => exact ⟨_, _, rfl, fun e h => h, Or.inr ⟨hn, hl, rfl⟩⟩
    · exact ⟨_, _, rfl, fun e h => hasEvt_setEvt _ h, Or.inl rfl⟩

/-- The byte read changes CUR only. -/
theorem State.fetchByte_next {s m : State} (h : s.fetchByte = .next m) : ∃ b, m = { s with inst := { s.inst with cur := b } } := by
  unfold State.fetchByte at h
  split at h
  · split at h
    · cases h; exact ⟨_, rfl⟩
    · cases h
  · cases h; exact ⟨s.inst.cur, rfl⟩

theorem State.startFallback_eq (s : State) : s.startFallback = { s with
    inst := { s.inst with
      evt := setEvt s.inst.evt .fallback, retries := 0, irqMask := true, maskSince := s.t, cycStart := s.cyc
      fsm := .fbHigh, byteIx := 0, bitIx := 7 } } := rfl

/-- The start of a PWMDMA frame: the claim of a unit, or the fallback (R188). -/
theorem State.startPwm_cases (s : State) :
    (∃ u w, s.pwmAt u = some w ∧ s.inst.seqLen ≤ s.inst.dutyCap.toNat ∧ w.free = true ∧ s.startPwm =
      { s with pwm := s.pwm.set u { w with enable := true }, inst := { s.inst with unit := some u, fsm := .encoding } }) ∨
    (∃ ev, (∀ e, hasEvt s.inst.evt e = true → hasEvt ev e = true) ∧ s.startPwm =
      { s with
        inst := { s.inst with
          evt := ev, retries := 0, irqMask := true, maskSince := s.t, cycStart := s.cyc
          fsm := .fbHigh, byteIx := 0, bitIx := 7 } }) := by
  unfold State.startPwm
  split
  · exact Or.inr ⟨_, fun e h => hasEvt_setEvt .fallback h, State.startFallback_eq s⟩
  · next hc =>
    split
    · exact Or.inr ⟨_, fun e h => hasEvt_setEvt .fallback (hasEvt_setEvt .noPwm h), State.startFallback_eq (s.raise .noPwm)⟩
    · next u hu =>
      left
      unfold State.scan at hu
      rw [List.findIdx?_eq_some_iff_getElem] at hu
      obtain ⟨hl, hf, -⟩ := hu
      have hw : s.pwmAt u = some s.pwm[u] := List.getElem?_eq_getElem hl
      refine ⟨u, s.pwm[u], hw, by omega, hf, ?_⟩
      unfold State.claim
      rw [hw]; rfl

/-! ## What an accepted command leaves alone -/

/-- The shared part of every command's effect. -/
structure State.CommandFrame (s s' : State) : Prop where
  plat : s'.plat = s.plat
  t : s'.t = s.t
  mem : s'.mem = s.mem
  peers : s'.peers = s.peers
  pwm : s'.pwm = s.pwm
  registry : s'.registry = s.registry
  pend : s'.pend = s.pend
  past : s'.past = s.past
  rst : s'.rst = s.rst
  cfg : s'.inst.cfg = s.inst.cfg
  id : s'.inst.id = s.inst.id
  endTime : s'.inst.endTime = s.inst.endTime
  irqMask : s'.inst.irqMask = s.inst.irqMask
  unit : s'.inst.unit = s.inst.unit
  active : s'.inst.active = s.inst.active
  evt : ∀ e, hasEvt s.inst.evt e = true → hasEvt s'.inst.evt e = true
  duty : s'.inst.duty = s.inst.duty ∨ s'.inst.duty = []
  fsm : s'.inst.fsm = .idle ∨ s'.inst.fsm = .waitActive ∧ s.inst.active = true ∨ s'.inst.fsm = .waitLatch

theorem State.updateAction_frame (s : State) (n : Count) : s.CommandFrame (s.updateAction n) := by
  obtain ⟨cap, ev, e, h, -⟩ := s.updateAction_eq n
  rw [e]
  constructor <;> first | rfl | exact h | exact Or.inr rfl | exact Or.inl rfl

theorem State.endAction_frame (s : State) : s.CommandFrame s.endAction := by
  constructor <;> first | (simp [State.endAction]; done) | exact fun e h => by simp [State.endAction, hasEvt_pinEvt, h]

theorem State.Commanded.frame {s s' : State} (h : s.Commanded s') : s.CommandFrame s' := by
  cases h with
  | updateNow n => exact s.updateAction_frame n
  | endNow => exact s.endAction_frame
  | endWait h => constructor <;> first | rfl | exact fun e h => h | exact Or.inl rfl | exact Or.inr (Or.inl ⟨rfl, h⟩)
  | updateWait n h => constructor <;> first | rfl | exact fun e h => h | exact Or.inl rfl | exact Or.inr (Or.inl ⟨rfl, h⟩)
  | transmitWait a b c _ _ h =>
    constructor <;> first | rfl | exact fun e h => h | exact Or.inl rfl | exact Or.inr (Or.inl ⟨rfl, h⟩)
  | transmitNow a b c => constructor <;> first | rfl | exact fun e h => h | exact Or.inl rfl | exact Or.inr (Or.inr rfl)
  | noop a b c => constructor <;> first | rfl | exact fun e h => hasEvt_setEvt _ h | exact Or.inl rfl
  | bad => constructor <;> first | rfl | exact fun e h => hasEvt_setEvt _ h | exact Or.inl rfl
  | updateNone => constructor <;> first | rfl | exact fun e h => h | exact Or.inl rfl
  | setPin p => constructor <;> first | rfl | exact fun e h => h | exact Or.inl rfl
  | setPinBegun p => constructor <;> first | (simp; done) | exact fun e h => by simp [hasEvt_pinEvt, h]
  | begin => constructor <;> first | (simp; done) | exact fun e h => by simp [hasEvt_pinEvt, h]

/-! ## Resets -/

theorem State.seqendHandler_past (s : State) (u : Nat) : (s.seqendHandler u).past = s.past ∧ (s.seqendHandler u).rst = s.rst := by
  unfold State.seqendHandler State.clearActive
  split
  · split <;> exact ⟨rfl, rfl⟩
  · split <;> exact ⟨rfl, rfl⟩
  · exact ⟨rfl, rfl⟩

/-- The handler and a turn to another instance leave the resets alone, those made and those to come. -/
theorem State.focus_past {s s' : State} {id : Nat} (h : s.focus id = some s') : s'.past = s.past ∧ s'.rst = s.rst := by
  unfold State.focus at h
  split at h
  · cases h; exact ⟨rfl, rfl⟩
  · split at h
    · cases h
    · cases h; exact ⟨rfl, rfl⟩

theorem State.Symbol.past {s s1 s' : State} {f g : Fsm} (h1 : s.fetchByte = .next s1) (h : s1.Symbol f g s') :
    s'.past = s.past ∧ s'.rst = s.rst := by
  obtain ⟨b, rfl⟩ := State.fetchByte_next h1
  obtain ⟨c, f, bs, st, b', g, -, -, rfl⟩ := h.form
  exact ⟨rfl, rfl⟩

/-- An action makes no reset and leaves those to come, or it is a build, which is one. -/
theorem State.acts_past {s s' : State} (h : s.Acts s') :
    (s'.past = s.past ∧ s'.rst = s.rst) ∨ ∃ o, s'.past = s.past ++ [o] := by
  cases h with
  | built c => exact Or.inr ⟨_, rfl⟩
  | handler u => exact Or.inl (s.seqendHandler_past u)
  | selected id s' hf hh h => exact Or.inl (State.focus_past (s := s.popHost) h)
  | command w s' hf hd hs hh hc => exact Or.inl ⟨hc.frame.past, hc.frame.rst⟩
  | afterEnd => exact Or.inl ⟨s.endAction_frame.past, s.endAction_frame.rst⟩
  | afterUpdate n => exact Or.inl ⟨(s.updateAction_frame n).past, (s.updateAction_frame n).rst⟩
  | pwmStart => rcases s.startPwm_cases with ⟨u, w, -, -, -, e⟩ | ⟨ev, -, e⟩ <;> rw [e] <;> exact Or.inl ⟨rfl, rfl⟩
  | bbBit s1 high low hf h1 => exact Or.inl ((s1.bbSymbol_symbol high low).past h1)
  | fbBit s1 hb hf h1 => exact Or.inl ((s1.fbSymbol_symbol hb).past h1)
  | bbAfter => unfold State.afterLow State.nextBit; split <;> exact Or.inl ⟨rfl, rfl⟩
  | fbAfter => unfold State.afterPeriod State.nextBit; split <;> exact Or.inl ⟨rfl, rfl⟩
  | checked => unfold State.selfCheck; split <;> (try split) <;> exact Or.inl ⟨rfl, rfl⟩
  | encoded c u w => rw [State.finishEncoding_eq]; exact Or.inl ⟨rfl, rfl⟩
  | encodes c e => rw [State.passTo_eq, State.beginEncoding_eq]; exact Or.inl ⟨rfl, rfl⟩
  | pass c => rw [State.passTo_eq]; exact Or.inl ⟨rfl, rfl⟩
  | waited c h => rw [State.passTo_eq]; exact Or.inl ⟨rfl, rfl⟩
  | _ => exact Or.inl ⟨rfl, rfl⟩

/-- A step that makes no reset is one action, whatever resets are to come. -/
theorem agentStep_of_past {s s' : State} (h : step s = .next s') (hp : s'.past = s.past) : s.agentStep = .next s' := by
  have no : ∀ (m : State) r, s.past.length ≤ m.past.length → (s.resetAt r m).past ≠ s.past := fun m r hl e => by
    have := congrArg List.length e
    simp only [State.resetAt, State.restart, List.length_append, List.length_singleton] at this
    omega
  unfold step State.cycle at h
  split at h
  · exact h
  · next r hr =>
    split at h
    · cases h; exact absurd hp (no s r (Nat.le_refl _))
    · obtain ⟨m, h1, h2⟩ := onNext_next h
      split at h2
      · cases h2
        have hl : s.past.length ≤ m.past.length := by
          rcases State.acts_past (State.agentStep_acts h1) with ⟨e, -⟩ | ⟨o, e⟩ <;> simp [e]
        exact absurd hp (no m r hl)
      · cases h2; exact h1

theorem step_acts_of_past {s s' : State} (h : step s = .next s') (hp : s'.past = s.past) : s.Acts s' :=
  State.agentStep_acts (agentStep_of_past h hp)

/-! ## What one action leaves alone -/

/-- What an action that is no build and no turn to another instance keeps. -/
structure State.Kept (s s' : State) : Prop where
  cfg : s'.inst.cfg = s.inst.cfg
  id : s'.inst.id = s.inst.id
  time : s.t ≤ s'.t
  evt : ∀ e, hasEvt s.inst.evt e = true → hasEvt s'.inst.evt e = true
  peers : s'.peers = s.peers ∨ (∃ u id, s.handlerDue = some u ∧ s.registryAt u = some id ∧
    s'.peers = s.peers.map (fun i => if i.id = id then { i with active := false } else i)) ∨
    ∃ i, s.finisherDue = some i ∧ s'.inst = s.inst ∧ s'.peers = s.peers.map (fun j => if j.id = i.id then i.finished s else j)
  endTime : s'.inst.endTime ≠ s.inst.endTime →
    (s.inst.fsm = .bbLow ∨ s.inst.fsm = .completion ∨ s.inst.fsm = .fbCheck) ∧ s'.inst.endTime = s.us ∧
    s'.inst.fsm = .idle ∧ s'.done = true ∧ s'.t = s.t
  duty : s'.inst.duty ≠ s.inst.duty → s.inst.fsm = .encoding ∨
    (s'.inst.duty = [] ∧ (s.inst.fsm = .idle ∨ s.inst.fsm = .waitActive ∨ s.inst.fsm = .completion))

theorem State.CommandFrame.kept {s s' : State} (h : s.CommandFrame s') (hf : s.inst.fsm = .idle ∨ s.inst.fsm = .waitActive) :
    s.Kept s' where
  cfg := h.cfg
  id := h.id
  time := by rw [h.t]
  evt := h.evt
  peers := Or.inl h.peers
  endTime hne := absurd h.endTime hne
  duty hne := Or.inr ⟨h.duty.resolve_left hne, hf.elim Or.inl fun h => Or.inr (Or.inl h)⟩

/-- A state that changes no register but those of the walk, the line and the mask. -/
theorem State.kept_of {s s' : State} (h1 : s'.inst.cfg = s.inst.cfg) (h2 : s'.inst.id = s.inst.id) (h3 : s.t ≤ s'.t)
    (h4 : ∀ e, hasEvt s.inst.evt e = true → hasEvt s'.inst.evt e = true) (h5 : s'.peers = s.peers)
    (h6 : s'.inst.endTime = s.inst.endTime) (h7 : s'.inst.duty = s.inst.duty) : s.Kept s' :=
  ⟨h1, h2, h3, h4, Or.inl h5, fun h => absurd h6 h, fun h => absurd h7 h⟩

theorem State.kept_same {s s' : State} (h : s'.inst = s.inst) (h3 : s.t ≤ s'.t) (h5 : s'.peers = s.peers) : s.Kept s' :=
  State.kept_of (by rw [h]) (by rw [h]) h3 (fun e he => by rw [h]; exact he) h5 (by rw [h]) (by rw [h])

theorem State.handler_kept {s : State} {u : Nat} (hu : s.handlerDue = some u) : s.Kept (s.seqendHandler u) := by
  have hclear : ∀ (m : State) (id : Nat), s.registryAt u = some id → m.inst = s.inst → m.peers = s.peers → m.t = s.t →
      s.Kept (m.clearActive id) := by
    intro m id hr h1 h2 h3
    unfold State.clearActive
    split
    · exact State.kept_of (by simp [h1]) (by simp [h1]) (by simp [h3]) (fun e he => by simpa [h1] using he) (by simp [h2])
        (by simp [h1]) (by simp [h1])
    · refine ⟨by simp [h1], by simp [h1], by simp [h3], fun e he => by simpa [h1] using he,
        Or.inr (Or.inl ⟨u, id, hu, hr, by simp [h2]⟩), fun hne => absurd (by simp [h1]) hne, fun hne => absurd (by simp [h1]) hne⟩
  unfold State.seqendHandler
  split
  · next id w hr hw => exact hclear _ id hr rfl rfl rfl
  · next id hr hw => exact hclear _ id hr rfl rfl rfl
  · exact State.kept_same rfl (Nat.le_refl _) rfl

/-- What follows the accepted command pops the host's queue first; nothing Kept speaks of is in it. -/
theorem State.Kept.of_popHost {s s' : State} (h : s.popHost.CommandFrame s') (hf : s.inst.fsm = .idle) : s.Kept s' :=
  ⟨h.cfg, h.id, Nat.le_of_eq h.t.symm, h.evt, Or.inl h.peers, fun hne => absurd h.endTime hne,
    fun hne => Or.inr ⟨h.duty.resolve_left hne, Or.inl hf⟩⟩

theorem State.startPwm_kept (s : State) : s.Kept s.startPwm := by
  rcases s.startPwm_cases with ⟨u, w, -, -, -, e⟩ | ⟨ev, hev, e⟩
  · constructor <;> simp [e]
  · constructor <;> simp [e]
    exact hev

theorem State.Symbol.kept {s s1 s' : State} {f g : Fsm} (h1 : s.fetchByte = .next s1) (h : s1.Symbol f g s') : s.Kept s' := by
  obtain ⟨b, rfl⟩ := State.fetchByte_next h1
  obtain ⟨c, f, bs, st, b', g, hc, -, rfl⟩ := h.form
  exact State.kept_of rfl rfl hc (fun e he => hasEvt_pinEvt _ _ he) rfl rfl rfl

theorem State.nextBit_kept (s : State) (f : Fsm) : s.Kept (s.nextBit f) := by
  unfold State.nextBit Inst.nextPos
  split <;> exact ⟨rfl, rfl, Nat.le_refl _, fun e he => he, Or.inl rfl, fun h => absurd rfl h, fun h => absurd rfl h⟩

theorem State.afterLow_kept {s : State} (hf : s.inst.fsm = .bbLow) : s.Kept s.afterLow := by
  unfold State.afterLow
  split
  · exact ⟨rfl, rfl, Nat.le_refl _, fun e he => he, Or.inl rfl, fun _ => ⟨Or.inl hf, rfl, rfl, State.complete_done _, rfl⟩, fun h => absurd rfl h⟩
  · exact s.nextBit_kept _

theorem State.afterPeriod_kept (s : State) : s.Kept s.afterPeriod := by
  unfold State.afterPeriod
  split
  · exact ⟨rfl, rfl, Nat.le_refl _, fun e he => he, Or.inl rfl, fun h => absurd rfl h, fun h => absurd rfl h⟩
  · exact s.nextBit_kept _

theorem State.selfCheck_kept {s : State} (hf : s.inst.fsm = .fbCheck) : s.Kept s.selfCheck := by
  unfold State.selfCheck
  split
  · split
    · exact ⟨rfl, rfl, Nat.le_refl _, fun e he => hasEvt_setEvt _ he, Or.inl rfl,
        fun _ => ⟨Or.inr (Or.inr hf), rfl, rfl, State.complete_done _, rfl⟩, fun h => absurd rfl h⟩
    · exact ⟨rfl, rfl, Nat.le_refl _, fun e he => hasEvt_setEvt _ he, Or.inl rfl, fun h => absurd rfl h, fun h => absurd rfl h⟩
  · exact ⟨rfl, rfl, Nat.le_refl _, fun e he => he, Or.inl rfl,
      fun _ => ⟨Or.inr (Or.inr hf), rfl, rfl, State.complete_done _, rfl⟩, fun h => absurd rfl h⟩

theorem State.encodes_kept (s : State) (c e : Nat) : s.Kept ((s.beginEncoding c).passTo e) := by
  rw [State.passTo_eq, State.beginEncoding_eq]
  exact State.kept_of rfl rfl (Nat.le_max_left _ _) (fun e he => he) rfl rfl rfl

theorem State.encoded_kept {s : State} {c u : Nat} {w : PwmUnit} (hf : s.inst.fsm = .encoding) :
    s.Kept (s.finishEncoding c u w) := by
  rw [State.finishEncoding_eq]
  exact ⟨rfl, rfl, Nat.le_max_left _ _, fun e he => hasEvt_pinEvt _ _ he, Or.inl rfl, fun h => absurd rfl h, fun _ => Or.inl hf⟩

/-- An action that is no build and no turn to another instance keeps what Kept says. -/
theorem State.acts_kept {s s' : State} (h : s.Acts s') (hb : s.hostBuildsOrTurns = false) : s.Kept s' := by
  cases h with
  | envUnit => exact State.kept_same rfl (Nat.le_refl _) rfl
  | envNone => exact State.kept_same rfl (Nat.le_refl _) rfl
  | envSeqend => exact State.kept_same rfl (Nat.le_refl _) rfl
  | envGpio => exact State.kept_same rfl (Nat.le_refl _) rfl
  | unitEnd => exact State.kept_same rfl (Nat.le_refl _) rfl
  | unitFetch => exact State.kept_same rfl (Nat.le_refl _) rfl
  | unitPlay => exact State.kept_same rfl (Nat.le_refl _) rfl
  | handler u hu => exact State.handler_kept hu
  | finished i u w hi =>
    exact ⟨rfl, rfl, Nat.le_refl _, fun e he => he, Or.inr (Or.inr ⟨i, hi, rfl, rfl⟩), fun h => absurd rfl h, fun h => absurd rfl h⟩
  | pass c => exact State.kept_same (by simp) (by simp) (by simp)
  | waited c h => exact State.kept_same (by simp) (by simp) (by simp)
  | wrote a b => exact State.kept_same rfl (Nat.le_refl _) rfl
  | selected id s' hf hh =>
    unfold State.hostBuildsOrTurns at hb
    cases hs : s.host with
    | nil => rw [hs] at hh; cases hh
    | cons m r =>
      rw [hs] at hh hb
      simp only [List.head?_cons, Option.some.injEq] at hh
      subst hh
      simp only [Bool.or_eq_false_iff, decide_eq_false_iff_not] at hb
      exact absurd hf (not_or.mpr hb)
  | command w s' hf hd hs hh hc => exact State.Kept.of_popHost hc.frame hf
  | built c hf hbt => rw [hb] at hbt; cases hbt
  | afterEnd hf => exact s.endAction_frame.kept (Or.inr hf)
  | afterUpdate n hf => exact (s.updateAction_frame n).kept (Or.inr hf)
  | afterTransmit => exact ⟨rfl, rfl, Nat.le_refl _, fun e he => he, Or.inl rfl, fun h => absurd rfl h, fun h => absurd rfl h⟩
  | afterNone => exact ⟨rfl, rfl, Nat.le_refl _, fun e he => he, Or.inl rfl, fun h => absurd rfl h, fun h => absurd rfl h⟩
  | bbStart => exact ⟨rfl, rfl, Nat.le_refl _, fun e he => he, Or.inl rfl, fun h => absurd rfl h, fun h => absurd rfl h⟩
  | pwmStart => exact s.startPwm_kept
  | bbBit s1 high low hf h1 => exact (s1.bbSymbol_symbol high low).kept h1
  | bbAfter hf => exact State.afterLow_kept hf
  | encodes c e hf => exact s.encodes_kept c e
  | encoded c u w hf => exact State.encoded_kept hf
  | played => exact ⟨rfl, rfl, Nat.le_refl _, fun e he => he, Or.inl rfl, fun h => absurd rfl h, fun h => absurd rfl h⟩
  | tornDown u w hf =>
    exact ⟨rfl, rfl, Nat.le_refl _, fun e he => he, Or.inl rfl, fun _ => ⟨Or.inr (Or.inl hf), rfl, rfl, State.complete_done _, rfl⟩,
      fun _ => Or.inr ⟨rfl, Or.inr (Or.inr hf)⟩⟩
  | fbBit s1 hb' hf h1 => exact (s1.fbSymbol_symbol hb').kept h1
  | fbAfter hf => exact s.afterPeriod_kept
  | checked hf => exact State.selfCheck_kept hf
  | again => exact ⟨rfl, rfl, Nat.le_refl _, fun e he => he, Or.inl rfl, fun h => absurd rfl h, fun h => absurd rfl h⟩

end Sys2Proof.Machine
end

