-- ==== Sys2Proof/Laws/Invariants.lean ====
section
/-! SUPPORT. Laws/Invariants.lean: the platform, the pixel-buffer memory and the invariants of Safety.lean over one action and over
one step. -/

namespace Sys2Proof.Machine

/-! ## Turning to another instance -/

/-- Turning to an instance changes places with it and nothing else (R306). -/
theorem State.focus_some {s s' : State} {id : Nat} (h : s.focus id = some s') :
    s' = s ∨ ∃ i ∈ s.peers, s' = { s with inst := i, peers := s.peers.map (fun j => if j.id = id then s.inst else j) } := by
  unfold State.focus at h
  split at h
  · cases h; exact Or.inl rfl
  · split at h
    · cases h
    · next i hi => cases h; exact Or.inr ⟨i, List.mem_of_find?_eq_some hi, rfl⟩

/-- What every instance has, every instance has after a turn. -/
theorem State.focus_all {P : Inst → Prop} {s s' : State} {id : Nat} (h : s.focus id = some s') (h0 : P s.inst)
    (hp : ∀ i ∈ s.peers, P i) : P s'.inst ∧ ∀ i ∈ s'.peers, P i := by
  rcases State.focus_some h with rfl | ⟨i, hi, rfl⟩
  · exact ⟨h0, hp⟩
  · refine ⟨hp i hi, fun j hj => ?_⟩
    obtain ⟨k, hk, rfl⟩ := List.mem_map.mp hj
    split
    · exact h0
    · exact hp k hk

/-- What a property of instances that does not look at ACTIVE says of them, it says after the SEQEND handler. -/
theorem State.handler_all {P : Inst → Prop} {s : State} {u : Nat} (h : ∀ i, P i → P { i with active := false })
    (h0 : P s.inst) (hp : ∀ i ∈ s.peers, P i) :
    P (s.seqendHandler u).inst ∧ ∀ i ∈ (s.seqendHandler u).peers, P i := by
  have hc : ∀ (m : State) (id : Nat), m.inst = s.inst → m.peers = s.peers →
      P (m.clearActive id).inst ∧ ∀ i ∈ (m.clearActive id).peers, P i := by
    intro m id h1 h2
    unfold State.clearActive
    split
    · refine ⟨?_, ?_⟩
      · simp only [State.setActive_inst, h1]; exact h _ h0
      · simp only [State.setActive_peers, h2]; exact hp
    · refine ⟨by rw [h1]; exact h0, fun i hi => ?_⟩
      rw [h2] at hi
      obtain ⟨k, hk, rfl⟩ := List.mem_map.mp hi
      split
      · exact h _ (hp k hk)
      · exact hp k hk
  unfold State.seqendHandler
  split
  · exact hc _ _ rfl rfl
  · exact hc _ _ rfl rfl
  · exact ⟨h0, hp⟩

theorem State.seqendHandler_plat (s : State) (u : Nat) : (s.seqendHandler u).plat = s.plat := by
  unfold State.seqendHandler State.clearActive
  split
  · split <;> rfl
  · split <;> rfl
  · rfl

theorem State.seqendHandler_mem (s : State) (u : Nat) : (s.seqendHandler u).mem = s.mem := by
  unfold State.seqendHandler State.clearActive
  split
  · split <;> rfl
  · split <;> rfl
  · rfl

/-! ## The running instance over one action -/

/-- What one action that is no build, no turn and no handler does to the running instance and its surroundings, as far as the
invariants look. -/
structure State.Moves (s s' : State) : Prop where
  plat : s'.plat = s.plat
  mem : s'.mem = s.mem ∨ ∃ a b, s.host.head? = some (.write a b) ∧ s.inst.fsm = .idle ∧ s'.mem = Memory.write s.mem a b
  peers : s'.peers = s.peers
  cfg : s'.inst.cfg = s.inst.cfg
  mask : s.inst.maskOk → s'.inst.maskOk
  unit : s.inst.unitOk → s'.inst.unitOk
  cap : s.inst.cfg.wf s.plat = true → s.inst.capOk → s'.inst.capOk
  duty : Sparse.wf s.inst.duty = true → Sparse.wf s'.inst.duty = true

/-- An action that leaves the instance alone. -/
theorem State.moves_same {s s' : State} (h1 : s'.plat = s.plat) (h2 : s'.mem = s.mem) (h3 : s'.peers = s.peers)
    (h4 : s'.inst = s.inst) : s.Moves s' := by
  constructor <;> simp_all

/-- An action that changes no register the invariants look at. -/
theorem State.moves_of {s s' : State} (h1 : s'.plat = s.plat) (h2 : s'.mem = s.mem) (h3 : s'.peers = s.peers)
    (c : s'.inst.cfg = s.inst.cfg) (d : s'.inst.duty = s.inst.duty) (k : s'.inst.dutyCap = s.inst.dutyCap)
    (m : s.inst.maskOk → s'.inst.maskOk) (u : s.inst.unitOk → s'.inst.unitOk) : s.Moves s' where
  plat := h1
  mem := Or.inl h2
  peers := h3
  cfg := c
  mask := m
  unit := u
  cap _ h := by rw [Inst.capOk, c, k]; exact h
  duty h := by rw [d]; exact h

/-- A legal DUTY_CAP after an allocation (R37, R181, R182). -/
theorem Inst.capOk_of_need {i : Inst} {n : Count} {p : Platform} (h : i.cfg.wf p = true) (hn : n ≠ 0)
    (hc : i.dutyCap = BitVec.ofNat 20 (i.need n)) (hl : i.need n ≤ i.cfg.dutyRamEntries) : i.capOk := by
  refine Or.inr ⟨n, hn, ?_⟩
  have ht : i.cfg.termN ≤ 2 := by
    simp only [Config.wf, Bool.and_eq_true, Bool.or_eq_true, decide_eq_true_eq] at h
    omega
  have hb := n.isLt
  have e : i.dutyCap.toNat = i.need n := by
    rw [hc, BitVec.toNat_ofNat, Nat.mod_eq_of_lt]
    unfold Inst.need; omega
  exact ⟨e, by rw [e]; exact hl⟩

theorem State.updateAction_moves {s : State} (n : Count) (hf : s.inst.fsm = .idle ∨ s.inst.fsm = .waitActive) :
    s.Moves (s.updateAction n) := by
  obtain ⟨cap, ev, e, -, hc⟩ := s.updateAction_eq n
  rw [e]
  refine ⟨rfl, Or.inl rfl, rfl, rfl, fun h => ?_, fun h => ?_, fun hw h => ?_, fun _ => rfl⟩
  · rcases hf with hf | hf <;> simpa [Inst.maskOk, hf, Fsm.inWindow] using h
  · rcases hf with hf | hf <;> · simp [Inst.unitOk, hf, Fsm.claims] at h ⊢; exact h
  · rcases hc with rfl | ⟨h1, h2, rfl⟩
    · exact Or.inl rfl
    · exact Inst.capOk_of_need (i := { s.inst with dutyCap := BitVec.ofNat 20 (s.inst.need n) }) hw h1 rfl h2

theorem State.endAction_moves {s : State} (hf : s.inst.fsm = .idle ∨ s.inst.fsm = .waitActive) : s.Moves s.endAction := by
  unfold State.endAction
  refine State.moves_of (by simp) (by simp) (by simp) (by simp) (by simp) (by simp) (fun h => ?_) (fun h => ?_)
  · rcases hf with hf | hf <;> simpa [Inst.maskOk, hf, Fsm.inWindow] using h
  · rcases hf with hf | hf <;> · simp [Inst.unitOk, hf, Fsm.claims] at h ⊢; exact h

theorem State.Commanded.moves {s s' : State} (h : s.Commanded s') (hf : s.inst.fsm = .idle) : s.Moves s' := by
  cases h with
  | updateNow n => exact s.updateAction_moves n (Or.inl hf)
  | endNow => exact s.endAction_moves (Or.inl hf)
  | setPin p =>
    refine State.moves_of rfl rfl rfl rfl rfl rfl (fun h => ?_) (fun h => ?_)
    · simpa [Inst.maskOk, hf, Fsm.inWindow] using h
    · simp [Inst.unitOk, hf, Fsm.claims] at h ⊢; exact h
  | setPinBegun p =>
    refine State.moves_of (by simp) (by simp) (by simp) (by simp) (by simp) (by simp) (fun h => ?_) (fun h => ?_)
    · simpa [Inst.maskOk, hf, Fsm.inWindow] using h
    · simp [Inst.unitOk, hf, Fsm.claims] at h ⊢; exact h
  | begin =>
    refine State.moves_of (by simp) (by simp) (by simp) (by simp) (by simp) (by simp) (fun h => ?_) (fun h => ?_)
    · simpa [Inst.maskOk, hf, Fsm.inWindow] using h
    · simp [Inst.unitOk, hf, Fsm.claims] at h ⊢; exact h
  | endWait ha =>
    refine State.moves_of rfl rfl rfl rfl rfl rfl (fun h => ?_) (fun h => ?_)
    · simpa [Inst.maskOk, hf, Fsm.inWindow] using h
    · simp [Inst.unitOk, hf, Fsm.claims, ha] at h
  | updateNone =>
    refine State.moves_of rfl rfl rfl rfl rfl rfl (fun h => ?_) (fun h => ?_)
    · simpa [Inst.maskOk, hf, Fsm.inWindow] using h
    · simp [Inst.unitOk, hf, Fsm.claims] at h ⊢; exact h
  | updateWait n ha =>
    refine State.moves_of rfl rfl rfl rfl rfl rfl (fun h => ?_) (fun h => ?_)
    · simpa [Inst.maskOk, hf, Fsm.inWindow] using h
    · simp [Inst.unitOk, hf, Fsm.claims, ha] at h
  | noop buf len dly =>
    refine State.moves_of rfl rfl rfl rfl rfl rfl (fun h => ?_) (fun h => ?_)
    · simpa [Inst.maskOk, hf, Fsm.inWindow] using h
    · simp [Inst.unitOk, hf, Fsm.claims] at h ⊢; exact h
  | transmitWait buf len dly _ _ ha =>
    refine State.moves_of rfl rfl rfl rfl rfl rfl (fun h => ?_) (fun h => ?_)
    · simpa [Inst.maskOk, hf, Fsm.inWindow] using h
    · simp [Inst.unitOk, hf, Fsm.claims, ha] at h
  | transmitNow buf len dly =>
    refine State.moves_of rfl rfl rfl rfl rfl rfl (fun h => ?_) (fun h => ?_)
    · simpa [Inst.maskOk, hf, Fsm.inWindow] using h
    · simp [Inst.unitOk, hf, Fsm.claims] at h ⊢; exact h
  | bad =>
    refine State.moves_of rfl rfl rfl rfl rfl rfl (fun h => ?_) (fun h => ?_)
    · simpa [Inst.maskOk, hf, Fsm.inWindow, State.badCommand] using h
    · simp [Inst.unitOk, hf, Fsm.claims, State.badCommand] at h ⊢; exact h

theorem State.startPwm_moves {s : State} (hf : s.inst.fsm = .waitLatch) : s.Moves s.startPwm := by
  rcases s.startPwm_cases with ⟨u, w, -, -, -, e⟩ | ⟨ev, -, e⟩
  · refine State.moves_of (by simp [e]) (by simp [e]) (by simp [e]) (by simp [e]) (by simp [e]) (by simp [e]) (fun h => ?_)
      (fun h => ?_)
    · simp only [Inst.maskOk, hf, e] at h ⊢; exact h
    · simp [Inst.unitOk, hf, Fsm.claims, e] at h ⊢; exact h.2.1
  · refine State.moves_of (by simp [e]) (by simp [e]) (by simp [e]) (by simp [e]) (by simp [e]) (by simp [e]) (fun h => ?_)
      (fun h => ?_)
    · simp [Inst.maskOk, e, Fsm.inWindow]
    · simp [Inst.unitOk, hf, Fsm.claims, e] at h ⊢; exact h

theorem State.Symbol.moves {s s1 s' : State} {f g : Fsm} (h1 : s.fetchByte = .next s1) (h : s1.Symbol f g s')
    (hw : f.inWindow = s.inst.fsm.inWindow ∧ g.inWindow = s.inst.fsm.inWindow)
    (hc : f.claims = s.inst.fsm.claims ∧ g.claims = s.inst.fsm.claims) (hin : f.inWindow = true) : s.Moves s' := by
  have hp : s.inst.fsm ≠ .playing := fun e => by rw [hw.1, e] at hin; cases hin
  have hne : s.inst.fsm ≠ .encoding := fun e => by rw [hw.1, e] at hin; cases hin
  obtain ⟨b, rfl⟩ := State.fetchByte_next h1
  obtain ⟨c, k, bs, st, b', l, -, hk, rfl⟩ := h.form
  have hk1 : k.inWindow = s.inst.fsm.inWindow := by rcases hk with rfl | rfl <;> simp only [hw]
  have hk2 : k.claims = s.inst.fsm.claims := by rcases hk with rfl | rfl <;> simp only [hc]
  refine State.moves_of rfl rfl rfl rfl rfl rfl (fun h => ?_) (fun h => ?_)
  · simp only [Inst.maskOk, hk1] at h ⊢; exact ⟨h.1, fun _ => hw.1 ▸ hin⟩
  · simp only [Inst.unitOk, hk2] at h ⊢
    exact ⟨h.1, fun ha => absurd (h.2.1 ha) hp, fun he => absurd (h.2.2 he) hne⟩

theorem State.nextBit_moves {s : State} {f : Fsm} (h1 : f.inWindow = s.inst.fsm.inWindow) (h2 : f.claims = s.inst.fsm.claims)
    (h3 : s.inst.fsm ≠ .playing ∧ s.inst.fsm ≠ .encoding) : s.Moves (s.nextBit f) := by
  have e : ∃ j : Inst, j = s.inst.nextPos ∧ j.cfg = s.inst.cfg ∧ j.duty = s.inst.duty ∧ j.dutyCap = s.inst.dutyCap ∧
      j.irqMask = s.inst.irqMask ∧ j.unit = s.inst.unit ∧ j.active = s.inst.active ∧ j.stuck = s.inst.stuck ∧
      j.encEnd = s.inst.encEnd := by
    refine ⟨_, rfl, ?_⟩
    unfold Inst.nextPos
    split <;> exact ⟨rfl, rfl, rfl, rfl, rfl, rfl, rfl, rfl⟩
  obtain ⟨j, hj, a, b, c, d, e, g, k, l⟩ := e
  unfold State.nextBit
  rw [← hj]
  refine State.moves_of rfl rfl rfl a b c (fun h => ?_) (fun h => ?_)
  · simp only [Inst.maskOk, d, k, h1] at h ⊢; exact h
  · simp only [Inst.unitOk, e, g, l, h2] at h ⊢
    exact ⟨h.1, fun ha => absurd (h.2.1 ha) h3.1, fun he => absurd (h.2.2 he) h3.2⟩

theorem State.afterLow_moves {s : State} (hf : s.inst.fsm = .bbLow) (hs : s.inst.stuck = false) : s.Moves s.afterLow := by
  unfold State.afterLow
  split
  · refine State.moves_of rfl rfl rfl rfl rfl rfl (fun h => ⟨rfl, fun hx => Bool.noConfusion (hs.symm.trans hx)⟩)
      (fun h => ?_)
    simp [Inst.unitOk, hf, Fsm.claims, State.complete, State.stamp, State.closeMask] at h ⊢; exact h
  · exact State.nextBit_moves (by simp [hf, Fsm.inWindow]) (by simp [hf, Fsm.claims]) (by simp [hf])

theorem State.afterPeriod_moves {s : State} (hf : s.inst.fsm = .fbLow) (hs : s.inst.stuck = false) : s.Moves s.afterPeriod := by
  unfold State.afterPeriod
  split
  · refine State.moves_of rfl rfl rfl rfl rfl rfl (fun h => ⟨rfl, fun hx => Bool.noConfusion (hs.symm.trans hx)⟩)
      (fun h => ?_)
    simp [Inst.unitOk, hf, Fsm.claims, State.closeMask] at h ⊢; exact h
  · exact State.nextBit_moves (by simp [hf, Fsm.inWindow]) (by simp [hf, Fsm.claims]) (by simp [hf])

theorem State.selfCheck_moves {s : State} (hf : s.inst.fsm = .fbCheck) : s.Moves s.selfCheck := by
  unfold State.selfCheck
  split
  · split
    · refine State.moves_of rfl rfl rfl rfl rfl rfl (fun h => ?_) (fun h => ?_)
      · simp only [Inst.maskOk, hf] at h ⊢; exact h
      · simp [Inst.unitOk, hf, Fsm.claims, State.complete, State.stamp, State.raise] at h ⊢; exact h
    · refine State.moves_of rfl rfl rfl rfl rfl rfl (fun h => ?_) (fun h => ?_)
      · simp only [Inst.maskOk, hf] at h ⊢; exact h
      · simp [Inst.unitOk, hf, Fsm.claims, State.resend, State.raise] at h ⊢; exact h
  · refine State.moves_of rfl rfl rfl rfl rfl rfl (fun h => ?_) (fun h => ?_)
    · simp only [Inst.maskOk, hf] at h ⊢; exact h
    · simp [Inst.unitOk, hf, Fsm.claims, State.complete, State.stamp] at h ⊢; exact h

theorem State.encodes_moves {s : State} (hf : s.inst.fsm = .encoding) (c e : Nat) : s.Moves ((s.beginEncoding c).passTo e) := by
  rw [State.passTo_eq, State.beginEncoding_eq]
  exact State.moves_of rfl rfl rfl rfl rfl rfl (fun h => h) (fun h => ⟨h.1, h.2.1, fun _ => hf⟩)

theorem State.encoded_moves {s : State} {c u : Nat} {w : PwmUnit} (hf : s.inst.fsm = .encoding) (hu : s.inst.unit = some u) :
    s.Moves (s.finishEncoding c u w) := by
  rw [State.finishEncoding_eq]
  refine ⟨rfl, Or.inl rfl, rfl, rfl, fun h => ?_, fun h => ?_, fun _ h => h, fun h => ?_⟩
  · simp only [Inst.maskOk, hf] at h ⊢; exact h
  · simp [Inst.unitOk, hu, Fsm.claims]
  · exact writeEntries_wf _ 0 h

/-- Everything an action does to the running instance and its surroundings. -/
theorem State.acts_moves {s s' : State} (h : s.Acts s') :
    s.Moves s' ∨ (∃ u, s' = s.seqendHandler u) ∨
    (∃ id, (s.inst.fsm = .idle ∨ s.inst.fsm = .playing) ∧ s.popHost.focus id = some s') ∨
    (∃ i u w, (i ∈ s.peers ∧ i.fsm = .playing ∧ i.active = false) ∧ s' = s.finishedBy i u w) ∨
    ∃ c : Config, c.wf s.plat = true ∧ s' = ({ s.popHost with inst := { s.inst with cfg := c } }).restart s.t := by
  cases h with
  | handler u => exact Or.inr (Or.inl ⟨u, rfl⟩)
  | selected id s' hf hh h => exact Or.inr (Or.inr (Or.inl ⟨id, hf, h⟩))
  | finished i u w hi =>
    exact Or.inr (Or.inr (Or.inr (Or.inl ⟨i, u, w, (State.finisher_some (State.finisherDue_some hi).2).2, rfl⟩)))
  | built c hf hb hw => exact Or.inr (Or.inr (Or.inr (Or.inr ⟨c, hw, rfl⟩)))
  | envUnit => exact Or.inl (State.moves_same rfl rfl rfl rfl)
  | envNone => exact Or.inl (State.moves_same rfl rfl rfl rfl)
  | envSeqend => exact Or.inl (State.moves_same rfl rfl rfl rfl)
  | envGpio => exact Or.inl (State.moves_same rfl rfl rfl rfl)
  | unitEnd => exact Or.inl (State.moves_same rfl rfl rfl rfl)
  | unitFetch => exact Or.inl (State.moves_same rfl rfl rfl rfl)
  | unitPlay => exact Or.inl (State.moves_same rfl rfl rfl rfl)
  | pass c => exact Or.inl (State.moves_same (by simp) (by simp) (by simp) (by simp))
  | waited c h => exact Or.inl (State.moves_same (by simp) (by simp) (by simp) (by simp))
  | wrote a b hf hh =>
    exact Or.inl ⟨rfl, Or.inr ⟨a, b, hh, hf, rfl⟩, rfl, rfl, fun h => h, fun h => h, fun _ h => h, fun h => h⟩
  | command w s' hf hd hs hh hc =>
    obtain ⟨a, b, c, d, e, f, g, i⟩ := hc.moves hf
    refine Or.inl ⟨a, Or.inl ?_, c, d, e, f, g, i⟩
    rcases b with b | ⟨x, y, -, -, b⟩
    · exact b
    · have := hc.frame.mem
      exact this
  | afterEnd hf => exact Or.inl (s.endAction_moves (Or.inr hf))
  | afterUpdate n hf => exact Or.inl (s.updateAction_moves n (Or.inr hf))
  | afterTransmit hf =>
    refine Or.inl (State.moves_of rfl rfl rfl rfl rfl rfl (fun h => ?_) (fun h => ?_))
    · simp only [Inst.maskOk, hf] at h ⊢; exact h
    · simp [Inst.unitOk, hf, Fsm.claims, State.enterLatch] at h ⊢; exact h
  | afterNone hf =>
    refine Or.inl (State.moves_of rfl rfl rfl rfl rfl rfl (fun h => ?_) (fun h => ?_))
    · simp only [Inst.maskOk, hf] at h ⊢; exact h
    · simp [Inst.unitOk, hf, Fsm.claims, State.complete] at h ⊢; exact h
  | bbStart hf =>
    refine Or.inl (State.moves_of rfl rfl rfl rfl rfl rfl (fun h => ⟨rfl, fun _ => rfl⟩) (fun h => ?_))
    simp [Inst.unitOk, hf, Fsm.claims, State.startBitbang, State.startWalk, State.openMask] at h ⊢; exact h
  | pwmStart hf => exact Or.inl (State.startPwm_moves hf)
  | bbBit s1 high low hf h1 =>
    exact Or.inl ((s1.bbSymbol_symbol high low).moves h1 (by simp [hf, Fsm.inWindow]) (by simp [hf, Fsm.claims]) rfl)
  | bbAfter hf hs => exact Or.inl (State.afterLow_moves hf hs)
  | encodes c e hf => exact Or.inl (State.encodes_moves hf c e)
  | encoded c u w hf _ hu => exact Or.inl (State.encoded_moves hf hu)
  | played hf =>
    refine Or.inl (State.moves_of rfl rfl rfl rfl rfl rfl (fun h => ?_) (fun h => ?_))
    · simp only [Inst.maskOk, hf] at h ⊢; exact h
    · simp_all [Inst.unitOk, Fsm.claims]
  | tornDown u w hf hu =>
    refine Or.inl ⟨rfl, Or.inl rfl, rfl, rfl, fun h => ?_, fun h => ?_, fun _ h => h, fun _ => rfl⟩
    · simp only [Inst.maskOk, hf] at h ⊢; exact h
    · simp [Inst.unitOk, hf, Fsm.claims, State.complete, State.stamp, State.teardown] at h ⊢; exact h.2
  | fbBit s1 hb hf h1 =>
    exact Or.inl ((s1.fbSymbol_symbol hb).moves h1 (by simp [hf, Fsm.inWindow]) (by simp [hf, Fsm.claims]) rfl)
  | fbAfter hf hs => exact Or.inl (State.afterPeriod_moves hf hs)
  | checked hf => exact Or.inl (State.selfCheck_moves hf)
  | again hf =>
    refine Or.inl (State.moves_of rfl rfl rfl rfl rfl rfl (fun h => ⟨rfl, fun _ => rfl⟩) (fun h => ?_))
    simp [Inst.unitOk, hf, Fsm.claims, State.startAttempt, State.startWalk, State.openMask] at h ⊢; exact h

theorem State.focus_plat {s s' : State} {id : Nat} (h : s.focus id = some s') : s'.plat = s.plat ∧ s'.mem = s.mem := by
  rcases State.focus_some h with rfl | ⟨i, -, rfl⟩ <;> exact ⟨rfl, rfl⟩

/-- No action changes the platform's constants (R21). -/
theorem State.acts_plat {s s' : State} (h : s.Acts s') : s'.plat = s.plat := by
  rcases State.acts_moves h with h | ⟨u, rfl⟩ | ⟨id, -, h⟩ | ⟨i, u, w, -, rfl⟩ | ⟨c, -, rfl⟩
  · exact h.plat
  · exact s.seqendHandler_plat u
  · exact (State.focus_plat h).1
  · rfl
  · rfl

/-- The pixel-buffer memory over one action (R61). -/
theorem State.acts_mem {s s' : State} (h : s.Acts s') :
    s'.mem = s.mem ∨ ∃ a b, s.host.head? = some (.write a b) ∧ s.inst.fsm = .idle ∧ s'.mem = Memory.write s.mem a b := by
  rcases State.acts_moves h with h | ⟨u, rfl⟩ | ⟨id, -, h⟩ | ⟨i, u, w, -, rfl⟩ | ⟨c, -, rfl⟩
  · exact h.mem
  · exact Or.inl (s.seqendHandler_mem u)
  · exact Or.inl (State.focus_plat h).2
  · exact Or.inl rfl
  · exact Or.inl rfl

/-! ## From one action to one step -/

/-- A property that every action keeps and every reset establishes, whatever it leaves of the host's queue, every step keeps. -/
theorem step_keeps {P : State → Prop} {s s' : State} (hp : P s) (ha : ∀ m, s.Acts m → P m)
    (hr : ∀ (m : State) r q, P m → P (({ m with host := q } : State).restart r))
    (h : step s = .next s') : P s' := by
  rcases step_cases h with hm | ⟨r, -, rfl | ⟨m, hm, rfl⟩⟩
  · exact ha _ hm
  · exact hr _ _ _ hp
  · exact hr _ _ _ (ha _ hm)

/-- A property of every instance that the moves of the running one keep, that does not look at ACTIVE, that the completion of a
parked one keeps and that a reset establishes: every action keeps it. -/
theorem State.acts_all {P : Inst → Prop} {s s' : State} (hm : s.Moves s' → P s.inst → P s'.inst)
    (hact : ∀ i, P i → P { i with active := false })
    (hfin : ∀ i, i.fsm = .playing → i.active = false → P i → P (i.finished s)) (hb : ∀ id c, c.wf s.plat = true → P (Inst.reset id c))
    (hr : ∀ i, P i → P (Inst.reset i.id i.cfg)) (h : s.Acts s') (h0 : P s.inst) (hp : ∀ i ∈ s.peers, P i) :
    P s'.inst ∧ ∀ i ∈ s'.peers, P i := by
  rcases State.acts_moves h with h | ⟨u, rfl⟩ | ⟨id, -, h⟩ | ⟨i, u, w, ⟨hi, h1, h2⟩, rfl⟩ | ⟨c, hw, rfl⟩
  · exact ⟨hm h h0, by rw [h.peers]; exact hp⟩
  · exact State.handler_all hact h0 hp
  · exact State.focus_all (s := s.popHost) h h0 hp
  · refine ⟨h0, fun j hj => ?_⟩
    obtain ⟨k, hk, rfl⟩ := List.mem_map.mp hj
    split
    · exact hfin i h1 h2 (hp i hi)
    · exact hp k hk
  · refine ⟨hb _ c hw, fun i hi => ?_⟩
    obtain ⟨k, hk, rfl⟩ := List.mem_map.mp hi
    exact hr k (hp k hk)

end Sys2Proof.Machine
end

