-- ==== Sys2Proof/Laws/Walk.lean ====
section
/-! SUPPORT. Laws/Walk.lean: the walk of an engine over the bits of a frame, said once for the bit-bang and the fallback engine:
one symbol after another, first byte first, bit 7 first, with nothing between. -/

namespace Sys2Proof.Machine

/-! ## Runs -/

theorem run_zero (s : State) : Sys2Proof.core.run 0 s = .next s := rfl

/-- A run of one step more (Host/Core.lean). -/
theorem run_of_step (M : Host.Core) (k : Nat) (s : M.State) : M.run (k + 1) s =
    match M.step s with
    | .next s' => M.run k s'
    | .fault r => .fault r
    | .refused r => .refused r := rfl

theorem run_succ {s m : State} (h : step s = .next m) (k : Nat) : Sys2Proof.core.run (k + 1) s = Sys2Proof.core.run k m := by
  have e : Sys2Proof.core.step s = .next m := h
  rw [run_of_step Sys2Proof.core k s, e]

theorem run_stop {s : State} (k : Nat) (h : ∀ m, step s ≠ .next m) (m : State) : Sys2Proof.core.run (k + 1) s ≠ .next m := by
  rw [run_of_step Sys2Proof.core k s]
  cases hs : Sys2Proof.core.step s with
  | next t => exact absurd hs (h t)
  | fault r => exact fun e => nomatch e
  | refused r => exact fun e => nomatch e

/-- A run is made of runs. -/
theorem run_add : ∀ {j : Nat} {s m : State} (_ : Sys2Proof.core.run j s = .next m) (k : Nat),
    Sys2Proof.core.run (j + k) s = Sys2Proof.core.run k m
  | 0, s, m, h, k => by cases h; rw [Nat.zero_add]
  | j + 1, s, m, h, k => by
    by_cases hs : ∃ t, step s = .next t
    · obtain ⟨t, hs⟩ := hs
      rw [run_succ hs] at h
      rw [show j + 1 + k = j + k + 1 by omega, run_succ hs, run_add h]
    · exact absurd h (run_stop j (fun t e => hs ⟨t, e⟩) m)

/-! ## Undisturbed engines -/

/-- Nothing comes from outside, no unit acts, no phase is stuck, the running instance owns its line. -/
abbrev State.calm (s : State) : Prop := s.undisturbed ∧ s.unitsAtRest ∧ s.inst.stuck = false ∧ s.lineOwned

/-- In an engine's states of FSM no parked instance completes, so it is the sequencer's turn. -/
theorem State.calm.freeTurn {s : State} (h : s.calm) (hf : s.inst.fsm ≠ .idle ∧ s.inst.fsm ≠ .playing) : s.freeTurn :=
  State.freeTurn_of_rest h.1 h.2.1 (State.finisher_busy hf) h.2.2.1

/-- The segments of the line p among g. -/
def onLine (p : Pin) (g : List Seg) : List Seg := g.filter (fun x => decide (x.pin = p))

@[simp] theorem onLine_append (p : Pin) (a b : List Seg) : onLine p (a ++ b) = onLine p a ++ onLine p b := List.filter_append ..

/-- Segments of the line only are all of them. -/
theorem onLine_self {p : Pin} {g : List Seg} (h : ∀ x ∈ g, x.pin = p) : onLine p g = g := by
  rw [onLine, List.filter_eq_self]; intro x hx; simp [h x hx]

/-- On an owned line a high is high and a low is low (R41). -/
theorem State.lineOwned.shown {s : State} (h : s.lineOwned) (b : Bool) : s.shown b = if b then .h else .l := by
  obtain ⟨h1, h2, h3, -⟩ := h
  rw [State.shown, if_pos (by omega)]
  unfold State.pinState at h3
  rw [h3]

/-- On an owned line a part of a symbol shows its level. -/
theorem State.lineOwned.shownSegs {s : State} (h : s.lineOwned) {b : Bool} {t0 t1 : Nat} (ht : t0 < t1) :
    onLine s.inst.pin (s.shownSegs b t0 t1) =
      [{ pin := s.inst.pin, start := t0, level := if b then .h else .l, cycles := t1 - t0 }] := by
  rw [onLine, State.shownSegs_line s b ht, h.shown]

theorem State.lineOwned.pinEvt {s : State} (h : s.lineOwned) (e : BitVec 8) : pinEvt s.plat.nPins e s.inst.pin = e := by
  unfold Sys2Proof.Machine.pinEvt
  rw [if_pos (by have := h.1; have := h.2.1; omega)]

/-- The bits of a byte from bit k down. -/
def bitsFrom (b : Byte) : Nat → List Bool
  | 0 => [b.getLsbD 0]
  | k + 1 => b.getLsbD (k + 1) :: bitsFrom b k

theorem bitsOf_eq (b : Byte) : bitsOf b = bitsFrom b 7 := rfl

/-- The byte at the current position: the one just read at bit 7, else the one read before (R153). -/
def State.byteNow (s : State) : Byte := if s.inst.bitIx = 7 then s.memRead s.inst.byteAddr else s.inst.cur

/-- The bit at the current position. -/
def State.bitNow (s : State) : Bool := s.byteNow.getLsbD s.inst.bitIx.val

/-- The state after the symbol of one bit, which recorded the segments g. -/
def State.sentBit (s : State) (lo : Fsm) (high low : Nat) (bs : Time32) (g : List Seg) : State := { s with
  t := s.t + high + low
  inst := { s.inst with cur := s.byteNow, fsm := lo, bitStart := bs }
  gpio := gpioUpdate s.plat.nPins s.gpio s.inst.pin (fun q => { q with out := false })
  obs := { s.obs with wave := s.obs.wave ++ g } }

/-- An engine sends a bit in a step from `hi` to `lo` and goes on in a step from `lo` to `hi` until the last bit. -/
structure Sends (c : Config) (hi lo : Fsm) (high low : Bool → Nat) : Prop where
  sym : ∀ s : State, s.calm → s.inst.cfg = c → s.inst.fsm = hi → s.inst.byteAddr < 2 ^ 32 →
    ∃ bs g, onLine s.inst.pin g = symbolSegs s.inst.pin s.t (high s.bitNow) (low s.bitNow) ∧
      step s = .next (s.sentBit lo (high s.bitNow) (low s.bitNow) bs g)
  after : ∀ s : State, s.calm → s.inst.cfg = c → s.inst.fsm = lo → s.inst.lastBit = false → step s = .next (s.nextBit hi)

theorem State.calm.sentBit {s : State} (h : s.calm) (lo : Fsm) (a b : Nat) (bs : Time32) (g : List Seg) :
    (s.sentBit lo a b bs g).calm := by
  obtain ⟨h1, h2, h7, h3, h4, h5, h6⟩ := h
  refine ⟨h1, h2, h7, ?_, ?_, ?_, h6⟩
  · simpa [State.sentBit] using h3
  · simpa [State.sentBit] using h4
  · unfold State.pinState at h5 ⊢
    simp only [State.sentBit]
    rw [getD_gpioUpdate_dir]; exact h5

/-- The bytes of a buffer from one on. -/
def State.bytesFrom (s : State) (a n : Nat) : List Byte := (List.range n).map (fun j => s.memRead (a + j))

theorem State.bytesFrom_succ (s : State) (a n : Nat) : s.bytesFrom a (n + 1) = s.memRead a :: s.bytesFrom (a + 1) n := by
  unfold State.bytesFrom
  rw [List.range_succ_eq_map]
  simp only [List.map_cons, List.map_map, Nat.add_zero, List.cons.injEq, true_and]
  refine List.map_congr_left fun j _ => ?_
  simp only [Function.comp, Nat.succ_eq_add_one]
  rw [show a + (j + 1) = a + 1 + j by omega]

theorem bitTime_append (high low : Bool → Nat) : ∀ a b, bitTime high low (a ++ b) = bitTime high low a + bitTime high low b
  | [], b => by simp [bitTime]
  | x :: a, b => by simp [bitTime, bitTime_append high low a b]; omega

theorem bitSegs_append (p : Pin) (high low : Bool → Nat) : ∀ (a b : List Bool) (t : Nat),
    bitSegs p high low t (a ++ b) = bitSegs p high low t a ++ bitSegs p high low (t + bitTime high low a) b
  | [], b, t => by simp [bitSegs, bitTime]
  | x :: a, b, t => by
    simp only [List.cons_append, bitSegs, bitTime, bitSegs_append p high low a b, List.append_assoc]
    rw [show t + high x + low x + bitTime high low a = t + (high x + low x + bitTime high low a) by omega]

/-- The state at the end of the walk's last symbol, the segments g recorded. -/
def State.walked (s : State) (lo : Fsm) (high low : Bool → Nat) (bits : List Bool) (c : Byte) (bs : Time32) (ix : Count)
    (g : List Seg) : State :=
  { s with
    t := s.t + bitTime high low bits
    inst := { s.inst with cur := c, fsm := lo, bitStart := bs, byteIx := ix, bitIx := 0 }
    gpio := gpioUpdate s.plat.nPins s.gpio s.inst.pin (fun q => { q with out := false })
    obs := { s.obs with wave := s.obs.wave ++ g } }

theorem gpioUpdate_low_twice (n : Nat) (g : List PinState) (p : Pin) :
    gpioUpdate n (gpioUpdate n g p fun q => { q with out := false }) p (fun q => { q with out := false })
      = gpioUpdate n g p fun q => { q with out := false } := gpioUpdate_twice n g p _ _

/-- One symbol and the rest of the walk make a walk. -/
theorem State.walked_cons {s : State} {lo : Fsm} {high low : Bool → Nat} {bs bs' : Time32} {bits : List Bool} {c : Byte}
    {ix j : Count} {k : Fin 8} {f : Fsm} {g g' : List Seg} :
    ({ s.sentBit lo (high s.bitNow) (low s.bitNow) bs g with
      inst := { (s.sentBit lo (high s.bitNow) (low s.bitNow) bs g).inst with byteIx := j, bitIx := k, fsm := f } } : State).walked
        lo high low bits c bs' ix g' = s.walked lo high low (s.bitNow :: bits) c bs' ix (g ++ g') := by
  simp only [State.walked, State.sentBit, gpioUpdate_low_twice, bitTime, List.append_assoc]
  rw [show s.t + high s.bitNow + low s.bitNow + bitTime high low bits = s.t + (high s.bitNow + low s.bitNow + bitTime high low bits) by omega]

/-- The walk: from bit k of a byte, with n bytes after it, the engine sends every bit that is left (R30, R99, R150, R220). -/
theorem walk {c : Config} {hi lo : Fsm} {high low : Bool → Nat} (hs : Sends c hi lo high low) : ∀ (n k : Nat) (m : State),
    m.calm → m.inst.cfg = c → m.inst.fsm = hi → m.inst.bitIx.val = k → m.inst.byteIx.toNat + 1 + n = m.inst.len.toNat →
    m.inst.buf.toNat + m.inst.len.toNat ≤ 2 ^ 32 →
    ∃ x bs ix g, ix.toNat + 1 = m.inst.len.toNat ∧
      onLine m.inst.pin g = bitSegs m.inst.pin high low m.t
        (bitsFrom m.byteNow k ++ frameBits (m.bytesFrom (m.inst.byteAddr + 1) n)) ∧
      Sys2Proof.core.run (2 * (8 * n + k) + 1) m = .next
        (m.walked lo high low (bitsFrom m.byteNow k ++ frameBits (m.bytesFrom (m.inst.byteAddr + 1) n)) x bs ix g)
  | 0, 0, m, hc, hcfg, hf, hk, hn, hb => by
    obtain ⟨bs, g, hg, h1⟩ := hs.sym m hc hcfg hf (by unfold Inst.byteAddr; omega)
    have hbit : m.bitNow = m.byteNow.getLsbD 0 := by rw [State.bitNow, hk]
    have hk0 : m.inst.bitIx = 0 := Fin.ext hk
    refine ⟨m.byteNow, bs, m.inst.byteIx, g, by omega, ?_, ?_⟩
    · rw [hg]
      simp only [bitsFrom, ← hbit, State.bytesFrom, List.range_zero, List.map_nil, frameBits, List.flatMap_nil, List.append_nil,
        bitSegs]
    rw [run_succ h1, run_zero]
    simp only [bitsFrom, ← hbit, State.bytesFrom, List.range_zero, List.map_nil, frameBits, List.flatMap_nil, List.append_nil]
    simp only [State.sentBit, State.walked, bitTime, Nat.add_zero, Nat.add_assoc, ← hk0]
  | n, k + 1, m, hc, hcfg, hf, hk, hn, hb => by
    obtain ⟨bs, g, hg, h1⟩ := hs.sym m hc hcfg hf (by unfold Inst.byteAddr; omega)
    have hbit : m.bitNow = m.byteNow.getLsbD (k + 1) := by rw [State.bitNow, hk]
    have hne : m.inst.bitIx ≠ 0 := by intro e; rw [e] at hk; simp at hk
    generalize hm1 : m.sentBit lo (high m.bitNow) (low m.bitNow) bs g = m1 at h1
    have hc1 : m1.calm := by rw [← hm1]; exact hc.sentBit _ _ _ _ _
    have h2 := hs.after m1 hc1 (by rw [← hm1]; exact hcfg) (by rw [← hm1]; rfl)
      (by rw [← hm1]; simp [Inst.lastBit, State.sentBit, hne])
    generalize hm2 : m1.nextBit hi = m2 at h2
    have e2 : m2 = { m1 with inst := { m1.inst with byteIx := m.inst.byteIx, bitIx := m.inst.bitIx - 1, fsm := hi } } := by
      have hne1 : ¬ m1.inst.bitIx = 0 := by rw [← hm1]; exact hne
      rw [← hm2, State.nextBit, Inst.nextPos, if_neg hne1, ← hm1]; rfl
    have hv : (m.inst.bitIx - 1).val = k := by
      have := m.inst.bitIx.isLt
      rw [Fin.sub_def]
      simp only [Fin.val_one]
      omega
    have hnow : m2.byteNow = m.byteNow := by
      have hn7 : ¬ m.inst.bitIx - 1 = 7 := by
        intro e; rw [e] at hv; have := m.inst.bitIx.isLt; simp at hv; omega
      rw [State.byteNow, e2, ← hm1]
      simp only [State.sentBit, if_neg hn7]
    obtain ⟨x, bs', ix, g', hix, hg', hrun⟩ := walk hs n k m2 (by rw [e2]; exact hc1) (by rw [e2, ← hm1]; exact hcfg) (by rw [e2])
      (by rw [e2]; exact hv) (by rw [e2, ← hm1]; exact hn) (by rw [e2, ← hm1]; exact hb)
    have hby : m2.bytesFrom (m2.inst.byteAddr + 1) n = m.bytesFrom (m.inst.byteAddr + 1) n := by rw [e2, ← hm1]; rfl
    have ht2 : m2.t = m.t + high m.bitNow + low m.bitNow := by rw [e2, ← hm1]; rfl
    have hp2 : m2.inst.pin = m.inst.pin := by rw [e2, ← hm1]; rfl
    rw [hnow, hby, ht2, hp2] at hg'
    refine ⟨x, bs', ix, g ++ g', by rw [e2, ← hm1] at hix; exact hix, ?_, ?_⟩
    · simp only [onLine_append, hg, hg', bitsFrom, List.cons_append, bitSegs, hbit]
    rw [show 2 * (8 * n + (k + 1)) + 1 = 2 * (8 * n + k) + 1 + 1 + 1 by omega, run_succ h1, run_succ h2, hrun, hnow]
    rw [hby, e2, ← hm1, State.walked_cons]
    simp only [bitsFrom, hbit, List.cons_append]
  | n + 1, 0, m, hc, hcfg, hf, hk, hn, hb => by
    obtain ⟨bs, g, hg, h1⟩ := hs.sym m hc hcfg hf (by unfold Inst.byteAddr; omega)
    have hbit : m.bitNow = m.byteNow.getLsbD 0 := by rw [State.bitNow, hk]
    have hk0 : m.inst.bitIx = 0 := Fin.ext hk
    generalize hm1 : m.sentBit lo (high m.bitNow) (low m.bitNow) bs g = m1 at h1
    have hc1 : m1.calm := by rw [← hm1]; exact hc.sentBit _ _ _ _ _
    have h2 := hs.after m1 hc1 (by rw [← hm1]; exact hcfg) (by rw [← hm1]; rfl)
      (by rw [← hm1]; simp [Inst.lastBit, State.sentBit, hk0]; omega)
    generalize hm2 : m1.nextBit hi = m2 at h2
    have e2 : m2 = { m1 with inst := { m1.inst with byteIx := m.inst.byteIx + 1, bitIx := 7, fsm := hi } } := by
      have he1 : m1.inst.bitIx = 0 := by rw [← hm1]; exact hk0
      rw [← hm2, State.nextBit, Inst.nextPos, if_pos he1, ← hm1]; rfl
    have hix1 : (m.inst.byteIx + 1).toNat = m.inst.byteIx.toNat + 1 := by
      have := m.inst.len.isLt
      rw [BitVec.toNat_add]; simp; omega
    have haddr : m2.inst.byteAddr = m.inst.byteAddr + 1 := by
      rw [e2, ← hm1]; simp only [Inst.byteAddr, State.sentBit, hix1]; omega
    have hnow : m2.byteNow = m.memRead (m.inst.byteAddr + 1) := by
      rw [State.byteNow, if_pos (by rw [e2]), haddr, e2, ← hm1]; rfl
    obtain ⟨x, bs', ix, g', hix, hg', hrun⟩ := walk hs n 7 m2 (by rw [e2]; exact hc1) (by rw [e2, ← hm1]; exact hcfg) (by rw [e2])
      (by rw [e2]; rfl) (by rw [e2, ← hm1]; simp only [State.sentBit, hix1]; omega) (by rw [e2, ← hm1]; exact hb)
    have hby : m2.bytesFrom (m.inst.byteAddr + 1 + 1) n = m.bytesFrom (m.inst.byteAddr + 1 + 1) n := by rw [e2, ← hm1]; rfl
    have ht2 : m2.t = m.t + high m.bitNow + low m.bitNow := by rw [e2, ← hm1]; rfl
    have hp2 : m2.inst.pin = m.inst.pin := by rw [e2, ← hm1]; rfl
    rw [hnow, haddr, hby, ht2, hp2] at hg'
    refine ⟨x, bs', ix, g ++ g', by rw [e2, ← hm1] at hix; exact hix, ?_, ?_⟩
    · rw [State.bytesFrom_succ]
      simp only [onLine_append, hg, hg', bitsFrom, frameBits, List.flatMap_cons, bitsOf_eq, List.cons_append, List.nil_append, bitSegs, hbit]
    rw [show 2 * (8 * (n + 1) + 0) + 1 = 2 * (8 * n + 7) + 1 + 1 + 1 by omega, run_succ h1, run_succ h2, hrun, hnow, haddr]
    rw [hby, e2, ← hm1, State.walked_cons, State.bytesFrom_succ]
    simp only [bitsFrom, hbit, frameBits, List.flatMap_cons, bitsOf_eq, List.cons_append, List.nil_append]
termination_by n k => (n, k)

/-! ## The two engines -/

/-- The state in which the byte of the current position is in CUR. -/
def State.withByte (s : State) : State := { s with inst := { s.inst with cur := s.byteNow } }

/-- The byte read puts the byte of the current position in CUR. -/
theorem State.fetchByte_eq {s : State} (h : s.inst.byteAddr < 2 ^ 32) : s.fetchByte = .next s.withByte := by
  unfold State.fetchByte State.withByte State.byteNow
  by_cases h7 : s.inst.bitIx = 7
  · rw [if_pos h7, if_pos h, if_pos h7]
  · rw [if_neg h7, if_neg h7]

theorem State.withByte_curBit (s : State) : s.withByte.inst.curBit = s.bitNow := rfl

theorem State.withByte_cfg (s : State) : s.withByte.inst.cfg = s.inst.cfg := rfl

/-- The bit-bang engine (R98, R150, R157). -/
theorem bitbang_sends {c : Config} {p : Platform} (hw : c.wf p = true) : Sends c .bbHigh .bbLow
    (fun b => if b then c.desc.t1h else c.desc.t0h) (fun b => if b then c.desc.t1l else c.desc.t0l) where
  sym s hc hcfg hf ha := by
    subst hcfg
    obtain ⟨⟨a1, a2, a3, a4⟩, b1, b2, b3, b4⟩ := desc_wf hw
    have ht := hc.freeTurn (by simp [hf])
    have hl : s.withByte.lineOwned := hc.2.2.2
    have hpin : s.withByte.inst.pin = s.inst.pin := rfl
    rw [step_of_turn ht.1, sequence_of hc.2.2.1, hf]
    simp only [act_of_free ht.2, State.fetchByte_eq ha, onNext, exec_sym]
    rw [s.withByte_curBit, s.withByte_cfg]
    have h (x y : Nat) (hx : 1 ≤ x ∧ x < 2 ^ 32) (hy : 1 ≤ y ∧ y < 2 ^ 32) :
        0 < (if s.bitNow then x else y) ∧ (if s.bitNow then x else y) < 2 ^ 32 := by split <;> omega
    have hh := h _ _ ⟨a3, b3⟩ ⟨a1, b1⟩
    have hlow := h _ _ ⟨a4, b4⟩ ⟨a2, b2⟩
    rw [State.bbSymbol_unstalled (s := s.withByte) hc.1.1 hc.2.2.2.2.2.2 hh.2 hlow.2, hl.pinEvt]
    refine ⟨_, _, ?_, rfl⟩
    rw [onLine_append, ← hpin, hl.shownSegs (by omega), hl.shownSegs (by omega)]
    simp only [Nat.add_sub_cancel_left]
    rfl
  after s hc _ hf hl := by
    rw [step_of_turn (hc.freeTurn (by simp [hf])).1, sequence_of hc.2.2.1, hf]
    simp only [act_of_free (hc.freeTurn (by simp [hf])).2, State.afterLow, hl, Bool.false_eq_true, if_false]

/-- The fallback engine (R101, R220, R225). -/
theorem fallback_sends {c : Config} (hw : c.cp.fbWf = true) : Sends c .fbHigh .fbLow
    (fun b => if b then c.cp.fbT1H else c.cp.fbT0H) (fun b => c.cp.fbPeriod - if b then c.cp.fbT1H else c.cp.fbT0H) where
  sym s hc hcfg hf ha := by
    subst hcfg
    simp only [ClassParams.fbWf, Bool.and_eq_true, decide_eq_true_eq] at hw
    have ht := hc.freeTurn (by simp [hf])
    have hl : s.withByte.lineOwned := hc.2.2.2
    have hpin : s.withByte.inst.pin = s.inst.pin := rfl
    have hb : 0 < (if s.bitNow then s.inst.cfg.cp.fbT1H else s.inst.cfg.cp.fbT0H) ∧
        (if s.bitNow then s.inst.cfg.cp.fbT1H else s.inst.cfg.cp.fbT0H) < s.inst.cfg.cp.fbPeriod := by
      split <;> omega
    rw [step_of_turn ht.1, sequence_of hc.2.2.1, hf]
    simp only [act_of_free ht.2, State.fetchByte_eq ha, onNext, exec_fbSym]
    rw [s.withByte_curBit, s.withByte_cfg]
    rw [State.fbSymbol_unstalled (s := s.withByte) hc.1.1 hc.2.2.2.2.2.2 (Nat.le_of_lt hb.2)
      hw.2, hl.pinEvt]
    refine ⟨_, _, ?_, by rw [State.sentBit, Nat.add_assoc, Nat.add_sub_cancel' (Nat.le_of_lt hb.2)]; rfl⟩
    rw [onLine_append, s.withByte_cfg, ← hpin, hl.shownSegs (by omega), hl.shownSegs (by omega)]
    simp only [Nat.add_sub_cancel_left, Nat.add_sub_add_left]
    rfl
  after s hc _ hf hl := by
    rw [step_of_turn (hc.freeTurn (by simp [hf])).1, sequence_of hc.2.2.1, hf]
    simp only [act_of_free (hc.freeTurn (by simp [hf])).2, State.afterPeriod, hl, Bool.false_eq_true, if_false]

theorem length_frameBits (l : List Byte) : (frameBits l).length = 8 * l.length := by
  induction l with
  | nil => rfl
  | cons b l ih =>
    simp only [frameBits, List.flatMap_cons, List.length_append, List.length_cons] at ih ⊢
    rw [ih]; simp [bitsOf]; omega

/-- Bits that all take the same time. -/
theorem bitTime_const {high low : Bool → Nat} {n : Nat} (h : ∀ b, high b + low b = n) :
    ∀ l, bitTime high low l = l.length * n
  | [] => by simp [bitTime]
  | b :: l => by simp only [bitTime, List.length_cons, bitTime_const h l, Nat.add_mul]; have := h b; omega

/-- A whole frame: the walk from the first bit of the first byte (R70, R99). -/
theorem walk_frame {c : Config} {hi lo : Fsm} {high low : Bool → Nat} (hs : Sends c hi lo high low) (m : State)
    (hc : m.calm) (hcfg : m.inst.cfg = c) (hf : m.inst.fsm = hi) (hk : m.inst.bitIx = 7) (hx : m.inst.byteIx = 0)
    (hn : m.inst.len ≠ 0) (hb : m.inst.buf.toNat + m.inst.len.toNat ≤ 2 ^ 32) :
    ∃ x bs ix g, ix.toNat + 1 = m.inst.len.toNat ∧
      onLine m.inst.pin g = bitSegs m.inst.pin high low m.t (frameBits (m.bytesAt m.inst.buf m.inst.len)) ∧
      Sys2Proof.core.run (16 * m.inst.len.toNat - 1) m = .next
        (m.walked lo high low (frameBits (m.bytesAt m.inst.buf m.inst.len)) x bs ix g) := by
  have hpos : 0 < m.inst.len.toNat := Nat.pos_of_ne_zero fun e => hn (BitVec.eq_of_toNat_eq (by simpa using e))
  obtain ⟨n, hlen⟩ := Nat.exists_eq_add_of_lt hpos
  have ha : m.inst.byteAddr = m.inst.buf.toNat := by simp [Inst.byteAddr, hx]
  obtain ⟨x, bs, ix, g, hix, hg, h⟩ := walk hs n 7 m hc hcfg hf (by rw [hk]; rfl) (by rw [hx]; simp; omega) hb
  have hnow : m.byteNow = m.memRead m.inst.buf.toNat := by rw [State.byteNow, if_pos hk, ha]
  have hfr : frameBits (m.bytesAt m.inst.buf m.inst.len) = bitsFrom m.byteNow 7 ++ frameBits (m.bytesFrom (m.inst.buf.toNat + 1) n) := by
    have : m.bytesAt m.inst.buf m.inst.len = m.bytesFrom m.inst.buf.toNat (n + 1) := by
      simp only [State.bytesAt, State.bytesFrom, hlen, Nat.zero_add]
    rw [this, State.bytesFrom_succ, hnow]
    simp only [frameBits, List.flatMap_cons, bitsOf_eq]
  rw [ha, ← hfr] at hg h
  exact ⟨x, bs, ix, g, hix, hg, by rw [show 16 * m.inst.len.toNat - 1 = 2 * (8 * n + 7) + 1 by omega, h]⟩

end Sys2Proof.Machine
end

