-- ==== Sys2Proof/Laws/Playback.lean ====
section
/-! SUPPORT. Laws/Playback.lean: a playing unit over a whole duty sequence: one entry after another with nothing between, and what the
expander's sequence holds at each index. -/

namespace Sys2Proof.Machine

/-! ## Which unit acts while only one runs -/

/-- With no unit's interval begun, none acts. -/
theorem State.unitDue_none_of {s : State} (h : ∀ v w, s.pwmAt v = some w → w.run = true → s.t < w.due) : s.unitDue = none := by
  cases hd : s.unitDue with
  | none => rfl
  | some q =>
    obtain ⟨h1, ⟨h2, h3⟩, -⟩ := (s.unitDue_iff q.1 q.2).mp hd
    simp only [State.playing, Bool.and_eq_true] at h2
    have := h q.1 q.2 h1 h2.1; omega

theorem State.mem_players {s : State} {v : Nat} {w : PwmUnit} :
    (v, w) ∈ s.players ↔ s.pwmAt v = some w ∧ s.playing v w = true := by
  simp only [State.players, List.mem_filter, List.mem_map, Prod.mk.injEq, Prod.exists, State.pwmAt]
  constructor
  · rintro ⟨⟨a, b, h, rfl, rfl⟩, hp⟩
    exact ⟨List.mem_zipIdx_iff_getElem?.mp h, hp⟩
  · rintro ⟨h, hp⟩
    exact ⟨⟨w, v, List.mem_zipIdx_iff_getElem?.mpr h, rfl, rfl⟩, hp⟩

/-- Unit u plays for the running instance, no other unit runs, nothing comes from outside, and the instance waits. -/
structure State.Plays (s : State) (u : Nat) (w : PwmUnit) : Prop where
  calm : s.undisturbed
  pend : ∀ b ∈ s.pend, b = false
  at_ : s.pwmAt u = some w
  others : ∀ v w', v ≠ u → s.pwmAt v = some w' → w'.run = false
  registry : s.registryAt u = some s.inst.id
  unit : s.inst.unit = some u
  fsm : s.inst.fsm = .playing
  active : s.inst.active = true
  stuck : s.inst.stuck = false
  host : s.hostBuildsOrTurns = false
  parked : s.noneFinishing
  run : w.run = true
  drives : w.drives s.inst.pin = true
  sole : ∀ v w', v ≠ u → s.pwmAt v = some w' → w'.drives s.inst.pin = false
  due : w.due = s.t
  fetched : w.fetched = none
  period : 1 ≤ w.period

theorem State.owner_of_registry {s : State} {u : Nat} (h : s.registryAt u = some s.inst.id) : s.owner u = some s.inst := by
  simp [State.owner, h, State.instOf]

theorem State.Plays.unitDue {s : State} {u : Nat} {w : PwmUnit} (h : s.Plays u w) : s.unitDue = some (u, w) := by
  rw [State.unitDue_iff]
  refine ⟨h.at_, ⟨by simp [State.playing, h.run, State.owner_of_registry h.registry], Nat.le_of_eq h.due⟩, fun v w' hv hw => ?_⟩
  have := h.others v w' (by omega) hw
  simp [State.playing, this]

/-- The state after one played entry, the segments g recorded. -/
def State.playedOne (s : State) (u : Nat) (w : PwmUnit) (g : List Seg) : State := { s with
  t := s.t + w.period
  pwm := s.pwm.set u { w with pos := w.pos + 1, fetched := none, due := w.due + w.period }
  obs := { s.obs with wave := s.obs.wave ++ g } }

theorem PwmUnit.drives_pin {w : PwmUnit} {p : Pin} (h : w.drives p = true) : w.pselConnected = true ∧ w.pselPin = p := by
  simpa [PwmUnit.drives] using h

/-- What a unit plays is on its pin. -/
theorem State.playSegs_pin {s : State} {w : PwmUnit} {cmp : BitVec 15} {p : Pin} (h : w.pselPin = p) :
    onLine p (s.playSegs w cmp) = s.playSegs w cmp := by
  refine onLine_self fun x hx => ?_
  unfold State.playSegs playSeg at hx
  split at hx
  · rcases List.mem_append.mp hx with hx | hx
    · split at hx
      · cases hx
      · rw [List.mem_singleton] at hx; rw [hx]; exact h
    · split at hx
      · cases hx
      · rw [List.mem_singleton] at hx; rw [hx]; exact h
  · cases hx

/-- Where only a running unit drives the running instance's line, time passing records the parked lines only. -/
theorem State.heldSegs_driven {s : State} {u : Nat} {w : PwmUnit} (ha : s.pwmAt u = some w) (hrun : w.run = true)
    (hd : w.drives s.inst.pin = true) (hs : ∀ v w', v ≠ u → s.pwmAt v = some w' → w'.drives s.inst.pin = false)
    (hp : s.inst.pin.toNat < s.plat.nPins) (t0 t1 : Nat) : s.heldSegs t0 t1 = s.parkedSegs t0 t1 := by
  have h1 : s.pwm.any (fun w => w.drives s.inst.pin) = true := List.any_eq_true.mpr ⟨w, List.mem_of_getElem? ha, hd⟩
  have h2 : s.pwm.any (fun w => w.drives s.inst.pin && !w.run) = false := by
    rw [List.any_eq_false]
    intro x hx
    obtain ⟨v, hv⟩ := List.mem_iff_getElem?.mp hx
    by_cases hvu : v = u
    · subst hvu
      have : some x = some w := hv.symm.trans ha
      cases this; simp [hrun]
    · simp [hs v x hvu hv]
  have h3 : s.restLevel s.inst.pin = none := by
    unfold State.restLevel State.pinResolves
    rw [h1, h2]; simp [hp]
  simp [State.heldSegs, State.pinSeg, h3]

theorem pwmAt_set_ne {l : List PwmUnit} {u v : Nat} (w : PwmUnit) (h : v ≠ u) : (l.set u w)[v]? = l[v]? := by
  rw [List.getElem?_set]; simp [Ne.symm h]

theorem State.Plays.playedOne {s : State} {u : Nat} {w : PwmUnit} (h : s.Plays u w) (g : List Seg) :
    (s.playedOne u w g).Plays u { w with pos := w.pos + 1, fetched := none, due := w.due + w.period } where
  calm := h.calm
  pend := h.pend
  at_ := State.pwmAt_set h.at_ _
  others v w' hv hw := h.others v w' hv (by
    simp only [State.pwmAt, State.playedOne] at hw; rw [pwmAt_set_ne _ hv] at hw; exact hw)
  registry := h.registry
  unit := h.unit
  fsm := h.fsm
  active := h.active
  stuck := h.stuck
  host := h.host
  parked := h.parked
  run := h.run
  drives := h.drives
  sole v w' hv hw := h.sole v w' hv (by
    simp only [State.pwmAt, State.playedOne] at hw; rw [pwmAt_set_ne _ hv] at hw; exact hw)
  due := by simp only [State.playedOne]; rw [h.due]
  fetched := rfl
  period := h.period

/-- A playing instance whose unit has an interval to come waits for it (R197, R291). -/
theorem playing_waits {s : State} {u : Nat} {w : PwmUnit} {c : Nat} (hc : s.undisturbed) (hp : ∀ b ∈ s.pend, b = false)
    (ha : s.pwmAt u = some w) (hst0 : s.inst.stuck = false) (ho : ∀ v w', v ≠ u → s.pwmAt v = some w' → w'.run = false)
    (hr : s.registryAt u = some s.inst.id) (hf : s.inst.fsm = .playing) (hac : s.inst.active = true)
    (hh : s.hostBuildsOrTurns = false) (hfin : s.noneFinishing) (hrun : w.run = true) (hdue : w.due = c) (hlt : s.t < c) :
    step s = .next { s with t := c, obs := { s.obs with wave := s.obs.wave ++ s.heldSegs s.t c } } := by
  have hund : s.unitDue = none := by
    refine State.unitDue_none_of fun v w' hv hr' => ?_
    by_cases hvu : v = u
    · subst hvu; rw [ha] at hv; cases hv; omega
    · rw [ho v w' hvu hv] at hr'; cases hr'
  have hturn : s.sequencerTurn :=
    ⟨State.nextRst_nil hc.2.2, State.envDue_nil hc.2.1, hund, State.handlerDue_none hp, State.finisherDue_none (State.finisher_none hfin), hst0⟩
  have hev : ∀ e, e ∈ s.nextEvents ↔ e = c := fun e => by
    rw [State.mem_nextEvents]
    constructor
    · rintro (⟨v, w', hv, hpl, rfl⟩ | ⟨m, hm⟩ | hch | hch)
      · by_cases hvu : v = u
        · subst hvu; rw [ha] at hv; cases hv; exact hdue
        · simp [State.playing, ho v w' hvu hv] at hpl
      · rw [hc.2.1] at hm; cases hm
      · unfold State.handlerChance at hch
        split at hch
        · next hx =>
          simp only [Bool.and_eq_true, List.any_eq_true, id] at hx
          obtain ⟨⟨b, hb, h1⟩, -⟩ := hx
          rw [hp b hb] at h1; cases h1
        · cases hch
      · simp [State.finisherChance, State.finisher_none hfin] at hch
    · rintro rfl
      exact Or.inl ⟨u, w, ha, by simp [State.playing, hrun, State.owner_of_registry hr], hdue⟩
  have hpe := State.pauseEnd_event ((hev c).mpr rfl) (fun e he => (hev e).mp he) hlt
  rw [step_of_turn hturn, sequence_of hst0, hf]
  simp only [hac, if_true]
  unfold State.hostBuildsOrTurns at hh
  split
  · next id r hs => rw [hs] at hh; simp [hf] at hh
  · rw [State.pause, hpe, State.passTo_form _ hlt]

/-- Three steps play one entry: the DMA reads it, the unit plays it, the instance waits its interval out. -/
theorem play_one {s : State} {u : Nat} {w : PwmUnit} {e : Entry} (h : s.Plays u w) (hp : w.pos < w.seqCnt.toNat)
    (hpin : s.inst.pin.toNat < s.plat.nPins) (hr : s.dmaRead s.inst w w.pos = e) (hpol : polarity e = true) :
    ∃ g, onLine s.inst.pin g = s.playSegs w (cmpOf e) ∧ Sys2Proof.core.run 3 s = .next (s.playedOne u w g) := by
  have hown := State.owner_of_registry h.registry
  have h1 : step s = .next { s with pwm := s.pwm.set u { w with fetched := some e } } := by
    rw [step_of_unit (State.nextRst_nil h.calm.2.2) (State.envDue_nil h.calm.2.1) h.unitDue]
    exact State.unitStep_fetch h.at_ hown h.unit hp h.fetched hr hpol
  generalize hm : ({ s with pwm := s.pwm.set u { w with fetched := some e } } : State) = m at h1
  have hat : m.pwmAt u = some { w with fetched := some e } := by rw [← hm]; exact State.pwmAt_set h.at_ _
  have hownm : m.owner u = some s.inst := by rw [← hm]; exact hown
  have hudm : m.unitDue = some (u, { w with fetched := some e }) := by
    rw [State.unitDue_iff]
    refine ⟨hat, ⟨by simp [State.playing, h.run, hownm], by rw [← hm]; exact Nat.le_of_eq h.due⟩, fun v w' hv hw => ?_⟩
    have := h.others v w' (by omega) (by
      rw [← hm] at hw; simp only [State.pwmAt] at hw; rwa [pwmAt_set_ne _ (by omega)] at hw)
    simp [State.playing, this]
  have h2 : step m = .next { s.playedOne u w (s.playSegs w (cmpOf e)) with t := s.t } := by
    rw [step_of_unit (by rw [← hm]; exact State.nextRst_nil h.calm.2.2) (by rw [← hm]; exact State.envDue_nil h.calm.2.1) hudm,
      State.unitStep_play (w := { w with fetched := some e }) hat hownm h.unit hp rfl, ← hm]
    simp only [State.playedOne, List.set_set]
    rfl
  have hP := h.playedOne (s.playSegs w (cmpOf e))
  have h3 := playing_waits (s := { s.playedOne u w (s.playSegs w (cmpOf e)) with t := s.t }) (c := s.t + w.period) (u := u)
    h.calm h.pend hP.at_ hP.stuck hP.others h.registry h.fsm h.active h.host h.parked hP.run (by simp only [h.due])
    (by have := h.period; simp only; omega)
  rw [State.heldSegs_driven (s := { s.playedOne u w (s.playSegs w (cmpOf e)) with t := s.t }) hP.at_ hP.run hP.drives hP.sole hpin] at h3
  refine ⟨s.playSegs w (cmpOf e) ++
    ({ s.playedOne u w (s.playSegs w (cmpOf e)) with t := s.t } : State).parkedSegs s.t (s.t + w.period), ?_, ?_⟩
  · rw [onLine_append, State.playSegs_pin (PwmUnit.drives_pin h.drives).2]
    have := State.parkedSegs_line ({ s.playedOne u w (s.playSegs w (cmpOf e)) with t := s.t } : State) s.t (s.t + w.period)
    unfold onLine
    rw [show s.inst.pin = ({ s.playedOne u w (s.playSegs w (cmpOf e)) with t := s.t } : State).inst.pin from rfl, this, List.append_nil]
  · rw [run_succ h1, run_succ h2, run_succ h3, run_zero]
    simp only [State.playedOne, List.append_assoc]

/-- The segments of a sequence of entries, played from cycle t on. -/
def entrySegs (s : State) (w : PwmUnit) : Nat → List Entry → List Seg
  | _, [] => []
  | t, e :: r => s.playSegs { w with due := t } (cmpOf e) ++ entrySegs s w (t + w.period) r

/-- The state after a played sequence of n entries with segments g. -/
def State.playedAll (s : State) (u : Nat) (w : PwmUnit) (n : Nat) (g : List Seg) : State := { s with
  t := s.t + n * w.period
  pwm := s.pwm.set u { w with pos := w.pos + n, fetched := none, due := w.due + n * w.period }
  obs := { s.obs with wave := s.obs.wave ++ g } }

/-- A unit plays a whole sequence, entry after entry (R195, R200). -/
theorem play_all : ∀ (es : List Entry) (s : State) (u : Nat) (w : PwmUnit), s.Plays u w →
    s.inst.pin.toNat < s.plat.nPins → w.pos + es.length ≤ w.seqCnt.toNat →
    (∀ k e, es[k]? = some e → Sparse.read (w.seqPtr.toNat + (w.pos + k)) s.inst.duty = some e ∧ polarity e = true) →
    ∃ g, onLine s.inst.pin g = entrySegs s w s.t es ∧
      Sys2Proof.core.run (3 * es.length) s = .next (s.playedAll u w es.length g) ∧
      (s.playedAll u w es.length g).Plays u
        { w with pos := w.pos + es.length, fetched := none, due := w.due + es.length * w.period }
  | [], s, u, w, h, _, _, _ => by
    have hw : ({ w with pos := w.pos + 0, fetched := none, due := w.due + 0 * w.period } : PwmUnit) = w := by
      rw [← h.fetched]; simp
    have e : s.playedAll u w 0 [] = s := by
      have hset : s.pwm.set u w = s.pwm := by
        obtain ⟨hl, hget⟩ := List.getElem?_eq_some_iff.mp h.at_
        rw [← hget, List.set_getElem_self]
      rw [State.playedAll, hw, hset]; simp
    refine ⟨[], rfl, ?_, ?_⟩
    · simp only [List.length_nil, Nat.mul_zero, run_zero, e]
    · simp only [List.length_nil, e]
      rw [hw]; exact h
  | e :: r, s, u, w, h, hpin, hl, hr => by
    simp only [List.length_cons] at hl ⊢
    obtain ⟨h0, hpol⟩ := hr 0 e rfl
    obtain ⟨g, hg, h1⟩ := play_one h (by omega) hpin (by rw [State.dmaRead, State.dutyEntry]; simp only [Nat.add_zero] at h0; rw [h0]) hpol
    have hP := h.playedOne g
    obtain ⟨g', hg', h2, h3⟩ := play_all r (s.playedOne u w g) u _ hP hpin (by simp only; omega) (fun k e' he => by
      have := hr (k + 1) e' he
      simp only [State.playedOne]
      rw [show w.pos + 1 + k = w.pos + (k + 1) by omega]; exact this)
    have hsegs : ∀ (l : List Entry) (t : Nat), entrySegs (s.playedOne u w g)
        { w with pos := w.pos + 1, fetched := none, due := w.due + w.period } t l = entrySegs s w t l := by
      intro l
      induction l with
      | nil => intro t; rfl
      | cons x l ih => intro t; simp only [entrySegs]; rw [← ih]; rfl
    have key : (s.playedOne u w g).playedAll u { w with pos := w.pos + 1, fetched := none, due := w.due + w.period }
          r.length g' = s.playedAll u w (r.length + 1) (g ++ g') := by
      simp only [State.playedAll, State.playedOne, List.set_set, List.append_assoc]
      have a : w.pos + 1 + r.length = w.pos + (r.length + 1) := by omega
      have b : ∀ x, x + w.period + r.length * w.period = x + (r.length + 1) * w.period := by
        intro x; rw [Nat.add_mul]; omega
      have c : PwmUnit.period { w with pos := w.pos + 1, fetched := none, due := w.due + w.period } = w.period := rfl
      rw [a, c, b, b]
    have hw : ({ w with due := s.t } : PwmUnit) = w := by rw [← h.due]
    rw [key] at h2 h3
    rw [hsegs] at hg'
    refine ⟨g ++ g', ?_, ?_, ?_⟩
    · rw [onLine_append, hg, entrySegs, hw]
      exact congrArg _ hg'
    · rw [show 3 * (r.length + 1) = 3 + 3 * r.length by omega, run_add h1, h2]
    · have a : w.pos + 1 + r.length = w.pos + (r.length + 1) := by omega
      have b : w.due + w.period + r.length * w.period = w.due + (r.length + 1) * w.period := by rw [Nat.add_mul]; omega
      have c : PwmUnit.period { w with pos := w.pos + 1, fetched := none, due := w.due + w.period } = w.period := rfl
      rw [c, a, b] at h3
      exact h3

/-! ## The duty sequence -/

theorem get_entriesOf (k : ClassParams) (b : Byte) (j : Nat) (hj : j < 8) :
    (entriesOf k b)[j]? = some (if b.getLsbD (7 - j) then k.duty1 else k.duty0) := by
  have : j = 0 ∨ j = 1 ∨ j = 2 ∨ j = 3 ∨ j = 4 ∨ j = 5 ∨ j = 6 ∨ j = 7 := by omega
  rcases this with rfl | rfl | rfl | rfl | rfl | rfl | rfl | rfl <;> rfl

theorem get_flatMap8 {β : Type} (f : Byte → List β) (hf : ∀ b, (f b).length = 8) : ∀ (l : List Byte) (i j : Nat), j < 8 →
    (l.flatMap f)[8 * i + j]? = (l[i]?).bind (fun b => (f b)[j]?)
  | [], i, j, _ => by simp
  | b :: l, 0, j, hj => by
    simp only [List.flatMap_cons, Nat.mul_zero, Nat.zero_add]
    rw [List.getElem?_append_left (by rw [hf]; exact hj)]; rfl
  | b :: l, i + 1, j, hj => by
    simp only [List.flatMap_cons]
    rw [List.getElem?_append_right (by rw [hf]; omega), hf, show 8 * (i + 1) + j - 8 = 8 * i + j by omega, get_flatMap8 f hf l i j hj]
    rfl

theorem length_flatMap8 {β : Type} (f : Byte → List β) (hf : ∀ b, (f b).length = 8) (l : List Byte) :
    (l.flatMap f).length = 8 * l.length := by
  induction l with
  | nil => rfl
  | cons b l ih => simp [List.flatMap_cons, hf, ih]; omega

theorem length_bufferBytes (s : State) : s.bufferBytes.length = s.inst.len.toNat := by simp [State.bufferBytes]

/-- The duty sequence has SEQ entries (R95). -/
theorem length_dutySequence (s : State) : (dutySequence s.inst.cfg s.bufferBytes).length = s.inst.seqLen := by
  simp [dutySequence, Inst.seqLen, length_flatMap8 (entriesOf s.inst.cfg.cp) (fun _ => rfl), length_bufferBytes]

/-- After ENCODING the duty RAM holds the sequence, and above it what it held (R191). -/
theorem State.encode_read (s : State) (j : Nat) : Sparse.read j s.encode.inst.duty =
    if j < s.inst.seqLen then (dutySequence s.inst.cfg s.bufferBytes)[j]? else Sparse.read j s.inst.duty := by
  simp only [State.encode, writeEntries_read, Nat.zero_le, if_true, Nat.sub_zero, length_dutySequence]
  split
  · next h => rw [List.getElem?_eq_getElem (by rw [length_dutySequence]; exact h)]
  · rfl

/-- The entry of a data bit (R191). -/
def bitEntry (k : ClassParams) (b : Bool) : Entry := if b then k.duty1 else k.duty0

theorem entries_eq_bits (k : ClassParams) (bytes : List Byte) :
    bytes.flatMap (entriesOf k) = (frameBits bytes).map (bitEntry k) := by
  simp only [frameBits, List.map_flatMap]
  rfl

theorem entrySegs_append (s : State) (w : PwmUnit) : ∀ (a b : List Entry) (t : Nat),
    entrySegs s w t (a ++ b) = entrySegs s w t a ++ entrySegs s w (t + a.length * w.period) b
  | [], b, t => by simp [entrySegs]
  | e :: a, b, t => by
    simp only [List.cons_append, entrySegs, entrySegs_append s w a b, List.append_assoc, List.length_cons]
    rw [show t + w.period + a.length * w.period = t + (a.length + 1) * w.period by rw [Nat.add_mul]; omega]

/-- A connected unit on a pin that resolves plays an entry as its two segments. -/
theorem State.playSegs_symbol {s : State} {w : PwmUnit} (h1 : w.pselConnected = true) (h2 : w.pselPin.toNat < s.plat.nPins)
    (cmp : BitVec 15) : s.playSegs w cmp = (symbolSegs w.pselPin w.due (min (cmp.toNat * w.prescaler.toNat) w.period)
      (w.period - min (cmp.toNat * w.prescaler.toNat) w.period)).filter (fun g => decide (0 < g.cycles)) := by
  rw [State.playSegs_eq, if_pos ⟨h1, h2⟩]

/-- Data bits, played (R200). -/
theorem entrySegs_bits {s : State} {w : PwmUnit} {k : ClassParams} (h1 : w.pselConnected = true)
    (h2 : w.pselPin.toNat < s.plat.nPins) (high : Bool → Nat)
    (hh : ∀ b, (cmpOf (bitEntry k b)).toNat * w.prescaler.toNat = high b) (hlt : ∀ b, 0 < high b ∧ high b < w.period) :
    ∀ (bits : List Bool) (t : Nat),
      entrySegs s w t (bits.map (bitEntry k)) = bitSegs w.pselPin high (fun b => w.period - high b) t bits
  | [], t => rfl
  | b :: r, t => by
    have hb := hlt b
    simp only [List.map_cons, entrySegs, bitSegs]
    rw [State.playSegs_symbol (w := { w with due := t }) h1 h2, entrySegs_bits h1 h2 high hh hlt r]
    have e1 : min ((cmpOf (bitEntry k b)).toNat * w.prescaler.toNat) w.period = high b := by rw [hh]; omega
    have e2 : PwmUnit.period { w with due := t } = w.period := rfl
    simp only [e2, e1]
    rw [show t + high b + (w.period - high b) = t + w.period by omega]
    simp [symbolSegs, hb.1, show 0 < w.period - high b by omega]

/-- Terminators, played: low over each interval (R200). -/
theorem entrySegs_terms {s : State} {w : PwmUnit} (h1 : w.pselConnected = true) (h2 : w.pselPin.toNat < s.plat.nPins)
    (hp : 0 < w.period) : ∀ (n t : Nat), entrySegs s w t (List.replicate n term) =
      (List.range n).map (fun j => { pin := w.pselPin, start := t + j * w.period, level := .l, cycles := w.period })
  | 0, t => rfl
  | n + 1, t => by
    rw [List.replicate_succ, entrySegs, State.playSegs_symbol (w := { w with due := t }) h1 h2, entrySegs_terms h1 h2 hp n,
      List.range_succ_eq_map]
    have e0 : (cmpOf term).toNat = 0 := by decide
    have e2 : PwmUnit.period { w with due := t } = w.period := rfl
    simp only [e2, e0, Nat.zero_mul, Nat.zero_min, Nat.sub_zero, Nat.add_zero, List.map_cons, List.map_map]
    simp only [symbolSegs, List.filter_cons, Nat.lt_irrefl, decide_false, Bool.false_eq_true, if_false, hp, decide_true, if_true,
      List.filter_nil, Nat.add_zero, List.cons_append, List.nil_append, List.cons.injEq, true_and]
    refine List.map_congr_left fun j _ => ?_
    simp only [Function.comp, Nat.succ_eq_add_one]
    rw [show t + w.period + j * w.period = t + (j + 1) * w.period by rw [Nat.add_mul]; omega]

end Sys2Proof.Machine
end

