-- ==== Sys2Proof/Laws/Observers.lean ====
section
/-! SUPPORT. Laws/Observers.lean: no operation, meaning or agent reads EVT, and none reads `rst`: with them veiled it does what it
does, veiled (R38, R283, R321). Said once, for both, of a veil that hides EVT or `rst`. -/

namespace Sys2Proof.Machine

/-- What is shown of EVT and of the resets to come, in a way that raising an event and a reset go along with. -/
structure Veil where
  evt : BitVec 8 → BitVec 8
  rst : List Nat → List Nat
  evt_evt : ∀ v, evt (evt v) = evt v
  evt_set : ∀ v e, evt (setEvt (evt v) e) = evt (setEvt v e)
  rst_rst : ∀ l, rst (rst l) = rst l
  rst_later : ∀ r l, rst (((rst l).filter (fun c => decide (r < c))).map (fun c => c - (r + 1))) =
    rst ((l.filter (fun c => decide (r < c))).map (fun c => c - (r + 1)))

/-- EVT hidden. -/
def Veil.hideEvt : Veil where
  evt _ := 0
  rst l := l
  evt_evt _ := rfl
  evt_set _ _ := rfl
  rst_rst _ := rfl
  rst_later _ _ := rfl

/-- `rst` hidden. -/
def Veil.hideRst : Veil where
  evt v := v
  rst _ := []
  evt_evt _ := rfl
  evt_set _ _ := rfl
  rst_rst _ := rfl
  rst_later _ _ := rfl

/-- An instance, a state, an outcome under a veil. -/
def Inst.veil (i : Inst) (V : Veil) : Inst := { i with evt := V.evt i.evt }
def State.veil (s : State) (V : Veil) : State :=
  { s with inst := s.inst.veil V, peers := s.peers.map (fun i => i.veil V), rst := V.rst s.rst }
def Result.veil (o : Result) (V : Veil) : Result :=
  match o with
  | .next s => .next (s.veil V)
  | .fault r => .fault r
  | .refused r => .refused r

variable {V : Veil}

@[simp] theorem veil_plat (s : State) : (s.veil V).plat = s.plat := rfl
@[simp] theorem veil_t (s : State) : (s.veil V).t = s.t := rfl
@[simp] theorem veil_inst (s : State) : (s.veil V).inst = { s.inst with evt := V.evt s.inst.evt } := rfl
@[simp] theorem veil_peers (s : State) : (s.veil V).peers = s.peers.map (fun i => i.veil V) := rfl
@[simp] theorem veil_mem (s : State) : (s.veil V).mem = s.mem := rfl
@[simp] theorem veil_gpio (s : State) : (s.veil V).gpio = s.gpio := rfl
@[simp] theorem veil_pwm (s : State) : (s.veil V).pwm = s.pwm := rfl
@[simp] theorem veil_registry (s : State) : (s.veil V).registry = s.registry := rfl
@[simp] theorem veil_pend (s : State) : (s.veil V).pend = s.pend := rfl
@[simp] theorem veil_host (s : State) : (s.veil V).host = s.host := rfl
@[simp] theorem veil_env (s : State) : (s.veil V).env = s.env := rfl
@[simp] theorem veil_irq (s : State) : (s.veil V).irq = s.irq := rfl
@[simp] theorem veil_nmi (s : State) : (s.veil V).nmi = s.nmi := rfl
@[simp] theorem veil_rst (s : State) : (s.veil V).rst = V.rst s.rst := rfl
@[simp] theorem veil_encDraws (s : State) : (s.veil V).encDraws = s.encDraws := rfl
@[simp] theorem veil_drawCtr (s : State) : (s.veil V).drawCtr = s.drawCtr := rfl
@[simp] theorem veil_obs (s : State) : (s.veil V).obs = s.obs := rfl
@[simp] theorem veil_past (s : State) : (s.veil V).past = s.past := rfl

theorem veil_eq (s : State) : (s.veil V) = 
    { s with inst := { s.inst with evt := V.evt s.inst.evt }, peers := s.peers.map (fun i => i.veil V), rst := V.rst s.rst } := rfl

@[simp] theorem masked_veil (s : State) : (s.veil V).masked = s.masked := by
  simp [State.masked, List.any_map, Function.comp_def, Inst.veil]
@[simp] theorem claimed_veil (s : State) (u : Nat) : (s.veil V).claimed u = s.claimed u := by
  unfold State.claimed; rw [veil_peers, List.any_map]; rfl
@[simp] theorem blockers_veil (s : State) : (s.veil V).blockers = s.blockers := by simp [State.blockers]
@[simp] theorem stalled_veil (s : State) : (s.veil V).stalled = s.stalled := by
  unfold State.stalled; rw [masked_veil]; rfl
@[simp] theorem pwmAt_veil (s : State) (u : Nat) : (s.veil V).pwmAt u = s.pwmAt u := rfl
@[simp] theorem registryAt_veil (s : State) (u : Nat) : (s.veil V).registryAt u = s.registryAt u := rfl
@[simp] theorem pinState_veil (s : State) (u : Nat) : (s.veil V).pinState u = s.pinState u := rfl
@[simp] theorem pinResolves_veil (s : State) (u : Pin) : (s.veil V).pinResolves u = s.pinResolves u := rfl
@[simp] theorem envDue_veil (s : State) : (s.veil V).envDue = s.envDue := rfl
@[simp] theorem memRead_veil (s : State) (a : Nat) : (s.veil V).memRead a = s.memRead a := rfl
@[simp] theorem instOf_veil (s : State) (id : Nat) : (s.veil V).instOf id = (s.instOf id).map (fun i => i.veil V) := by
  unfold State.instOf
  simp only [veil_inst, veil_peers, List.find?_map]
  split
  · rfl
  · rfl
@[simp] theorem owner_veil (s : State) (u : Nat) : (s.veil V).owner u = (s.owner u).map (fun i => i.veil V) := by
  unfold State.owner
  simp only [registryAt_veil]
  split
  · rfl
  · simp
theorem dmaRead_veil (s : State) (i : Inst) (w : PwmUnit) (j : Nat) : (s.veil V).dmaRead (i.veil V) w j = s.dmaRead i w j := rfl
@[simp] theorem playing_veil (s : State) (u : Nat) (w : PwmUnit) : (s.veil V).playing u w = s.playing u w := by
  simp [State.playing]
@[simp] theorem players_veil (s : State) : (s.veil V).players = s.players := by simp [State.players]
@[simp] theorem unitDue_veil (s : State) : (s.veil V).unitDue = s.unitDue := by
  unfold State.unitDue; rw [players_veil]; rfl
@[simp] theorem handlerDue_veil (s : State) : (s.veil V).handlerDue = s.handlerDue := by simp [State.handlerDue]
@[simp] theorem handlerChance_veil (s : State) : (s.veil V).handlerChance = s.handlerChance := by simp [State.handlerChance]
@[simp] theorem finisher_veil (s : State) : (s.veil V).finisher = s.finisher.map (fun i => i.veil V) := by
  unfold State.finisher
  rw [show (s.veil V).yields = s.yields from rfl, veil_peers, List.find?_map]
  split <;> rfl
@[simp] theorem finisherDue_veil (s : State) : (s.veil V).finisherDue = s.finisherDue.map (fun i => i.veil V) := by
  unfold State.finisherDue
  rw [stalled_veil, finisher_veil]
  split <;> rfl
@[simp] theorem finisherChance_veil (s : State) : (s.veil V).finisherChance = s.finisherChance := by
  unfold State.finisherChance
  rw [finisher_veil, blockers_veil]
  cases s.finisher <;> rfl
@[simp] theorem nextEvents_veil (s : State) : (s.veil V).nextEvents = s.nextEvents := by simp [State.nextEvents]
@[simp] theorem pauseEnd_veil (s : State) (c : Option Nat) : (s.veil V).pauseEnd c = s.pauseEnd c := by simp [State.pauseEnd]
@[simp] theorem parkedPins_veil (s : State) : (s.veil V).parkedPins = s.parkedPins := by
  unfold State.parkedPins
  rw [veil_peers, List.map_map]
  rfl
@[simp] theorem pinSeg_veil (s : State) (t0 t1 : Nat) (p : Pin) : (s.veil V).pinSeg t0 t1 p = s.pinSeg t0 t1 p := rfl
@[simp] theorem parkedSegs_veil (s : State) (t0 t1 : Nat) : (s.veil V).parkedSegs t0 t1 = s.parkedSegs t0 t1 := by
  unfold State.parkedSegs; rw [parkedPins_veil]; rfl
@[simp] theorem heldSegs_veil (s : State) (t0 t1 : Nat) : (s.veil V).heldSegs t0 t1 = s.heldSegs t0 t1 := by
  unfold State.heldSegs; rw [parkedSegs_veil]; rfl
@[simp] theorem passTo_veil (s : State) (c : Nat) : (s.veil V).passTo c = (s.passTo c).veil V := by
  unfold State.passTo
  rw [veil_t, heldSegs_veil]
  split <;> rfl
@[simp] theorem owedSegs_veil (s : State) (r u : Nat) (w : PwmUnit) : (s.veil V).owedSegs r u w = s.owedSegs r u w := by
  unfold State.owedSegs
  rw [owner_veil]
  cases s.owner u <;> rfl
@[simp] theorem obsBefore_veil (s : State) (r : Nat) : (s.veil V).obsBefore r = s.obsBefore r := by
  unfold State.obsBefore State.waveSoFar
  rw [players_veil]
  simp only [owedSegs_veil]
  rfl
/-- A reset forgets every EVT; of the resets to come it shows what the veil lets it. -/
@[simp] theorem restart_veil (s : State) (r : Nat) : ((s.veil V).restart r).veil V = (s.restart r).veil V := by
  have hp : (s.veil V).parkedPins = s.parkedPins := parkedPins_veil s
  have hz : (s.veil V).lastObs r = s.lastObs r := by
    unfold State.lastObs State.resetSegs; rw [obsBefore_veil, hp]; rfl
  unfold State.restart
  simp only [hz]
  simp only [State.veil, List.map_map, Function.comp_def, V.rst_later]
  rfl
/-- So does a reset of a step, whose WAIT is the host's own. -/
@[simp] theorem resetAt_veil (s : State) (r : Nat) (m : State) : ((s.veil V).resetAt r (m.veil V)).veil V = (s.resetAt r m).veil V :=
  restart_veil { m with host := s.hostAfter r m.host } r
@[simp] theorem pause_veil (s : State) (c : Option Nat) : (s.veil V).pause c = (s.pause c).veil V := by
  simp [State.pause]

/-- Veiling twice is veiling once. -/
@[simp] theorem Inst.veil_veil (i : Inst) : (i.veil V).veil V = i.veil V := by simp only [Inst.veil, V.evt_evt]
@[simp] theorem veil_veil (s : State) : (s.veil V).veil V = s.veil V := by
  simp only [State.veil, List.map_map, Function.comp_def, Inst.veil_veil, V.rst_rst]

/-- Raising an event goes along with the veil. -/
theorem raise_veil (s : State) (e : Event) : ((s.veil V).raise e).veil V = (s.raise e).veil V := by
  simp only [State.veil, State.raise, List.map_map, Function.comp_def, Inst.veil_veil, V.rst_rst]
  simp only [Inst.veil, V.evt_set]

theorem act_alike {s : State} {k k' : State → Result} (h : (k (s.veil V)).veil V = (k' s).veil V) :
    ((s.veil V).act k).veil V = (s.act k').veil V := by
  unfold State.act
  rw [stalled_veil, blockers_veil, veil_t, pause_veil]
  split
  · simp [Result.veil]
  · exact h


/-- g does not read what the veil hides. -/
def Blind (V : Veil) (g : State → State) : Prop := ∀ s, (g (s.veil V)).veil V = (g s).veil V

theorem Blind.of {g : State → State} (h : ∀ s, g (s.veil V) = (g s).veil V) : Blind V g := fun s => by rw [h, veil_veil]

theorem Blind.comp {g h : State → State} (hg : Blind V g) (hh : Blind V h) : Blind V (fun s => h (g s)) := fun s => by
  rw [← hh, hg, hh]

/-- Applied to a state that depends on the start. -/
theorem Blind.ap {h : State → State} (hh : Blind V h) {a b : State} (e : a.veil V = b.veil V) : (h a).veil V = (h b).veil V := by
  rw [← hh a, e, hh]

theorem blind_gpioAct (p : Pin) (f : PinState → PinState) : Blind V (fun s => s.gpioAct p f) := by
  intro s
  show ((s.veil V).gpioAct p f).veil V = (s.gpioAct p f).veil V
  unfold State.gpioAct
  by_cases h : s.pinResolves p = true
  · rw [if_pos h, if_pos (by exact h)]
    exact veil_veil { s with gpio := s.gpio.set p.toNat (f (s.pinState p.toNat)) }
  · rw [if_neg h, if_neg (by exact h)]; exact raise_veil s .badPin

theorem blind_passTo (c : Nat) : Blind V (fun s => s.passTo c) := Blind.of fun s => passTo_veil s c
theorem blind_setFsm (f : Fsm) : Blind V (fun s => s.setFsm f) := Blind.of fun _ => rfl
theorem blind_complete : Blind V State.complete := Blind.of fun _ => rfl
theorem blind_stamp : Blind V State.stamp := Blind.of fun _ => rfl
theorem blind_openMask : Blind V State.openMask := Blind.of fun _ => rfl
theorem blind_closeMask : Blind V State.closeMask := Blind.of fun _ => rfl
theorem blind_raise (e : Event) : Blind V (fun s => s.raise e) := fun s => raise_veil s e
theorem blind_snapBit : Blind V State.snapBit := Blind.of fun _ => rfl
theorem blind_snapPhase : Blind V State.snapPhase := Blind.of fun s => by
  simp only [State.snapPhase_eq]; rfl
theorem blind_beginHigh : Blind V State.beginHigh := fun s =>
  (((blind_setFsm .bbHigh).comp (blind_gpioAct s.inst.pin fun q => { q with out := true })).comp blind_snapPhase) s
theorem blind_beginLow : Blind V State.beginLow := fun s =>
  (((blind_setFsm .bbLow).comp (blind_gpioAct s.inst.pin fun q => { q with out := false })).comp blind_snapPhase) s
theorem blind_fbBeginHigh : Blind V State.fbBeginHigh := fun s =>
  ((blind_snapBit.comp (blind_setFsm .fbHigh)).comp (blind_gpioAct s.inst.pin fun q => { q with out := true })) s
theorem blind_fbBeginLow : Blind V State.fbBeginLow := fun s =>
  ((blind_setFsm .fbLow).comp (blind_gpioAct s.inst.pin fun q => { q with out := false })) s

/-- A hold whose end is found without reading what the veil hides. -/
theorem blind_holdThen {stop : State → Option Nat} {k : State → State} (hs : ∀ s, stop (s.veil V) = stop s) (hk : Blind V k) :
    Blind V (fun s => s.holdThen (stop s) k) := fun s => by
  show ((s.veil V).holdThen (stop (s.veil V)) k).veil V = (s.holdThen (stop s) k).veil V
  rw [hs]
  cases stop s with
  | some c => exact hk.ap (by rw [passTo_veil, veil_veil])
  | none =>
    simp only [State.holdThen, State.stick, veil_t, passTo_veil]
    exact veil_veil { s.passTo (s.t + 1) with inst := { (s.passTo (s.t + 1)).inst with stuck := true } }

theorem blind_hold (n : Nat) {k : State → State} (hk : Blind V k) : Blind V (fun s => s.hold n k) :=
  blind_holdThen (stop := fun s => s.phaseEnd n) (fun s => by simp [State.phaseEnd]) hk
theorem blind_holdUntil (n : Nat) {k : State → State} (hk : Blind V k) : Blind V (fun s => s.holdUntil n k) :=
  blind_holdThen (stop := fun s => s.compareEnd n) (fun s => by simp [State.compareEnd]) hk
theorem blind_bbSymbol (high low : Nat) : Blind V (fun s => s.bbSymbol high low) :=
  blind_beginHigh.comp (blind_hold high (blind_beginLow.comp (blind_hold low (Blind.of (g := fun r => r) fun _ => rfl))))
theorem blind_fbSymbol (hb : Nat) : Blind V (fun s => s.fbSymbol hb) := fun s =>
  (blind_fbBeginHigh.comp (blind_holdUntil hb (blind_fbBeginLow.comp
    (blind_holdUntil s.inst.cfg.cp.fbPeriod (Blind.of (g := fun r => r) fun _ => rfl))))) s

/-- k does not read what the veil hides. -/
def BlindR (V : Veil) (k : State → Result) : Prop := ∀ s, (k (s.veil V)).veil V = (k s).veil V
theorem BlindR.next {g : State → State} (h : Blind V g) : BlindR V (fun s => .next (g s)) := fun s => congrArg Host.Outcome.next (h s)

theorem blind_symbol (i : Instr) (h : i = .sym0 ∨ i = .sym1 ∨ i = .fbSym0 ∨ i = .fbSym1) : BlindR V (exec i) := by
  intro s
  rcases h with rfl | rfl | rfl | rfl
  · exact BlindR.next (blind_bbSymbol s.inst.cfg.desc.t0h s.inst.cfg.desc.t0l) s
  · exact BlindR.next (blind_bbSymbol s.inst.cfg.desc.t1h s.inst.cfg.desc.t1l) s
  · exact BlindR.next (blind_fbSymbol s.inst.cfg.cp.fbT0H) s
  · exact BlindR.next (blind_fbSymbol s.inst.cfg.cp.fbT1H) s

theorem next_of {a b : State} (h : a.veil V = b.veil V) : Result.veil (.next a) V = Result.veil (.next b) V :=
  congrArg Host.Outcome.next h

theorem ite_alike {p q : Prop} [Decidable p] [Decidable q] (hpq : p ↔ q) {a b c d : Result} (h1 : p → a.veil V = c.veil V)
    (h2 : ¬ p → b.veil V = d.veil V) : (if p then a else b).veil V = (if q then c else d).veil V := by
  by_cases h : p
  · rw [if_pos h, if_pos (hpq.mp h)]; exact h1 h
  · rw [if_neg h, if_neg (fun hq => h (hpq.mpr hq))]; exact h2 h

theorem blind_allocate (c : BitVec 20) : Blind V (fun s => s.allocate c) := Blind.of fun _ => rfl

theorem blind_updateAction (n : Count) : Blind V (fun s => s.updateAction n) := by
  intro s
  show ((s.veil V).updateAction n).veil V = (s.updateAction n).veil V
  unfold State.updateAction
  have : (s.veil V).inst.need n = s.inst.need n := rfl
  rw [this]
  by_cases h : n = 0
  · rw [if_pos h, if_pos h]; exact ((blind_allocate 0).comp blind_complete) s
  · rw [if_neg h, if_neg h]
    by_cases h2 : s.inst.need n ≤ s.inst.cfg.dutyRamEntries
    · rw [if_pos h2, if_pos (by exact h2)]
      exact ((blind_allocate (BitVec.ofNat 20 (s.inst.need n))).comp blind_complete) s
    · rw [if_neg h2, if_neg (by exact h2)]
      exact (((blind_allocate 0).comp (blind_raise .allocFail)).comp blind_complete) s

theorem blind_endAction : Blind V State.endAction := fun s =>
  ((blind_gpioAct s.inst.pin fun q => { q with dir := .input }).comp (Blind.of (g := fun x => (x.setBegun false).complete) fun _ => rfl)) s

theorem blind_command (w : CmdWord) : BlindR V (exec (decodeCmd w)) := by
  have bad : BlindR V (fun s => .next s.badCommand) := BlindR.next ((blind_raise .badCmd).comp blind_complete)
  unfold decodeCmd
  split
  · exact bad
  · intro s
    simp only [exec, execSetPin]
    generalize (cmdA w).extractLsb' 0 8 = p
    cases hb : s.inst.begun
    · simp only [veil_inst, hb, Bool.false_eq_true, if_false]
      exact next_of ((Blind.of (g := fun x => (x.setPinReg p).complete) fun _ => rfl) s)
    · simp only [veil_inst, hb, if_true]
      exact next_of (((((blind_gpioAct s.inst.pin fun q => { q with dir := .input }).comp (Blind.of (g := fun x => x.setPinReg p) fun _ => rfl)).comp
        (blind_gpioAct p fun q => { q with dir := .output })).comp (blind_gpioAct p fun q => { q with out := false })).comp blind_complete s)
  · intro s
    exact next_of ((((blind_gpioAct s.inst.pin fun q => { q with dir := .output }).comp (blind_gpioAct s.inst.pin fun q => { q with out := false })).comp
      (Blind.of (g := fun x => (x.setBegun true).complete) fun _ => rfl)) s)
  · intro s
    simp only [exec, execEnd]
    cases ha : s.inst.active
    · simp only [veil_inst, ha, Bool.false_eq_true, if_false]
      exact next_of (blind_endAction s)
    · simp only [veil_inst, ha, if_true]
      exact next_of ((Blind.of (g := fun x => x.waitFor .endPin) fun _ => rfl) s)
  · intro s
    simp only [exec, execUpdateLength]
    generalize (cmdA w).extractLsb' 0 16 = n
    simp only [veil_inst]
    split
    · exact next_of (blind_complete s)
    · exact ite_alike Iff.rfl (fun _ => next_of ((Blind.of (g := fun x => x.waitFor (.updateLength n)) fun _ => rfl) s))
        (fun _ => next_of (blind_updateAction n s))
  · intro s
    simp only [exec, execTransmit]
    generalize (cmdB w).extractLsb' 0 16 = n
    generalize cmdA w = a
    generalize cmdC w = c
    simp only [veil_inst]
    split
    · exact next_of ((((Blind.of (g := fun x => x.latchOperands a n c) fun _ => rfl).comp (blind_raise .noopTx)).comp blind_complete) s)
    · split
      · rfl
      · exact ite_alike Iff.rfl (fun _ => next_of ((Blind.of (g := fun x => (x.latchOperands a n c).waitFor .transmit) fun _ => rfl) s))
          (fun _ => next_of ((Blind.of (g := fun x => (x.latchOperands a n c).enterLatch) fun _ => rfl) s))
  all_goals exact bad

theorem blind_build {s s' : State} (c : Config) (h : s.veil V = s'.veil V) : (s.build c).veil V = (s'.build c).veil V := by
  unfold State.build
  have hp : s.plat = s'.plat := by have e := congrArg State.plat h; exact e
  refine ite_alike (by rw [hp]) (fun _ => next_of ?_) (fun _ => rfl)
  have ht : s.t = s'.t := by have e := congrArg State.t h; exact e
  have e : ∀ x : State, ({ x with inst := { x.inst with cfg := c } } : State).veil V =
      ({ x.veil V with inst := { (x.veil V).inst with cfg := c } } : State) := fun _ => rfl
  rw [← restart_veil { s with inst := { s.inst with cfg := c } }, ← restart_veil { s' with inst := { s'.inst with cfg := c } },
    e, e, h, ht]

theorem blind_chip (w : BitVec 3) : BlindR V (exec (decodeChip w)) := by
  intro s
  have hb : ∀ k, ((s.veil V).buildType k).veil V = (s.buildType k).veil V := fun k => blind_build _ (veil_veil s)
  unfold decodeChip
  split
  iterate 6 exact hb _
  all_goals rfl

theorem blind_order (w : BitVec 2) : BlindR V (exec (decodeOrder w)) := by
  intro s
  have hb : ∀ k, ((s.veil V).buildOrder k).veil V = (s.buildOrder k).veil V := fun k => blind_build _ (veil_veil s)
  unfold decodeOrder
  split
  all_goals exact hb _

theorem blind_nextBit (f : Fsm) : Blind V (fun s => s.nextBit f) := by
  intro s
  show ((s.veil V).nextBit f).veil V = (s.nextBit f).veil V
  unfold State.nextBit Inst.nextPos
  by_cases h : s.inst.bitIx = 0
  · rw [if_pos h, if_pos (by exact h)]
    exact veil_veil { s with inst := { s.inst with byteIx := s.inst.byteIx + 1, bitIx := 7, fsm := f } }
  · rw [if_neg h, if_neg (by exact h)]
    exact veil_veil { s with inst := { s.inst with bitIx := s.inst.bitIx - 1, fsm := f } }

theorem blind_fetchByte : BlindR V State.fetchByte := by
  intro s
  unfold State.fetchByte
  refine ite_alike Iff.rfl (fun _ => ite_alike Iff.rfl (fun _ => ?_) (fun _ => rfl)) (fun _ => next_of (veil_veil s))
  exact next_of (veil_veil { s with inst := { s.inst with cur := s.memRead s.inst.byteAddr } })

theorem onNext_alike {a b : Result} {f g : State → Result} (h : a.veil V = b.veil V)
    (hf : ∀ x y : State, x.veil V = y.veil V → (f x).veil V = (g y).veil V) : (onNext a f).veil V = (onNext b g).veil V := by
  cases a <;> cases b <;> simp only [Result.veil, Host.Outcome.next.injEq, reduceCtorEq, Host.Outcome.fault.injEq, Host.Outcome.refused.injEq] at h
  · exact hf _ _ h
  · simp [onNext, h]
  · simp [onNext, h]

theorem BlindR.ap {k : State → Result} (hk : BlindR V k) {a b : State} (e : a.veil V = b.veil V) : (k a).veil V = (k b).veil V := by
  rw [← hk a, e, hk]

theorem blind_onUnit {f g : Nat → PwmUnit → Result} {s s' : State} (e : (s.veil V) = s'.veil V)
    (h : ∀ u w, (f u w).veil V = (g u w).veil V) : (s.onUnit f).veil V = (s'.onUnit g).veil V := by
  have hu : s.inst.unit = s'.inst.unit := by have e := congrArg (fun x : State => x.inst.unit) e; exact e
  have hp : s.pwm = s'.pwm := by have e := congrArg State.pwm e; exact e
  unfold State.onUnit State.pwmAt
  rw [hu, hp]
  split
  · rfl
  · split
    · rfl
    · exact h _ _

theorem blind_encode : Blind V State.encode := Blind.of fun _ => rfl

theorem blind_startPlayback (u : Nat) (w : PwmUnit) : Blind V (fun s => s.startPlayback u w) := by
  intro s
  have hr : Blind V State.raiseIfUnresolved := fun s => by
    unfold State.raiseIfUnresolved
    by_cases h : s.pinResolves s.inst.pin = true
    · rw [if_pos h, if_pos (by exact h), veil_veil]
    · rw [if_neg h, if_neg (by exact h)]; exact raise_veil s .badPin
  exact (hr.comp (Blind.of (g := fun x => (((x.setPwm u ((s.configured w).startAt s.t)).setRegistry u (some s.inst.id)).setActive
    true).setFsm .playing) fun _ => rfl)) s

theorem blind_encodingStep : BlindR V State.encodingStep := by
  intro s
  unfold State.encodingStep
  refine ite_alike Iff.rfl (fun _ => rfl) (fun _ => ite_alike Iff.rfl (fun _ => rfl) (fun _ => ?_))
  have he : (s.veil V).encodingEnd = s.encodingEnd := by
    simp only [State.encodingEnd, blockers_veil]; rfl
  have hb : ∀ c, (s.veil V).beginEncoding c = (s.beginEncoding c).veil V := fun c => by
    rw [State.beginEncoding_eq, State.beginEncoding_eq]; rfl
  have hf : ∀ c u w, ((s.veil V).finishEncoding c u w).veil V = (s.finishEncoding c u w).veil V := fun c u w => by
    unfold State.finishEncoding
    rw [hb]
    exact (((blind_passTo c).comp blind_encode).comp (blind_startPlayback u w)) (s.beginEncoding c)
  refine blind_onUnit (veil_veil s) fun u w => ?_
  rw [he, nextEvents_veil]
  cases s.encodingEnd with
  | none => exact next_of (by rw [pause_veil, veil_veil])
  | some c => exact ite_alike Iff.rfl (fun _ => next_of (hf c u w)) (fun _ => next_of (by rw [hb, pause_veil, veil_veil]))

theorem blind_waitMove (n : Nat) : Blind V (fun s => s.waitMove n) := by
  intro s
  show ((s.veil V).waitMove n).veil V = (s.waitMove n).veil V
  have e : (s.veil V).popHost = s.popHost.veil V := rfl
  unfold State.waitMove
  rw [veil_t, pauseEnd_veil, e, passTo_veil, pause_veil]
  split
  · exact veil_veil _
  · split
    · exact veil_veil _
    · exact veil_veil { s.pause (some (s.t + n)) with host := .wait (s.t + n - s.pauseEnd (some (s.t + n))) :: s.host.tail }

theorem blind_startAttempt : Blind V State.startAttempt := Blind.of fun _ => rfl

theorem blind_startPwm : Blind V State.startPwm := by
  intro s
  have hf : Blind V State.startFallback :=
    ((blind_raise .fallback).comp (Blind.of (g := fun x => { x with inst := { x.inst with retries := 0 } }) fun _ => rfl)).comp
      blind_startAttempt
  unfold State.startPwm
  by_cases h : s.inst.dutyCap.toNat < s.inst.seqLen
  · rw [if_pos h, if_pos (by exact h)]; exact hf s
  · rw [if_neg h, if_neg (by exact h)]
    have : (s.veil V).scan = s.scan := rfl
    rw [this]
    split
    · exact ((blind_raise .noPwm).comp hf) s
    · next u _ =>
      have : Blind V (fun x => x.claim u) := Blind.of fun x => by
        unfold State.claim
        rw [pwmAt_veil]
        split <;> rfl
      exact this s

theorem blind_selfCheck : Blind V State.selfCheck := by
  intro s
  unfold State.selfCheck
  have h1 : (s.veil V).checkFails = s.checkFails := rfl
  have h2 : (s.veil V).inst.retriesSpent = s.inst.retriesSpent := rfl
  rw [h1, h2]
  split
  · split
    · exact (((blind_raise .retryExhausted).comp blind_stamp).comp blind_complete) s
    · exact ((blind_raise .resend).comp (Blind.of (g := fun x => { x with
        inst := { x.inst with retries := s.inst.retries + 1, backoffStart := s.us, waitStart := s.t, fsm := .fbBackoff } }) fun _ => rfl)) s
  · exact (blind_stamp.comp blind_complete) s

theorem blind_focus (s : State) (id : Nat) : ((s.veil V).focus id).map (fun x => x.veil V) = (s.focus id).map (fun x => x.veil V) := by
  unfold State.focus
  simp only [veil_inst, veil_peers, List.find?_map]
  by_cases h : s.inst.id = id
  · rw [if_pos h, if_pos h]; simp
  · rw [if_neg h, if_neg h]
    have : ((fun i : Inst => decide (i.id = id)) ∘ fun i : Inst => i.veil V) = fun i => decide (i.id = id) := rfl
    rw [this]
    cases s.peers.find? (fun i => decide (i.id = id)) with
    | none => rfl
    | some i =>
      simp only [Option.map_some, State.veil, List.map_map, Option.some.injEq, State.mk.injEq, true_and, and_true,
        Inst.veil_veil, V.rst_rst]
      refine List.map_congr_left fun j _ => ?_
      simp only [Function.comp]
      rw [show (j.veil V).id = j.id from rfl]
      split <;> exact Inst.veil_veil _

theorem blind_select (id : Nat) : BlindR V (fun s => s.selectMove id) := by
  intro s
  show ((s.veil V).selectMove id).veil V = (s.selectMove id).veil V
  unfold State.selectMove
  have h := blind_focus (V := V) s.popHost id
  have e : (s.veil V).popHost = s.popHost.veil V := rfl
  rw [e]
  cases h1 : (s.popHost.veil V).focus id <;> cases h2 : s.popHost.focus id <;> rw [h1, h2] at h <;> simp at h
  exact next_of h

theorem blind_idle : BlindR V State.idleStep := by
  intro s
  unfold State.idleStep
  have e : (s.veil V).popHost = s.popHost.veil V := rfl
  refine ite_alike Iff.rfl (fun _ => next_of ?_) (fun _ => ?_)
  · rw [veil_t, passTo_veil]; exact veil_veil _
  · rw [veil_host, e]
    split
    · exact next_of (blind_passTo _ s)
    · exact next_of (blind_waitMove _ s)
    · next a b _ _ => exact act_alike (next_of (veil_veil { s.popHost with mem := Memory.write s.mem a b }))
    · next id _ _ => exact act_alike (blind_select id s)
    · next w _ _ => exact act_alike (blind_command w s.popHost)
    · next w _ _ => exact blind_chip w s.popHost
    · next w _ _ => exact blind_order w s.popHost

theorem curBit_alike {x y : State} (h : x.veil V = y.veil V) : x.inst.curBit = y.inst.curBit := by
  have e := congrArg (fun z : State => z.inst.curBit) h; exact e

theorem blind_sequence : BlindR V State.sequence := by
  intro s
  unfold State.sequence
  refine ite_alike Iff.rfl (fun _ => next_of (by rw [pause_veil, veil_veil])) (fun _ => ?_)
  rw [show (s.veil V).inst.fsm = s.inst.fsm from rfl]
  split
  · exact blind_idle s
  · refine ite_alike Iff.rfl (fun _ => next_of ?_) (fun _ => act_alike ?_)
    · rw [pause_veil, veil_veil]
    · unfold State.afterActive
      rw [show (s.veil V).inst.cmd = s.inst.cmd from rfl]
      split
      · exact next_of (blind_endAction s)
      · exact next_of (blind_updateAction _ s)
      · exact next_of (veil_veil s.enterLatch)
      · exact next_of (blind_complete s)
  · refine ite_alike Iff.rfl (fun _ => act_alike (next_of ?_)) (fun _ => next_of ?_)
    · unfold State.leaveLatch
      rw [show (s.veil V).inst.cfg.strategy = s.inst.cfg.strategy from rfl]
      split
      · exact veil_veil s.startBitbang
      · exact blind_startPwm s
    · have : (s.veil V).latchEnd = s.latchEnd := by simp only [State.latchEnd, blockers_veil]; rfl
      rw [this, pause_veil, veil_veil]
  · refine act_alike (onNext_alike (blind_fetchByte s) fun x y h => ?_)
    rw [curBit_alike h]
    split
    · exact BlindR.ap (blind_symbol .sym1 (by simp)) h
    · exact BlindR.ap (blind_symbol .sym0 (by simp)) h
  · refine act_alike (next_of ?_)
    unfold State.afterLow
    rw [show (s.veil V).inst.lastBit = s.inst.lastBit from rfl]
    split
    · exact veil_veil s.closeMask.stamp.complete
    · exact blind_nextBit _ s
  · exact act_alike (blind_encodingStep s)
  · refine ite_alike Iff.rfl (fun _ => ?_) (fun _ => act_alike (next_of (veil_veil (s.setFsm .completion))))
    rw [veil_host]
    split
    · exact act_alike (blind_select _ s)
    · exact next_of (by rw [pause_veil, veil_veil])
  · refine act_alike ?_
    exact blind_onUnit (veil_veil s) fun u w => next_of (veil_veil (s.teardown u w).stamp.complete)
  · refine act_alike (onNext_alike (blind_fetchByte s) fun x y h => ?_)
    rw [curBit_alike h]
    split
    · exact BlindR.ap (blind_symbol .fbSym1 (by simp)) h
    · exact BlindR.ap (blind_symbol .fbSym0 (by simp)) h
  · refine act_alike (next_of ?_)
    unfold State.afterPeriod
    rw [show (s.veil V).inst.lastBit = s.inst.lastBit from rfl]
    split
    · exact veil_veil (s.closeMask.setFsm .fbCheck)
    · exact blind_nextBit _ s
  · exact act_alike (next_of (blind_selfCheck s))
  · refine ite_alike Iff.rfl (fun _ => act_alike (next_of (veil_veil s.startAttempt))) (fun _ => next_of ?_)
    have : (s.veil V).backoffEnd = s.backoffEnd := by simp only [State.backoffEnd, blockers_veil]; rfl
    rw [this, pause_veil, veil_veil]

theorem blind_clear (id : Nat) : Blind V (fun s => s.clearActive id) := by
  intro s
  show ((s.veil V).clearActive id).veil V = (s.clearActive id).veil V
  unfold State.clearActive
  by_cases h : s.inst.id = id
  · rw [if_pos h, if_pos (by exact h)]; exact veil_veil (s.setActive false)
  · rw [if_neg h, if_neg (by exact h)]
    simp only [State.veil, List.map_map, State.mk.injEq, true_and, and_true, Inst.veil_veil, V.rst_rst]
    refine List.map_congr_left fun j _ => ?_
    simp only [Function.comp]
    rw [show (j.veil V).id = j.id from rfl]
    split <;> simp [Inst.veil, V.evt_evt]

theorem blind_handler (u : Nat) : Blind V (fun s => s.seqendHandler u) := by
  intro s
  show ((s.veil V).seqendHandler u).veil V = (s.seqendHandler u).veil V
  unfold State.seqendHandler
  rw [show ((s.veil V).setPend u false).registryAt u = (s.setPend u false).registryAt u from rfl, pwmAt_veil]
  split
  · next id w _ _ => exact blind_clear id ((s.setPend u false).setPwm u { w with run := false })
  · next id _ _ => exact blind_clear id (s.setPend u false)
  · exact veil_veil (s.setPend u false)

theorem asInst_alike {s : State} {id : Nat} {f g : State → Result}
    (h : ∀ i, (f { (s.veil V) with inst := i.veil V }).veil V = (g { s with inst := i }).veil V) :
    ((s.veil V).asInst id f).veil V = (s.asInst id g).veil V := by
  unfold State.asInst
  rw [instOf_veil]
  cases s.instOf id with
  | none => rfl
  | some i =>
    refine onNext_alike (h i) fun x y e => next_of ?_
    have := congrArg (fun z : State => ({ z with inst := s.inst.veil V } : State)) e
    show State.veil { x with inst := s.inst.veil V } V = State.veil { y with inst := s.inst } V
    simp only [State.veil, Inst.veil_veil]
    exact this

theorem fetch_alike {x y : State} (h : x.veil V = y.veil V) (e : Entry) : (x.fetchEntry e).veil V = (y.fetchEntry e).veil V :=
  blind_onUnit h fun u w => next_of (by
    have := congrArg (fun z : State => z.setPwm u { w with fetched := some e }) h
    exact this)

theorem play_alike {x y : State} (h : x.veil V = y.veil V) (c : BitVec 15) : (x.playEntry c).veil V = (y.playEntry c).veil V :=
  blind_onUnit h fun u w => next_of (by
    have := congrArg (fun z : State => ({ z with
        pwm := z.pwm.set u { w with pos := w.pos + 1, fetched := none, due := w.due + w.period }
        obs := { z.obs with wave := z.obs.wave ++ z.playSegs w c } } : State)) h
    exact this)

theorem blind_unitStep (u : Nat) (w : PwmUnit) : BlindR V (fun s => s.unitStep u w) := by
  intro s
  show ((s.veil V).unitStep u w).veil V = (s.unitStep u w).veil V
  unfold State.unitStep
  refine ite_alike Iff.rfl (fun _ => next_of (veil_veil (s.sequenceEnd u w))) (fun _ => ?_)
  rw [owner_veil]
  cases s.owner u with
  | none => rfl
  | some i =>
    simp only [Option.map_some]
    have hi : ∀ i : Inst, State.veil { s.veil V with inst := i.veil V } V = State.veil { s with inst := i } V :=
      fun i => veil_veil { s with inst := i }
    split
    · refine asInst_alike fun j => ?_
      · rw [show (i.veil V).cfg = i.cfg from rfl, dmaRead_veil]
        have key : ∀ (k : Instr), (k = .dutyTerm ∨ (∃ c, k = .dutyZero c ∨ k = .dutyOne c ∨ k = .dutyReserved c)) →
            ∀ x y : State, x.veil V = y.veil V → Result.veil (exec k x) V = Result.veil (exec k y) V := by
          rintro k (rfl | ⟨c, rfl | rfl | rfl⟩) x y h
          · exact fetch_alike h _
          · exact fetch_alike h _
          · exact fetch_alike h _
          · rfl
        refine key _ ?_ _ _ (hi j)
        unfold decodeDuty
        split
        · exact Or.inr ⟨_, Or.inr (Or.inr rfl)⟩
        · split
          · exact Or.inl rfl
          · split
            · exact Or.inr ⟨_, Or.inr (Or.inl rfl)⟩
            · exact Or.inr ⟨_, Or.inl rfl⟩
    · next e _ =>
      rw [show (i.veil V).cfg = i.cfg from rfl]
      have key : ∀ k c, symbolOf c e = some k → ∀ x y : State, x.veil V = y.veil V → Result.veil (exec k x) V = Result.veil (exec k y) V := by
        intro k c hk x y h
        have hcfg : x.inst.cfg = y.inst.cfg := by have e := congrArg (fun z : State => z.inst.cfg) h; exact e
        unfold symbolOf at hk
        split at hk
        · cases hk; exact play_alike h _
        · split at hk
          · cases hk; simp only [exec, execPwmSym1]; rw [hcfg]; exact play_alike h _
          · split at hk
            · cases hk; simp only [exec, execPwmSym0]; rw [hcfg]; exact play_alike h _
            · cases hk
      split
      · next k hk => exact asInst_alike fun j => key k _ hk _ _ (hi j)
      · exact asInst_alike fun j => play_alike (hi j) _

theorem blind_env (m : EnvMove) : BlindR V (fun s => s.envMove m) := by
  intro s
  show ((s.veil V).envMove m).veil V = (s.envMove m).veil V
  unfold State.envMove
  split
  · next u en con p =>
    rw [claimed_veil, pwmAt_veil]
    split
    · exact next_of (veil_veil s)
    · split
      · next w _ => exact next_of (veil_veil (s.setPwm u { w with enable := en, pselConnected := con, pselPin := p }))
      · exact next_of (veil_veil s)
  · next u =>
    rw [claimed_veil]
    split
    · rfl
    · exact next_of (veil_veil (s.setPend u true))
  · next p d o => exact next_of (veil_veil { s with gpio := s.gpio.set p { dir := d, out := o } })

theorem blind_finish (s : State) (i : Inst) :
    ((s.veil V).finishParked (i.veil V)).veil V = (s.finishParked i).veil V := by
  unfold State.finishParked State.asParked
  have h : (State.completionStep { s.veil V with inst := i.veil V }).veil V = (State.completionStep { s with inst := i }).veil V :=
    blind_onUnit (veil_veil { s with inst := i }) fun u w => next_of (veil_veil (({ s with inst := i } : State).teardown u w).stamp.complete)
  refine onNext_alike h fun x y e => next_of ?_
  have hx : x.inst.veil V = y.inst.veil V := congrArg State.inst e
  have := congrArg (fun z : State => ({ z with inst := s.inst.veil V, peers := (s.peers.map (fun j => if j.id = i.id then y.inst else j)).map (fun j => j.veil V) } : State)) e
  refine Eq.trans ?_ this
  simp only [State.veil, List.map_map, State.mk.injEq, true_and, and_true, Inst.veil_veil]
  refine List.map_congr_left fun j _ => ?_
  simp only [Function.comp]
  rw [show (j.veil V).id = j.id from rfl, show (i.veil V).id = i.id from rfl]
  split
  · exact hx
  · exact Inst.veil_veil _

/-- No action reads what the veil hides. -/
theorem blind_agentStep : BlindR V State.agentStep := by
  intro s
  unfold State.agentStep
  rw [envDue_veil, unitDue_veil, handlerDue_veil, finisherDue_veil]
  split
  · next m _ => exact blind_env m { s with env := s.env.tail }
  · split
    · next u w _ => exact blind_unitStep u w s
    · split
      · next u _ => exact next_of (blind_handler u s)
      · cases s.finisherDue with
        | none => exact blind_sequence s
        | some i => exact blind_finish s i

theorem veil_hideEvt (s : State) : s.veil .hideEvt = s.forgetEvt := rfl

theorem Result.veil_hideEvt (o : Result) : o.veil .hideEvt = Result.forgetEvt o := by cases o <;> rfl

theorem veil_hideRst (s : State) : s.veil .hideRst = { s with rst := [] } := by
  simp only [State.veil, Veil.hideRst, Inst.veil, List.map_id']

/-- An action with no reset to come is the action with one to come, but for a build, which shortens the wait for it (R321). -/
theorem agentStep_rst {s m : State} (h : State.agentStep { s with rst := [] } = .next m) (hp : m.past = s.past) :
    s.agentStep = .next { m with rst := s.rst } := by
  have e := blind_agentStep (V := .hideRst) s
  rw [veil_hideRst, h] at e
  cases ha : s.agentStep with
  | next x =>
    rw [ha] at e
    simp only [Result.veil, veil_hideRst, Host.Outcome.next.injEq] at e
    have hx : x.past = s.past := by rw [← hp]; exact (congrArg State.past e).symm
    rcases State.acts_past (State.agentStep_acts ha) with ⟨-, hr⟩ | ⟨o, ho⟩
    · have := congrArg (fun y : State => ({ y with rst := s.rst } : State)) e
      simp only at this
      rw [Host.Outcome.next.injEq]
      rw [this, ← hr]
    · rw [hx] at ho; exact absurd ho (by simp)
  | fault f => rw [ha] at e; cases e
  | refused f => rw [ha] at e; cases e

/-- So is a fault or a refusal. -/
theorem agentStep_rst_stops (s : State) :
    (∀ f, State.agentStep { s with rst := [] } = .fault f → s.agentStep = .fault f) ∧
    ∀ f, State.agentStep { s with rst := [] } = .refused f → s.agentStep = .refused f := by
  have e := blind_agentStep (V := .hideRst) s
  rw [veil_hideRst] at e
  refine ⟨fun f h => ?_, fun f h => ?_⟩ <;> rw [h] at e <;> cases ha : s.agentStep <;> rw [ha] at e <;> cases e <;> rfl

end Sys2Proof.Machine
end

