-- ==== Sys2Proof/Machine/HostSide.lean ====
section
/-! DEFINITION. HostSide.lean: the written syntax of commands (R110) and the pseudo-commands of the excluded strip layer with
their expansions into host moves (R111, R112, R324). -/

namespace Sys2Proof.Machine

/-- The written form of a command: the mnemonic, then its operands in the order a, b, c (R110). Only commands have one. -/
def writtenForm : Instr → Option String
  | .setPin p => some ("SET_PIN " ++ toString p.toNat)
  | .beginPin => some "BEGIN"
  | .endPin => some "END"
  | .updateLength n => some ("UPDATE_LENGTH " ++ toString n.toNat)
  | .transmit buf len dly =>
    some ("TRANSMIT " ++ toString buf.toNat ++ ", " ++ toString len.toNat ++ ", " ++ toString dly.toNat)
  | _ => none

/-- A command as a move of the host: its word on the command port (R90). -/
def commandMove (c : Config) (i : Instr) : List HostMove :=
  match encode c i with
  | .cmd w => [.cmd w]
  | _ => []

/-- A program: a sequence of commands, the next issued only after `done` of the previous (R110). -/
def program (c : Config) (is : List Instr) : List HostMove := is.flatMap (commandMove c)

/-- `show` = TRANSMIT pixels, numBytes, DESC.LATCH_US (R112). -/
def showFrame (c : Config) (pixels : Addr) (numBytes : Count) : List HostMove :=
  commandMove c (.transmit pixels numBytes (BitVec.ofNat 32 c.desc.latchUs))

/-- The host writes bytes into its pixel buffer, from its first address on (R77). -/
def writeBytes (pixels : Addr) (bytes : List Byte) : List HostMove :=
  bytes.zipIdx.map (fun p => .write (pixels + BitVec.ofNat 32 p.2) p.1)

/-- The host zeroes n x BPP bytes of its pixel buffer (R112, R327 (g)). -/
def zeroBuffer (pixels : Addr) (nBytes : Nat) : List HostMove := writeBytes pixels (List.replicate nBytes 0)

/-- The strip layer's `updateLength(n pixels)`: a zeroed buffer of n x BPP bytes, then UPDATE_LENGTH n x BPP (R112). -/
def stripUpdateLength (c : Config) (pixels : Addr) (nPixels : Nat) : List HostMove :=
  zeroBuffer pixels (nPixels * c.desc.bpp) ++
  commandMove c (.updateLength (BitVec.ofNat 16 (nPixels * c.desc.bpp)))

/-- Destruction of an instance = END then UPDATE_LENGTH 0 (R112). -/
def destruction (c : Config) : List HostMove := program c [.endPin, .updateLength 0]

/-- Boot order from a built instance: SET_PIN, BEGIN, the zeroed buffer with UPDATE_LENGTH, the colour bytes in wire order, then the
first `show`; steps 2 and 3 may be swapped, and on a BITBANG instance step 5 has no effect (R324). -/
def bootOrder (c : Config) (p : Pin) (pixels : Addr) (nPixels : Nat) (colours : List Byte) : List HostMove :=
  program c [.setPin p, .beginPin] ++ stripUpdateLength c pixels nPixels ++ writeBytes pixels colours ++
  showFrame c pixels (BitVec.ofNat 16 (nPixels * c.desc.bpp))

end Sys2Proof.Machine
end

