-- ==== Sys2Proof/Tests/Slice0.lean ====
section
/-! SUPPORT. Slice0.lean: tests. The smoke of WellFormed, decodings written out from spec/30_encoding.md, single steps with results
from spec/95_test_vectors.md (each named by its id there), and a witness of the hypotheses of every obligation that has any. -/

namespace Sys2Proof.Tests

open Sys2Proof.Machine

/-! ## Small states -/

/-- A reset platform with one BITBANG instance of REFCFG. -/
def bb : State := State.resetWith Platform.ref (Config.ref .bitbang)

/-- A reset platform with one PWMDMA instance of REFCFG. -/
def pw : State := State.reset

/-- SET_PIN 6 and BEGIN done. -/
def onPin6 (s : State) : State :=
  { s with
    gpio := s.gpio.set 6 { dir := .output, out := false }
    inst := { s.inst with pin := 6, begun := true } }

/-- A TRANSMIT of the bytes from 0x2000 on, in a state of FSM, in cycle t. -/
def sending (s : State) (f : Fsm) (t : Nat) (bytes : List Byte) : State :=
  { onPin6 s with
    t := t
    mem := bytes.zipIdx.map (fun p => (0x2000 + p.2, p.1))
    inst := { (onPin6 s).inst with
      fsm := f, buf := 0x2000, len := BitVec.ofNat 16 bytes.length, dly := 300, cmd := .transmit, waitStart := t } }

/-- The claimed unit 0 of a playback of SEQ entries, started in cycle t. -/
def unit0 (t : Nat) (seq : BitVec 20) : PwmUnit :=
  { PwmUnit.reset with
    enable := true, prescaler := 1, top := 25, playcnt := 1, seqCnt := seq, pselConnected := true, pselPin := 6, run := true,
    start := t, due := t }

/-- An instance PLAYING on unit 0 with a duty RAM of ten entries. -/
def playing (t : Nat) (duty : DutyRam) : State :=
  let s := sending pw .playing t [0xA5]
  { s with
    pwm := s.pwm.set 0 (unit0 t 10)
    registry := s.registry.set 0 (some 0)
    inst := { s.inst with unit := some 0, active := true, dutyCap := 10, duty := duty } }

/-- An instance that has claimed unit 0 and encodes, in 40 cycles. -/
def encoding : State :=
  { sending pw .encoding 6000 [0xA5] with
    encDraws := [40]
    pwm := pw.pwm.set 0 { PwmUnit.reset with enable := true }
    inst := { (sending pw .encoding 6000 [0xA5]).inst with unit := some 0, dutyCap := 10 } }

/-- A request that is always high from cycle a on. -/
def highFrom (a : Nat) : Window := { start := a, len := 1, period := 1, phase := 0 }

/-- Another user's move, which changes pin 0. -/
def elsewhere : EnvMove := .gpio 0 .output true

/-- A test on the next state; false for a fault or a refusal. -/
def yields (o : Result) (p : State → Bool) : Bool :=
  match o with
  | .next s => p s
  | .fault _ => false
  | .refused _ => false

/-- A test on a refusal. -/
def refuses (o : Result) (r : Refusal) : Bool :=
  match o with
  | .next _ => false
  | .fault _ => false
  | .refused q => decide (q = r)

/-- A test on a fault. -/
def faults (o : Result) (r : Fault) : Bool :=
  match o with
  | .next _ => false
  | .fault q => decide (q = r)
  | .refused _ => false

/-- A platform row with other durations. -/
def withTimes (a b c d : Nat) : Desc := { Config.refWs2812 with t0h := a, t0l := b, t1h := c, t1l := d }

/-! ## WellFormed: each check refuses an ill-formed term -/

theorem test_wf_reference :
    Platform.ref.wf = true ∧ (Config.ref .pwmdma).wf Platform.ref = true ∧ (Config.ref .bitbang).wf Platform.ref = true := by
  decide

theorem test_wf_platform :
    Platform.wf { Platform.ref with fClk := 0 } = false ∧ Platform.wf { Platform.ref with fClk := 20500000 } = false ∧
    Platform.wf { Platform.ref with nPins := 257 } = false ∧ Platform.wf { Platform.ref with nPins := 256 } = true ∧
    (Config.ref .bitbang).wf { Platform.ref with fClk := 20500000 } = false := by
  decide

/-- REFCFG with another row for its TYPE. -/
def withRow (d : Desc) : Config := { Config.ref .bitbang with table := Config.refTable.setRow .ws2812 d }

/-- R165 at 20 MHz: 200 to 500 ns are 4 to 10 cycles, 650 to 950 ns are 13 to 19. -/
theorem test_wf_zero_bit :
    [(3, 16), (11, 16), (7, 12), (7, 20)].map (fun x : Nat × Nat => zeroBitWf Platform.ref .ws2812 x.1 x.2)
      = [false, false, false, false] ∧
    [(4, 13), (10, 19)].map (fun x : Nat × Nat => zeroBitWf Platform.ref .ws2812 x.1 x.2) = [true, true] ∧
    (withRow (withTimes 3 20 14 12)).wf Platform.ref = false ∧ (withRow (withTimes 4 19 14 12)).wf Platform.ref = true := by
  decide

/-- R101, R338: the same tolerance for the 0-bits of the fallback engine (50 ns high) and of a PWM unit. -/
theorem test_wf_zero_bit_of_each_waveform :
    [{ Config.refK800 with fbT0H := 1 }, { Config.refK800 with duty0 := 0x8001#16 }].map
      (fun k => Config.wf { Config.ref .pwmdma with k800 := k } Platform.ref) = [false, false] ∧
    Config.wf { Config.ref .pwmdma with k800 := { Config.refK800 with fbT0H := 6 } } Platform.ref = true := by
  decide

/-- R244: both symbols of a K800 row take about 25 cycles of 50 ns. -/
theorem test_wf_symbol_totals :
    (withRow (withTimes 7 16 1000000 1)).wf Platform.ref = false ∧
    Config.wf { withRow (withTimes 7 16 14 12) with symbolTol := 99 } Platform.ref = false ∧
    Config.wf { withRow (withTimes 7 16 14 12) with symbolTol := 150 } Platform.ref = true := by
  decide

theorem test_wf_duration_positive :
    [withTimes 0 16 14 12, withTimes 7 0 14 12, withTimes 7 16 0 12, withTimes 7 16 14 0].map (Desc.timesWf .ws2812)
      = [false, false, false, false] := by
  decide

theorem test_wf_duration_bound :
    [withTimes (2 ^ 32) 16 (2 ^ 32 + 1) 12, withTimes 7 (2 ^ 32) 14 12, withTimes 7 16 (2 ^ 32) 12,
      withTimes 7 16 14 (2 ^ 32)].map (Desc.timesWf .ws2812) = [false, false, false, false] := by
  decide

theorem test_wf_one_is_longer :
    Desc.timesWf .ws2812 (withTimes 14 16 14 12) = false ∧ Desc.timesWf .tm1829 (withTimes 14 12 14 12) = false ∧
    Desc.timesWf .tm1829 (withTimes 16 6 6 16) = true ∧ Desc.timesWf .tm1829 (withTimes 6 16 16 6) = true := by
  decide

theorem test_wf_fields :
    Desc.fieldsWf .ws2811 { Config.refWs2812 with bpp := 4 } = false ∧
    Desc.fieldsWf .sk6812rgbw Config.refWs2812 = false ∧
    Desc.fieldsWf .sk6812rgbw { Config.refWs2812 with bpp := 4 } = false ∧
    Desc.fieldsWf .sk6812rgbw { Config.refWs2812 with bpp := 4, order := .rgbw } = true ∧
    Desc.fieldsWf .ws2811 { Config.refWs2812 with latchUs := 23 } = false ∧
    Desc.fieldsWf .ws2811 { Config.refWs2812 with latchUs := 501 } = false ∧
    Desc.fieldsWf .ws2812 { Config.refWs2812 with latchUs := 299 } = false := by
  decide

theorem test_wf_every_row :
    ([.ws2811, .ws2812, .ws2813, .sk6812rgbw, .tm1803, .tm1829] : List Chip).all (fun c =>
      !Table.wf (Config.refTable.setRow c { Config.refTable.row c with bpp := 5 }) &&
      !Table.wf (Config.refTable.setRow c { Config.refTable.row c with t0h := 0 }) &&
      !Table.wf (Config.refTable.setRow c { Config.refTable.row c with t1h := (Config.refTable.row c).t0h })) = true := by
  decide

/-- At 2 MHz no WS2812 row is within its tolerance; a TM1803 instance is built there all the same (log 19). -/
theorem test_wf_unused_row :
    let p : Platform := { Platform.ref with fClk := 2000000 }
    let t := Config.refTable.setRow .tm1803 { Config.refTable.tm1803 with t0h := 1, t0l := 3, t1h := 3, t1l := 1 }
    Config.wf { Config.ref .bitbang with chip := .tm1803, table := t, symbolTol := 500 } p = true ∧
    Config.wf { Config.ref .bitbang with table := t, symbolTol := 500 } p = false := by
  decide

/-- R247: both ends of LATCH_US are attained. -/
theorem test_wf_latch_ends :
    Table.wf { Config.refTable with tm1803 := { Config.refTable.tm1803 with latchUs := 25 } } = false ∧
    Table.wf { Config.refTable with tm1829 := { Config.refTable.tm1829 with latchUs := 499 } } = false := by
  decide

theorem test_wf_duty_constants :
    [{ Config.refK800 with duty0 := 0x0007#16 }, { Config.refK800 with duty1 := 0x000E#16 },
      { Config.refK800 with duty0 := 0x8000#16 }, { Config.refK800 with duty0 := 0x800E#16 },
      { Config.refK800 with duty1 := 0x8019#16 }, { Config.refK800 with top := 1#15 }].map ClassParams.dutyWf
      = [false, false, false, false, false, false] := by
  decide

theorem test_wf_fallback_constants :
    [{ Config.refK800 with fbT0H := 0 }, { Config.refK800 with fbT0H := 14 }, { Config.refK800 with fbT1H := 25 },
      { Config.refK800 with fbPeriod := 2 ^ 32 }].map ClassParams.fbWf = [false, false, false, false] := by
  decide

theorem test_wf_config :
    [{ Config.ref .bitbang with termN := 0 }, { Config.ref .bitbang with termN := 3 },
      { Config.ref .bitbang with backoffUs := 2 ^ 32 },
      { Config.ref .bitbang with table := Config.refTable.setRow .ws2812 (withTimes 0 0 0 0) }].map
      (fun c => c.wf Platform.ref) = [false, false, false, false] := by
  decide

theorem test_wf_pwm :
    [{ Config.ref .pwmdma with prescale := 0#16 }, { Config.ref .pwmdma with k400 := { Config.refK400 with duty0 := 0x000A#16 } },
      { Config.ref .pwmdma with k800 := { Config.refK800 with duty0 := 0x0007#16 } },
      { Config.ref .pwmdma with k400 := { Config.refK400 with fbT0H := 0 } },
      { Config.ref .pwmdma with k800 := { Config.refK800 with fbT0H := 0 } }].map (fun c => c.pwmWf Platform.ref)
      = [false, false, false, false, false] ∧
    Config.wf { Config.ref .pwmdma with prescale := 0#16 } Platform.ref = false ∧
    Config.wf { Config.ref .bitbang with prescale := 0#16 } Platform.ref = true := by
  decide

/-- R186: TOP x PRESCALE is the bit period, 25 cycles of 50 ns in K800, 50 in K400, to within the tolerance. -/
theorem test_wf_period :
    let k (top : BitVec 15) (tol : Nat) : Config := { Config.ref .pwmdma with k800 := { Config.refK800 with top := top }, periodTol := tol }
    (k 25 0).wf Platform.ref = true ∧ (k 26 49).wf Platform.ref = false ∧ (k 26 50).wf Platform.ref = true ∧
    (k 24 49).wf Platform.ref = false ∧ (k 24 50).wf Platform.ref = true ∧
    Config.wf { Config.ref .pwmdma with k400 := { Config.refK400 with top := 51#15 } } Platform.ref = false ∧
    Config.wf { Config.ref .pwmdma with prescale := 2#16 } Platform.ref = false := by
  decide

theorem test_wf_instr_duty :
    [Instr.dutyZero 0, .dutyZero 14, .dutyOne 13].map (Instr.wf (Config.ref .pwmdma)) = [false, false, false] ∧
    Instr.wf { Config.ref .pwmdma with k800 := { Config.refK800 with duty1 := 0x8000#16 } } (.dutyOne 0) = false := by
  decide

theorem test_wf_instr_symbols :
    [Instr.fbSym0, .fbSym1].map (Instr.wf { Config.ref .bitbang with k800 := { Config.refK800 with fbT0H := 0 } })
      = [false, false] ∧
    [Instr.pwmSym0, .pwmSym1, .pwmTerm].map
      (Instr.wf { Config.ref .bitbang with k800 := { Config.refK800 with top := 1#15 } }) = [false, false, false] ∧
    [Instr.pwmSym0, .pwmSym1, .pwmTerm].map (Instr.wf { Config.ref .bitbang with prescale := 0#16 })
      = [false, false, false] := by
  decide

/-! ## Decoding: words written out from the encodings (R90 to R108) -/

/-- E-1 to E-5: the words of spec/95_test_vectors.md. -/
theorem test_decode_commands :
    decodeCmd 0x1000000060000000000000000#100 = .setPin 6 ∧
    decodeCmd 0x1FFFFFF06123456789ABCDEF0#100 = .setPin 6 ∧
    decodeCmd 0x2000000000000000000000000#100 = .beginPin ∧
    decodeCmd 0x3000000000000000000000000#100 = .endPin ∧
    decodeCmd 0x4000102000000000000000000#100 = .updateLength 512 ∧
    decodeCmd 0x500002000000100030000012C#100 = .transmit 0x2000 3 300 ∧
    decodeCmd 0x500002000000100000000012C#100 = .transmit 0x2000 0 300 := by
  decide

/-- E-6. -/
theorem test_decode_reserved_opcodes :
    [0x0000000000000000000000000#100, 0x6000000000000000000000001#100, 0x7000000000000000000000000#100,
      0x8000000000000000000000000#100, 0x9DEADBEEF0000000000000000#100, 0xA000000000000000000000000#100,
      0xB000000000000000000000000#100, 0xC000000000000000000000000#100, 0xD000000000000000000000000#100,
      0xE000000000000000000000000#100, 0xFFFFFFFFFFFFFFFFFFFFFFFFF#100].map decodeCmd = reservedInstrs := by
  decide

/-- R102 to R105 with REFCFG K800. -/
theorem test_decode_duty :
    decodeDuty 0x800E#16 0b1000000000000111#16 = .dutyZero 7 ∧ decodeDuty 0x800E#16 0b1000000000001110#16 = .dutyOne 14 ∧
    decodeDuty 0x800E#16 0b1000000000000000#16 = .dutyTerm ∧ decodeDuty 0x800E#16 0b0000000000000111#16 = .dutyReserved 7 ∧
    decodeDuty 0x800E#16 0x0000#16 = .dutyReserved 0 := by
  decide

/-- R106, R107. -/
theorem test_decode_types :
    [0b000#3, 0b001#3, 0b010#3, 0b011#3, 0b100#3, 0b101#3, 0b110#3, 0b111#3].map decodeChip
      = [.typeWs2811, .typeWs2812, .typeWs2813, .typeSk6812rgbw, .typeTm1803, .typeTm1829, .typeReserved6,
          .typeReserved7] := by
  decide

/-- R108. -/
theorem test_decode_orders :
    [0b00#2, 0b01#2, 0b10#2, 0b11#2].map decodeOrder = [.orderRgb, .orderGrb, .orderRbg, .orderRgbw] := by
  decide

/-- The symbols of REFCFG as spec/95_test_vectors.md 2.3 to 2.5 gives them; segments of no engine are no symbol. -/
theorem test_decode_wire :
    decodeWire (Config.ref .bitbang) .bitbang [(true, 7), (false, 16)] = some .sym0 ∧
    decodeWire (Config.ref .bitbang) .bitbang [(true, 14), (false, 12)] = some .sym1 ∧
    decodeWire (Config.ref .pwmdma) .fallback [(true, 7), (false, 18)] = some .fbSym0 ∧
    decodeWire (Config.ref .pwmdma) .fallback [(true, 14), (false, 11)] = some .fbSym1 ∧
    decodeWire (Config.ref .pwmdma) .pwm [(true, 7), (false, 18)] = some .pwmSym0 ∧
    decodeWire (Config.ref .pwmdma) .pwm [(true, 14), (false, 11)] = some .pwmSym1 ∧
    decodeWire (Config.ref .pwmdma) .pwm [(false, 25)] = some .pwmTerm ∧
    decodeWire (Config.ref .bitbang) .bitbang [(true, 7), (false, 18)] = none ∧
    decodeWire (Config.ref .pwmdma) .fallback [(false, 25)] = none ∧
    decodeWire (Config.ref .pwmdma) .pwm [(true, 25)] = none := by
  decide

/-- W-7: the K400 class has its own symbols. -/
theorem test_decode_wire_k400 :
    decodeWire { Config.ref .pwmdma with chip := .ws2811 } .pwm [(true, 24), (false, 26)] = some .pwmSym1 ∧
    decodeWire { Config.ref .pwmdma with chip := .ws2811 } .pwm [(true, 10), (false, 40)] = some .pwmSym0 ∧
    decodeWire { Config.ref .pwmdma with chip := .ws2811 } .fallback [(true, 10), (false, 40)] = some .fbSym0 := by
  decide

/-- The numbering of spec/opcode_table.json; words wider than their format are no words of it. -/
theorem test_decode_table_words :
    decodeTableWord 104 0x1000000060000000000000000 = some (.setPin 6) ∧ decodeTableWord 16 0x800E = some (.dutyOne 14) ∧
    decodeTableWord 8 5 = some .typeTm1829 ∧ decodeTableWord 2 3 = some .orderRgbw ∧ decodeTableWord 104 (2 ^ 100) = none ∧
    decodeTableWord 16 0x10000 = none ∧ decodeTableWord 8 8 = none ∧ decodeTableWord 2 4 = none := by
  decide

/-- The first step after reset runs the word placed. -/
theorem test_fetch_words :
    yields (step (State.reset.withFetchWord 104 0x1000000060000000000000000)) (fun t => t.inst.pin == 6) = true ∧
    yields (step (State.reset.withFetchWord 16 0x8007)) (fun t => (t.pwmAt 0).map (·.fetched) == some (some 0x8007)) = true ∧
    yields (step (State.reset.withFetchWord 8 4)) (fun t => t.inst.cfg.chip == .tm1803) = true ∧
    yields (step (State.reset.withFetchWord 2 2)) (fun t => t.inst.cfg.desc.order == .rbg) = true ∧
    refuses (step (State.reset.withFetchWord 8 6)) .reservedTypeTag = true ∧
    refuses (step (State.reset.withFetchWord 16 0x0007)) .reservedDutyEntry = true := by
  decide

/-! ## Commands: SET_PIN, BEGIN, END, UPDATE_LENGTH, the reserved opcodes -/

/-- P-1: before BEGIN only PIN changes. -/
theorem test_set_pin_idle : yields (exec (.setPin 6) bb) (fun t => t.inst.pin == 6 && t.gpio == bb.gpio) = true := by decide

/-- P-3: the old pin becomes an input, the new one an output, low. -/
theorem test_set_pin_begun :
    yields (exec (.setPin 7) (onPin6 bb)) (fun t =>
      (t.pinState 6).dir == .input && t.pinState 7 == { dir := .output, out := false } && t.inst.pin == 7) = true := by
  decide

/-- P-2: line 6 goes from Z to L. -/
theorem test_begin :
    yields (exec .beginPin { bb with inst := { bb.inst with pin := 6 } }) (fun t =>
      t.pinState 6 == { dir := .output, out := false } && t.inst.begun && t.lineLevel 6 == .l) = true := by
  decide

/-- P-8: pin 40 does not resolve. -/
theorem test_begin_bad_pin :
    yields (exec .beginPin { bb with inst := { bb.inst with pin := 40 } }) (fun t =>
      t.gpio == bb.gpio && t.inst.begun && t.inst.evt == 0x40) = true := by
  decide

/-- P-6: line 6 goes from L to Z. -/
theorem test_end :
    yields (exec .endPin (onPin6 bb)) (fun t =>
      t.pinState 6 == { dir := .input, out := false } && !t.inst.begun && t.lineLevel 6 == .z) = true := by
  decide

/-- W-1, W-2, W-3, W-5: the capacity and the event. -/
theorem test_update_length :
    [3#16, 511#16, 512#16, 65535#16].map (fun n =>
      yields (exec (.updateLength n) pw) (fun t => (t.inst.dutyCap, t.inst.evt) ==
        (if n = 3 then (26, 0) else if n = 511 then (4090, 0) else (0, 1)))) = [true, true, true, true] := by
  decide

/-- W-4. -/
theorem test_update_length_zero :
    yields (exec (.updateLength 0) { pw with inst := { pw.inst with dutyCap := 26 } }) (fun t =>
      t.inst.dutyCap == 0 && t.inst.evt == 0) = true := by
  decide

/-- E-6: BAD_CMD, `done`, nothing else. -/
theorem test_reserved_opcodes :
    reservedInstrs.all (fun i => yields (exec i pw) (fun t =>
      t.inst.evt == 0x20 && t.done && t.obs.dones == [⟨0, 0⟩] && t.t == 0)) = true := by
  decide

/-- B-5, B-6, L-10: the no-op TRANSMIT completes at once, END_TIME unchanged. -/
theorem test_transmit_noop :
    yields (exec (.transmit 0 3 300) { bb with t := 2 }) (fun t =>
      t.inst.evt == 0x10 && t.obs.dones == [⟨0, 2⟩] && t.inst.endTime == 0) = true ∧
    yields (exec (.transmit 0x2000 0 300) pw) (fun t => t.inst.evt == 0x10 && t.obs.dones == [⟨0, 0⟩]) = true := by
  decide

/-- R62: the last address is in, one more byte wraps. -/
theorem test_transmit_top :
    yields (exec (.transmit 0xFFFFFFFF 1 300) bb) (fun t => t.inst.fsm == .waitLatch) = true ∧
    refuses (exec (.transmit 0xFFFFFFFF 2 300) bb) .bufferWraps = true := by
  decide

/-! ## Wire symbols -/

/-- 2.3: (H, 7) (L, 16) and (H, 14) (L, 12). -/
theorem test_sym :
    yields (exec .sym0 (sending bb .bbHigh 6000 [0])) (fun t => t.t == 6023 &&
      t.obs.wave == [⟨6, 6000, .h, 7⟩, ⟨6, 6007, .l, 16⟩]) = true ∧
    yields (exec .sym1 (sending bb .bbHigh 6000 [0])) (fun t => t.t == 6026 &&
      t.obs.wave == [⟨6, 6000, .h, 14⟩, ⟨6, 6014, .l, 12⟩]) = true := by
  decide

/-- B-7 and B-8: a stall over [6003, 6013) in the first high phase, COUNTED and CYCCMP. -/
theorem test_sym_stalled :
    let s := { sending bb .bbHigh 6000 [0] with nmi := [Window.once 6003 6013] }
    let c := { s with inst := { s.inst with
      irqMask := true, bitStart := 6000, cfg := { s.inst.cfg with holdKind := .cyccmp } } }
    yields (exec .sym0 s) (fun t => t.t == 6033 && t.obs.wave == [⟨6, 6000, .h, 17⟩, ⟨6, 6017, .l, 16⟩]) = true ∧
    yields (exec .sym0 c) (fun t => t.t == 6029 && t.obs.wave == [⟨6, 6000, .h, 13⟩, ⟨6, 6013, .l, 16⟩]) = true := by
  decide

/-- 2.5: (H, 7) (L, 18) and (H, 14) (L, 11). -/
theorem test_fb_sym :
    yields (exec .fbSym0 (sending pw .fbHigh 6000 [0])) (fun t => t.t == 6025 &&
      t.obs.wave == [⟨6, 6000, .h, 7⟩, ⟨6, 6007, .l, 18⟩]) = true ∧
    yields (exec .fbSym1 (sending pw .fbHigh 6000 [0])) (fun t => t.t == 6025 &&
      t.obs.wave == [⟨6, 6000, .h, 14⟩, ⟨6, 6014, .l, 11⟩]) = true := by
  decide

/-- F-4 and F-8: a late set_low shortens the low part; one past the period leaves none. -/
theorem test_fb_sym_stalled :
    yields (exec .fbSym0 { sending pw .fbHigh 6000 [0] with nmi := [Window.once 6005 6010] }) (fun t => t.t == 6025 &&
      t.obs.wave == [⟨6, 6000, .h, 10⟩, ⟨6, 6010, .l, 15⟩]) = true ∧
    yields (exec .fbSym0 { sending pw .fbHigh 6000 [0] with nmi := [Window.once 6004 6040] }) (fun t => t.t == 6040 &&
      t.obs.wave == [⟨6, 6000, .h, 40⟩]) = true := by
  decide

/-- F-11: one free cycle in 32 stretches each bit to 32 cycles, 256 in an attempt, past the 250 the check allows. -/
theorem test_resend_loop :
    let w : Window := { start := 0, len := 31, period := 32, phase := 15 }
    let c := { sending pw .fbCheck 6256 [0] with
      nmi := [w], inst := { (sending pw .fbCheck 6256 [0]).inst with cycStart := 6000, unmaskedAt := some 6256 } }
    yields (exec .fbSym0 { sending pw .fbHigh 6000 [0] with nmi := [w], inst := { (sending pw .fbHigh 6000 [0]).inst with irqMask := true } })
      (fun t => t.t == 6032) = true ∧
    yields (step c) (fun t => t.inst.fsm == .fbBackoff && t.inst.retries == 1) = true := by
  decide

/-- R336 (U2): a high phase no cycle ends: the line stays high and time passes. -/
theorem test_stuck :
    let s := { sending bb .bbHigh 6000 [0] with nmi := [highFrom 6003], inst := { (sending bb .bbHigh 6000 [0]).inst with irqMask := true } }
    yields (step s) (fun t => t.inst.stuck && t.t == 6001 &&
      yields (step t) (fun u => u.t == 6002 && u.obs.wave == [⟨6, 6000, .h, 1⟩, ⟨6, 6001, .h, 1⟩])) = true := by
  decide

/-- U10: two units on line 6, one playing high, one stopped: the level is the free value; with one it is that one's. -/
theorem test_contested_line :
    let s := playing 6000 [(0, 0x800E)]
    let two := { s with pwm := s.pwm.set 1 { unit0 6000 10 with run := false } }
    s.lineLevel 6 = .h ∧ two.lineLevel 6 = contestedLevel 0 6 6000 := ⟨by decide, rfl⟩

/-- R41, D27: a connected unit takes the line from GPIO, low while RUN = 0, whatever its ENABLE; a disconnected one does not. -/
theorem test_connected_unit_takes_the_line :
    let high := { (onPin6 bb) with gpio := bb.gpio.set 6 { dir := .output, out := true } }
    yields (high.envMove (.unit 1 false true 6)) (fun t => t.lineLevel 6 == .l && t.restLevel 6 == some .l) = true ∧
    yields (high.envMove (.unit 1 true false 6)) (fun t => t.lineLevel 6 == .h && t.restLevel 6 == some .h) = true := by
  decide

/-- R18, U10: the level of a line in a cycle from its record: the drivers' where they agree, the free value where they do not, none
where nothing is recorded. -/
theorem test_line_level_at :
    let o : Obs := { Obs.empty with wave := [⟨6, 10, .h, 5⟩, ⟨7, 10, .l, 9⟩, ⟨6, 12, .l, 8⟩] }
    o.levelAt 0 6 11 = some .h ∧ o.levelAt 0 6 15 = some .l ∧ o.levelAt 0 6 20 = none ∧
    o.levelAt 0 6 12 = some (contestedLevel 0 6 12) := ⟨by decide, by decide, by decide, rfl⟩

/-- R64, U11: an entry nobody has written is a free value. -/
theorem test_duty_unwritten : pw.dutyEntry pw.inst 3 = Config.freeDutyEntry 0 0 0 3 := rfl

/-- R200 at REFCFG: W = 25, h0 = 7, h1 = 14. -/
theorem test_pwm_sym :
    yields (exec .pwmSym0 (playing 6000 [])) (fun t => t.t == 6000 &&
      t.obs.wave == [⟨6, 6000, .h, 7⟩, ⟨6, 6007, .l, 18⟩] && (t.pwmAt 0).map (·.due) == some 6025) = true ∧
    yields (exec .pwmSym1 (playing 6000 [])) (fun t =>
      t.obs.wave == [⟨6, 6000, .h, 14⟩, ⟨6, 6014, .l, 11⟩]) = true ∧
    yields (exec .pwmTerm (playing 6000 [])) (fun t =>
      t.obs.wave == [⟨6, 6000, .l, 25⟩] && (t.pwmAt 0).map (·.pos) == some 1) = true := by
  decide

/-- The DMA read of an entry, and an entry with P = 0 (R105). -/
theorem test_duty_entries :
    yields (step (playing 6000 [(0, 0x800E)])) (fun t => (t.pwmAt 0).map (·.fetched) == some (some 0x800E)) = true ∧
    yields (exec (.dutyZero 7) (playing 0 [])) (fun t => (t.pwmAt 0).map (·.fetched) == some (some 0x8007)) = true ∧
    yields (exec .dutyTerm (playing 0 [])) (fun t => (t.pwmAt 0).map (·.fetched) == some (some 0x8000)) = true ∧
    refuses (step (playing 6000 [(0, 0x000E)])) .reservedDutyEntry = true := by
  decide

/-! ## Building -/

/-- R106, T-6: the six tags build; the other two do not, nor any on an ill-formed platform (U6). -/
theorem test_types :
    [0#3, 1#3, 2#3, 3#3, 4#3, 5#3].map (fun w => yields (exec (decodeChip w) pw) (fun t =>
      t.inst.cfg.chip == ([Chip.ws2811, .ws2812, .ws2813, .sk6812rgbw, .tm1803, .tm1829].getD w.toNat .ws2811)))
      = [true, true, true, true, true, true] ∧
    refuses (exec .typeReserved6 pw) .reservedTypeTag = true ∧ refuses (exec .typeReserved7 pw) .reservedTypeTag = true ∧
    refuses (exec .typeWs2812 { bb with plat := { Platform.ref with fClk := 20500000 } }) .illFormedConfig = true := by
  decide

/-- R108, R250. -/
theorem test_orders :
    [0#2, 1#2, 2#2, 3#2].map (fun w => yields (exec (decodeOrder w) pw) (fun t =>
      t.inst.cfg.desc.order == ([Order.rgb, .grb, .rbg, .rgbw].getD w.toNat .rgb))) = [true, true, true, true] ∧
    refuses (exec .orderGrb { pw with inst := { pw.inst with cfg := { pw.inst.cfg with chip := .sk6812rgbw } } })
      .illFormedConfig = true := by
  decide

/-- T-1, T-2, T-3, T-4: durations in cycles. -/
theorem test_cycles_of_ns :
    [(20000000, 350), (20000000, 800), (16000000, 350), (16000000, 800), (64000000, 350), (64000000, 800), (2000000, 250),
      (2000000, 200)].map (fun p : Nat × Nat => cyclesOfNs p.1 p.2) = [7, 16, 6, 13, 22, 51, 1, 0] := by
  decide

/-! ## The engines' steps -/

/-- L-1 and L-6: the wait of END_TIME = 1000, d = 300 from T = 20100 ends at 26000, or at 26010 under a stall; another agent's
move comes in its own cycle (R288). -/
theorem test_latch_wait :
    let s := { sending bb .waitLatch 20100 [0] with
      inst := { (sending bb .waitLatch 20100 [0]).inst with endTime := 1000 } }
    s.latchEnd = some 26000 ∧ ({ s with irq := [Window.once 25990 26010] } : State).latchEnd = some 26010 ∧
    yields (step { s with env := [(20105, elsewhere)] }) (fun t => t.t == 20105) = true := by
  decide

/-- R17, R132 (d): the condition of DLY = 0xFFFFFFFF holds for one microsecond, all of it stalled; the wait is over at the end of the
stall, also where another agent's move splits it. -/
theorem test_latch_over_in_a_stall :
    let due := (2 ^ 32 - 1) * 20
    let s := { sending bb .waitLatch (due - 5) [0] with
      irq := [Window.once due (due + 100)]
      inst := { (sending bb .waitLatch (due - 5) [0]).inst with dly := 0xFFFFFFFF } }
    yields (step s) (fun t => t.t == due + 100 && yields (step t) (fun u => u.inst.fsm == .bbHigh)) = true ∧
    yields (step { s with env := [(due + 50, elsewhere)] }) (fun t => t.t == due + 50 && t.latchOpen &&
      yields (step t) (fun u => yields (step u) (fun v => v.t == due + 100))) = true := by
  decide

/-- L-7: the difference wraps. -/
theorem test_latch_wraps :
    elapsed 0x20 0xFFFFFF00 300 = false ∧ elapsed 0x2B 0xFFFFFF00 300 = false ∧ elapsed 0x2C 0xFFFFFF00 300 = true := by
  decide

/-- W-6: the duty sequence of the byte 0xA5 in class K800; where another agent acts before, time passes to it (R288). -/
theorem test_encoding :
    yields (encoding.encodingStep) (fun t => t.t == 6040 && t.inst.active && t.inst.duty.map (·.2) ==
      [0x800E, 0x8007, 0x800E, 0x8007, 0x8007, 0x800E, 0x8007, 0x800E, 0x8000, 0x8000]) = true ∧
    yields (step { encoding with env := [(6010, elsewhere)] }) (fun t =>
      t.t == 6010 && t.inst.encEnd == some 6040 && !t.inst.active) = true := by
  decide

/-- W-9, W-10: the scan. -/
theorem test_scan :
    let s := onPin6 pw
    ({ s with pwm := (s.pwm.set 0 (unit0 0 1)).set 1 (unit0 0 1) } : State).scan = some 2 ∧
    ({ s with pwm := List.replicate 4 (unit0 0 1) } : State).scan = none := by
  decide

/-- F-6, F-7: 1000 > 1000 is false, 1004 > 1000 is true. -/
theorem test_self_check :
    let s (t : Nat) := { sending pw .fbCheck t [0] with
      inst := { (sending pw .fbCheck t [0]).inst with cycStart := 6000, irqMask := false } }
    yields (step (s 6250)) (fun t => t.inst.fsm == .idle && t.inst.endTime == 312 && t.inst.evt == 0) = true ∧
    yields (step (s 6251)) (fun t =>
      t.inst.fsm == .fbBackoff && t.inst.evt == 8 && t.inst.retries == 1 && t.inst.backoffStart == 312) = true := by
  decide

/-- F-9: the backoff begun at 6251 with t_b = 312 ends at 12240. -/
theorem test_backoff :
    let s := { sending pw .fbBackoff 6251 [0] with
      inst := { (sending pw .fbBackoff 6251 [0]).inst with backoffStart := 312 } }
    yields (step s) (fun t => t.t == 12240) = true := by
  decide

/-- X-2: a sequence end nobody plays is acknowledged and nothing else. -/
theorem test_seqend_unowned :
    let s := { pw with pend := pw.pend.set 3 true }
    yields (step s) (fun t => t == pw) = true := by
  decide

/-- X-4: `rst` at 6100 inside a frame: the state after reset, line 6 is Z from 6100 on, no stamp, no `done`; the moves of others up
to 6100 are overruled, the one in 6103 comes two cycles after the new time 0, 6101. -/
theorem test_rst :
    let s := { sending bb .bbHigh 6092 [0] with
      rst := [6100], env := [(6095, elsewhere), (6100, elsewhere), (6103, elsewhere)]
      inst := { (sending bb .bbHigh 6092 [0]).inst with irqMask := true } }
    yields (step s) (fun t => t.t == 0 && t.inst == Inst.reset 0 (Config.ref .bitbang) && t.lineLevel 6 == .z &&
      t.obs == Obs.empty && t.env == [(2, elsewhere)] &&
      t.past.map (·.wave) == [[⟨6, 6092, .h, 7⟩, ⟨6, 6099, .l, 1⟩, ⟨6, 6100, .z, 1⟩]]) = true := by
  decide

/-- R298, R321: with `rst` in two cycles running the command at the port is accepted in neither. -/
theorem test_rst_beats_the_command_port :
    let s := { bb with host := [.cmd 0x2000000000000000000000000#100], rst := [0, 1] }
    yields (step s) (fun t => t.host == s.host && t.rst == [0] && yields (step t) (fun u =>
      u.host == s.host && u.rst == [] && u.obs.dones == [] && u.past.all (fun o => o.dones == []) &&
      yields (step u) (fun v => v.host == [] && v.inst.begun))) = true := by
  decide

/-- R321, R195: the playback of a parked instance goes on up to the reset that cuts a WAIT: (H, 14) (L, 11), then high from 6025
to 6035. -/
theorem test_rst_parked_playback :
    let p := playing 6000 [(0, 0x800E), (1, 0x800E)]
    let s := { p with inst := Inst.reset 1 (Config.ref .bitbang), peers := [p.inst], pwm := p.pwm.set 0 (unit0 6000 2) }
    (s.obsBefore 6035).wave = [⟨6, 6000, .h, 14⟩, ⟨6, 6014, .l, 11⟩, ⟨6, 6025, .h, 10⟩] := by
  decide

/-- R111, R288: WAIT 10 lets another agent act in its cycle; the other six cycles stay to be waited. -/
theorem test_wait_split :
    yields (step { bb with host := [.wait 10], env := [(4, elsewhere)] }) (fun t => t.t == 4 && t.host == [.wait 6]) = true ∧
    yields (step { bb with host := [.wait 10] }) (fun t => t.t == 10 && t.host == []) = true := by
  decide

/-- R111, R321: of WAIT 10 from cycle 0 the three cycles 7 to 9 stay after `rst` in cycle 6, wherever another agent splits the wait
and where a second reset in cycle 7 takes one more. -/
theorem test_wait_over_reset :
    let s := { bb with host := [.wait 10, .cmd 0], rst := [6] }
    ([[], [(6, elsewhere)], [(8, elsewhere)]] : List (List (Nat × EnvMove))).all (fun e =>
      yields (step { s with env := e }) (fun t => t.t == 0 && t.host == [.wait 3, .cmd 0])) = true ∧
    yields (step { s with rst := [6, 7] }) (fun t => yields (step t) (fun u => u.host == [.wait 2, .cmd 0])) = true := by
  decide

/-- V2, R112: `updateLength` of four RGB pixels, twelve zero bytes and UPDATE_LENGTH 12. -/
theorem test_strip_update_length :
    stripUpdateLength (Config.ref .pwmdma) 0x2000 4 =
      (List.range 12).map (fun i => HostMove.write (0x2000 + BitVec.ofNat 32 i) 0) ++
      [.cmd 0x40000000C0000000000000000#100] := by
  decide

/-- R324: SET_PIN 6, BEGIN, three zero bytes, UPDATE_LENGTH 3, the three colour bytes, TRANSMIT 0x2000, 3, 300. -/
theorem test_boot_order :
    bootOrder (Config.ref .bitbang) 6 0x2000 1 [20, 10, 30] =
      [.cmd 0x1000000060000000000000000#100, .cmd 0x2000000000000000000000000#100, .write 0x2000 0, .write 0x2001 0,
        .write 0x2002 0, .cmd 0x4000000030000000000000000#100, .write 0x2000 20, .write 0x2001 10, .write 0x2002 30,
        .cmd 0x500002000000000030000012c#100] := by
  decide

/-- A parked instance 0 whose playback on unit 0 is over, ACTIVE = 0 or not, beside instance 1 in a state of FSM, in cycle t. -/
def parkedAtEnd (a : Bool) (f : Fsm) (t : Nat) : State :=
  let s := playing t []
  { s with
    inst := { Inst.reset 1 (Config.ref .bitbang) with fsm := f, dly := 9, endTime := 312, waitStart := t }
    peers := [{ s.inst with active := a }], pend := s.pend.set 0 a, pwm := s.pwm.set 0 { unit0 6000 10 with run := false, pos := 10 }
    host := [.wait 1000] }

/-- W-13, R197, R200, R306: with the host idle at another instance's port the handler, the tear-down, the stamp (END_TIME = 313) and
`done` come in cycle 6260, the first unstalled one; nothing waits for the host to turn. -/
theorem test_parked_completes_at_once :
    yields (step { parkedAtEnd true .idle 6250 with nmi := [Window.once 6240 6260] }) (fun a => a.t == 6260) = true ∧
    yields (step (parkedAtEnd true .idle 6260)) (fun b => b.t == 6260 && b.peers.map (·.active) == [false]) = true ∧
    yields (step { parkedAtEnd false .idle 6250 with nmi := [Window.once 6240 6260] }) (fun a => a.t == 6260) = true ∧
    yields (step (parkedAtEnd false .idle 6260)) (fun c =>
      c.t == 6260 && c.peers.map (fun i => (i.fsm, i.unit, i.endTime)) == [(.idle, none, 313)] && c.obs.dones == [⟨0, 6260⟩] &&
      c.registry.getD 0 (some 9) == none && c.scan == some 0 && c.inst.endTime == 312 && c.host == [.wait 1000]) = true := by
  decide

/-- R197, R198: while the other instance is in its latch wait, which does not yield, ACTIVE falls and nothing is torn down. -/
theorem test_parked_waits_for_the_cpu :
    yields (step (parkedAtEnd true .waitLatch 6260)) (fun b => b.peers.map (·.active) == [false]) = true ∧
    yields (step (parkedAtEnd false .waitLatch 6260)) (fun c =>
      6260 < c.t && c.peers == (parkedAtEnd false .waitLatch 6260).peers && c.obs.dones == []) = true := by
  decide

/-! ## Witnesses: the hypotheses of the obligations are met together -/

theorem witness_DecodeInvertsEncode :
    (Config.ref .pwmdma).wf Platform.ref = true ∧
    [Instr.setPin 255, .updateLength 65535, .transmit 0xFFFFFFFF 1 0, .reserved0, .reservedF, .sym0, .sym1, .fbSym0, .fbSym1,
      .pwmSym0, .pwmSym1, .pwmTerm, .dutyZero 1, .dutyZero 13, .dutyOne 14, .dutyOne 0x7FFF, .dutyTerm, .dutyReserved 0,
      .typeReserved7, .orderRgbw].all (Instr.wf (Config.ref .pwmdma)) = true := by
  decide

theorem witness_CommandWordsDecodeByField :
    ((0 : BitVec 4) = 0x0#4 ∨ 0x6#4 ≤ (0 : BitVec 4)) ∧ ((6 : BitVec 4) = 0x0#4 ∨ 0x6#4 ≤ (6 : BitVec 4)) ∧
    ((15 : BitVec 4) = 0x0#4 ∨ 0x6#4 ≤ (15 : BitVec 4)) := by
  decide

theorem witness_GpioActionsChangeOnePin :
    (0 : Pin).toNat < pw.plat.nPins ∧ (31 : Pin).toNat < pw.plat.nPins ∧ pw.plat.nPins ≤ (32 : Pin).toNat ∧
    pw.plat.nPins ≤ (255 : Pin).toNat := by
  decide

theorem witness_ResetLeavesTheSpecsValues :
    (pw = State.reset ∨ ∃ s r, pw = State.restart s r) ∧
    (State.restart (playing 6000 []) 6000 = State.reset ∨ ∃ s r, State.restart (playing 6000 []) 6000 = State.restart s r) :=
  ⟨.inl rfl, .inr ⟨_, _, rfl⟩⟩

theorem witness_ResetWinsOverEverything :
    let s (r : Nat) : State := { sending bb .bbHigh 6000 [0] with rst := [r, 7000] }
    let q := { playing 6000 [(0, 0x000E)] with rst := [7000] }
    let f := { encoding with rst := [7000], inst := { encoding.inst with unit := none } }
    let w := { bb with host := [.wait 10] }
    ((s 6000).nextRst = some 6000 ∧ 6000 ≤ (s 6000).t) ∧
    ((s 6001).nextRst = some 6001 ∧ (s 6001).t < 6001 ∧ yields (s 6001).agentStep (fun m => decide (6001 ≤ m.t)) = true ∧
      yields (s 6023).agentStep (fun m => decide (6023 ≤ m.t)) = true ∧
      yields (s 6024).agentStep (fun m => decide (m.t < 6024)) = true) ∧
    (yields (step { s 6023 with rst := [] }) (fun m => decide (m.past = (s 6023).past) && decide (6023 ≤ m.t)) = true ∧
      yields (step { s 6024 with rst := [] }) (fun m => decide (m.past = (s 6024).past) && decide (m.t < 6024)) = true) ∧
    ((w.inst.fsm = .idle ∧ w.done = false ∧ w.inst.stuck = false ∧ w.host = [.wait 10]) ∧ (s 6000).inst.fsm ≠ .idle) ∧
    (q.nextRst = some 7000 ∧ refuses q.agentStep .reservedDutyEntry = true ∧
      refuses (step { q with rst := [] }) .reservedDutyEntry = true) ∧
    (f.nextRst = some 7000 ∧ faults f.agentStep .noUnit = true ∧ faults (step { f with rst := [] }) .noUnit = true) := by
  decide

theorem witness_ResetWinsOverEverything_observations :
    let g : Seg := { pin := 6, start := 5999, level := .l, cycles := 1 }
    let w := unit0 6000 10
    let m := { playing 6000 [(1, 0x800E)] with obs := { Obs.empty with wave := [g] } }
    (g ∈ m.obs.wave ∧ 0 < g.cycles ∧ g.start + g.cycles ≤ 6030) ∧
    (m.pwmAt 0 = some w ∧ w.run = true ∧ m.owner 0 = some m.inst ∧ w.pos + 1 < w.seqCnt.toNat ∧
      { pin := 6, start := 6025, level := .h, cycles := 14 } ∈
        m.playSegs { w with due := w.due + 1 * w.period } (cmpOf (m.entryAhead m.inst w 1)) ∧ 6025 < 6030) := by
  decide

theorem witness_SetPinMovesThePin : bb.inst.begun = false ∧ (onPin6 bb).inst.begun = true := by decide

theorem witness_EndReleasesThePin : (onPin6 bb).inst.active = false := by decide

/-- The three parts: a command accepted, waiting with ACTIVE = 1, and waiting with ACTIVE = 0 for each command. -/
def waiting (active : Bool) (cmd : Pending) : State :=
  let s := sending pw .waitActive 6000 [0xA5]
  { s with inst := { s.inst with cmd := cmd, active := active } }

theorem witness_CommandsWaitForActive :
    (playing 6000 []).inst.active = true ∧ (playing 6000 []).inst.cfg.strategy = .pwmdma ∧
    ((0xFFFFFFFF : Addr) ≠ 0 ∧ (1 : Count) ≠ 0 ∧ (0xFFFFFFFF : Addr).toNat + (1 : Count).toNat ≤ 2 ^ 32) ∧
    ((waiting true .endPin).sequencerTurn ∧ (waiting true .endPin).inst.fsm = .waitActive ∧
      (waiting true .endPin).inst.active = true) ∧
    ((waiting false .endPin).freeTurn ∧ (waiting false .endPin).inst.fsm = .waitActive ∧
      (waiting false .endPin).inst.active = false ∧ (waiting false .endPin).inst.cmd = .endPin) ∧
    ((waiting false (.updateLength 511)).freeTurn ∧ (waiting false (.updateLength 511)).inst.cmd = .updateLength 511 ∧
      (waiting false (.updateLength 511)).inst.cfg.strategy = .pwmdma) ∧
    ((waiting false .transmit).freeTurn ∧ (waiting false .transmit).inst.cmd = .transmit ∧
      (waiting false .transmit).inst.buf ≠ 0 ∧ (waiting false .transmit).inst.len ≠ 0 ∧
      (waiting false .transmit).inst.buf.toNat + (waiting false .transmit).inst.len.toNat ≤ 2 ^ 32) := by
  decide

theorem witness_UpdateLengthOnBitbangDoesNothing : bb.inst.cfg.strategy = .bitbang := by decide

theorem witness_UpdateLengthAllocates :
    pw.inst.cfg.strategy = .pwmdma ∧ pw.inst.active = false ∧
    8 * (511 : Count).toNat + pw.inst.cfg.termN ≤ pw.inst.cfg.dutyRamEntries ∧
    pw.inst.cfg.dutyRamEntries < 8 * (512 : Count).toNat + pw.inst.cfg.termN ∧ (511 : Count) ≠ 0 ∧ (512 : Count) ≠ 0 := by
  decide

theorem witness_TransmitNoop :
    ((0 : Addr) = 0 ∨ (3 : Count) = 0) ∧ ((0x2000 : Addr) = 0 ∨ (0 : Count) = 0) := by
  decide

theorem witness_TransmitReachesTheLatchWait :
    ((0xFFFFFFFF : Addr) ≠ 0 ∧ (1 : Count) ≠ 0 ∧ (0xFFFFFFFF : Addr).toNat + (1 : Count).toNat ≤ 2 ^ 32 ∧
      bb.inst.active = false) ∧
    ((2 : Count) ≠ 0 ∧ 2 ^ 32 < (0xFFFFFFFF : Addr).toNat + (2 : Count).toNat) := by
  decide

theorem witness_ReservedOpcodesOnlySetBadCmd : Instr.reserved0 ∈ reservedInstrs ∧ Instr.reservedF ∈ reservedInstrs := by
  decide

theorem witness_SymbolHoldsBothPhases :
    (sending bb .bbHigh 6000 [0]).unstalled ∧ (sending bb .bbHigh 6000 [0]).noUnitOn (sending bb .bbHigh 6000 [0]).inst.pin ∧
    (sending bb .bbHigh 6000 [0]).inst.cfg.wf Platform.ref = true := by
  decide

/-- A stall that ends, in both kinds of hold; none that ends in the high phase; one that begins in the low phase. -/
theorem witness_SymbolPhasesUnderStalls :
    let s (ws : List Window) (k : HoldKind) : State := { sending bb .bbHigh 6000 [0] with
      nmi := ws, inst := { (sending bb .bbHigh 6000 [0]).inst with irqMask := true, cfg := { bb.inst.cfg with holdKind := k } } }
    ((s [] .cyccmp).noUnitOn (s [] .cyccmp).inst.pin ∧ (s [] .cyccmp).inst.cfg.wf (s [] .cyccmp).plat = true) ∧
    ((s [Window.once 6003 6013] .counted).phaseOver 7 6000 6017 ∧ (s [Window.once 6003 6013] .counted).phaseOver 16 6017 6033) ∧
    ((s [Window.once 6003 6013] .cyccmp).phaseOver 7 6000 6013 ∧ (s [Window.once 6003 6013] .cyccmp).phaseOver 16 6013 6029) ∧
    (∀ t1, ¬ (s [highFrom 6000] .counted).phaseOver 7 6000 t1) ∧
    ((s [highFrom 6008] .counted).phaseOver 7 6000 6007 ∧ ∀ t2, ¬ (s [highFrom 6008] .counted).phaseOver 16 6007 t2) ∧
    ∀ w ∈ (s [Window.once 6003 6013] .counted).nmi ++ (s [Window.once 6003 6013] .counted).irq, w.period = 0 := by
  have n7 : 7 < 2 ^ 32 := by decide
  have n16 : 16 < 2 ^ 32 := by decide
  exact ⟨by decide, ⟨(State.phaseStop_iff _ _ _ n7).mp (by decide), (State.phaseStop_iff _ _ _ n16).mp (by decide)⟩,
    ⟨(State.phaseStop_iff _ _ _ n7).mp (by decide), (State.phaseStop_iff _ _ _ n16).mp (by decide)⟩,
    (State.phaseStop_none _ _ n7).mp (by decide),
    ⟨(State.phaseStop_iff _ _ _ n7).mp (by decide), (State.phaseStop_none _ _ n16).mp (by decide)⟩, by decide⟩

theorem witness_HoldCountedHoldsExactly :
    bb.unstalled ∧ nextFree ({ bb with nmi := [Window.once 3 13] } : State).blockers 3 = some 13 ∧
    ({ bb with nmi := [Window.once 3 13] } : State).blocked 3 ∧
    holdCounted ({ bb with nmi := [Window.once 3 13] } : State).blockers 7 0 = some 17 ∧
    nextFree ({ bb with nmi := [highFrom 0] } : State).blockers 3 = none ∧
    holdCounted ({ bb with nmi := [highFrom 0] } : State).blockers 1 3 = none := by
  decide

theorem witness_FallbackSymbolFillsThePeriod :
    (sending pw .fbHigh 6000 [0]).unstalled ∧ (sending pw .fbHigh 6000 [0]).noUnitOn 6 ∧
    (sending pw .fbHigh 6000 [0]).inst.pin = 6 ∧ (sending pw .fbHigh 6000 [0]).inst.cfg.cp.fbWf = true := by
  decide

theorem highFrom_high {a c : Nat} (h : a ≤ c) : inWindows [highFrom a] c = true := by
  simp [inWindows, inWindow, highFrom, h, Nat.mod_one]

/-- F-4 and F-8; a stall without end in the high part; one in the low part. -/
theorem witness_FallbackSymbolUnderStalls :
    let s (ws : List Window) : State := { sending pw .fbHigh 6000 [0] with
      nmi := ws, inst := { (sending pw .fbHigh 6000 [0]).inst with irqMask := true } }
    ((s []).noUnitOn (s []).inst.pin ∧ (s []).inst.cfg.cp.fbWf = true) ∧
    ((s [Window.once 6005 6010]).firstPast 6000 7 6000 6010 ∧ (s [Window.once 6005 6010]).firstPast 6000 25 6010 6025) ∧
    ((s [Window.once 6004 6040]).firstPast 6000 7 6000 6040 ∧ (s [Window.once 6004 6040]).firstPast 6000 25 6040 6040) ∧
    (∀ t1, ¬ (s [highFrom 6000]).firstPast 6000 7 6000 t1) ∧
    ((s [highFrom 6008]).firstPast 6000 7 6000 6007 ∧ ∀ t2, ¬ (s [highFrom 6008]).firstPast 6000 25 6007 t2) ∧
    ∀ w ∈ (s [Window.once 6005 6010]).nmi ++ (s [Window.once 6005 6010]).irq, w.period = 0 := by
  have n7 : 7 < 2 ^ 32 := by decide
  have n25 : 25 < 2 ^ 32 := by decide
  refine ⟨by decide, ⟨(State.compareStop_iff _ _ _ _ n7).mp (by decide), (State.compareStop_iff _ _ _ _ n25).mp (by decide)⟩,
    ⟨(State.compareStop_iff _ _ _ _ n7).mp (by decide), (State.compareStop_iff _ _ _ _ n25).mp (by decide)⟩,
    fun t1 h => h.2.1 (highFrom_high h.1),
    ⟨(State.compareStop_iff _ _ _ _ n7).mp (by decide), fun t2 h => ?_⟩, by decide⟩
  rcases Nat.lt_or_ge 6007 t2 with h1 | h1
  · exact h.2.1 (highFrom_high h1)
  · have e : t2 = 6007 := Nat.le_antisymm h1 h.1
    rw [e] at h
    exact absurd h.2.2.1 (by decide)

theorem witness_PwmSymbolFillsItsInterval :
    let s := playing 6000 []
    s.inst.unit = some 0 ∧ s.pwmAt 0 = some (unit0 6000 10) ∧ (unit0 6000 10).pselConnected = true ∧
    s.inst.cfg.cp.dutyWf = true ∧ 1 ≤ s.inst.cfg.prescale.toNat ∧ (unit0 6000 10).prescaler = s.inst.cfg.prescale ∧
    (unit0 6000 10).top = s.inst.cfg.cp.top := by
  decide

theorem witness_DutyEntryIsFetchedWhole :
    (playing 6000 []).inst.unit = some 0 ∧ (playing 6000 []).pwmAt 0 = some (unit0 6000 10) := by
  decide

theorem witness_UnitPlaysTheEntryItReads :
    let s (e : Entry) := playing 6000 [(0, e), (1, 0x8007)]
    let w := unit0 6000 10
    ((s 0x8000).nextRst = none ∧ (s 0x8000).envDue = none ∧ (s 0x8000).unitDue = some (0, w) ∧
      (s 0x8000).owner 0 = some (s 0x8000).inst ∧ (s 0x8000).inst.unit = some 0 ∧ w.pos < w.seqCnt.toNat ∧ w.fetched = none) ∧
    (Sparse.read (w.seqPtr.toNat + w.pos) (s 0x8000).inst.duty = some 0x8000 ∧
      polarity ((s 0x8000).dutyEntry (s 0x8000).inst (w.seqPtr.toNat + w.pos)) = true) ∧
    polarity ((s 0x0007).dutyEntry (s 0x0007).inst (w.seqPtr.toNat + w.pos)) = false := by
  decide

/-- The event in the cycle of the end, and 15 cycles after it. -/
theorem witness_UnitStopsAtSequenceEnd :
    let w := { unit0 6000 10 with pos := 10 }
    let s (t : Nat) := { playing 6000 [] with t := t, pwm := (playing 6000 []).pwm.set 0 w }
    ((s 6000).nextRst = none ∧ (s 6000).envDue = none ∧ (s 6000).unitDue = some (0, w) ∧ w.seqCnt.toNat ≤ w.pos ∧
      ¬ w.due < (s 6000).t) ∧
    ((s 6015).unitDue = some (0, w) ∧ w.pselConnected = true ∧ w.pselPin.toNat < (s 6015).plat.nPins ∧ w.due < (s 6015).t) := by
  decide

/-- A playback over, its event pending, for the running instance or for a parked one. -/
def ended (s : State) (u : Nat) : State :=
  { s with pend := s.pend.set u true, pwm := s.pwm.map (fun w => { w with run := false }) }

/-- An instance 1 turned to while instance 0 plays. -/
def parkedPlayer : State :=
  let s := ended (playing 6000 []) 0
  { s with inst := Inst.reset 1 (Config.ref .bitbang), peers := [s.inst] }

theorem witness_SeqendHandlerClearsActive :
    let s := { ended (playing 6000 []) 0 with irq := [Window.once 6000 6005] }
    (true ∈ s.pend ∧ s.masked = false ∧ yields (step s) (fun t => decide (t.past = s.past) && decide (t.t = 6005)) = true ∧
      s.t ≤ 6005 ∧ ¬ s.blocked 6005 ∧ s.blocked 6004) ∧
    ((ended (playing 6000 []) 0).nextRst = none ∧ (ended (playing 6000 []) 0).envDue = none ∧
      (ended (playing 6000 []) 0).unitDue = none ∧ (ended (playing 6000 []) 0).handlerDue = some 0 ∧
      (ended (playing 6000 []) 0).registryAt 0 = some 0 ∧ ((ended (playing 6000 []) 0).pwmAt 0).isSome = true) ∧
    (parkedPlayer.unitDue = none ∧ parkedPlayer.handlerDue = some 0 ∧ parkedPlayer.registryAt 0 = some 0 ∧
      parkedPlayer.inst.id ≠ 0) ∧
    ((ended pw 3).unitDue = none ∧ (ended pw 3).handlerDue = some 3 ∧ (ended pw 3).registryAt 3 = none) := by
  decide

/-- A tag that builds, and one whose row is no WS2812 row. -/
theorem witness_TypeTagBuildsTheInstance :
    let s := playing 6000 []
    let t := { s with inst := { s.inst with cfg := { s.inst.cfg with table := Config.refTable.setRow .ws2812 (withTimes 1 24 14 12) } } }
    Config.wf { s.inst.cfg with chip := .tm1803 } s.plat = true ∧ Config.wf { t.inst.cfg with chip := .ws2812 } t.plat = false := by
  decide

theorem witness_OrderCodeOnlyEntersTheOrder :
    let rgbw := { pw.inst.cfg with chip := .sk6812rgbw }
    (pw.inst.cfg.wf Platform.ref = true ∧ pw.inst.cfg.chip ≠ .sk6812rgbw) ∧ (rgbw.wf Platform.ref = true ∧ rgbw.chip = .sk6812rgbw) ∧
    (Order.rgbw = .rgbw ∧ Order.grb ≠ .rgbw) := by
  decide

theorem witness_StepRunsTheDecodedInstruction :
    let h (m : HostMove) : State := { bb with host := [m] }
    let f := { playing 6000 [(0, 0x8000)] with
      pwm := (playing 6000 []).pwm.set 0 { unit0 6000 10 with fetched := some 0x8000 } }
    let b (g : Fsm) : State := { sending pw g 6000 [0x80] with inst := { (sending pw g 6000 [0x80]).inst with bitIx := 6 } }
    ((h (.cmd 0)).freeTurn ∧ (h (.cmd 0)).inst.fsm = .idle ∧ (h (.cmd 0)).done = false) ∧
    ((h (.chip 7)).sequencerTurn ∧ (h (.order 0)).sequencerTurn) ∧
    ((b .bbHigh).freeTurn ∧ (b .bbHigh).inst.bitIx ≠ 7 ∧ (b .fbHigh).freeTurn ∧ (b .fbHigh).inst.fsm = .fbHigh) ∧
    ((playing 6000 [(0, 0x8000)]).unitDue = some (0, unit0 6000 10) ∧
      (playing 6000 [(0, 0x8000)]).owner 0 = some (playing 6000 [(0, 0x8000)]).inst ∧
      (playing 6000 [(0, 0x8000)]).dutyEntry (playing 6000 [(0, 0x8000)]).inst 0 = 0x8000 ∧ (unit0 6000 10).fetched = none) ∧
    (f.nextRst = none ∧ f.envDue = none ∧ f.unitDue = some (0, { unit0 6000 10 with fetched := some 0x8000 }) ∧
      f.owner 0 = some f.inst ∧ symbolOf f.inst.cfg 0x8000 = some .pwmTerm) := by
  decide

theorem witness_ByteIsReadAtBitSeven :
    let s (g : Fsm) := { sending bb g 6000 [0xA5] with
      mem := [(0xFFFFFFFF, 0xA5)], inst := { (sending bb g 6000 [0xA5]).inst with buf := 0xFFFFFFFF } }
    ((s .bbHigh).freeTurn ∧ (s .bbHigh).inst.bitIx = 7 ∧ (s .bbHigh).inst.fsm = .bbHigh ∧
      (s .bbHigh).inst.buf.toNat + (s .bbHigh).inst.byteIx.toNat < 2 ^ 32) ∧
    ((s .fbHigh).freeTurn ∧ (s .fbHigh).inst.fsm = .fbHigh ∧
      Memory.read (s .fbHigh).mem ((s .fbHigh).inst.buf.toNat + (s .fbHigh).inst.byteIx.toNat) = some 0xA5) := by
  decide

/-- The low phase of the bit at a position of a two-byte frame. -/
def lowAt (f : Fsm) (byteIx : Count) (bitIx : Fin 8) : State :=
  { sending pw f 6000 [0, 0] with
    inst := { (sending pw f 6000 [0, 0]).inst with byteIx := byteIx, bitIx := bitIx, irqMask := true, maskSince := 5632 } }

theorem witness_NextBitFollowsAtOnce :
    let last (s : State) := s.inst.bitIx = 0 ∧ s.inst.len.toNat ≤ s.inst.byteIx.toNat + 1
    ((lowAt .bbLow 0 7).freeTurn ∧ ¬ last (lowAt .bbLow 0 7)) ∧ (¬ last (lowAt .bbLow 0 0)) ∧
    ((lowAt .bbLow 1 0).freeTurn ∧ last (lowAt .bbLow 1 0)) ∧
    ((lowAt .fbLow 0 0).freeTurn ∧ ¬ last (lowAt .fbLow 0 0)) ∧ ((lowAt .fbLow 1 0).freeTurn ∧ last (lowAt .fbLow 1 0)) := by
  decide

/-- The latch condition has held since the wait began. -/
def opened (s : State) : Prop :=
  ∃ k, s.inst.waitStart ≤ k ∧ k ≤ s.t ∧ s.inst.dly.toNat ≤ (usAt s.plat.m k - s.inst.endTime).toNat

theorem witness_LatchWaitEndsAtTheFirstChance :
    let s (st : Strategy) (t : Nat) := sending (State.resetWith Platform.ref (Config.ref st)) .waitLatch t [0]
    ((s .bitbang 5999).sequencerTurn ∧ (s .bitbang 5999).inst.fsm = .waitLatch ∧ 0 < (s .bitbang 5999).plat.m ∧
      ¬ opened (s .bitbang 5999)) ∧
    (opened (s .bitbang 6000) ∧ (s .bitbang 6000).stalled = false ∧ (s .bitbang 6000).inst.cfg.strategy = .bitbang) ∧
    ((s .pwmdma 6000).sequencerTurn ∧ (s .pwmdma 6000).stalled = false ∧ (s .pwmdma 6000).inst.cfg.strategy = .pwmdma) :=
  ⟨⟨by decide, by decide, by decide, fun h => absurd ((State.latchDue_iff (by decide) _).mpr h) (by decide)⟩,
    ⟨(State.latchDue_iff (by decide) _).mp (by decide), by decide, by decide⟩, by decide⟩

/-- L-4 and L-9: 5981 = 299 x 20 + 1 cycles after a stamp at 20019, and 6000 cycles for a first frame. -/
theorem witness_LatchSilenceIsKept :
    let s (began t : Nat) (e : Time32) := { sending bb .waitLatch t [0] with
      inst := { (sending bb .waitLatch t [0]).inst with endTime := e, waitStart := began } }
    let leaves (x : State) := x.inst.fsm = .waitLatch ∧ 0 < x.plat.m ∧ 1 ≤ x.inst.dly.toNat ∧
      yields (step x) (fun y => decide (y.past = x.past) && y.inst.fsm != .waitLatch) = true
    (leaves (s 20100 26000 1000) ∧ 20019 ≤ (s 20100 26000 1000).inst.waitStart ∧
      (s 20100 26000 1000).inst.endTime = usAt 20 20019 ∧
      (300 - 1) * 20 + 1 = 26000 - 20019) ∧
    (leaves (s 2 6000 0) ∧ (s 2 6000 0).inst.endTime = State.reset.inst.endTime ∧ 300 * 20 = 6000) ∧
    yields (step (s 20100 25999 1000)) (fun y => y.inst.fsm == .waitLatch) = true := by
  decide

/-- A PWMDMA instance whose latch wait is over, with a capacity and a pool. -/
def atLatch (cap : BitVec 20) (pool : List PwmUnit) : State :=
  { sending pw .waitLatch 6000 [0xA5] with
    pwm := pool, inst := { (sending pw .waitLatch 6000 [0xA5]).inst with dutyCap := cap } }

theorem witness_ExpanderClaimsOrFallsBack :
    let busy := unit0 9000 1
    let s (cap : BitVec 20) := atLatch cap [{ busy with enable := false }, { busy with pselConnected := false }, PwmUnit.reset]
    let seq (t : State) := 8 * t.inst.len.toNat + t.inst.cfg.termN
    ((s 9).freeTurn ∧ (s 9).inst.fsm = .waitLatch ∧ (s 9).inst.cfg.strategy = .pwmdma ∧ (s 9).latchOpen = true ∧
      (s 9).inst.dutyCap.toNat < seq (s 9)) ∧
    ((atLatch 10 [busy]).freeTurn ∧ seq (atLatch 10 [busy]) ≤ (atLatch 10 [busy]).inst.dutyCap.toNat ∧
      ∀ w ∈ (atLatch 10 [busy]).pwm, w.enable = true ∨ w.pselConnected = true) ∧
    ((s 10).freeTurn ∧ seq (s 10) ≤ (s 10).inst.dutyCap.toNat ∧ (s 10).pwmAt 2 = some PwmUnit.reset ∧
      PwmUnit.reset.enable = false ∧ PwmUnit.reset.pselConnected = false ∧ (s 10).scan = some 2) := by
  decide

theorem witness_EncodingWritesTheSequence :
    0 < encoding.inst.len.toNat ∧ 1 < encoding.inst.cfg.termN ∧
    8 * encoding.inst.len.toNat + encoding.inst.cfg.termN ≤ 10 := by
  decide

theorem witness_EncodingConfiguresAndStarts :
    let e := { encoding with env := [(6040, elsewhere)] }
    let b := { encoding with inst := { encoding.inst with encEnd := some 6040 } }
    (encoding.freeTurn ∧ encoding.inst.fsm = .encoding ∧ encoding.inst.unit = some 0 ∧
      encoding.pwmAt 0 = some { PwmUnit.reset with enable := true } ∧
      encoding.inst.buf.toNat + encoding.inst.len.toNat ≤ 2 ^ 32 ∧
      8 * encoding.inst.len.toNat + encoding.inst.cfg.termN ≤ encoding.inst.dutyCap.toNat ∧
      encoding.encodingEnd = some 6040 ∧ encoding.inst.encEnd = none ∧ ∀ x ∈ encoding.nextEvents, 6040 < x) ∧
    (e.freeTurn ∧ e.encodingEnd = some 6040 ∧ 6040 ∈ e.nextEvents) ∧ (b.freeTurn ∧ b.encodingEnd = some 6040) := by
  decide

/-- A playback acknowledged: ACTIVE = 0, in a state of FSM. -/
def acknowledged (f : Fsm) : State :=
  let s := playing 6250 []
  { s with
    pwm := s.pwm.set 0 { unit0 6000 10 with run := false, pos := 10 }
    inst := { s.inst with active := false, fsm := f } }

theorem witness_CompletionTearsDown :
    let s := { playing 6000 [] with host := [.cmd 0], pwm := (playing 6000 []).pwm.map (fun w : PwmUnit => { w with due := 6025 }) }
    (s.sequencerTurn ∧ s.inst.fsm = .playing ∧ s.inst.active = true ∧ s.host = [.cmd 0] ∧ 6025 ∈ s.nextEvents) ∧
    ((acknowledged .playing).freeTurn ∧ (acknowledged .playing).inst.fsm = .playing ∧
      (acknowledged .playing).inst.active = false) ∧
    ((acknowledged .completion).freeTurn ∧ (acknowledged .completion).inst.fsm = .completion ∧
      (acknowledged .completion).inst.unit = some 0 ∧
      (acknowledged .completion).pwmAt 0 = some { unit0 6000 10 with run := false, pos := 10 }) := by
  decide

/-- A parked instance that waits to complete, beside an idle one and beside a playing one; stalled to cycle 6260, or not. -/
def acknowledgedBeside (f : Fsm) (a : Bool) (w : List Window) : State :=
  { acknowledged .playing with
    inst := { Inst.reset 1 (Config.ref .pwmdma) with fsm := f, active := a }, peers := [(acknowledged .playing).inst], nmi := w }

theorem witness_CompletionTearsDown_parked :
    [(Fsm.idle, false), (.playing, true), (.playing, false)].all (fun p =>
      let s := acknowledgedBeside p.1 p.2 []
      let z := acknowledgedBeside p.1 p.2 [Window.once 6250 6260]
      decide (s.nextRst = none ∧ s.envDue = none ∧ s.unitDue = none ∧ s.handlerDue = none ∧ s.stalled = false ∧
        s.peers.map (fun i => (i.fsm, i.active, i.unit)) = [(.playing, false, some 0)] ∧ (s.pwmAt 0).isSome = true) &&
      decide (s.inst.fsm = .idle ∨ s.inst.fsm = .playing) &&
      yields (step z) (fun t => decide (t.past = z.past ∧ z.t < t.t ∧ t.t ≤ 6260)) && decide (z.t ≤ 6260 ∧ ¬ z.blocked 6260)) = true := by
  decide

/-- The self-check of a one-byte attempt begun at 6000, in cycle t, with a retry limit. -/
def checking (t : Nat) (limit : Option Nat) : State :=
  let s := sending pw .fbCheck t [0]
  { s with inst := { s.inst with cycStart := 6000, cfg := { s.inst.cfg with retryLimit := limit } } }

theorem witness_SelfCheckAt125Percent :
    let el (s : State) := (cycAt s.t - s.inst.cycStart).toNat
    let ex (s : State) := 8 * s.inst.len.toNat * s.inst.cfg.cp.fbPeriod
    ((checking 6250 none).freeTurn ∧ (checking 6250 none).inst.fsm = .fbCheck ∧
      4 * el (checking 6250 none) ≤ 5 * ex (checking 6250 none)) ∧
    ((checking 6251 (some 1)).freeTurn ∧ 5 * ex (checking 6251 (some 1)) < 4 * el (checking 6251 (some 1)) ∧
      (checking 6251 (some 1)).inst.cfg.retryLimit ≠ some (checking 6251 (some 1)).inst.retries) ∧
    ((checking 6251 (some 0)).freeTurn ∧ 5 * ex (checking 6251 (some 0)) < 4 * el (checking 6251 (some 0)) ∧
      (checking 6251 (some 0)).inst.cfg.retryLimit = some (checking 6251 (some 0)).inst.retries) := by
  decide

theorem witness_BackoffThenAWholeNewAttempt :
    let s (t : Nat) := { sending pw .fbBackoff t [0] with
      inst := { (sending pw .fbBackoff t [0]).inst with backoffStart := 312 } }
    let past (x : State) := ∃ k, x.inst.waitStart ≤ k ∧ k ≤ x.t ∧
      x.inst.cfg.backoffUs ≤ (usAt x.plat.m k - x.inst.backoffStart).toNat
    ((s 12239).sequencerTurn ∧ (s 12239).inst.fsm = .fbBackoff ∧ 0 < (s 12239).plat.m ∧
      (s 12239).inst.cfg.backoffUs < 2 ^ 32 ∧ ¬ past (s 12239)) ∧
    ((s 12240).sequencerTurn ∧ past (s 12240) ∧ (s 12240).stalled = false) :=
  ⟨⟨by decide, by decide, by decide, by decide,
      fun h => absurd ((State.backoffDue_iff (by decide) (by decide) _).mpr h) (by decide)⟩,
    by decide, (State.backoffDue_iff (by decide) (by decide) _).mp (by decide), by decide⟩

theorem witness_MaskKeepsIrqOut :
    let s := { lowAt .bbLow 0 7 with irq := [Window.once 6000 6001] }
    let o := { sending bb .waitLatch 6000 [0] with irq := [Window.once 6000 6001] }
    (s.masked = true ∧ s.stalled = false) ∧ (o.masked = false ∧ o.inst.unmaskedAt ≠ some o.t ∧ o.stalled = true) := by
  decide

theorem witness_StalledSequencerOnlyLetsTimePass :
    let s := { lowAt .bbLow 0 7 with nmi := [Window.once 6000 6010] }
    let i (m : HostMove) := { bb with nmi := [Window.once 0 10], host := [m] }
    let k := { lowAt .bbLow 0 7 with inst := { (lowAt .bbLow 0 7).inst with stuck := true } }
    (s.sequencerTurn ∧ s.stalled = true ∧ s.inst.fsm ≠ .idle) ∧
    ((i (.cmd 0)).sequencerTurn ∧ (i (.cmd 0)).stalled = true ∧ (i (.cmd 0)).done = false ∧
      (i (.write 0 1)).sequencerTurn ∧ (i (.write 0 1)).stalled = true ∧ (i (.select 0)).stalled = true) ∧
    (s.blocked 6009 ∧ ¬ s.blocked 6010) ∧
    (k.nextRst = none ∧ k.envDue = none ∧ k.unitDue = none ∧ k.handlerDue = none ∧ k.finisherDue = none ∧ k.inst.stuck = true) := by
  decide

theorem witness_StalledSequencerOnlyLetsTimePass_ready :
    (lowAt .bbLow 0 7).actionReady ∧ ({ bb with host := [.cmd 0] } : State).actionReady ∧
    (sending bb .waitLatch 6000 [0]).actionReady ∧ (acknowledged .playing).actionReady ∧ (acknowledged .completion).actionReady :=
  ⟨trivial, List.cons_ne_nil _ _, by show State.latchOpen _ = true; decide, .inl rfl, trivial⟩

/-- A step with a next state exists at each of these states (the whole-machine rules). -/
theorem witness_steps_answer_next :
    [bb, pw, lowAt .bbLow 0 7, encoding, acknowledged .completion, parkedPlayer, playing 6000 [(0, 0x8000)],
      { bb with host := [.write 0xFFFFFFFF 1] }].all (fun s => yields (step s) (fun _ => true)) = true := by
  decide

theorem witness_PixelMemoryIsOnlyTheHosts :
    let s := { bb with host := [.write 0xFFFFFFFF 1], mem := [(0, 7)] }
    (s.freeTurn ∧ s.inst.fsm = .idle ∧ s.done = false ∧ Memory.wf s.mem = true) ∧
    yields (step s) (fun t => t.mem == [(0, 7), (0xFFFFFFFF, 1)] && t.host == []) = true := by
  decide

theorem witness_ConstantsStayConstant :
    (lowAt .bbLow 1 0).hostBuildsOrTurns = false ∧ yields (step (lowAt .bbLow 1 0)) (fun _ => true) = true := by
  decide

theorem witness_OtherInstancesKeepTheirRegisters :
    parkedPlayer.hostBuildsOrTurns = false ∧
    yields (step parkedPlayer) (fun t => decide (t.past = parkedPlayer.past) && t.peers.map (·.active) == [false]) = true ∧
    parkedPlayer.peers.map (·.active) = [true] ∧
    (acknowledgedBeside .idle false []).hostBuildsOrTurns = false ∧
    yields (step (acknowledgedBeside .idle false [])) (fun t =>
      decide (t.past = (acknowledgedBeside .idle false []).past) && t.peers.map (·.fsm) == [.idle]) = true := by
  decide

theorem witness_EvtBitsAreSticky :
    let s := { bb with host := [.cmd 0], inst := { bb.inst with evt := 0x81 } }
    s.hostBuildsOrTurns = false ∧ hasEvt s.inst.evt .allocFail = true ∧ hasEvt s.inst.evt .retryExhausted = true ∧
    yields (step s) (fun t => decide (t.past = s.past) && t.inst.evt == 0xA1) = true := by
  decide

theorem witness_OnlyAFinishedFrameStamps :
    let s := { lowAt .bbLow 1 0 with host := [.select 1], rst := [7000] }
    s.hostBuildsOrTurns = false ∧ s.inst.endTime = 0 ∧
    yields (step s) (fun t => decide (t.past = s.past) && t.inst.endTime == 300) = true := by
  decide

theorem witness_DutyRamIsFixedDuringPlayback :
    let c := { acknowledged .completion with inst := { (acknowledged .completion).inst with duty := [(0, 0x8000)] } }
    (encoding.hostBuildsOrTurns = false ∧ encoding.inst.duty = [] ∧
      yields (step encoding) (fun t => decide (t.past = encoding.past) && t.inst.duty != []) = true) ∧
    (c.hostBuildsOrTurns = false ∧ yields (step c) (fun t => decide (t.past = c.past) && t.inst.duty == []) = true) := by
  decide

theorem witness_MemoriesStayCanonical :
    ({ encoding with mem := [(0, 1), (0xFFFFFFFF, 1)] } : State).memOk ∧ yields (step encoding) (fun _ => true) = true := by
  decide

theorem witness_MaskDisciplineKept :
    (lowAt .bbLow 1 0).maskOk ∧ parkedPlayer.maskOk ∧ yields (step (lowAt .bbLow 1 0)) (fun t => !t.inst.irqMask) = true := by
  decide

theorem witness_ClaimDisciplineKept :
    (acknowledged .completion).unitOk ∧ parkedPlayer.unitOk ∧
    yields (step (acknowledged .completion)) (fun t => t.inst.unit == none) = true := by
  decide

theorem witness_DutyCapStaysLegal :
    encoding.capOk ∧ yields (step encoding) (fun t => t.inst.dutyCap == 10) = true :=
  ⟨⟨⟨by decide, .inr ⟨1, by decide⟩⟩, by decide⟩, by decide⟩

/-- A begun instance with its latch interval over and nothing around it. -/
def ready (st : Strategy) : State :=
  { onPin6 (State.resetWith Platform.ref (Config.ref st)) with t := 6000, encDraws := [0] }

theorem witness_BitbangTransmitSendsItsFrame :
    let s := ready .bitbang
    s.undisturbed ∧ s.unitsAtRest ∧ s.lineOwned ∧ s.inst.stuck = false ∧ s.inst.cfg.wf s.plat = true ∧
    s.inst.cfg.strategy = .bitbang ∧ s.inst.active = false ∧ (0xFFFFFFFF : Addr) ≠ 0 ∧ (1 : Count) ≠ 0 ∧
    (0xFFFFFFFF : Addr).toNat + (1 : Count).toNat ≤ 2 ^ 32 ∧ elapsed s.us s.inst.endTime (300 : Time32).toNat = true := by
  decide

/-- A buffer too small for the longest frame; a large enough one and every unit enabled for something else, on pin 9. -/
theorem witness_FallbackTransmitSendsItsFrame :
    let s := ready .pwmdma
    let p := { s with
      pwm := List.replicate 4 { PwmUnit.reset with enable := true, pselConnected := true, pselPin := 9 }
      inst := { s.inst with dutyCap := 10 } }
    let around (x : State) := x.undisturbed ∧ x.unitsAtRest ∧ x.lineOwned ∧ x.inst.stuck = false ∧ x.inst.cfg.wf x.plat = true ∧
      x.inst.cfg.strategy = .pwmdma ∧ x.inst.active = false ∧ elapsed x.us x.inst.endTime (300 : Time32).toNat = true
    ((0x2000 : Addr) ≠ 0 ∧ (0x2000 : Addr).toNat + (65535 : Count).toNat ≤ 2 ^ 32) ∧
    (around s ∧ s.inst.dutyCap.toNat < 8 * (65535 : Count).toNat + s.inst.cfg.termN ∧
      8 * (65535 : Count).toNat * s.inst.cfg.cp.fbPeriod < 2 ^ 32) ∧
    (around p ∧ ¬ p.inst.dutyCap.toNat < 8 * (1 : Count).toNat + p.inst.cfg.termN ∧
      (∀ w ∈ p.pwm, w.enable = true ∨ w.pselConnected = true) ∧ 8 * (1 : Count).toNat * p.inst.cfg.cp.fbPeriod < 2 ^ 32) := by
  decide

theorem witness_PwmTransmitPlaysItsFrame :
    let s := { ready .pwmdma with inst := { (ready .pwmdma).inst with dutyCap := 10 } }
    s.undisturbed ∧ s.unitsAtRest ∧ s.inst.stuck = false ∧ s.inst.encEnd = none ∧ s.masked = false ∧
    s.host = [] ∧ s.noneFinishing ∧ 0 < s.pend.length ∧ 0 < s.registry.length ∧ s.inst.pin.toNat < s.plat.nPins ∧
    s.noUnitOn s.inst.pin ∧ s.inst.cfg.wf s.plat = true ∧ s.inst.cfg.strategy = .pwmdma ∧
    s.inst.active = false ∧ (0x2000 : Addr) ≠ 0 ∧ (1 : Count) ≠ 0 ∧ (0x2000 : Addr).toNat + (1 : Count).toNat ≤ 2 ^ 32 ∧
    elapsed s.us s.inst.endTime (300 : Time32).toNat = true ∧
    8 * (1 : Count).toNat + s.inst.cfg.termN ≤ s.inst.dutyCap.toNat ∧ s.scan = some 0 ∧ s.pwmAt 0 = some PwmUnit.reset := by
  decide

/-- One free cycle in 32: p = 32 with FB_PERIOD = 25. -/
theorem witness_ResendLoopNeverEnds :
    let s := { sending pw .fbHigh 6000 [0] with
      nmi := [{ start := 0, len := 32 - 1, period := 32, phase := 15 }]
      inst := { (sending pw .fbHigh 6000 [0]).inst with irqMask := true, cycStart := 6000 } }
    s.inst.cfg.retryLimit = none ∧ s.inst.cfg.cp.fbWf = true ∧ 5 * s.inst.cfg.cp.fbPeriod < 4 * 32 ∧
    8 * s.inst.len.toNat * 32 < 2 ^ 32 ∧ 0 ≤ s.t ∧ s.env = [] ∧ s.rst = [] ∧ s.unitsAtRest ∧ s.noUnitOn s.inst.pin ∧
    s.inst.len ≠ 0 ∧ s.inst.buf.toNat + s.inst.len.toNat ≤ 2 ^ 32 ∧ s.inst.fsm = .fbHigh ∧ s.inst.irqMask = true ∧
    s.inst.stuck = false ∧ s.inst.byteIx = 0 ∧ s.inst.bitIx = 7 ∧ s.inst.cycStart = cycAt s.t ∧ s.stalled = false := by
  decide

end Sys2Proof.Tests
end

section
/-! Counted holds and the next unstalled cycle as the claim on R17 says them, in the words of `State.freeCycles`. -/

namespace Sys2Proof.Machine

theorem State.freeCycles_of_le (s : State) {t e : Nat} (h : t ≤ e) : s.freeCycles t e = freeIn s.blockers t (e - t) := by
  rw [← s.freeCycles_eq, Nat.add_sub_of_le h]

/-- The end of a counted hold is the one cycle with exactly n unstalled ones before it, and fewer before each earlier one (R17). -/
theorem holdCounted_iff {ws : List Window} {n t e : Nat} : holdCounted ws n t = some e ↔
    t ≤ e ∧ freeIn ws t (e - t) = n ∧ ∀ k, t + k < e → freeIn ws t k < n := by
  refine ⟨holdCounted_some, fun ⟨hle, hn, hlt⟩ => ?_⟩
  cases h : holdCounted ws n t with
  | none => exact absurd hn (Nat.ne_of_lt (holdCounted_none h _))
  | some d =>
    obtain ⟨hle', hn', hlt'⟩ := holdCounted_some h
    rcases Nat.lt_trichotomy d e with hde | rfl | hde
    · exact absurd hn' (Nat.ne_of_lt (hlt _ (by omega)))
    · rfl
    · exact absurd hn (Nat.ne_of_lt (hlt' _ (by omega)))

/-- A counted hold ends exactly when enough unstalled cycles come. -/
theorem holdCounted_none_iff {ws : List Window} {n t : Nat} : holdCounted ws n t = none ↔ ∀ k, freeIn ws t k < n := by
  refine ⟨holdCounted_none, fun h => ?_⟩
  cases he : holdCounted ws n t with
  | none => rfl
  | some e => exact absurd (holdCounted_some he).2.1 (Nat.ne_of_lt (h _))

/-- There is no next unstalled cycle exactly when every cycle is stalled. -/
theorem nextFree_none_iff {ws : List Window} {t : Nat} : nextFree ws t = none ↔ ∀ k, t ≤ k → inWindows ws k = true := by
  refine ⟨nextFree_none, fun h => ?_⟩
  cases hc : nextFree ws t with
  | none => rfl
  | some c =>
    obtain ⟨hle, hfree, -⟩ := nextFree_some hc
    rw [h c hle] at hfree; cases hfree

theorem State.holdCounted_iff (s : State) (n t e : Nat) : holdCounted s.blockers n t = some e ↔
    t ≤ e ∧ s.freeCycles t e = n ∧ ∀ c, t ≤ c → c < e → s.freeCycles t c < n := by
  rw [Machine.holdCounted_iff]
  refine and_congr_right fun hle => ?_
  rw [s.freeCycles_of_le hle]
  refine and_congr_right fun _ => ⟨fun h c hc hce => ?_, fun h k hk => ?_⟩
  · rw [s.freeCycles_of_le hc]; exact h _ (by omega)
  · rw [← s.freeCycles_eq]; exact h _ (by omega) hk

theorem State.holdCounted_none_iff (s : State) (n t : Nat) : holdCounted s.blockers n t = none ↔
    ∀ e, t ≤ e → s.freeCycles t e < n := by
  rw [Machine.holdCounted_none_iff]
  refine ⟨fun h e he => ?_, fun h k => ?_⟩
  · rw [s.freeCycles_of_le he]; exact h _
  · rw [← s.freeCycles_eq]; exact h _ (by omega)

/-- Settles O21: the hold by counting unstalled cycles, the next unstalled cycle by the search's own lemmas. -/
theorem holdCountedHoldsExactly : Obligations.HoldCountedHoldsExactly := by
  intro s n t
  refine ⟨s.holdCounted_iff n t, s.holdCounted_none_iff n t, fun hs => ?_, fun c => ?_, nextFree_none_iff⟩
  · rw [State.blockers_unstalled hs, holdCounted_nil]
  · rw [nextFree_iff, State.blocked, Bool.not_eq_true]

end Sys2Proof.Machine
end

section
/-! A stalled sequencer: in each state of FSM its step is a pause, and where an action is ready the pause ends in the first
unstalled cycle or with an event before it (R17, R291). -/

namespace Sys2Proof.Machine

/-- A stalled cycle is one of the cycles that block the sequencer. -/
theorem State.blocked_of_stalled {s : State} (h : s.stalled = true) : s.blocked s.t := by
  by_contra hb
  rw [State.not_stalled hb] at h; cases h

/-- From a stalled cycle the next unstalled one is still to come. -/
theorem State.nextFree_gt {s : State} (h : s.stalled = true) {c : Nat} (hc : nextFree s.blockers s.t = some c) : s.t < c := by
  obtain ⟨hle, hfree, -⟩ := nextFree_some hc
  refine Nat.lt_of_le_of_ne hle fun e => ?_
  rw [← e, State.blocked_of_stalled h] at hfree; cases hfree

/-- The next unstalled cycle from a cycle to come on is to come. -/
theorem nextFree_max_gt {ws : List Window} {t d c : Nat} (h : t < d) (hc : nextFree ws (max t d) = some c) : t < c := by
  have := (nextFree_some hc).1
  omega

/-- The sequencer pauses, to an end still to come, which is the first unstalled cycle where an action is ready. -/
structure State.HeldTo (s : State) (stop : Option Nat) : Prop where
  pauses : s.sequence = .next (s.pause stop)
  toCome : ∀ c, stop = some c → s.t < c
  ready : s.actionReady → stop = nextFree s.blockers s.t

/-- A stall holds an action up to the first unstalled cycle. -/
theorem State.heldTo_of_act {s : State} {k : State → Result} (hs : s.stalled = true) (e : s.sequence = s.act k) :
    s.HeldTo (nextFree s.blockers s.t) where
  pauses := by rw [e, State.act, if_pos hs]
  toCome _ := State.nextFree_gt hs
  ready _ := rfl

/-- A wait with no action ready goes to its own end. -/
theorem State.heldTo_of_wait {s : State} {stop : Option Nat} (e : s.sequence = .next (s.pause stop))
    (ht : ∀ c, stop = some c → s.t < c) (hr : ¬ s.actionReady) : s.HeldTo stop := ⟨e, ht, fun h => absurd h hr⟩

/-- A wait for an event only, with no end of its own. -/
theorem State.heldTo_none {s : State} (e : s.sequence = .next (s.pause none)) (hr : ¬ s.actionReady) : s.HeldTo none :=
  State.heldTo_of_wait e (fun _ h => nomatch h) hr

/-- A wait up to the first unstalled cycle from d on, and from d on an action. -/
theorem State.heldTo_of_due {s : State} {d : Nat} {k : State → Result} (hs : s.stalled = true)
    (e : s.sequence = if decide (d ≤ s.t) then s.act k else .next (s.pause (nextFree s.blockers (max s.t d))))
    (hr : s.actionReady → d ≤ s.t) : ∃ stop, s.HeldTo stop := by
  by_cases hd : d ≤ s.t
  · exact ⟨_, State.heldTo_of_act hs (e.trans (if_pos (decide_eq_true hd)))⟩
  · exact ⟨_, State.heldTo_of_wait (e.trans (if_neg (by simpa using hd))) (fun _ => nextFree_max_gt (Nat.lt_of_not_le hd))
      (mt hr hd)⟩

/-- While no other agent acts, letting one cycle pass is a pause of one cycle. -/
theorem State.pause_one {s : State} (h : s.othersWait) : s.pause (some (s.t + 1)) = s.passTo (s.t + 1) := by
  obtain ⟨hgt, hle, -⟩ := State.pauseEnd_wait h (stop := some (s.t + 1)) (fun c hc => by cases hc; omega)
  rw [State.pause, Nat.le_antisymm (hle _ (Or.inl rfl)) hgt]

/-- The host has nothing to do, or its next move is one that a stall holds up (log 11). -/
abbrev State.hostHeld (s : State) : Prop :=
  s.host = [] ∨ (∃ w r, s.host = .cmd w :: r) ∨ (∃ a b r, s.host = .write a b :: r) ∨ ∃ id r, s.host = .select id :: r

/-- A stalled sequencer in IDLE: a cycle passes with nothing to do, or the stall holds up the host's move. -/
theorem State.heldTo_idle {s : State} (ht : s.sequencerTurn) (hs : s.stalled = true) (hf : s.inst.fsm = .idle)
    (hd : s.done = false) (hh : s.hostHeld) : ∃ stop, s.HeldTo stop := by
  have ⟨_, _, _, _, _, hstuck⟩ := ht
  have hq : s.sequence = s.idleStep := by rw [sequence_of hstuck, hf]
  rcases hh with hh | ⟨w, r, hh⟩ | ⟨a, b, r, hh⟩ | ⟨i, r, hh⟩
  · refine ⟨some (s.t + 1), State.heldTo_of_wait ?_ (fun c hc => by cases hc; omega) (by simp [State.actionReady, hf, hh])⟩
    rw [hq, State.pause_one (State.othersWait_of_turn ht)]
    simp [State.idleStep, hd, hh]
  all_goals exact ⟨_, State.heldTo_of_act hs (hq.trans (by simp only [State.idleStep, hd, hh]; rfl))⟩

/-- A stalled sequencer in PLAYING: it waits for the handler, or the stall holds up the host's turn or the completion (R197). -/
theorem State.heldTo_playing {s : State} (hs : s.stalled = true) (hf : s.inst.fsm = .playing) (hstuck : s.inst.stuck = false) :
    ∃ stop, s.HeldTo stop := by
  have hq := sequence_of hstuck
  simp only [hf] at hq
  split at hq
  · next ha =>
    split at hq
    · exact ⟨_, State.heldTo_of_act hs hq⟩
    · next hsel =>
      refine ⟨none, State.heldTo_none hq ?_⟩
      simp only [State.actionReady, hf, ha]
      rintro (h | ⟨i, r, h⟩)
      · cases h
      · exact hsel i r h
  · exact ⟨_, State.heldTo_of_act hs hq⟩

/-- In every state of FSM a stalled sequencer pauses (R17, R291, R300). -/
theorem State.heldTo_of_stalled {s : State} (ht : s.sequencerTurn) (hs : s.stalled = true)
    (hi : s.inst.fsm = .idle → s.done = false ∧ s.hostHeld) : ∃ stop, s.HeldTo stop := by
  have ⟨_, _, _, _, _, hstuck⟩ := ht
  have hq := sequence_of hstuck
  cases hf : s.inst.fsm with
  | idle =>
    obtain ⟨hd, hh⟩ := hi hf
    exact State.heldTo_idle ht hs hf hd hh
  | playing => exact State.heldTo_playing hs hf hstuck
  | waitActive =>
    simp only [hf] at hq
    split at hq
    · next ha => exact ⟨_, State.heldTo_none hq (by simp [State.actionReady, hf, ha])⟩
    · exact ⟨_, State.heldTo_of_act hs hq⟩
  | waitLatch =>
    simp only [hf] at hq
    exact State.heldTo_of_due hs hq (by simp [State.actionReady, hf, State.latchOpen])
  | fbBackoff =>
    simp only [hf] at hq
    exact State.heldTo_of_due hs hq (by simp [State.actionReady, hf, State.backoffOver])
  | bbHigh | bbLow | encoding | completion | fbHigh | fbLow | fbCheck =>
    simp only [hf] at hq
    exact ⟨_, State.heldTo_of_act hs hq⟩

/-- A pause to such an end passes time only, over no event of another agent (R288). -/
theorem State.HeldTo.passesTo {s : State} {stop : Option Nat} (h : s.HeldTo stop) (ht : s.sequencerTurn) :
    s.passesTo (s.pauseEnd stop) := by
  obtain ⟨hgt, hle, -⟩ := State.pauseEnd_wait (State.othersWait_of_turn ht) h.toCome
  exact ⟨hgt, (step_of_turn ht).trans h.pauses, fun e he => hle e (Or.inr he)⟩

/-- With an action ready the pause passes stalled cycles only, and ends with the stall or with an event, if either comes. -/
theorem State.HeldTo.pauseEnd_ready {s : State} {stop : Option Nat} (h : s.HeldTo stop) (ht : s.sequencerTurn)
    (hr : s.actionReady) :
    (∀ k, s.t ≤ k → k < s.pauseEnd stop → s.blocked k) ∧
    (¬ s.blocked (s.pauseEnd stop) ∨ s.pauseEnd stop ∈ s.nextEvents ∨ ∀ k, s.t ≤ k → s.blocked k) := by
  obtain ⟨-, hle, hend⟩ := State.pauseEnd_wait (State.othersWait_of_turn ht) h.toCome
  have hstop := h.ready hr
  cases hc : stop with
  | none =>
    rw [hc] at hstop
    have hall := nextFree_none hstop.symm
    exact ⟨fun k hk _ => hall k hk, Or.inr (Or.inr hall)⟩
  | some c =>
    rw [hc] at hstop hle hend
    obtain ⟨-, hfree, hbefore⟩ := nextFree_some hstop.symm
    have hlec := hle c (Or.inl rfl)
    refine ⟨fun k hk hkc => hbefore k hk (by omega), ?_⟩
    rcases hend with ⟨h0, -⟩ | he | he
    · cases h0
    · left
      rw [← Option.some.inj he, State.blocked, hfree]
      exact Bool.false_ne_true
    · exact Or.inr (Or.inl he)

/-- A step in which no other agent acts is the sequencer's, stuck or not. -/
theorem step_of_othersWait {s : State} (hr : s.nextRst = none) (h : s.othersWait) : step s = s.sequence := by
  obtain ⟨he, hu, hh, hf⟩ := h
  simp only [step, State.cycle, hr, State.agentStep, he, hu, hh, hf]

/-- An engine stuck in a phase that no cycle ends lets time pass (log 25). -/
theorem sequence_of_stuck {s : State} (h : s.inst.stuck = true) : s.sequence = .next (s.pause none) := by
  rw [State.sequence, if_pos h]

/-- Settles O44: a stalled sequencer pauses in every state of FSM, up to the first of its end and the events to come. -/
theorem stalledSequencerOnlyLetsTimePass : Obligations.StalledSequencerOnlyLetsTimePass := by
  intro s
  refine ⟨fun c hc => s.passTo_form hc, fun ht hs hi => ?_, fun hr he hu hh hf hstuck => ?_⟩
  · obtain ⟨stop, hstop⟩ := State.heldTo_of_stalled ht hs hi
    exact ⟨s.pauseEnd stop, hstop.passesTo ht, hstop.pauseEnd_ready ht⟩
  · have how : s.othersWait := ⟨he, hu, hh, hf⟩
    exact State.passesOn_of how ((step_of_othersWait hr how).trans (sequence_of_stuck hstuck))

end Sys2Proof.Machine
end

section
/-! Builds: a type tag enters its chipset in the constants, and the platform restarts with them or is refused. -/

namespace Sys2Proof.Machine

/-- A type tag builds with its own chipset (R106). -/
theorem exec_typeInstr (s : State) (c : Chip) : exec (typeInstr c) s = s.buildType c := by cases c <;> rfl

/-- Constants that are not well formed are refused (R107, U6). -/
theorem State.build_refused {s : State} {c : Config} (h : c.wf s.plat = false) : s.build c = .refused .illFormedConfig := by
  simp [State.build, h]

/-- With well-formed constants a build is the restart of the platform with them (R320, log 20). -/
theorem State.build_next {s : State} {c : Config} (h : c.wf s.plat = true) :
    s.build c = .next (({ s with inst := { s.inst with cfg := c } }).restart s.t) := by
  rw [State.build, if_pos h]

/-- Settles O30: a type tag is a build, and a build is a restart or a refusal. -/
theorem typeTagBuildsTheInstance : Obligations.TypeTagBuildsTheInstance := by
  intro s c
  rw [exec_typeInstr, State.buildType]
  exact ⟨State.build_refused, fun h => ⟨_, State.build_next h, rfl, rfl, rfl, rfl, rfl, rfl, rfl, rfl, rfl, rfl, rfl⟩⟩

end Sys2Proof.Machine
end

section
/-! The invariants of the instances over one step: the mask, the claim and the capacity discipline, and the constants (R21, R34, R28,
R37). -/

namespace Sys2Proof.Machine

/-- A property of every instance that the moves of the running one keep, that does not look at ACTIVE, that the completion of a
parked one keeps and that every reset and every build establishes: every step keeps it. -/
theorem step_all {P : Inst → Prop} {s s' : State} (hm : ∀ m, s.Moves m → P s.inst → P m.inst)
    (hact : ∀ i, P i → P { i with active := false })
    (hfin : ∀ i, i.fsm = .playing → i.active = false → P i → P (i.finished s))
    (hb : ∀ id c, c.wf s.plat = true → P (Inst.reset id c)) (hr : ∀ i, P i → P (Inst.reset i.id i.cfg))
    (h0 : P s.inst) (hp : ∀ i ∈ s.peers, P i) (h : step s = .next s') : P s'.inst ∧ ∀ i ∈ s'.peers, P i := by
  refine step_keeps (P := fun m => P m.inst ∧ ∀ i ∈ m.peers, P i) ⟨h0, hp⟩ (fun m ha => ?_) (fun m r q hq => ?_) h
  · exact State.acts_all (hm m) hact hfin hb hr ha h0 hp
  · refine ⟨hr _ hq.1, fun i hi => ?_⟩
    obtain ⟨j, hj, rfl⟩ := List.mem_map.mp hi
    exact hr j (hq.2 j hj)

/-- No step changes the platform's constants (R21). -/
theorem step_plat {s s' : State} (h : step s = .next s') : s'.plat = s.plat :=
  step_keeps (P := fun m => m.plat = s.plat) rfl (fun _ => State.acts_plat) (fun _ _ _ hp => hp) h

/-! ## Parked instances -/

/-- Clearing ACTIVE by identifier changes nothing else of the parked instances (R288). -/
theorem State.clearActive_peers (s : State) (id : Nat) : (s.clearActive id).peers = s.peers ∨
    (s.clearActive id).peers = s.peers.map (fun i => if i.id = id then { i with active := false } else i) := by
  unfold State.clearActive
  split
  · exact Or.inl rfl
  · exact Or.inr rfl

/-- The SEQEND handler changes nothing of the parked instances but an ACTIVE it clears (R288). -/
theorem State.seqendHandler_peers (s : State) (u : Nat) : (s.seqendHandler u).peers = s.peers ∨
    ∃ id, (s.seqendHandler u).peers = s.peers.map (fun i => if i.id = id then { i with active := false } else i) := by
  unfold State.seqendHandler
  split
  · next id w _ _ => exact (State.clearActive_peers _ id).imp_right fun h => ⟨id, h⟩
  · next id _ _ => exact (State.clearActive_peers _ id).imp_right fun h => ⟨id, h⟩
  · exact Or.inl rfl

/-- An action leaves every parked instance IDLE or PLAYING: one that is turned away from was either, one that completes becomes IDLE
(R197, R306). -/
theorem State.acts_parked {s s' : State} (h : s.Acts s') (hp : ∀ i ∈ s.peers, i.parked) : ∀ i ∈ s'.peers, i.parked := by
  rcases State.acts_moves h with h | ⟨u, rfl⟩ | ⟨id, hf, h⟩ | ⟨i, u, w, -, rfl⟩ | ⟨c, -, rfl⟩
  · rw [h.peers]; exact hp
  · rcases s.seqendHandler_peers u with e | ⟨id, e⟩
    · rw [e]; exact hp
    · intro j hj
      rw [e] at hj
      obtain ⟨k, hk, rfl⟩ := List.mem_map.mp hj
      split <;> exact hp k hk
  · exact (State.focus_all (P := Inst.parked) (s := s.popHost) h hf hp).2
  · intro j hj
    obtain ⟨k, hk, rfl⟩ := List.mem_map.mp hj
    split
    · exact Or.inl rfl
    · exact hp k hk
  · intro j hj
    obtain ⟨k, -, rfl⟩ := List.mem_map.mp hj
    exact Or.inl rfl

/-- So does every step. -/
theorem step_parked {s s' : State} (hp : ∀ i ∈ s.peers, i.parked) (h : step s = .next s') : ∀ i ∈ s'.peers, i.parked := by
  refine step_keeps (P := fun m => ∀ i ∈ m.peers, i.parked) hp (fun m hm => State.acts_parked hm hp) (fun m r q _ i hi => ?_) h
  obtain ⟨j, -, rfl⟩ := List.mem_map.mp hi
  exact Or.inl rfl

/-! ## The three disciplines of one instance -/

theorem Inst.reset_maskOk (id : Nat) (c : Config) : (Inst.reset id c).maskOk := ⟨rfl, nofun⟩

theorem Inst.reset_unitOk (id : Nat) (c : Config) : (Inst.reset id c).unitOk := ⟨rfl, nofun, nofun⟩

theorem Inst.reset_capOk (id : Nat) (c : Config) : (Inst.reset id c).capOk := Or.inl rfl

/-- An instance that completes after PLAYING has no masked window, as it had none (R161). -/
theorem Inst.finished_maskOk {i : Inst} {s : State} (hf : i.fsm = .playing) (h : i.maskOk) : (i.finished s).maskOk := by
  simp only [Inst.maskOk, hf] at h
  exact h

/-- An instance whose wait in PLAYING is over completes with no unit, no ACTIVE and no end of ENCODING (R197, R199). -/
theorem Inst.finished_unitOk {i : Inst} {s : State} (hf : i.fsm = .playing) (ha : i.active = false) (h : i.unitOk) :
    (i.finished s).unitOk := by
  obtain ⟨-, -, hend⟩ := h
  refine ⟨rfl, fun hx => ?_, fun hx => ?_⟩
  · exact absurd (ha.symm.trans hx) Bool.false_ne_true
  · exact absurd (hf.symm.trans (hend hx)) (by decide)

/-- Settles O52: the mask of each instance by its moves, the parked ones' state by what an action does to them. -/
theorem maskDisciplineKept : Obligations.MaskDisciplineKept := by
  rintro s s' ⟨h0, hp⟩ h
  obtain ⟨hm, hmp⟩ := step_all (P := Inst.maskOk) (fun _ hm => hm.mask) (fun _ hi => hi)
    (fun _ hf _ => Inst.finished_maskOk hf) (fun id c _ => Inst.reset_maskOk id c) (fun i _ => Inst.reset_maskOk i.id i.cfg)
    h0 (fun i hi => (hp i hi).2) h
  exact ⟨hm, fun i hi => ⟨step_parked (fun j hj => (hp j hj).1) h i hi, hmp i hi⟩⟩

/-- Settles O53: the claim discipline of each instance by its moves. -/
theorem claimDisciplineKept : Obligations.ClaimDisciplineKept := by
  rintro s s' ⟨h0, hp⟩ h
  refine step_all (P := Inst.unitOk) (fun _ hm => hm.unit) (fun i hi => ?_) (fun _ => Inst.finished_unitOk)
    (fun id c _ => Inst.reset_unitOk id c) (fun i _ => Inst.reset_unitOk i.id i.cfg) h0 hp h
  obtain ⟨hu, -, hend⟩ := hi
  exact ⟨hu, nofun, hend⟩

/-- Settles O54: a step keeps the platform, and each instance's constants and DUTY_CAP stay right for it. -/
theorem dutyCapStaysLegal : Obligations.DutyCapStaysLegal := by
  rintro s s' ⟨h0, hp⟩ h
  rw [State.capOk, step_plat h]
  refine step_all (P := fun i => i.cfg.wf s.plat = true ∧ i.capOk) (fun m hm hi => ?_) (fun _ hi => hi) (fun _ _ _ hi => hi)
    (fun id c hc => ⟨hc, Inst.reset_capOk id c⟩) (fun i hi => ⟨hi.1, Inst.reset_capOk i.id i.cfg⟩) h0 hp h
  obtain ⟨hw, hc⟩ := hi
  exact ⟨by rw [hm.cfg]; exact hw, hm.cap hw hc⟩

/-- Settles O55: the reset state has one instance, as reset, and its memories are empty. -/
theorem resetHasTheInvariants : Obligations.ResetHasTheInvariants := by
  have noPeers {P : Inst → Prop} : ∀ i ∈ State.reset.peers, P i := List.forall_mem_nil P
  have hwf : (Config.ref .pwmdma).wf Platform.ref = true := by decide
  refine ⟨⟨rfl, rfl, noPeers⟩, ⟨Inst.reset_maskOk 0 _, noPeers⟩, ⟨Inst.reset_unitOk 0 _, noPeers⟩,
    ⟨⟨hwf, Inst.reset_capOk 0 _⟩, noPeers⟩, ?_⟩
  exact ⟨List.length_replicate, List.length_replicate, List.length_replicate, List.length_replicate⟩

/-! ## What a step keeps -/

/-- Settles O46: an action that is no build and no turn keeps the running instance's constants, and so does a reset. -/
theorem constantsStayConstant : Obligations.ConstantsStayConstant := by
  intro s s' h
  refine ⟨step_plat h, fun hb => ?_⟩
  refine step_keeps (P := fun m => m.inst.cfg = s.inst.cfg ∧ m.inst.id = s.inst.id) ⟨rfl, rfl⟩ (fun m hm => ?_)
    (fun _ _ _ hp => hp) h
  have hk := State.acts_kept hm hb
  exact ⟨hk.cfg, hk.id⟩

/-- Settles O47: the three cases of what an action keeps of the parked instances; the one that completes is a PLAYING one whose wait
is over. -/
theorem otherInstancesKeepTheirRegisters : Obligations.OtherInstancesKeepTheirRegisters := by
  intro s s' hpast hb h
  rcases (State.acts_kept (step_acts_of_past h hpast) hb).peers with he | hh | ⟨i, hi, hinst, he⟩
  · exact Or.inl he
  · exact Or.inr (Or.inl hh)
  · obtain ⟨-, hfin⟩ := State.finisherDue_some hi
    obtain ⟨-, hmem, hplay, hact⟩ := State.finisher_some hfin
    exact Or.inr (Or.inr ⟨i, hmem, hplay, hact, hinst, he⟩)

/-- Settles O48: an action that is no build and no turn keeps every EVT bit that is set. -/
theorem evtBitsAreSticky : Obligations.EvtBitsAreSticky := by
  intro s s' hpast hb h
  exact (State.acts_kept (step_acts_of_past h hpast) hb).evt

end Sys2Proof.Machine
end

section
/-! Events, counters, the meaning of single instructions, and the sequencer's action after a low phase. -/

namespace Sys2Proof.Machine

/-- Setting an event's bit sets that bit and leaves every other (R38). -/
theorem getLsbD_setEvt (v : BitVec 8) (e : Event) (k : Nat) : (setEvt v e).getLsbD k = (decide (k = e.code) || v.getLsbD k) := by
  have hc : e.code < 8 := by cases e <;> decide
  have hbit : (1#8 <<< e.code).getLsbD k = decide (k = e.code) := by
    rw [BitVec.getLsbD_shiftLeft, BitVec.getLsbD_one, Bool.eq_iff_iff]
    simp only [Bool.and_eq_true, Bool.not_eq_true', decide_eq_true_eq, decide_eq_false_iff_not]
    omega
  rw [setEvt, BitVec.getLsbD_or, hbit, Bool.or_comm]

/-- Settles O5: the raise is its definition, the bit it sets that of the event's code. -/
theorem raiseSetsItsOwnBit : Obligations.RaiseSetsItsOwnBit :=
  fun s e => ⟨rfl, getLsbD_setEvt s.inst.evt e, rfl⟩

/-- Settles O7: both counters are the cycle number, or its microseconds, cut to 32 bits. -/
theorem countersFollowTime : Obligations.CountersFollowTime := by
  refine ⟨fun s => ⟨?_, ?_⟩, rfl, congrArg (BitVec.ofNat 32) (Nat.zero_div _)⟩
  · rw [State.cyc, cycAt, BitVec.toNat_ofNat]
  · rw [State.us, usAt, BitVec.toNat_ofNat]

/-- Settles O17: TRANSMIT with its operands latched at the latch wait, or refused for a buffer that wraps. -/
theorem transmitReachesTheLatchWait : Obligations.TransmitReachesTheLatchWait := by
  intro buf len dly s hbuf hlen
  refine ⟨fun hfits hact => exec_transmit_now hbuf hlen hfits hact, fun hwraps => ?_⟩
  have hnoop : ¬ (buf = 0 ∨ len = 0) := fun h => h.elim hbuf hlen
  simp only [exec, execTransmit, if_neg hnoop, bufferWraps, hwraps, decide_true, if_true]

/-- An action on the claimed unit is one on the unit UNIT names (R28). -/
theorem State.onUnit_of {s : State} {u : Nat} {w : PwmUnit} (hu : s.inst.unit = some u) (hw : s.pwmAt u = some w)
    (f : Nat → PwmUnit → Result) : s.onUnit f = f u w := by
  simp only [State.onUnit, hu, hw]

/-- Settles O25: the three entries with P = 1 are fetched by the claimed unit. -/
theorem dutyEntryIsFetchedWhole : Obligations.DutyEntryIsFetchedWhole :=
  fun _ _ _ _ hu hw => ⟨State.onUnit_of hu hw _, State.onUnit_of hu hw _, State.onUnit_of hu hw _⟩

/-! ## After a low phase -/

/-- The last bit of the last byte (R30). -/
theorem Inst.lastBit_iff (i : Inst) : i.lastBit = true ↔ i.bitIx = 0 ∧ i.len.toNat ≤ i.byteIx.toNat + 1 := by
  simp only [Inst.lastBit, Bool.and_eq_true, decide_eq_true_eq]

/-- The walk's next bit, written out (R30). -/
theorem State.nextBit_eq (s : State) (f : Fsm) : s.nextBit f =
    if s.inst.bitIx = 0 then { s with inst := { s.inst with byteIx := s.inst.byteIx + 1, bitIx := 7, fsm := f } }
    else { s with inst := { s.inst with bitIx := s.inst.bitIx - 1, fsm := f } } := by
  unfold State.nextBit Inst.nextPos
  split <;> rfl

/-- In a free turn the step is the action the sequencer is to make. -/
theorem State.freeTurn.step_of_act {s : State} {k : State → Result} (h : s.freeTurn) (hq : s.sequence = s.act k) :
    step s = k s := by
  obtain ⟨hturn, hfree⟩ := h
  rw [step_of_turn hturn, hq, act_of_free hfree]

/-- What follows the low phase of the bit-bang engine is the step (R150). -/
theorem State.freeTurn.step_bbLow {s : State} (h : s.freeTurn) (hf : s.inst.fsm = .bbLow) : step s = .next s.afterLow := by
  have ⟨⟨_, _, _, _, _, hstuck⟩, _⟩ := h
  exact h.step_of_act (by rw [sequence_of hstuck, hf])

/-- What follows the low part of the fallback engine is the step (R220). -/
theorem State.freeTurn.step_fbLow {s : State} (h : s.freeTurn) (hf : s.inst.fsm = .fbLow) : step s = .next s.afterPeriod := by
  have ⟨⟨_, _, _, _, _, hstuck⟩, _⟩ := h
  exact h.step_of_act (by rw [sequence_of hstuck, hf])

/-- Settles O34: both engines split on the last bit; the next bit and the window's end are written out. -/
theorem nextBitFollowsAtOnce : Obligations.NextBitFollowsAtOnce := by
  intro s h
  refine ⟨fun hf => ?_, fun hf => ?_⟩
  · rw [h.step_bbLow hf, State.afterLow, ← s.inst.lastBit_iff]
    refine ⟨fun hl => ?_, fun hl => ?_⟩
    · rw [if_neg hl, State.nextBit_eq]
    · rw [if_pos hl]; rfl
  · rw [h.step_fbLow hf, State.afterPeriod, ← s.inst.lastBit_iff]
    refine ⟨fun hl => ?_, fun hl => ?_⟩
    · rw [if_neg hl, State.nextBit_eq]
    · rw [if_pos hl]; rfl

end Sys2Proof.Machine
end

section
/-! The state after a reset, and that no step reads EVT. -/

namespace Sys2Proof.Machine

/-! ## After a reset -/

/-- The platform has just been reset: every instance as `Inst.reset` leaves it, the shared registers at their reset values, time 0
(R47). -/
structure State.JustReset (t : State) : Prop where
  insts : ∀ i ∈ t.inst :: t.peers, ∃ id c, i = Inst.reset id c
  time : t.t = 0
  registry : t.registry = List.replicate t.plat.nPwm none
  pend : t.pend = List.replicate t.plat.nPwm false
  gpio : t.gpio = List.replicate t.plat.nPins PinState.reset
  pwm : t.pwm = List.replicate t.plat.nPwm PwmUnit.reset

theorem State.resetWith_justReset (p : Platform) (c : Config) : (State.resetWith p c).JustReset where
  insts _ hi := ⟨0, c, List.mem_singleton.mp hi⟩
  time := rfl
  registry := rfl
  pend := rfl
  gpio := rfl
  pwm := rfl

theorem State.restart_justReset (s : State) (r : Nat) : (s.restart r).JustReset where
  insts i hi := by
    rcases List.mem_cons.mp hi with rfl | hi
    · exact ⟨_, _, rfl⟩
    · obtain ⟨j, -, rfl⟩ := List.mem_map.mp hi
      exact ⟨_, _, rfl⟩
  time := rfl
  registry := rfl
  pend := rfl
  gpio := rfl
  pwm := rfl

/-- An idle instance that has completed nothing is ready for a command (R91). -/
theorem State.JustReset.cmdReady {t : State} (h : t.JustReset) : t.cmdReady = true := by
  obtain ⟨id, c, hi⟩ := h.insts t.inst List.mem_cons_self
  rw [State.cmdReady, State.done, hi]
  rfl

/-- Settles O8: the reset state and every state a reset leaves are just reset, and that fixes every register the spec names. -/
theorem resetLeavesTheSpecsValues : Obligations.ResetLeavesTheSpecsValues := by
  intro t ht
  have h : t.JustReset := by
    rcases ht with rfl | ⟨s, r, rfl⟩
    · exact State.resetWith_justReset _ _
    · exact s.restart_justReset r
  refine ⟨fun i hi => ?_, ?_, ?_, h.cmdReady, h.registry, h.pend, h.gpio, ?_, fun w hw => ?_⟩
  · obtain ⟨id, c, rfl⟩ := h.insts i hi
    exact ⟨rfl, rfl, rfl, rfl, rfl, rfl, rfl, rfl, rfl, rfl, rfl, rfl, nofun⟩
  · rw [State.cyc, h.time]; rfl
  · rw [State.us, usAt, h.time, Nat.zero_div]; rfl
  · rw [h.pwm, List.length_replicate]
  · rw [h.pwm] at hw
    rw [List.eq_of_mem_replicate hw]
    exact ⟨rfl, rfl, rfl⟩

/-! ## EVT is not read -/

/-- A reset of steps that end alike is alike. -/
theorem resetAt_alike {V : Veil} (s : State) (r : Nat) {x y : State} (h : x.veil V = y.veil V) :
    ((s.veil V).resetAt r x).veil V = (s.resetAt r y).veil V := by
  rw [← resetAt_veil (s.veil V) r x, veil_veil, h, resetAt_veil]

/-- No step reads EVT: the agents do not, and EVT decides neither whether a reset cuts the step nor where. -/
theorem blind_step : BlindR .hideEvt step := by
  intro s
  have hr : (s.veil .hideEvt).nextRst = s.nextRst := rfl
  unfold step State.cycle
  rw [hr]
  cases s.nextRst with
  | none => exact blind_agentStep s
  | some r =>
    refine ite_alike Iff.rfl (fun _ => next_of (resetAt_veil s r s)) (fun _ => ?_)
    refine onNext_alike (blind_agentStep s) fun x y hxy => ?_
    have ht : x.t = y.t := by simpa using congrArg State.t hxy
    exact ite_alike (by rw [ht]) (fun _ => next_of (resetAt_alike s r hxy)) (fun _ => next_of hxy)

/-- Settles O59: forgetting EVT is the veil over EVT, which no step reads through. -/
theorem evtIsNeverRead : Obligations.EvtIsNeverRead := by
  intro s
  rw [← Result.veil_hideEvt, ← Result.veil_hideEvt, ← veil_hideEvt]
  exact blind_step s

end Sys2Proof.Machine
end

section
/-! A reset wins over the step it falls into, and what it leaves (R298, R320, R321). -/

namespace Sys2Proof.Machine

/-! ## The step a reset falls into -/

/-- A reset that is due is the step (R321). -/
theorem step_of_rstDue {s : State} {r : Nat} (hr : s.nextRst = some r) (h : r ≤ s.t) : step s = .next (s.resetAt r s) := by
  simp only [step, State.cycle, hr, if_pos h]

/-- A reset to come lets the step be the agents', cut where it reaches it (R321). -/
theorem step_of_rstToCome {s : State} {r : Nat} (hr : s.nextRst = some r) (h : s.t < r) : step s = s.cutAt r s.agentStep := by
  simp only [step, State.cycle, hr, if_neg (Nat.not_le.mpr h)]

/-- With no reset to come a step is the agents'. -/
theorem step_of_noRst {s : State} (hr : s.nextRst = none) : step s = s.agentStep := by
  simp only [step, State.cycle, hr]

theorem State.cutAt_before {s m : State} {r : Nat} (h : m.t < r) : s.cutAt r (.next m) = .next m :=
  if_neg (Nat.not_le.mpr h)

theorem State.cutAt_reached {s m : State} {r : Nat} (h : r ≤ m.t) : s.cutAt r (.next m) = .next (s.resetAt r m) :=
  if_pos h

/-- What the step is that a reset to come may cut: the agents' step, or the step with no reset to come. -/
theorem step_of_agentStep {s : State} {r : Nat} (hr : s.nextRst = some r) (h : s.t < r) :
    (∀ m, s.agentStep = .next m → (m.t < r → step s = .next m) ∧ (r ≤ m.t → step s = .next (s.resetAt r m))) ∧
    (∀ f, s.agentStep = .fault f → step s = .fault f) ∧ ∀ f, s.agentStep = .refused f → step s = .refused f := by
  rw [step_of_rstToCome hr h]
  refine ⟨fun m e => ?_, fun f e => ?_, fun f e => ?_⟩
  · rw [e]; exact ⟨State.cutAt_before, State.cutAt_reached⟩
  · rw [e]; rfl
  · rw [e]; rfl

/-! ## The host's WAIT over a reset -/

/-- The host lets n cycles pass exactly at the port of an idle instance with WAIT n next (R111). -/
theorem State.hostWait_some {s : State} {n : Nat} : s.hostWait = some n ↔
    (s.inst.fsm = .idle ∧ s.done = false ∧ s.inst.stuck = false) ∧ ∃ q, s.host = .wait n :: q := by
  unfold State.hostWait
  split
  · next hf hd hh =>
    simp only [Bool.or_eq_false_iff] at hd
    simp [hf, hd, hh]
  · next hno =>
    refine ⟨nofun, fun ⟨⟨hf, hd, hs⟩, q, hq⟩ => ?_⟩
    exact absurd hq (hno n q hf (by rw [hd, hs]; rfl))

/-- Of a WAIT the host is in, the cycles after the reset's stay to be waited (R111). -/
theorem State.hostAfter_waiting {s : State} {n : Nat} {q : List HostMove}
    (hw : s.inst.fsm = .idle ∧ s.done = false ∧ s.inst.stuck = false) (hq : s.host = .wait n :: q) (r : Nat)
    (h : List HostMove) : s.hostAfter r h = .wait (s.t + n - (r + 1)) :: q := by
  rw [State.hostAfter, State.hostWait_some.mpr ⟨hw, q, hq⟩, hq]; rfl

/-- Any other queue stays as the step leaves it. -/
theorem State.hostAfter_other {s : State}
    (hw : ¬ ((s.inst.fsm = .idle ∧ s.done = false ∧ s.inst.stuck = false) ∧ ∃ n q, s.host = .wait n :: q)) (r : Nat)
    (h : List HostMove) : s.hostAfter r h = h := by
  have hnone : s.hostWait = none := by
    refine Option.eq_none_iff_forall_ne_some.mpr fun n hn => ?_
    obtain ⟨hidle, q, hq⟩ := State.hostWait_some.mp hn
    exact hw ⟨hidle, n, q, hq⟩
  rw [State.hostAfter, hnone]

/-! ## The observations a reset ends -/

theorem Seg.before_some {r : Nat} {g g' : Seg} :
    g.before r = some g' ↔ g.start < r ∧ { g with cycles := min g.cycles (r - g.start) } = g' := by
  unfold Seg.before
  split <;> simp [*]

theorem MaskWindow.before_some {r : Nat} {w w' : MaskWindow} :
    w.before r = some w' ↔ w.start < r ∧ { w with stop := min w.stop r } = w' := by
  unfold MaskWindow.before
  split <;> simp [*]

/-- A segment that begins before the reset is kept, cut at the reset. -/
theorem State.mem_obsBefore_wave {m : State} {r : Nat} {g : Seg} (hg : g ∈ m.waveSoFar r) (hr : g.start < r) :
    { g with cycles := min g.cycles (r - g.start) } ∈ (m.obsBefore r).wave :=
  List.mem_filterMap.mpr ⟨g, hg, Seg.before_some.mpr ⟨hr, rfl⟩⟩

/-- Every segment kept is over when the reset comes. -/
theorem State.obsBefore_wave_over {m : State} {r : Nat} {g : Seg} (hg : g ∈ (m.obsBefore r).wave) :
    g.start < r ∧ g.start + g.cycles ≤ r := by
  obtain ⟨g', -, hcut⟩ := List.mem_filterMap.mp hg
  obtain ⟨hr, rfl⟩ := Seg.before_some.mp hcut
  exact ⟨hr, by dsimp only; omega⟩

/-- So is every masked window kept. -/
theorem State.obsBefore_masks_over {m : State} {r : Nat} {w : MaskWindow} (hw : w ∈ (m.obsBefore r).masks) :
    w.start < r ∧ w.stop ≤ r := by
  obtain ⟨w', -, hcut⟩ := List.mem_filterMap.mp hw
  obtain ⟨hr, rfl⟩ := MaskWindow.before_some.mp hcut
  exact ⟨hr, Nat.min_le_right _ _⟩

/-- The `done` pulses kept are those before the reset. -/
theorem State.mem_obsBefore_dones {m : State} {r : Nat} {d : DonePulse} :
    d ∈ (m.obsBefore r).dones ↔ d ∈ m.obs.dones ∧ d.cycle < r := by
  simp only [State.obsBefore, List.mem_filter, decide_eq_true_eq]

/-- A recorded segment that is over before the reset is kept whole. -/
theorem State.mem_obsBefore_whole {m : State} {r : Nat} {g : Seg} (hg : g ∈ m.obs.wave) (hpos : 0 < g.cycles)
    (hr : g.start + g.cycles ≤ r) : g ∈ (m.obsBefore r).wave := by
  have hmem := State.mem_obsBefore_wave (r := r) (List.mem_append_left _ hg : g ∈ m.waveSoFar r) (by omega)
  rwa [Nat.min_eq_left (by omega)] at hmem

/-- An interval of a playing unit that is not recorded yet is owed (R195, R321). -/
theorem State.playSegs_owed {m : State} {u k : Nat} {w : PwmUnit} {i : Inst} {g : Seg} (r : Nat) (hw : m.pwmAt u = some w)
    (hrun : w.run = true) (ho : m.owner u = some i) (hk : w.pos + k < w.seqCnt.toNat)
    (hg : g ∈ m.playSegs { w with due := w.due + k * w.period } (cmpOf (m.entryAhead i w k))) : g ∈ m.waveSoFar r := by
  have hplay : (u, w) ∈ m.players := State.mem_players.mpr ⟨hw, by rw [State.playing, hrun, ho]; rfl⟩
  refine List.mem_append_right _ (List.mem_flatMap.mpr ⟨(u, w), hplay, ?_⟩)
  simp only [State.owedSegs, ho]
  exact List.mem_append_left _ (List.mem_flatMap.mpr ⟨k, List.mem_range.mpr (by omega), hg⟩)

/-- Settles O9: the step a reset falls into is cut as `State.cycle` says, which is the step with no reset to come, since no agent reads
`rst`; of what a reset leaves, the requests are the shifted ones and the observations the cut ones. -/
theorem resetWinsOverEverything : Obligations.ResetWinsOverEverything := by
  refine ⟨fun s r hr => ⟨step_of_rstDue hr, fun h => ?_⟩, fun s m r => ⟨rfl, fun n q hw hq => ?_, fun hw => ?_⟩, fun m r => ?_⟩
  · obtain ⟨hnext, hfault, hrefused⟩ := step_of_agentStep hr h
    obtain ⟨hstopf, hstopr⟩ := agentStep_rst_stops s
    rw [step_of_noRst (s := { s with rst := [] }) (State.nextRst_nil rfl)]
    exact ⟨hnext, hfault, hrefused, fun m e hpast => hnext _ (agentStep_rst e hpast), fun f e => hfault f (hstopf f e),
      fun f e => hrefused f (hstopr f e)⟩
  · exact State.hostAfter_waiting hw hq r m.host
  · exact State.hostAfter_other hw r m.host
  · refine ⟨rfl, rfl, rfl, rfl, rfl, rfl, rfl, rfl, rfl, rfl, rfl, rfl, fun c => ?_, rfl, rfl, ?_⟩
    · exact ⟨inWindows_shift (r + 1) c m.irq, inWindows_shift (r + 1) c m.nmi⟩
    · exact ⟨fun g => State.obsBefore_wave_over, fun w => State.obsBefore_masks_over, fun d => State.mem_obsBefore_dones,
        fun g => State.mem_obsBefore_whole, fun u w k i hw hrun ho hk g hg => State.mem_obsBefore_wave
          (State.playSegs_owed r hw hrun ho hk hg)⟩

end Sys2Proof.Machine
end

section
/-! GPIO actions, the byte an engine reads, the duty sequence ENCODING writes, and what every step does to the memories. -/

namespace Sys2Proof.Machine

/-! ## GPIO actions -/

/-- A GPIO action on a pin that resolves changes that pin only (R67). -/
theorem State.gpioAct_resolved {s : State} {p : Pin} (h : p.toNat < s.plat.nPins) (f : PinState → PinState) :
    s.gpioAct p f = { s with gpio := s.gpio.set p.toNat (f (s.pinState p.toNat)) } :=
  if_pos (decide_eq_true h)

/-- On a pin that does not resolve it only raises BAD_PIN (R68). -/
theorem State.gpioAct_unresolved {s : State} {p : Pin} (h : s.plat.nPins ≤ p.toNat) (f : PinState → PinState) :
    s.gpioAct p f = s.raise .badPin :=
  if_neg fun hr => Nat.not_lt.mpr h (of_decide_eq_true hr)

/-- Settles O6: the four actions are `State.gpioAct` with four changes of a pin. -/
theorem gpioActionsChangeOnePin : Obligations.GpioActionsChangeOnePin :=
  fun _ _ =>
    ⟨fun h => ⟨State.gpioAct_resolved h _, State.gpioAct_resolved h _, State.gpioAct_resolved h _, State.gpioAct_resolved h _⟩,
      fun h => ⟨State.gpioAct_unresolved h _, State.gpioAct_unresolved h _, State.gpioAct_unresolved h _,
        State.gpioAct_unresolved h _⟩⟩

/-! ## The byte read at bit 7 -/

/-- A listed byte is what a read gives (R62). -/
theorem State.memRead_of_read {s : State} {a : Nat} {b : Byte} (h : Memory.read s.mem a = some b) : s.memRead a = b := by
  rw [State.memRead, h]

/-- At bit 7 the byte of the current position is the one in memory (R153, R224). -/
theorem State.byteNow_seven {s : State} (h : s.inst.bitIx = 7) : s.byteNow = s.memRead s.inst.byteAddr := if_pos h

/-- At bit 7 the current bit is bit 7 of that byte. -/
theorem State.bitNow_seven {s : State} (h : s.inst.bitIx = 7) : s.bitNow = (s.memRead s.inst.byteAddr).getLsbD 7 := by
  rw [State.bitNow, State.byteNow_seven h, h]; rfl

/-- In a high phase of the bit-bang engine the step is the current bit's symbol, with its byte in CUR (R150, R153). -/
theorem State.freeTurn.step_bbHigh {s : State} (h : s.freeTurn) (hf : s.inst.fsm = .bbHigh) (ha : s.inst.byteAddr < 2 ^ 32) :
    step s = exec (if s.bitNow then .sym1 else .sym0) s.withByte := by
  have ⟨⟨_, _, _, _, _, hstuck⟩, _⟩ := h
  rw [h.step_of_act (by rw [sequence_of hstuck, hf]), State.fetchByte_eq ha]
  rfl

/-- So it is in the fallback engine (R220, R224). -/
theorem State.freeTurn.step_fbHigh {s : State} (h : s.freeTurn) (hf : s.inst.fsm = .fbHigh) (ha : s.inst.byteAddr < 2 ^ 32) :
    step s = exec (if s.bitNow then .fbSym1 else .fbSym0) s.withByte := by
  have ⟨⟨_, _, _, _, _, hstuck⟩, _⟩ := h
  rw [h.step_of_act (by rw [sequence_of hstuck, hf]), State.fetchByte_eq ha]
  rfl

/-- Settles O33: the step is the symbol of the byte just read, in both engines. -/
theorem byteIsReadAtBitSeven : Obligations.ByteIsReadAtBitSeven := by
  intro s h h7 ha
  have hread : s.withByte = { s with inst := { s.inst with cur := s.memRead s.inst.byteAddr } } := by
    rw [State.withByte, State.byteNow_seven h7]
  refine ⟨fun hf => ?_, fun hf => ?_, fun b => State.memRead_of_read⟩
  · rw [h.step_bbHigh hf ha, State.bitNow_seven h7, hread]; rfl
  · rw [h.step_fbHigh hf ha, State.bitNow_seven h7, hread]; rfl

/-! ## The duty sequence -/

/-- Entry 8 i + 7 - k of the sequence is that of bit k of byte i (R191). -/
theorem get_dutySequence_bit {c : Config} {bytes : List Byte} {i : Nat} {b : Byte} (hb : bytes[i]? = some b) (k : Fin 8) :
    (dutySequence c bytes)[8 * i + (7 - k.val)]? = some (if b.getLsbD k.val then c.cp.duty1 else c.cp.duty0) := by
  obtain ⟨hi, -⟩ := List.getElem?_eq_some_iff.mp hb
  have hk := k.isLt
  rw [dutySequence, List.getElem?_append_left (by rw [length_flatMap8 _ fun _ => rfl]; omega),
    get_flatMap8 _ (fun _ => rfl) _ _ _ (by omega), hb, Option.bind_some, get_entriesOf _ _ _ (by omega),
    show 7 - (7 - k.val) = k.val by omega]

/-- The terminators follow the bits (R191). -/
theorem get_dutySequence_term {c : Config} {bytes : List Byte} {j : Nat} (hj : j < c.termN) :
    (dutySequence c bytes)[8 * bytes.length + j]? = some term := by
  have hl := length_flatMap8 (entriesOf c.cp) (fun _ => rfl) bytes
  rw [dutySequence, List.getElem?_append_right (by omega), hl, Nat.add_sub_cancel_left, List.getElem?_replicate, if_pos hj]

theorem get_bufferBytes {s : State} {i : Nat} (h : i < s.inst.len.toNat) :
    s.bufferBytes[i]? = some (s.memRead (s.inst.buf.toNat + i)) := by
  rw [State.bufferBytes, List.getElem?_map, List.getElem?_range h, Option.map_some]

/-- Settles O38: what ENCODING writes is the duty sequence, whose entries are those of the bits and then the terminators. -/
theorem encodingWritesTheSequence : Obligations.EncodingWritesTheSequence := by
  intro s
  refine ⟨fun i k hi => ?_, fun j hj => ?_, fun j hj => ?_⟩
  · have hk := k.isLt
    rw [s.encode_read, if_pos (by unfold Inst.seqLen; omega), get_dutySequence_bit (get_bufferBytes hi)]
  · rw [s.encode_read, if_pos (by unfold Inst.seqLen; omega), ← length_bufferBytes, get_dutySequence_term hj, term]
  · rw [s.encode_read, if_neg (by unfold Inst.seqLen; omega)]

/-! ## The pixel-buffer memory -/

/-- A step leaves the pixel-buffer memory, or makes the host's write (R61). -/
theorem step_mem {s s' : State} (h : step s = .next s') :
    s'.mem = s.mem ∨ ∃ a b, s.host.head? = some (.write a b) ∧ s.inst.fsm = .idle ∧ s'.mem = Memory.write s.mem a b :=
  step_keeps (P := fun m => m.mem = s.mem ∨ ∃ a b, s.host.head? = some (.write a b) ∧ s.inst.fsm = .idle ∧
    m.mem = Memory.write s.mem a b) (Or.inl rfl) (fun _ => State.acts_mem) (fun _ _ _ hp => hp) h

/-- The byte written is read back (R62, R77). -/
theorem memRead_write_same {s t : State} {a : Addr} {b : Byte} (h : t.mem = Memory.write s.mem a b) : t.memRead a.toNat = b :=
  State.memRead_of_read (by rw [h]; exact Sparse.read_write_same _ _ _)

/-- Every other byte is as it was (R62). -/
theorem memRead_write_other {s t : State} {a : Addr} {b : Byte} (h : t.mem = Memory.write s.mem a b) {k : Nat}
    (hk : k ≠ a.toNat) : t.memRead k = s.memRead k := by
  have hread : Memory.read t.mem k = Memory.read s.mem k := by rw [h]; exact Sparse.read_write_other hk _ _
  rw [State.memRead, State.memRead, hread]

/-- In a free turn an idle instance's step is its host's move (R91). -/
theorem State.freeTurn.step_idle {s : State} (h : s.freeTurn) (hf : s.inst.fsm = .idle) : step s = s.idleStep := by
  have ⟨hturn, _⟩ := h
  have ⟨_, _, _, _, _, hstuck⟩ := hturn
  rw [step_of_turn hturn, sequence_of hstuck, hf]

/-- Settles O45: over a step by what its action does to the memory, the write by the read-after-write laws. -/
theorem pixelMemoryIsOnlyTheHosts : Obligations.PixelMemoryIsOnlyTheHosts := by
  refine ⟨fun s s' => step_mem, fun s a b r h hf hd hh _ => ?_⟩
  refine ⟨{ s with host := r, mem := Memory.write s.mem a b }, ?_, rfl, memRead_write_same rfl,
    fun k hk => memRead_write_other rfl hk⟩
  have ⟨_, hfree⟩ := h
  simp only [h.step_idle hf, State.idleStep, hd, Bool.false_eq_true, if_false, hh, act_of_free hfree, State.popHost, List.tail_cons]

/-! ## The duty RAM -/

/-- Settles O50: an action that is no build and no turn changes the duty RAM in these states of FSM only, and PLAYING is none. -/
theorem dutyRamIsFixedDuringPlayback : Obligations.DutyRamIsFixedDuringPlayback := by
  intro s s' hpast hb h hne
  have hwhen := (State.acts_kept (step_acts_of_past h hpast) hb).duty hne
  refine ⟨fun hplay => ?_, hwhen⟩
  rw [hplay] at hwhen
  rcases hwhen with h | ⟨-, h | h | h⟩ <;> cases h

/-- Settles O51: each instance's duty RAM by its moves, the pixel-buffer memory by what a step does to it. -/
theorem memoriesStayCanonical : Obligations.MemoriesStayCanonical := by
  rintro s s' ⟨hmem, h0, hp⟩ h
  refine ⟨?_, step_all (P := fun i => Sparse.wf i.duty = true) (fun _ hm => hm.duty) (fun _ hi => hi) (fun _ _ _ _ => rfl)
    (fun _ _ _ => rfl) (fun _ _ => rfl) h0 hp h⟩
  rcases step_mem h with e | ⟨a, b, -, -, e⟩
  · rw [e]; exact hmem
  · rw [e]; exact Memory.wf_write hmem a b

end Sys2Proof.Machine
end

section
/-! A unit plays the entry it reads, and the completion of a playback, of the running instance or of a parked one. -/

namespace Sys2Proof.Machine

/-! ## A unit at the start of its interval -/

/-- An entry with P = 0 stops the playback (R105). -/
theorem State.unitStep_refused {s : State} {u : Nat} {w : PwmUnit} {i : Inst} (ho : s.owner u = some i)
    (hp : w.pos < w.seqCnt.toNat) (hf : w.fetched = none) (hpol : polarity (s.dmaRead i w w.pos) = false) :
    s.unitStep u w = .refused .reservedDutyEntry := by
  rw [State.unitStep, if_neg (by omega), ho]
  simp only [hf, State.asInst, State.owner_instOf ho, decodeDuty, hpol, if_true]
  rfl

/-- Fetching an entry leaves the unit the one that acts (R195). -/
theorem State.unitDue_fetched {s : State} {u : Nat} {w : PwmUnit} (h : s.unitDue = some (u, w)) (e : Option Entry) :
    (s.setPwm u { w with fetched := e }).unitDue = some (u, { w with fetched := e }) := by
  obtain ⟨hw, hplays, hfirst⟩ := (s.unitDue_iff u w).mp h
  refine (State.unitDue_iff _ _ _).mpr ⟨State.pwmAt_set hw _, hplays, fun v w' hv hw' => hfirst v w' hv ?_⟩
  simpa only [State.pwmAt, State.setPwm_pwm, pwmAt_set_ne _ (Nat.ne_of_lt hv)] using hw'

/-- A unit that has fetched an entry plays it in the next step (R195). -/
theorem step_of_fetched {s : State} {u : Nat} {w : PwmUnit} {i : Inst} {e : Entry} (hr : s.nextRst = none) (he : s.envDue = none)
    (hu : s.unitDue = some (u, w)) (ho : s.owner u = some i) (hi : i.unit = some u) (hp : w.pos < w.seqCnt.toNat) :
    step (s.setPwm u { w with fetched := some e }) = .next { s with
      pwm := s.pwm.set u { w with pos := w.pos + 1, fetched := none, due := w.due + w.period }
      obs := { s.obs with wave := s.obs.wave ++ s.playSegs w (cmpOf e) } } := by
  have ⟨hw, _, _⟩ := (s.unitDue_iff u w).mp hu
  rw [step_of_unit (s := s.setPwm u { w with fetched := some e }) hr he (State.unitDue_fetched hu _),
    State.unitStep_play (s := s.setPwm u { w with fetched := some e }) (State.pwmAt_set hw _) ho hi hp rfl, State.setPwm_pwm,
    List.set_set]
  rfl

/-- Settles O27: one step fetches the entry or refuses it, and the unit still acts, so the next step plays it. -/
theorem unitPlaysTheEntryItReads : Obligations.UnitPlaysTheEntryItReads := by
  intro s u w i hr he hu ho hi hp hf
  have ⟨hw, _, _⟩ := (s.unitDue_iff u w).mp hu
  refine ⟨fun x hx => ?_, fun hpol => ?_, fun hpol => ?_⟩
  · simp only [State.dutyEntry, hx]
  · rw [step_of_unit hr he hu, State.unitStep_refused ho hp hf hpol]
  · refine ⟨_, (step_of_unit hr he hu).trans (State.unitStep_fetch hw ho hi hp hf rfl hpol), rfl, ?_⟩
    refine (step_of_fetched hr he hu ho hi hp).trans ?_
    rw [State.playSegs_eq]
    rfl

/-! ## How far a step lets time pass while the sequencer is stalled -/

/-- The step goes no further than the next cycle, or no further than any event of another agent. -/
def State.StaysBy (s s' : State) : Prop := s'.t ≤ s.t + 1 ∨ ∀ e ∈ s.nextEvents, s'.t ≤ max e (s.t + 1)

theorem State.staysBy_of_le {s s' : State} (h : s'.t ≤ s.t) : s.StaysBy s' := Or.inl (by omega)

theorem State.passTo_staysBy (s : State) : s.StaysBy (s.passTo (s.t + 1)) := Or.inl (by rw [State.passTo_t]; omega)

/-- A pause goes to its end or to an event before it (R288). -/
theorem State.pause_staysBy (s : State) (stop : Option Nat) : s.StaysBy (s.pause stop) := by
  obtain ⟨hgt, -, hle⟩ := s.pauseEnd_spec stop
  refine Or.inr fun e he => ?_
  have := hle e (Or.inr he)
  rw [State.pause, State.passTo_t]; omega

/-- A WAIT n goes no further than a pause of n cycles (R111). -/
theorem State.waitMove_t_le (s : State) (n : Nat) : (s.waitMove n).t ≤ (s.pause (some (s.t + n))).t := by
  have hpause : (s.pause (some (s.t + n))).t = max s.t (s.pauseEnd (some (s.t + n))) := State.passTo_t _ _
  unfold State.waitMove
  split
  · rw [hpause]; exact Nat.le_max_left _ _
  · split
    · next hle => rw [hpause, State.passTo_t, State.popHost_t]; omega
    · exact Nat.le_refl _

theorem State.StaysBy.of_le {s m s' : State} (h : s.StaysBy m) (hle : s'.t ≤ m.t) : s.StaysBy s' :=
  h.imp (Nat.le_trans hle) fun h e he => Nat.le_trans hle (h e he)

/-- A stall lets an action be a pause. -/
theorem State.act_staysBy {s s' : State} {k : State → Result} (hs : s.stalled = true) (h : s.act k = .next s') : s.StaysBy s' := by
  rw [State.act, if_pos hs] at h
  cases h; exact s.pause_staysBy _

/-- A build begins a new time (R320). -/
theorem exec_chip_t {w : BitVec 3} {s m : State} (h : exec (decodeChip w) s = .next m) : m.t = 0 := by
  rcases exec_chip w s with ⟨c, -, e⟩ | ⟨r, e⟩
  · rw [e] at h; cases h; rfl
  · rw [e] at h; cases h

theorem exec_order_t {w : BitVec 2} {s m : State} (h : exec (decodeOrder w) s = .next m) : m.t = 0 := by
  rcases exec_order w s with ⟨c, -, e⟩ | ⟨r, e⟩
  · rw [e] at h; cases h; rfl
  · rw [e] at h; cases h

/-- A stalled sequencer in IDLE: a cycle passes, the host waits or builds, or the stall holds up its move (log 11). -/
theorem State.idleStep_staysBy {s s' : State} (hs : s.stalled = true) (h : s.idleStep = .next s') : s.StaysBy s' := by
  unfold State.idleStep at h
  split at h
  · cases h; exact s.passTo_staysBy
  · split at h
    · cases h; exact s.passTo_staysBy
    · next n _ _ => cases h; exact (s.pause_staysBy _).of_le (s.waitMove_t_le n)
    · exact State.act_staysBy hs h
    · exact State.act_staysBy hs h
    · exact State.act_staysBy hs h
    · exact State.staysBy_of_le (by rw [exec_chip_t h]; exact Nat.zero_le _)
    · exact State.staysBy_of_le (by rw [exec_order_t h]; exact Nat.zero_le _)

/-- In every state of FSM the step of a stalled sequencer stays by every event (R288, R291, R300). -/
theorem State.sequence_staysBy {s s' : State} (hs : s.stalled = true) (h : s.sequence = .next s') : s.StaysBy s' := by
  cases hstuck : s.inst.stuck with
  | true =>
    rw [sequence_of_stuck hstuck] at h
    cases h; exact s.pause_staysBy _
  | false =>
    rw [sequence_of hstuck] at h
    cases hf : s.inst.fsm with
    | idle => simp only [hf] at h; exact State.idleStep_staysBy hs h
    | waitActive =>
      simp only [hf] at h
      split at h
      · cases h; exact s.pause_staysBy _
      · exact State.act_staysBy hs h
    | waitLatch | fbBackoff =>
      simp only [hf] at h
      split at h
      · exact State.act_staysBy hs h
      · cases h; exact s.pause_staysBy _
    | playing =>
      simp only [hf] at h
      split at h
      · split at h
        · exact State.act_staysBy hs h
        · cases h; exact s.pause_staysBy _
      · exact State.act_staysBy hs h
    | bbHigh | bbLow | encoding | completion | fbHigh | fbLow | fbCheck =>
      simp only [hf] at h
      exact State.act_staysBy hs h

/-! ## The other agents take no time -/

theorem State.envMove_t {s m : State} {v : EnvMove} (h : s.envMove v = .next m) : m.t = s.t := by
  unfold State.envMove at h
  split at h
  · split at h
    · cases h; rfl
    · split at h <;> cases h <;> rfl
  · split at h
    · cases h
    · cases h; rfl
  · cases h; rfl

theorem State.playEntry_t {s m : State} {c : BitVec 15} (h : s.playEntry c = .next m) : m.t = s.t := by
  obtain ⟨u, w, -, -, hn⟩ := onUnit_next h
  cases hn; rfl

theorem exec_duty_t {d e : Entry} {s m : State} (h : exec (decodeDuty d e) s = .next m) : m.t = s.t := by
  rcases exec_duty d e s with hx | ⟨-, hx⟩
  · rw [hx] at h
    obtain ⟨u, w, -, -, hn⟩ := onUnit_next h
    cases hn; rfl
  · rw [hx] at h; cases h

theorem State.unitStep_t {s m : State} {u : Nat} {w : PwmUnit} (h : s.unitStep u w = .next m) : m.t = s.t := by
  unfold State.unitStep at h
  split at h
  · cases h; rfl
  · split at h
    · cases h
    · next i ho =>
      split at h
      · obtain ⟨j, x, -, hx, rfl⟩ := State.asInst_next h
        exact (exec_duty_t hx :)
      · split at h
        · next k hk =>
          obtain ⟨j, x, hj, hx, rfl⟩ := State.asInst_next h
          rw [State.owner_instOf ho] at hj
          cases hj
          rw [exec_symbolOf hk { s with inst := i } rfl] at hx
          exact (State.playEntry_t hx :)
        · obtain ⟨j, x, -, hx, rfl⟩ := State.asInst_next h
          exact (State.playEntry_t hx :)

theorem State.seqendHandler_t (s : State) (u : Nat) : (s.seqendHandler u).t = s.t := by
  unfold State.seqendHandler State.clearActive
  split
  · split <;> rfl
  · split <;> rfl
  · rfl

theorem State.finishParked_t {s m : State} {i : Inst} (h : s.finishParked i = .next m) : m.t = s.t := by
  obtain ⟨x, hx, hm⟩ := onNext_next h
  obtain ⟨u, w, -, -, hn⟩ := onUnit_next hx
  cases hn; cases hm; rfl

/-- An action takes no time, or it is the sequencer's, with no other agent due. -/
theorem State.agentStep_t {s m : State} (h : s.agentStep = .next m) : m.t = s.t ∨ s.othersWait ∧ s.sequence = .next m := by
  unfold State.agentStep at h
  split at h
  · exact Or.inl (State.envMove_t h :)
  · next he =>
    split at h
    · exact Or.inl (State.unitStep_t h)
    · next hu =>
      split at h
      · cases h; exact Or.inl (s.seqendHandler_t _)
      · next hh =>
        split at h
        · exact Or.inl (State.finishParked_t h)
        · next hf => exact Or.inr ⟨⟨he, hu, hh, hf⟩, h⟩

/-! ## The completion of a parked instance -/

/-- An unstalled cycle is no earlier than the next one. -/
theorem nextFree_le {ws : List Window} {t c : Nat} (hle : t ≤ c) (hc : inWindows ws c = false) :
    ∃ e, nextFree ws t = some e ∧ e ≤ c := by
  cases he : nextFree ws t with
  | none =>
    rw [nextFree_none he c hle] at hc
    cases hc
  | some e =>
    obtain ⟨-, -, hbefore⟩ := nextFree_some he
    refine ⟨e, rfl, Nat.not_lt.mp fun hlt => ?_⟩
    rw [hbefore c hle hlt] at hc
    cases hc

/-- While a parked instance has its completion to make, no action lets time pass beyond an unstalled cycle (R197). -/
theorem State.agentStep_le_of_finisher {s m : State} {i : Inst} {c : Nat} (hi : s.finisher = some i) (h : s.agentStep = .next m)
    (hle : s.t ≤ c) (hc : ¬ s.blocked c) : m.t ≤ c := by
  have hfree : inWindows s.blockers c = false := by simpa [State.blocked] using hc
  rcases State.agentStep_t h with ht | ⟨⟨-, -, -, hdue⟩, hseq⟩
  · omega
  have hs : s.stalled = true := by
    cases hs : s.stalled with
    | true => rfl
    | false => rw [State.finisherDue, hs, hi] at hdue; cases hdue
  have hlt : s.t < c := Nat.lt_of_le_of_ne hle fun e => hc (e ▸ State.blocked_of_stalled hs)
  obtain ⟨e, he, hec⟩ := nextFree_le hle hfree
  have hev : e ∈ s.nextEvents := (s.mem_nextEvents e).mpr (by simp [State.finisherChance, hi, he])
  rcases State.sequence_staysBy hs hseq with ht | hall
  · omega
  · have := hall e hev; omega

/-- With nothing before it the parked instance that is due completes (R197, R306). -/
theorem step_of_finisher {s : State} {i : Inst} (hr : s.nextRst = none) (he : s.envDue = none) (hu : s.unitDue = none)
    (hh : s.handlerDue = none) (hi : s.finisherDue = some i) : step s = s.finishParked i := by
  simp only [step_of_noRst hr, State.agentStep, he, hu, hh, hi]

/-! ## The running instance -/

/-- A playing instance whose ACTIVE is set waits for the handler, unless the host turns to another (R197, R306). -/
theorem State.sequence_playing_active {s : State} (hstuck : s.inst.stuck = false) (hf : s.inst.fsm = .playing)
    (ha : s.inst.active = true) (hh : ∀ id r, s.host ≠ .select id :: r) : s.sequence = .next (s.pause none) := by
  rw [sequence_of hstuck, hf]
  simp only [ha, if_true]

/-- One whose ACTIVE is clear goes on to COMPLETION (R197, R200). -/
theorem State.freeTurn.step_playing_over {s : State} (h : s.freeTurn) (hf : s.inst.fsm = .playing) (ha : s.inst.active = false) :
    step s = .next (s.setFsm .completion) := by
  have ⟨⟨_, _, _, _, _, hstuck⟩, _⟩ := h
  refine h.step_of_act (k := fun s => .next (s.setFsm .completion)) ?_
  rw [sequence_of hstuck, hf]
  simp only [ha, Bool.false_eq_true, if_false]

/-- The state COMPLETION leaves, written out (R199). -/
theorem State.teardown_complete (s : State) (u : Nat) (w : PwmUnit) : (s.teardown u w).stamp.complete =
    { s.completedWith { s.inst with unit := none, endTime := s.us, duty := [], dutyGen := s.inst.dutyGen + 1 } with
      pwm := s.pwm.set u { w with pselConnected := false, pselPin := Config.freePselPin s.drawCtr, enable := false }
      drawCtr := s.drawCtr + 1
      registry := s.registry.set u none } := rfl

/-- COMPLETION tears the claimed unit down, stamps and completes (R188, R199). -/
theorem State.freeTurn.step_completion {s : State} {u : Nat} {w : PwmUnit} (h : s.freeTurn) (hf : s.inst.fsm = .completion)
    (hu : s.inst.unit = some u) (hw : s.pwmAt u = some w) : step s = .next (s.teardown u w).stamp.complete := by
  have ⟨⟨_, _, _, _, _, hstuck⟩, _⟩ := h
  rw [h.step_of_act (by rw [sequence_of hstuck, hf]), State.completionStep, State.onUnit_of hu hw]

/-- Settles O40: a parked completion is the first parked one's that is due, and its cycle is an event no stalled step passes over; the
running one waits, goes on to COMPLETION and tears down. -/
theorem completionTearsDown : Obligations.CompletionTearsDown := by
  refine ⟨fun s s' c hf ⟨i, hi, h1, h2⟩ h hpast hle hc => ?_, fun s hr he hu hh hs hf ⟨i, hi, h1, h2⟩ => ?_,
    fun s ht hf ha hh => ?_, fun s h => ⟨h.step_playing_over, fun u w hf hu hw => ?_⟩⟩
  · obtain ⟨j, hj⟩ := State.finisher_exists hf hi h1 h2
    exact State.agentStep_le_of_finisher hj (agentStep_of_past h hpast) hle hc
  · obtain ⟨j, hj⟩ := State.finisher_exists hf hi h1 h2
    obtain ⟨-, hmem, hplay, hact⟩ := State.finisher_some hj
    have hdue : s.finisherDue = some j := by rw [State.finisherDue, hs]; exact hj
    exact ⟨j, hmem, hplay, hact, fun u w hju hw => (step_of_finisher hr he hu hh hdue).trans (State.finishParked_eq hju hw)⟩
  · have ⟨_, _, _, _, _, hstuck⟩ := ht
    exact State.passesOn_of (State.othersWait_of_turn ht)
      ((step_of_turn ht).trans (State.sequence_playing_active hstuck hf ha hh))
  · rw [h.step_completion hf hu hw, State.teardown_complete]

end Sys2Proof.Machine
end

section
/-! Whole frames of the two bit engines: from its latch wait a TRANSMIT sends its frame in one masked window and completes. -/

namespace Sys2Proof.Machine

/-! ## From the latch wait to the end of the walk -/

/-- A TRANSMIT at its latch wait (R131). -/
def State.atLatch (s : State) (buf : Addr) (len : Count) (dly : Time32) : State := (s.latchOperands buf len dly).enterLatch

/-- An undisturbed TRANSMIT whose latch interval is over starts its frame in its first step, by the STRATEGY (R150, R188, R300). -/
theorem step_atLatch {s : State} {buf : Addr} {len : Count} {dly : Time32} (hc : s.undisturbed) (hr : s.unitsAtRest)
    (hstuck : s.inst.stuck = false) (hl : elapsed s.us s.inst.endTime dly.toNat = true) :
    step (s.atLatch buf len dly) = .next (s.atLatch buf len dly).leaveLatch := by
  have hturn : (s.atLatch buf len dly).freeTurn := State.freeTurn_of_rest hc hr (State.finisher_busy ⟨nofun, nofun⟩) hstuck
  have hopen : (s.atLatch buf len dly).latchOpen = true := State.enterLatch_open hl
  have hstuck' : (s.atLatch buf len dly).inst.stuck = false := hstuck
  exact hturn.step_of_act (k := fun s => .next s.leaveLatch) ((sequence_of hstuck').trans (if_pos hopen))

/-- The engine of a TRANSMIT begins its frame: its masked window opens and the walk is at the first bit (R30, R150, R220). -/
def State.windowOpen (s : State) (buf : Addr) (len : Count) (dly : Time32) (f : Fsm) (ev : BitVec 8) (retries : Nat)
    (start : Time32) : State := { s with
  inst := { s.inst with
    buf := buf, len := len, dly := dly, cmd := .transmit, waitStart := s.t, irqMask := true, maskSince := s.t, fsm := f
    byteIx := 0, bitIx := 7, evt := ev, retries := retries, cycStart := start } }

theorem State.atLatch_startBitbang (s : State) (buf : Addr) (len : Count) (dly : Time32) :
    (s.atLatch buf len dly).startBitbang = s.windowOpen buf len dly .bbHigh s.inst.evt s.inst.retries s.inst.cycStart := rfl

/-- An engine that has begun its frame sends it all, to the end of the last bit (R99). -/
theorem run_windowOpen {c : Config} {hi lo : Fsm} {high low : Bool → Nat} (hs : Sends c hi lo high low) {s : State}
    {buf : Addr} {len : Count} (dly : Time32) (ev : BitVec 8) (n : Nat) (start : Time32) (hc : s.calm) (hcfg : s.inst.cfg = c)
    (hlen : len ≠ 0) (hwrap : buf.toNat + len.toNat ≤ 2 ^ 32) : ∃ x bs ix g,
      ((s.windowOpen buf len dly hi ev n start).walked lo high low (frameBits (s.bytesAt buf len)) x bs ix g).inst.lastBit = true ∧
      onLine s.inst.pin g = bitSegs s.inst.pin high low s.t (frameBits (s.bytesAt buf len)) ∧
      Sys2Proof.core.run (16 * len.toNat - 1) (s.windowOpen buf len dly hi ev n start) =
        .next ((s.windowOpen buf len dly hi ev n start).walked lo high low (frameBits (s.bytesAt buf len)) x bs ix g) := by
  obtain ⟨x, bs, ix, g, hix, hg, hrun⟩ := walk_frame hs (s.windowOpen buf len dly hi ev n start) hc hcfg rfl rfl rfl hlen hwrap
  exact ⟨x, bs, ix, g, (Inst.lastBit_iff _).mpr ⟨rfl, Nat.le_of_eq hix.symm⟩, hg, hrun⟩

/-- A walk leaves an engine's surroundings as they were. -/
theorem State.calm.walked {s : State} (h : s.calm) (lo : Fsm) (high low : Bool → Nat) (bits : List Bool) (c : Byte)
    (bs : Time32) (ix : Count) (g : List Seg) : (s.walked lo high low bits c bs ix g).calm := by
  obtain ⟨hu, hr, hstuck, hlen, hpins, hdir, hdrv⟩ := h
  refine ⟨hu, hr, hstuck, ?_, ?_, ?_, hdrv⟩
  · rw [State.walked, gpioUpdate_length]; exact hlen
  · rw [State.walked, gpioUpdate_length]; exact hpins
  · rw [State.walked, State.pinState, getD_gpioUpdate_dir]; exact hdir

/-- The command is complete in cycle e, in which its masked window closed and END_TIME was stamped (R157, R227). -/
def State.frameSent (s : State) (buf : Addr) (len : Count) (dly : Time32) (ev : BitVec 8) (retries : Nat) (start : Time32)
    (e : Nat) (c : Byte) (bs : Time32) (ix : Count) (g : List Seg) : State := { s with
  t := e
  inst := { s.inst with
    buf := buf, len := len, dly := dly, cmd := .none, waitStart := s.t, irqMask := false, maskSince := s.t, unmaskedAt := some e
    fsm := .idle, byteIx := ix, bitIx := 0, evt := ev, retries := retries, cycStart := start, cur := c, bitStart := bs
    endTime := usAt s.plat.m e, doneAt := some e }
  gpio := gpioUpdate s.plat.nPins s.gpio s.inst.pin (fun q => { q with out := false })
  obs := {
    wave := s.obs.wave ++ g
    masks := s.obs.masks ++ [{ id := s.inst.id, start := s.t, stop := e }]
    dones := s.obs.dones ++ [{ id := s.inst.id, cycle := e }] } }

/-- A TRANSMIT that is no no-op has bytes to send. -/
theorem count_pos {len : Count} (h : len ≠ 0) : 0 < len.toNat :=
  Nat.pos_of_ne_zero fun e => h (BitVec.eq_of_toNat_eq (by simpa using e))

/-! ## The bit-bang engine -/

/-- After the last bit the bit-bang engine closes the mask, stamps and completes, and the frame is sent (R157). -/
theorem step_bitbangEnd {s : State} {buf : Addr} {len : Count} {dly : Time32} {ev : BitVec 8} {n : Nat} {start : Time32}
    {high low : Bool → Nat} {bits : List Bool} {x : Byte} {bs : Time32} {ix : Count} {g : List Seg} (hc : s.calm)
    (hlast : ((s.windowOpen buf len dly .bbHigh ev n start).walked .bbLow high low bits x bs ix g).inst.lastBit = true) :
    step ((s.windowOpen buf len dly .bbHigh ev n start).walked .bbLow high low bits x bs ix g) =
      .next (s.frameSent buf len dly ev n start (s.t + bitTime high low bits) x bs ix g) := by
  have hcalm := State.calm.walked (s := s.windowOpen buf len dly .bbHigh ev n start) hc .bbLow high low bits x bs ix g
  rw [(hcalm.freeTurn ⟨nofun, nofun⟩).step_bbLow rfl, State.afterLow, if_pos hlast]
  rfl

/-- Settles O56: one step opens the mask, the walk sends the frame, and the step after its last bit closes the mask, stamps and
completes. -/
theorem bitbangTransmitSendsItsFrame : Obligations.BitbangTransmitSendsItsFrame := by
  intro s buf len dly hc hr hl hstuck hw hst ha hbuf hlen hwrap hopen high low bits t1
  have hcalm : s.calm := ⟨hc, hr, hstuck, hl⟩
  have hpos := count_pos hlen
  have hleave : (s.atLatch buf len dly).leaveLatch = (s.atLatch buf len dly).startBitbang := by
    rw [State.leaveLatch, show (s.atLatch buf len dly).inst.cfg.strategy = .bitbang from hst]
  have hstart := step_atLatch (buf := buf) (len := len) hc hr hstuck hopen
  rw [hleave, State.atLatch_startBitbang] at hstart
  obtain ⟨x, bs, ix, g, hlast, hg, hrun⟩ :=
    run_windowOpen (bitbang_sends hw) dly s.inst.evt s.inst.retries s.inst.cycStart hcalm rfl hlen hwrap
  refine ⟨s.atLatch buf len dly, s.frameSent buf len dly s.inst.evt s.inst.retries s.inst.cycStart t1 x bs ix g,
    exec_transmit_now hbuf hlen hwrap ha, ?_, rfl, ?_, rfl, rfl, rfl, decide_eq_true rfl, rfl, rfl, rfl, rfl, rfl, ha, rfl, rfl, rfl,
    rfl, rfl, rfl, rfl, rfl, rfl, rfl, rfl, rfl, rfl⟩
  · rw [show 1 + 16 * len.toNat = 16 * len.toNat - 1 + 1 + 1 by omega, run_succ hstart]
    exact (run_add hrun 1).trans (run_succ (step_bitbangEnd hcalm hlast) 0)
  · exact (onLine_append ..).trans (congrArg _ hg)

/-! ## The fallback engine -/

/-- With too small a buffer or no free unit the fallback starts, the latter with NO_PWM raised (R188 to R190, R297). -/
theorem State.atLatch_startPwm_fallback {s : State} {buf : Addr} {len : Count} (dly : Time32)
    (h : s.inst.dutyCap.toNat < 8 * len.toNat + s.inst.cfg.termN ∨ ∀ w ∈ s.pwm, w.enable = true ∨ w.pselConnected = true) :
    (s.atLatch buf len dly).startPwm = s.windowOpen buf len dly .fbHigh
      (setEvt (if s.inst.dutyCap.toNat < 8 * len.toNat + s.inst.cfg.termN then s.inst.evt else setEvt s.inst.evt .noPwm) .fallback)
      0 (cycAt s.t) := by
  have hcond : ((s.atLatch buf len dly).inst.dutyCap.toNat < (s.atLatch buf len dly).inst.seqLen) =
    (s.inst.dutyCap.toNat < 8 * len.toNat + s.inst.cfg.termN) := rfl
  rw [State.startPwm]
  simp only [hcond]
  split
  · rfl
  · next hshort =>
    have hnone : (s.atLatch buf len dly).scan = none :=
      State.scan_none fun w hw => PwmUnit.not_free_iff.mpr (h.resolve_left hshort w hw)
    rw [hnone]
    rfl

/-- After the last bit the fallback engine closes the mask and makes its check (R225). -/
theorem step_fallbackEnd {s : State} {buf : Addr} {len : Count} {dly : Time32} {ev : BitVec 8} {n : Nat} {start : Time32}
    {high low : Bool → Nat} {bits : List Bool} {x : Byte} {bs : Time32} {ix : Count} {g : List Seg} (hc : s.calm)
    (hlast : ((s.windowOpen buf len dly .fbHigh ev n start).walked .fbLow high low bits x bs ix g).inst.lastBit = true) :
    step ((s.windowOpen buf len dly .fbHigh ev n start).walked .fbLow high low bits x bs ix g) =
      .next (((s.windowOpen buf len dly .fbHigh ev n start).walked .fbLow high low bits x bs ix g).closeMask.setFsm .fbCheck) := by
  have hcalm := State.calm.walked (s := s.windowOpen buf len dly .fbHigh ev n start) hc .fbLow high low bits x bs ix g
  rw [(hcalm.freeTurn ⟨nofun, nofun⟩).step_fbLow rfl, State.afterPeriod, if_pos hlast]

/-- A check that passes stamps and completes (R227). -/
theorem State.freeTurn.step_checkPasses {s : State} (h : s.freeTurn) (hf : s.inst.fsm = .fbCheck) (hpass : s.checkFails = false) :
    step s = .next s.stamp.complete := by
  have ⟨⟨_, _, _, _, _, hstuck⟩, _⟩ := h
  rw [h.step_of_act (k := fun s => .next s.selfCheck) (by rw [sequence_of hstuck, hf]), State.selfCheck, hpass]
  rfl

/-- An attempt that has taken exactly the expected cycles passes (R226). -/
theorem State.check_of_expected {s : State} {t0 : Nat} (h : s.inst.cycStart = cycAt t0) (ht : s.t = t0 + s.inst.expectedCycles)
    (hlt : s.inst.expectedCycles < 2 ^ 32) : s.checkFails = false := by
  have he : s.elapsedCycles = s.inst.expectedCycles := by
    rw [State.elapsedCycles, State.cyc, h, cycAt_sub_toNat _ _ (by omega), ht, Nat.add_sub_cancel_left, Nat.mod_eq_of_lt hlt]
  rw [State.checkFails, he]
  exact decide_eq_false (by omega)

/-- A frame of the fallback engine takes 8 LEN FB_PERIOD cycles (R220, R226). -/
theorem bitTime_fallback {k : ClassParams} (hk : k.fbWf = true) (s : State) (buf : Addr) (len : Count) :
    bitTime (fun b => if b then k.fbT1H else k.fbT0H) (fun b => k.fbPeriod - if b then k.fbT1H else k.fbT0H)
      (frameBits (s.bytesAt buf len)) = 8 * len.toNat * k.fbPeriod := by
  simp only [ClassParams.fbWf, Bool.and_eq_true, decide_eq_true_eq] at hk
  have hconst : ∀ b : Bool, (if b then k.fbT1H else k.fbT0H) + (k.fbPeriod - if b then k.fbT1H else k.fbT0H) = k.fbPeriod :=
    fun b => by cases b <;> simp only [Bool.false_eq_true, if_false, if_true] <;> omega
  rw [bitTime_const hconst, length_frameBits, State.bytesAt, List.length_map, List.length_range]

/-- The check of an undisturbed attempt passes, and the frame is sent (R226, R227). -/
theorem step_fallbackCheck {s : State} {buf : Addr} {len : Count} {dly : Time32} {ev : BitVec 8} {n : Nat}
    {high low : Bool → Nat} {bits : List Bool} {x : Byte} {bs : Time32} {ix : Count} {g : List Seg} (hc : s.calm)
    (htime : bitTime high low bits = 8 * len.toNat * s.inst.cfg.cp.fbPeriod)
    (hlt : 8 * len.toNat * s.inst.cfg.cp.fbPeriod < 2 ^ 32) :
    step (((s.windowOpen buf len dly .fbHigh ev n (cycAt s.t)).walked .fbLow high low bits x bs ix g).closeMask.setFsm .fbCheck) =
      .next (s.frameSent buf len dly ev n (cycAt s.t) (s.t + 8 * len.toNat * s.inst.cfg.cp.fbPeriod) x bs ix g) := by
  have hcalm := State.calm.walked (s := s.windowOpen buf len dly .fbHigh ev n (cycAt s.t)) hc .fbLow high low bits x bs ix g
  generalize hm : (s.windowOpen buf len dly .fbHigh ev n (cycAt s.t)).walked .fbLow high low bits x bs ix g = m at hcalm
  have hturn : (m.closeMask.setFsm .fbCheck).freeTurn := State.calm.freeTurn hcalm ⟨nofun, nofun⟩
  have hpass : (m.closeMask.setFsm .fbCheck).checkFails = false :=
    State.check_of_expected (t0 := s.t) (by rw [← hm]; rfl) (by rw [← hm]; exact congrArg (s.t + ·) htime) (by rw [← hm]; exact hlt)
  rw [hturn.step_checkPasses rfl hpass, ← hm, ← htime]
  rfl

/-- Settles O57: one step starts the fallback, the walk sends the frame in the expected cycles, and the two steps after its last bit close
the mask and pass the check. -/
theorem fallbackTransmitSendsItsFrame : Obligations.FallbackTransmitSendsItsFrame := by
  intro s buf len dly hc hr hl hstuck hw hst ha hbuf hlen hwrap hopen short hfall hlt high t1
  have hcalm : s.calm := ⟨hc, hr, hstuck, hl⟩
  have hpos := count_pos hlen
  obtain ⟨-, hk, -⟩ := pwm_wf hw hst
  have hleave : (s.atLatch buf len dly).leaveLatch = (s.atLatch buf len dly).startPwm := by
    rw [State.leaveLatch, show (s.atLatch buf len dly).inst.cfg.strategy = .pwmdma from hst]
  have hstart := step_atLatch (buf := buf) (len := len) hc hr hstuck hopen
  rw [hleave, State.atLatch_startPwm_fallback dly hfall] at hstart
  generalize hev : setEvt _ .fallback = ev at hstart
  obtain ⟨x, bs, ix, g, hlast, hg, hrun⟩ := run_windowOpen (fallback_sends hk) dly ev 0 (cycAt s.t) hcalm rfl hlen hwrap
  refine ⟨s.atLatch buf len dly, s.frameSent buf len dly ev 0 (cycAt s.t) t1 x bs ix g,
    exec_transmit_now hbuf hlen hwrap ha, ?_, rfl, ?_, rfl, rfl, rfl, decide_eq_true rfl, rfl, rfl, rfl, fun hs => ?_, fun hs => ?_,
    rfl, rfl, ha, rfl, rfl, rfl, rfl, rfl, rfl, rfl, rfl, rfl, rfl, rfl, rfl⟩
  · rw [show 2 + 16 * len.toNat = 16 * len.toNat - 1 + 2 + 1 by omega, run_succ hstart]
    refine (run_add hrun 2).trans ((run_succ (step_fallbackEnd hcalm hlast) 1).trans ?_)
    exact run_succ (step_fallbackCheck hcalm (bitTime_fallback hk s buf len) hlt) 0
  · exact (onLine_append ..).trans (congrArg _ hg)
  · exact hev.symm.trans (by rw [if_pos hs])
  · exact hev.symm.trans (by rw [if_neg hs])

end Sys2Proof.Machine
end

section
/-! A whole PWMDMA frame: the claim, ENCODING, the playback of the sequence, its end and the completion. -/

namespace Sys2Proof.Machine

/-! ## The claim and the start of the playback -/

/-- A TRANSMIT whose expander has claimed unit u (R190). -/
def State.claimedBy (s : State) (buf : Addr) (len : Count) (dly : Time32) (u : Nat) (w : PwmUnit) : State := { s with
  pwm := s.pwm.set u { w with enable := true }
  inst := { s.inst with
    buf := buf, len := len, dly := dly, cmd := .transmit, waitStart := s.t, unit := some u, fsm := .encoding } }

/-- With a large enough buffer the lowest free unit is claimed (R188, R190). -/
theorem State.atLatch_startPwm_claim {s : State} {buf : Addr} {len : Count} {dly : Time32} {u : Nat} {w : PwmUnit}
    (hcap : 8 * len.toNat + s.inst.cfg.termN ≤ s.inst.dutyCap.toNat) (hscan : s.scan = some u) (hw : s.pwmAt u = some w) :
    (s.atLatch buf len dly).startPwm = s.claimedBy buf len dly u w := by
  have hlong : ¬ (s.atLatch buf len dly).inst.dutyCap.toNat < (s.atLatch buf len dly).inst.seqLen := Nat.not_lt.mpr hcap
  have hscan' : (s.atLatch buf len dly).scan = some u := hscan
  have hw' : (s.atLatch buf len dly).pwmAt u = some w := hw
  rw [State.startPwm, if_neg hlong, hscan']
  simp only [State.claim, hw']
  rfl

/-- ENCODING that no other agent's event interrupts ends in its cycle (R191). -/
theorem State.freeTurn.step_encoded {s : State} {u c : Nat} {w : PwmUnit} (h : s.freeTurn) (hf : s.inst.fsm = .encoding)
    (hu : s.inst.unit = some u) (hw : s.pwmAt u = some w) (hwrap : s.inst.buf.toNat + s.inst.len.toNat ≤ 2 ^ 32)
    (hcap : s.inst.seqLen ≤ s.inst.dutyCap.toNat) (hend : s.encodingEnd = some c) (hev : s.nextEvents = []) :
    step s = .next (s.finishEncoding c u w) := by
  have ⟨⟨_, _, _, _, _, hstuck⟩, _⟩ := h
  rw [h.step_of_act (by rw [sequence_of hstuck, hf]), State.encodingStep, if_neg (Nat.not_lt.mpr hwrap),
    if_neg (Nat.not_lt.mpr hcap), State.onUnit_of hu hw]
  simp only [hend, hev, List.all_nil, if_true]

/-- The claimed unit as configured and started in cycle c (R192, R194). -/
def State.unitPlaying (s : State) (len : Count) (c : Nat) : PwmUnit :=
  { enable := true, prescaler := s.inst.cfg.prescale, top := s.inst.cfg.cp.top, playcnt := 1, seqPtr := 0
    seqCnt := BitVec.ofNat 20 (8 * len.toNat + s.inst.cfg.termN), pselConnected := true, pselPin := s.inst.pin, run := true
    pos := 0, fetched := none, start := c, due := c }

/-- A TRANSMIT whose playback starts in cycle c on unit u, with the registers i (R191 to R194). -/
def State.playbackBegun (s : State) (u : Nat) (len : Count) (c : Nat) (i : Inst) (o : Obs) : State := { s with
  t := c
  encDraws := s.encDraws.tail
  drawCtr := if s.encDraws = [] then s.drawCtr + 1 else s.drawCtr
  obs := o
  pwm := s.pwm.set u (s.unitPlaying len c)
  registry := s.registry.set u (some s.inst.id)
  inst := i }

/-- The registers in PLAYING: the sequence is in the duty RAM (R191, R193). -/
def State.playingInst (s : State) (buf : Addr) (len : Count) (dly : Time32) (u : Nat) (w : PwmUnit) : Inst := { s.inst with
  buf := buf, len := len, dly := dly, cmd := .transmit, waitStart := s.t, unit := some u, active := true, fsm := .playing
  duty := (s.claimedBy buf len dly u w).encode.inst.duty, encEnd := none, cur := (s.claimedBy buf len dly u w).encode.inst.cur }

/-- ENCODING leaves the playback begun on the claimed unit, on a pin that resolves (R191 to R194). -/
theorem State.claimedBy_finishEncoding {s : State} {buf : Addr} {len : Count} {dly : Time32} {u c : Nat} {w : PwmUnit}
    (hend : s.inst.encEnd = none) (hpin : s.inst.pin.toNat < s.plat.nPins) (hc : s.t ≤ c) :
    (s.claimedBy buf len dly u w).finishEncoding c u { w with enable := true } =
      s.playbackBegun u len c (s.playingInst buf len dly u w) ((s.claimedBy buf len dly u w).passTo c).obs := by
  have hevt : pinEvt s.plat.nPins s.inst.evt s.inst.pin = s.inst.evt := if_pos hpin
  have hend' : (s.claimedBy buf len dly u w).inst.encEnd = none := hend
  have hevt' : pinEvt (s.claimedBy buf len dly u w).plat.nPins (s.claimedBy buf len dly u w).inst.evt
    (s.claimedBy buf len dly u w).inst.pin = s.inst.evt := hevt
  have ht : max (s.claimedBy buf len dly u w).t c = c := Nat.max_eq_right hc
  have hpwm : (s.claimedBy buf len dly u w).pwm = s.pwm.set u { w with enable := true } := rfl
  rw [State.finishEncoding_eq, hend', ht, hevt', hpwm, List.set_set]
  simp only [true_and, if_true]
  rfl

/-! ## What a changed unit leaves of the pool -/

/-- A property of every unit is one of every unit after one is changed to a unit that has it. -/
theorem forall_mem_set {P : PwmUnit → Prop} {l : List PwmUnit} {u : Nat} {w : PwmUnit} (h : ∀ x ∈ l, P x) (hw : P w) :
    ∀ x ∈ l.set u w, P x := fun x hx => (List.mem_or_eq_of_mem_set hx).elim (h x) fun e => e ▸ hw

/-- A property of every other unit is one of every unit after this one is changed to a unit that has it. -/
theorem forall_mem_set_of_others {P : PwmUnit → Prop} {l : List PwmUnit} {u : Nat} {w : PwmUnit}
    (h : ∀ v x, v ≠ u → l[v]? = some x → P x) (hw : P w) : ∀ x ∈ l.set u w, P x := by
  intro x hx
  obtain ⟨v, hv⟩ := List.mem_iff_getElem?.mp hx
  by_cases hvu : v = u
  · subst hvu
    rw [List.getElem?_set_self'] at hv
    obtain ⟨y, -, rfl⟩ := Option.map_eq_some_iff.mp hv
    exact hw
  · rw [pwmAt_set_ne w hvu] at hv
    exact h v x hvu hv

/-! ## The start of a playback in undisturbed surroundings -/

section
variable {s : State} {buf : Addr} {len : Count} {dly : Time32} {u : Nat} {w : PwmUnit}

/-- Two steps claim the unit and, after E cycles, start the playback (R188 to R194). -/
theorem run_toPlayback (hc : s.undisturbed) (hr : s.unitsAtRest) (hstuck : s.inst.stuck = false) (hend : s.inst.encEnd = none)
    (hpin : s.inst.pin.toNat < s.plat.nPins) (hst : s.inst.cfg.strategy = .pwmdma)
    (hwrap : buf.toNat + len.toNat ≤ 2 ^ 32) (hopen : elapsed s.us s.inst.endTime dly.toNat = true)
    (hcap : 8 * len.toNat + s.inst.cfg.termN ≤ s.inst.dutyCap.toNat) (hscan : s.scan = some u) (hw : s.pwmAt u = some w) :
    Sys2Proof.core.run 2 (s.atLatch buf len dly) = .next (s.playbackBegun u len (s.t + s.encodingTime)
      (s.playingInst buf len dly u w) ((s.claimedBy buf len dly u w).passTo (s.t + s.encodingTime)).obs) := by
  have hclaim : step (s.atLatch buf len dly) = .next (s.claimedBy buf len dly u w) := by
    rw [step_atLatch hc hr hstuck hopen, State.leaveLatch, show (s.atLatch buf len dly).inst.cfg.strategy = .pwmdma from hst]
    exact congrArg _ (State.atLatch_startPwm_claim hcap hscan hw)
  have hrest : (s.claimedBy buf len dly u w).unitsAtRest :=
    ⟨forall_mem_set hr.1 (hr.1 w (List.mem_of_getElem? hw)), hr.2⟩
  have hfin : (s.claimedBy buf len dly u w).finisher = none := State.finisher_busy ⟨nofun, nofun⟩
  have hturn : (s.claimedBy buf len dly u w).freeTurn := State.freeTurn_of_rest hc hrest hfin hstuck
  have hE : (s.claimedBy buf len dly u w).encodingEnd = some (s.t + s.encodingTime) := by
    have hnone : (s.claimedBy buf len dly u w).inst.encEnd = none := hend
    have hfree : (s.claimedBy buf len dly u w).blockers = [] := State.blockers_unstalled hc.1
    rw [State.encodingEnd, hnone, hfree]
    exact afterCounted_nil _ _
  have henc := hturn.step_encoded rfl rfl (State.pwmAt_set hw _) hwrap hcap hE (State.nextEvents_nil hc.2.1 hrest hfin)
  rw [State.claimedBy_finishEncoding hend hpin (Nat.le_add_right _ _)] at henc
  exact (run_succ hclaim 1).trans (run_succ henc 0)

/-- The sequence fits SEQ_CNT (R95, R192). -/
theorem State.unitPlaying_seqCnt {s : State} {len : Count} (c : Nat)
    (hcap : 8 * len.toNat + s.inst.cfg.termN ≤ s.inst.dutyCap.toNat) :
    (s.unitPlaying len c).seqCnt.toNat = 8 * len.toNat + s.inst.cfg.termN := by
  have := s.inst.dutyCap.isLt
  rw [State.unitPlaying, BitVec.toNat_ofNat, Nat.mod_eq_of_lt (by omega)]

/-- From there on unit u plays for the instance, which waits (R193 to R195). -/
theorem State.playbackBegun_plays (c : Nat) (o : Obs) (hc : s.undisturbed) (hr : s.unitsAtRest) (hstuck : s.inst.stuck = false)
    (hh : ∀ id r, s.host ≠ .select id :: r) (hfin : s.noneFinishing) (hreg : u < s.registry.length)
    (hno : s.noUnitOn s.inst.pin) (hw : s.pwmAt u = some w)
    (hperiod : 1 ≤ s.inst.cfg.cp.top.toNat * s.inst.cfg.prescale.toNat) :
    (s.playbackBegun u len c (s.playingInst buf len dly u w) o).Plays u (s.unitPlaying len c) where
  calm := hc
  pend := hr.2
  at_ := State.pwmAt_set hw _
  others v w' hv hw' := hr.1 w' (List.mem_of_getElem? ((pwmAt_set_ne _ hv).symm.trans hw'))
  registry := by
    simp only [State.registryAt, State.playbackBegun, State.playingInst, List.getD, List.getElem?_set_self hreg, Option.getD_some]
  unit := rfl
  fsm := rfl
  active := rfl
  stuck := hstuck
  host := by
    unfold State.hostBuildsOrTurns
    split
    · rfl
    · rfl
    · next id r he => exact absurd he (hh id r)
    all_goals rfl
  parked := hfin
  run := rfl
  drives := by simp [PwmUnit.drives, State.unitPlaying, State.playbackBegun, State.playingInst]
  sole v w' hv hw' := hno w' (List.mem_of_getElem? ((pwmAt_set_ne _ hv).symm.trans hw'))
  due := rfl
  fetched := rfl
  period := hperiod

end

/-! ## The sequence a unit plays -/

/-- Every entry of a duty sequence has P = 1 (R104, R186). -/
theorem polarity_of_mem_dutySequence {c : Config} (hd : c.cp.dutyWf = true) {bytes : List Byte} {e : Entry}
    (he : e ∈ dutySequence c bytes) : polarity e = true := by
  simp only [ClassParams.dutyWf, Bool.and_eq_true] at hd
  obtain ⟨⟨⟨⟨⟨h0, h1⟩, -⟩, -⟩, -⟩, -⟩ := hd
  rw [dutySequence, entries_eq_bits] at he
  rcases List.mem_append.mp he with he | he
  · obtain ⟨b, -, rfl⟩ := List.mem_map.mp he
    cases b
    · exact h0
    · exact h1
  · rw [List.eq_of_mem_replicate he]
    decide

/-- The high time of a data bit is part of its interval (R186, R200). -/
theorem pwmHigh_lt {k : ClassParams} (hd : k.dutyWf = true) {p : Nat} (hp : 1 ≤ p) (b : Bool) :
    0 < (cmpOf (bitEntry k b)).toNat * p ∧ (cmpOf (bitEntry k b)).toNat * p < k.top.toNat * p := by
  simp only [ClassParams.dutyWf, Bool.and_eq_true, decide_eq_true_eq] at hd
  have hcmp : 0 < (cmpOf (bitEntry k b)).toNat ∧ (cmpOf (bitEntry k b)).toNat < k.top.toNat := by
    cases b <;> simp only [bitEntry, Bool.false_eq_true, if_false, if_true] <;> omega
  exact ⟨Nat.mul_pos hcmp.1 hp, Nat.mul_lt_mul_of_pos_right hcmp.2 hp⟩

/-- What a frame played from cycle c on puts on the line: each bit high and low for its interval W, then the terminators' low
intervals (R200). -/
def State.pwmFrame (s : State) (buf : Addr) (len : Count) (c : Nat) : List Seg :=
  let period := s.inst.cfg.cp.top.toNat * s.inst.cfg.prescale.toNat
  let high (b : Bool) := (cmpOf (bitEntry s.inst.cfg.cp b)).toNat * s.inst.cfg.prescale.toNat
  bitSegs s.inst.pin high (fun b => period - high b) c (frameBits (s.bytesAt buf len)) ++
    (List.range s.inst.cfg.termN).map (fun j =>
      { pin := s.inst.pin, start := c + (8 * len.toNat + j) * period, level := .l, cycles := period })

/-- A duty sequence, played, is the frame (R195, R200). -/
theorem entrySegs_dutySequence {s m : State} {len : Count} (hd : s.inst.cfg.cp.dutyWf = true)
    (hp : 1 ≤ s.inst.cfg.prescale.toNat) (hpin : s.inst.pin.toNat < m.plat.nPins) (buf : Addr) (c : Nat) :
    entrySegs m (s.unitPlaying len c) c (dutySequence s.inst.cfg (s.bytesAt buf len)) = s.pwmFrame buf len c := by
  have hlt := fun b => pwmHigh_lt hd hp b
  have hpos : 0 < (s.unitPlaying len c).period := Nat.lt_of_le_of_lt (Nat.zero_le _) (hlt true).2
  rw [dutySequence, entries_eq_bits, entrySegs_append, entrySegs_bits (w := s.unitPlaying len c) rfl hpin _ (fun _ => rfl) hlt,
    entrySegs_terms (w := s.unitPlaying len c) rfl hpin hpos, List.length_map, length_frameBits, State.bytesAt, List.length_map,
    List.length_range]
  simp only [State.pwmFrame, Nat.add_mul, Nat.add_assoc]
  rfl

/-- The duty sequence of a buffer has an entry for each bit and then the terminators (R191). -/
theorem length_frameSequence (s : State) (buf : Addr) (len : Count) :
    (dutySequence s.inst.cfg (s.bytesAt buf len)).length = 8 * len.toNat + s.inst.cfg.termN :=
  length_dutySequence (s.claimedBy buf len 0 0 PwmUnit.reset)

/-- The duty RAM a playback reads holds the duty sequence (R191, R195). -/
theorem State.playingInst_reads {s : State} {buf : Addr} {len : Count} {k : Nat} {e : Entry}
    (he : (dutySequence s.inst.cfg (s.bytesAt buf len))[k]? = some e) (dly : Time32) (u : Nat) (w : PwmUnit) :
    Sparse.read k (s.playingInst buf len dly u w).duty = some e := by
  obtain ⟨hk, -⟩ := List.getElem?_eq_some_iff.mp he
  rw [length_frameSequence] at hk
  exact ((s.claimedBy buf len dly u w).encode_read k).trans ((if_pos hk).trans he)

/-- The unit plays the whole sequence, entry after entry (R195, R200). -/
theorem run_sequence {s : State} {buf : Addr} {len : Count} {dly : Time32} {u c : Nat} {w : PwmUnit} {o : Obs}
    (hplays : (s.playbackBegun u len c (s.playingInst buf len dly u w) o).Plays u (s.unitPlaying len c))
    (hpin : s.inst.pin.toNat < s.plat.nPins) (hd : s.inst.cfg.cp.dutyWf = true) (hp : 1 ≤ s.inst.cfg.prescale.toNat)
    (hcap : 8 * len.toNat + s.inst.cfg.termN ≤ s.inst.dutyCap.toNat) :
    let p := s.playbackBegun u len c (s.playingInst buf len dly u w) o
    let seq := 8 * len.toNat + s.inst.cfg.termN
    ∃ g, onLine s.inst.pin g = s.pwmFrame buf len c ∧
      Sys2Proof.core.run (3 * seq) p = .next (p.playedAll u (s.unitPlaying len c) seq g) ∧
      (p.playedAll u (s.unitPlaying len c) seq g).Plays u { s.unitPlaying len c with
        pos := seq, fetched := none, due := c + seq * (s.unitPlaying len c).period } := by
  have hlen := length_frameSequence s buf len
  have hpos (k : Nat) : (s.unitPlaying len c).pos + k = k := Nat.zero_add k
  have hix (k : Nat) : (s.unitPlaying len c).seqPtr.toNat + ((s.unitPlaying len c).pos + k) = k := by simp [State.unitPlaying]
  have hfits : (s.unitPlaying len c).pos + (dutySequence s.inst.cfg (s.bytesAt buf len)).length ≤
      (s.unitPlaying len c).seqCnt.toNat := by
    rw [hpos, hlen, State.unitPlaying_seqCnt c hcap]
  obtain ⟨g, hg, hrun, hend⟩ := play_all _ _ u _ hplays hpin hfits fun k e he =>
    ⟨by rw [hix]; exact State.playingInst_reads he dly u w, polarity_of_mem_dutySequence hd (List.mem_of_getElem? he)⟩
  rw [hlen] at hrun
  rw [hlen, hpos] at hend
  exact ⟨g, hg.trans (entrySegs_dutySequence hd hp (m := s.playbackBegun u len c _ o) hpin buf c), hrun, hend⟩

/-! ## The end of a sequence and the completion -/

/-- Unit u has played its sequence, and its sequence-end event waits for the handler (R196). -/
def State.sequenceEnded (s : State) (u : Nat) (w : PwmUnit) : State := { s with
  pwm := s.pwm.set u { w with run := false }
  pend := s.pend.set u true }

/-- The handler has stopped the unit and cleared ACTIVE (R288). -/
def State.playbackOver (s : State) (u : Nat) (w : PwmUnit) : State := { s with
  pwm := s.pwm.set u { w with run := false }
  inst := { s.inst with active := false } }

/-- COMPLETION has torn the unit down, stamped and completed (R199). -/
def State.pwmSent (s : State) (u : Nat) (w : PwmUnit) : State := { s with
  pwm := s.pwm.set u { w with run := false, pselConnected := false, pselPin := Config.freePselPin s.drawCtr, enable := false }
  drawCtr := s.drawCtr + 1
  registry := s.registry.set u none
  inst := { s.inst with
    active := false, unit := none, endTime := s.us, duty := [], dutyGen := s.inst.dutyGen + 1
    fsm := .idle, cmd := .none, doneAt := some s.t }
  obs := { s.obs with dones := s.obs.dones ++ [{ id := s.inst.id, cycle := s.t }] } }

/-- Setting an entry that is false and clearing it again leaves the list as it was. -/
theorem set_set_false {l : List Bool} (h : ∀ b ∈ l, b = false) (u : Nat) : (l.set u true).set u false = l := by
  rw [List.set_set]
  refine List.ext_getElem? fun v => ?_
  rw [List.getElem?_set]
  split
  · next huv =>
    subst huv
    split
    · next hlt => rw [List.getElem?_eq_getElem hlt, h _ (List.getElem_mem hlt)]
    · next hge => rw [List.getElem?_eq_none (Nat.le_of_not_lt hge)]
  · rfl

/-- The handler of a unit that plays for the running instance stops it and clears ACTIVE (R288). -/
theorem State.seqendHandler_own {s : State} {u : Nat} {w : PwmUnit} (hreg : s.registryAt u = some s.inst.id)
    (hw : s.pwmAt u = some w) : s.seqendHandler u = { s with
      pend := s.pend.set u false
      pwm := s.pwm.set u { w with run := false }
      inst := { s.inst with active := false } } := by
  have hreg' : (s.setPend u false).registryAt u = some s.inst.id := hreg
  rw [State.seqendHandler, hreg', hw]
  exact if_pos rfl

/-- With no unit and no other user before it the handler of a pending sequence end runs (R285). -/
theorem step_of_handler {s : State} {u : Nat} (hr : s.nextRst = none) (he : s.envDue = none) (hu : s.unitDue = none)
    (hh : s.handlerDue = some u) : step s = .next (s.seqendHandler u) := by
  simp only [step_of_noRst hr, State.agentStep, he, hu, hh]

section
variable {s : State} {u : Nat} {w : PwmUnit}

/-- A unit at the end of its sequence stops, with its last interval just over (R196). -/
theorem State.Plays.step_sequenceEnd (h : s.Plays u w) (hover : w.seqCnt.toNat ≤ w.pos) :
    step s = .next (s.sequenceEnded u w) := by
  have ⟨_, henv, hrst⟩ := h.calm
  have htail : s.tailSegs w s.t = [] := by
    rw [State.tailSegs, h.due, Nat.sub_self]
    exact ite_self _
  rw [step_of_unit (State.nextRst_nil hrst) (State.envDue_nil henv) h.unitDue, State.unitStep, if_pos hover, State.sequenceEnd,
    htail, List.append_nil]
  rfl

/-- No unit plays once it has stopped. -/
theorem State.Plays.stopped (h : s.Plays u w) {x : PwmUnit} (hx : x.run = false) : ∀ y ∈ s.pwm.set u x, y.run = false :=
  forall_mem_set_of_others h.others hx

/-- Its handler runs at once (R285, R288). -/
theorem State.Plays.handlerDue_sequenceEnded (h : s.Plays u w) (hmask : s.masked = false) (hu : u < s.pend.length) :
    (s.sequenceEnded u w).handlerDue = some u := by
  have hstall : (s.sequenceEnded u w).stalled = false := State.stalled_unstalled h.calm.1
  have hmask' : (s.sequenceEnded u w).masked = false := hmask
  rw [State.handlerDue, hstall, hmask']
  simp only [Bool.or_self, Bool.false_eq_true, if_false]
  rw [List.findIdx?_eq_some_iff_getElem]
  refine ⟨by rw [State.sequenceEnded, List.length_set]; exact hu, ?_, fun v hv => ?_⟩
  · simp only [State.sequenceEnded, List.getElem_set_self, id]
  · simp only [State.sequenceEnded, List.getElem_set_ne (Nat.ne_of_gt hv), id,
      h.pend _ (List.getElem_mem (Nat.lt_trans hv hu)), Bool.false_eq_true, not_false_eq_true]

/-- The handler's step ends the playback (R288). -/
theorem State.Plays.step_handler (h : s.Plays u w) (hmask : s.masked = false) (hu : u < s.pend.length) :
    step (s.sequenceEnded u w) = .next (s.playbackOver u w) := by
  have ⟨_, henv, hrst⟩ := h.calm
  have hat : (s.sequenceEnded u w).pwmAt u = some { w with run := false } := State.pwmAt_set h.at_ _
  have hreg : (s.sequenceEnded u w).registryAt u = some (s.sequenceEnded u w).inst.id := h.registry
  have hrst' : (s.sequenceEnded u w).nextRst = none := State.nextRst_nil hrst
  have henv' : (s.sequenceEnded u w).envDue = none := State.envDue_nil henv
  rw [step_of_handler hrst' henv' (State.unitDue_none (h.stopped rfl)) (h.handlerDue_sequenceEnded hmask hu),
    State.seqendHandler_own hreg hat]
  simp only [State.sequenceEnded, set_set_false h.pend, List.set_set, State.playbackOver]

/-- The instance goes on to COMPLETION (R197). -/
theorem State.Plays.step_over (h : s.Plays u w) : step (s.playbackOver u w) = .next ((s.playbackOver u w).setFsm .completion) := by
  have hrest : (s.playbackOver u w).unitsAtRest := ⟨h.stopped rfl, h.pend⟩
  have hturn := State.freeTurn_of_rest (s := s.playbackOver u w) h.calm hrest (State.finisher_none h.parked) h.stuck
  exact hturn.step_playing_over h.fsm rfl

/-- COMPLETION tears down, stamps and completes (R199). -/
theorem State.Plays.step_completed (h : s.Plays u w) :
    step ((s.playbackOver u w).setFsm .completion) = .next (s.pwmSent u w) := by
  have hrest : ((s.playbackOver u w).setFsm .completion).unitsAtRest := ⟨h.stopped rfl, h.pend⟩
  have hturn := State.freeTurn_of_rest (s := (s.playbackOver u w).setFsm .completion) h.calm hrest
    (State.finisher_busy ⟨nofun, nofun⟩) h.stuck
  rw [hturn.step_completion rfl h.unit (State.pwmAt_set h.at_ _), State.teardown_complete]
  simp only [State.playbackOver, State.setFsm, List.set_set, State.completedWith, State.pwmSent, State.us]

/-- Four steps that take no cycle end a playback whose sequence is over (R196 to R199). -/
theorem State.Plays.run_end (h : s.Plays u w) (hover : w.seqCnt.toNat ≤ w.pos) (hmask : s.masked = false)
    (hu : u < s.pend.length) : Sys2Proof.core.run 4 s = .next (s.pwmSent u w) :=
  (run_succ (h.step_sequenceEnd hover) 3).trans <| (run_succ (h.step_handler hmask hu) 2).trans <|
    (run_succ h.step_over 1).trans (run_succ h.step_completed 0)

end

/-! ## The line before the playback -/

/-- What a line on which no unit is shows while time passes: its GPIO level (R18, R41). -/
theorem State.passTo_line {s : State} (h : s.noUnitOn s.inst.pin) (c : Nat) :
    (s.passTo c).obs.line s.inst.pin = s.obs.line s.inst.pin ++ if c ≤ s.t then [] else
      [{ pin := s.inst.pin, start := s.t
         level := if s.inst.pin.toNat < s.plat.nPins then (s.gpio.getD s.inst.pin.toNat PinState.reset).level else .z
         cycles := c - s.t }] := by
  rw [Obs.line, State.passTo_wave, List.filter_append, Obs.line]
  congr 1
  rw [State.passSegs]
  split
  · rfl
  · rw [State.heldSegs, List.filter_append, s.parkedSegs_line, List.append_nil, State.pinSeg, State.restLevel_of_noUnitOn h]
    simp

/-- A claimed unit that is not connected leaves the running instance's line as it is (R190). -/
theorem State.claimedBy_passTo_line {s : State} {buf : Addr} {len : Count} {dly : Time32} {u : Nat} {w : PwmUnit}
    (h : s.noUnitOn s.inst.pin) (hw : s.pwmAt u = some w) (c : Nat) :
    ((s.claimedBy buf len dly u w).passTo c).obs.line s.inst.pin = (s.passTo c).obs.line s.inst.pin := by
  have h' : (s.claimedBy buf len dly u w).noUnitOn (s.claimedBy buf len dly u w).inst.pin :=
    forall_mem_set h (h w (List.mem_of_getElem? hw))
  exact (State.passTo_line h' c).trans (State.passTo_line h c).symm

/-! ## The whole frame -/

/-- Settles O58: two steps claim the unit and start the playback after E cycles, three steps play each entry, and the four steps
after the last one run the handler and the completion. -/
theorem pwmTransmitPlaysItsFrame : Obligations.PwmTransmitPlaysItsFrame := by
  intro s buf len dly u w hc hr hstuck hend hmask hh hfin hpend hreg hpin hno hwf hst ha hbuf hlen hwrap hopen hcap hscan hw
    seq period high start t1
  obtain ⟨hd, -, hp⟩ := pwm_wf hwf hst
  have hperiod : 1 ≤ period := Nat.lt_of_le_of_lt (Nat.zero_le _) (pwmHigh_lt hd hp true).2
  have hbegin := run_toPlayback (buf := buf) (len := len) hc hr hstuck hend hpin hst hwrap hopen hcap hscan hw
  have hline := State.claimedBy_passTo_line (buf := buf) (len := len) (dly := dly) hno hw start
  have hmasks : ((s.claimedBy buf len dly u w).passTo start).obs.masks = s.obs.masks := State.passTo_masks _ _
  have hdones : ((s.claimedBy buf len dly u w).passTo start).obs.dones = s.obs.dones := State.passTo_dones _ _
  generalize ((s.claimedBy buf len dly u w).passTo (s.t + s.encodingTime)).obs = o at hbegin hline hmasks hdones
  have hplays := State.playbackBegun_plays (buf := buf) (len := len) (dly := dly) start o hc hr hstuck hh hfin hreg hno hw hperiod
  obtain ⟨g, hg, hplay, hover⟩ := run_sequence hplays hpin hd hp hcap
  have hrunEnd := hover.run_end (Nat.le_of_eq (State.unitPlaying_seqCnt start hcap)) hmask hpend
  have hrun := (run_add hbegin (3 * seq + 4)).trans ((run_add hplay 4).trans hrunEnd)
  rw [show 2 + (3 * seq + 4) = 6 + 3 * seq by omega] at hrun
  refine ⟨s.atLatch buf len dly, _, exec_transmit_now hbuf hlen hwrap ha, hrun, rfl, ?_, hmasks, congrArg (· ++ _) hdones, rfl,
    decide_eq_true rfl, rfl, rfl, rfl, rfl, rfl, rfl, rfl, rfl, rfl, rfl, fun v => ?_, fun w' hw' => ?_, List.set_set .., rfl, rfl,
    rfl, rfl, rfl, rfl⟩
  · exact (onLine_append ..).trans ((congrArg₂ _ hline hg).trans (List.append_assoc ..).symm)
  · split
    · next hv => rw [hv]
    · next hv => exact (pwmAt_set_ne _ hv).trans ((pwmAt_set_ne _ hv).trans (pwmAt_set_ne _ hv))
  · obtain rfl := Option.some.inj ((State.pwmAt_set hover.at_ _).symm.trans hw')
    exact ⟨rfl, rfl, rfl⟩

end Sys2Proof.Machine
end

section
/-! The decoder by its fields (R90 to R108): one equation per command and per form of a duty entry, and the round trip. -/

namespace Sys2Proof

/-! ## The round trip -/

/-- Decoding gives every well-formed instruction back: the round trip of its constructor. -/
theorem decode_encode : ∀ i : Instr, Laws.RoundTrip.Statement i
  | .setPin p => Laws.RoundTrip.setPin p
  | .beginPin => Laws.RoundTrip.beginPin
  | .endPin => Laws.RoundTrip.endPin
  | .updateLength n => Laws.RoundTrip.updateLength n
  | .transmit buf len dly => Laws.RoundTrip.transmit buf len dly
  | .reserved0 => Laws.RoundTrip.reserved0
  | .reserved6 => Laws.RoundTrip.reserved6
  | .reserved7 => Laws.RoundTrip.reserved7
  | .reserved8 => Laws.RoundTrip.reserved8
  | .reserved9 => Laws.RoundTrip.reserved9
  | .reservedA => Laws.RoundTrip.reservedA
  | .reservedB => Laws.RoundTrip.reservedB
  | .reservedC => Laws.RoundTrip.reservedC
  | .reservedD => Laws.RoundTrip.reservedD
  | .reservedE => Laws.RoundTrip.reservedE
  | .reservedF => Laws.RoundTrip.reservedF
  | .sym0 => Laws.RoundTrip.sym0
  | .sym1 => Laws.RoundTrip.sym1
  | .fbSym0 => Laws.RoundTrip.fbSym0
  | .fbSym1 => Laws.RoundTrip.fbSym1
  | .pwmSym0 => Laws.RoundTrip.pwmSym0
  | .pwmSym1 => Laws.RoundTrip.pwmSym1
  | .pwmTerm => Laws.RoundTrip.pwmTerm
  | .dutyZero cmp => Laws.RoundTrip.dutyZero cmp
  | .dutyOne cmp => Laws.RoundTrip.dutyOne cmp
  | .dutyTerm => Laws.RoundTrip.dutyTerm
  | .dutyReserved cmp => Laws.RoundTrip.dutyReserved cmp
  | .typeWs2811 => Laws.RoundTrip.typeWs2811
  | .typeWs2812 => Laws.RoundTrip.typeWs2812
  | .typeWs2813 => Laws.RoundTrip.typeWs2813
  | .typeSk6812rgbw => Laws.RoundTrip.typeSk6812rgbw
  | .typeTm1803 => Laws.RoundTrip.typeTm1803
  | .typeTm1829 => Laws.RoundTrip.typeTm1829
  | .typeReserved6 => Laws.RoundTrip.typeReserved6
  | .typeReserved7 => Laws.RoundTrip.typeReserved7
  | .orderRgb => Laws.RoundTrip.orderRgb
  | .orderGrb => Laws.RoundTrip.orderGrb
  | .orderRbg => Laws.RoundTrip.orderRbg
  | .orderRgbw => Laws.RoundTrip.orderRgbw

/-- Settles O1: the round trip of every constructor. -/
theorem decodeInvertsEncode : Obligations.DecodeInvertsEncode := fun c p i => decode_encode i c p

/-! ## Commands -/

/-- The low bits of a bus are the field it carries (R94). -/
theorem extractLsb'_zero_eq_setWidth {n : Nat} (x : BitVec 32) : x.extractLsb' 0 n = x.setWidth n := by
  apply BitVec.eq_of_toNat_eq
  rw [BitVec.extractLsb'_toNat, BitVec.toNat_setWidth, Nat.shiftRight_zero]

section
variable (a b c : BitVec 32)

@[simp] theorem decodeCmd_setPin : decodeCmd (cmdWord 0x1#4 a b c) = .setPin (a.setWidth 8) := by
  simp [decodeCmd, extractLsb'_zero_eq_setWidth]

@[simp] theorem decodeCmd_begin : decodeCmd (cmdWord 0x2#4 a b c) = .beginPin := by simp [decodeCmd]

@[simp] theorem decodeCmd_end : decodeCmd (cmdWord 0x3#4 a b c) = .endPin := by simp [decodeCmd]

@[simp] theorem decodeCmd_updateLength : decodeCmd (cmdWord 0x4#4 a b c) = .updateLength (a.setWidth 16) := by
  simp [decodeCmd, extractLsb'_zero_eq_setWidth]

@[simp] theorem decodeCmd_transmit : decodeCmd (cmdWord 0x5#4 a b c) = .transmit a (b.setWidth 16) c := by
  simp [decodeCmd, extractLsb'_zero_eq_setWidth]

end

/-- A word whose opcode is none of the five commands is reserved (R96). -/
theorem decodeCmd_reserved {w : CmdWord} (h : cmdOp w = 0x0#4 ∨ 0x6#4 ≤ cmdOp w) : decodeCmd w ∈ Machine.reservedInstrs := by
  have hop : (cmdOp w).toNat = 0 ∨ 6 ≤ (cmdOp w).toNat := h.imp (congrArg BitVec.toNat) BitVec.le_def.mp
  unfold decodeCmd
  split
  case h_2 e | h_3 e | h_4 e | h_5 e | h_6 e => omega
  all_goals simp [Machine.reservedInstrs]

theorem decodeCmd_cmdWord_reserved {op : BitVec 4} (h : op = 0x0#4 ∨ 0x6#4 ≤ op) (a b c : BitVec 32) :
    decodeCmd (cmdWord op a b c) ∈ Machine.reservedInstrs :=
  decodeCmd_reserved (by rwa [cmdOp_cmdWord])

/-- Settles O2: the equation of each command, and the words of no command. -/
theorem commandWordsDecodeByField : Obligations.CommandWordsDecodeByField :=
  fun a b c => ⟨decodeCmd_setPin a b c, decodeCmd_begin a b c, decodeCmd_end a b c, decodeCmd_updateLength a b c,
    decodeCmd_transmit a b c, fun _ h => decodeCmd_cmdWord_reserved h a b c⟩

/-! ## Duty entries -/

@[simp] theorem polarity_dutyWord (p : BitVec 1) (cmp : BitVec 15) : polarity (dutyWord p cmp) = decide (p ≠ 0#1) := by
  rcases BitVec.eq_zero_or_eq_one p with rfl | rfl
  · exact polarity_dutyWord_zero cmp
  · exact polarity_dutyWord_one cmp

/-- Settles O4: the decoder's tests are on the two fields of the word, as numbers. -/
theorem dutyEntriesDecodeByField : Obligations.DutyEntriesDecodeByField := by
  intro p cmp d1
  simp only [decodeDuty, polarity_dutyWord, cmpOf_dutyWord, decide_eq_false_iff_not, not_not, ← BitVec.le_def,
    BitVec.toNat_eq (y := 0#15), BitVec.toNat_ofNat, Nat.zero_mod]

/-- Settles O3: the decoder evaluated on each word. -/
theorem sampleWordsDecode : Obligations.SampleWordsDecode := ⟨rfl, rfl, rfl, rfl, rfl, rfl, rfl, rfl, rfl, rfl⟩

end Sys2Proof
end

section
/-! What the decoded rows do: the reserved opcodes and encodings, the two engines' symbols when nothing stalls. -/

namespace Sys2Proof.Machine

/-! ## Reserved rows -/

/-- Every reserved opcode is the one bad command (R96). -/
theorem exec_reserved {i : Instr} (h : i ∈ reservedInstrs) (s : State) : exec i s = .next s.badCommand := by
  simp only [reservedInstrs, List.mem_cons, List.not_mem_nil, or_false] at h
  rcases h with rfl | rfl | rfl | rfl | rfl | rfl | rfl | rfl | rfl | rfl | rfl <;> rfl

/-- Settles O18: the decoder's reserved words, and the bad command written out. -/
theorem reservedOpcodesOnlySetBadCmd : Obligations.ReservedOpcodesOnlySetBadCmd :=
  ⟨fun _ a b c h => decodeCmd_cmdWord_reserved h a b c, fun s _ h => exec_reserved h s⟩

/-- Settles O26: each of the three rows is refused in every state. -/
theorem reservedEncodingsAreRefused : Obligations.ReservedEncodingsAreRefused := fun _ => ⟨fun _ => rfl, rfl, rfl⟩

/-! ## The symbols of the engines -/

/-- Over some cycles the running instance's line has one segment, before those of the parked instances. -/
theorem State.shownSegs_add (s : State) (b : Bool) (t : Nat) {n : Nat} (h : 0 < n) : s.shownSegs b t (t + n) =
    { pin := s.inst.pin, start := t, level := s.shown b, cycles := n } :: s.parkedSegs t (t + n) := by
  rw [State.shownSegs, if_neg (by omega), Nat.add_sub_cancel_left]

/-- Settles O19: the unstalled symbol, both of whose phases have cycles. -/
theorem symbolHoldsBothPhases : Obligations.SymbolHoldsBothPhases := by
  intro s b hs hu hwf high low
  obtain ⟨⟨h0h, h0l, h1h, h1l⟩, ⟨b0h, b0l, b1h, b1l⟩⟩ := desc_wf hwf
  have hhigh : 0 < high ∧ high < 2 ^ 32 := by
    cases b
    · exact ⟨h0h, b0h⟩
    · exact ⟨h1h, b1h⟩
  have hlow : 0 < low ∧ low < 2 ^ 32 := by
    cases b
    · exact ⟨h0l, b0l⟩
    · exact ⟨h1l, b1l⟩
  rw [exec_sym, State.bbSymbol_unstalled hs hu hhigh.2 hlow.2, s.shownSegs_add true s.t hhigh.1,
    s.shownSegs_add false (s.t + high) hlow.1]
  rfl

/-- Settles O22: the unstalled symbol, whose two parts make up FB_PERIOD. -/
theorem fallbackSymbolFillsThePeriod : Obligations.FallbackSymbolFillsThePeriod := by
  intro s b hs hu hwf hb t2
  simp only [ClassParams.fbWf, Bool.and_eq_true, decide_eq_true_eq] at hwf
  obtain ⟨⟨⟨h0, h01⟩, h1⟩, hp⟩ := hwf
  have hhigh : 0 < hb ∧ hb < s.inst.cfg.cp.fbPeriod := by
    cases b
    · exact ⟨h0, h01.trans h1⟩
    · exact ⟨h0.trans h01, h1⟩
  have ht2 : s.t + hb + (s.inst.cfg.cp.fbPeriod - hb) = t2 := by omega
  have hlow := s.shownSegs_add false (s.t + hb) (Nat.sub_pos_of_lt hhigh.2)
  rw [ht2] at hlow
  rw [exec_fbSym, State.fbSymbol_unstalled hs hu (Nat.le_of_lt hhigh.2) hp, s.shownSegs_add true s.t hhigh.1, hlow]

end Sys2Proof.Machine
end

section
/-! A build with another channel order: the constants it leaves as they were, and when they are well formed (R246, R250). -/

namespace Sys2Proof

/-! ## The table with one row replaced -/

@[simp] theorem Table.row_setRow (t : Table) (c k : Chip) (d : Desc) :
    (t.setRow c d).row k = if k = c then d else t.row k := by
  cases c <;> cases k <;> rfl

/-- A table is well formed by its rows, and by both ends of the range of LATCH_US being among them (R247). -/
theorem Table.wf_iff {t : Table} : t.wf = true ↔
    (∀ c, (t.row c).rowWf c = true) ∧ 24 ∈ t.rows.map Desc.latchUs ∧ 500 ∈ t.rows.map Desc.latchUs := by
  have hmem (n : Nat) : t.rows.any (fun d => decide (d.latchUs = n)) = true ↔ n ∈ t.rows.map Desc.latchUs := by
    simp only [List.any_eq_true, decide_eq_true_eq, List.mem_map]
  rw [← hmem, ← hmem]
  refine ⟨fun h => ⟨Table.wf_row h, ?_⟩, fun ⟨hrow, h24, h500⟩ => ?_⟩
  · simp only [Table.wf, Bool.and_eq_true] at h
    obtain ⟨⟨-, h24⟩, h500⟩ := h
    exact ⟨h24, h500⟩
  · simp only [Table.wf, Bool.and_eq_true]
    exact ⟨⟨⟨⟨⟨⟨⟨hrow .ws2811, hrow .ws2812⟩, hrow .ws2813⟩, hrow .sk6812rgbw⟩, hrow .tm1803⟩, hrow .tm1829⟩, h24⟩, h500⟩

/-- Another channel order in a row leaves every LATCH_US. -/
theorem Table.latches_setOrder (t : Table) (c : Chip) (o : Order) :
    (t.setRow c { t.row c with order := o }).rows.map Desc.latchUs = t.rows.map Desc.latchUs := by
  cases c <;> rfl

/-- The order is a field only the RGBW chipset's row has a rule for (R250). -/
theorem Desc.rowWf_setOrder {c : Chip} {d : Desc} {o : Order} (h : d.rowWf c = true) (ho : c ≠ .sk6812rgbw ∨ o = .rgbw) :
    ({ d with order := o } : Desc).rowWf c = true := by
  simp only [Desc.rowWf, Desc.fieldsWf, Bool.and_eq_true] at h ⊢
  obtain ⟨htimes, hfields, -⟩ := h
  refine ⟨htimes, hfields, ?_⟩
  split
  · next hc => exact decide_eq_true (ho.resolve_left (not_not_intro hc))
  · rfl

/-- A table stays well formed with an order its chipset takes. -/
theorem Table.wf_setOrder {t : Table} {c : Chip} {o : Order} (h : t.wf = true) (ho : c ≠ .sk6812rgbw ∨ o = .rgbw) :
    (t.setRow c { t.row c with order := o }).wf = true := by
  obtain ⟨hrow, hlatch⟩ := Table.wf_iff.mp h
  refine Table.wf_iff.mpr ⟨fun k => ?_, by rwa [Table.latches_setOrder]⟩
  rw [Table.row_setRow]
  split
  · next hk => rw [hk]; exact Desc.rowWf_setOrder (hrow c) ho
  · exact hrow k

/-- The row of a well-formed RGBW instance has the RGBW order (R250). -/
theorem Config.wf_order {c : Config} {p : Platform} (h : c.wf p = true) (hc : c.chip = .sk6812rgbw) : c.desc.order = .rgbw := by
  simp only [Config.wf, Bool.and_eq_true] at h
  obtain ⟨⟨⟨⟨-, htable, -⟩, -⟩, -⟩, -⟩ := h
  have hrow := Table.wf_row htable c.chip
  simp only [Desc.rowWf, Desc.fieldsWf, Bool.and_eq_true] at hrow
  obtain ⟨-, -, horder⟩ := hrow
  rw [if_pos hc] at horder
  exact of_decide_eq_true horder

end Sys2Proof

namespace Sys2Proof.Machine

/-! ## The constants with another order -/

theorem Config.withOrder_desc (c : Config) (o : Order) : (Config.withOrder c o).desc = { c.desc with order := o } := by
  simp [Config.withOrder, Config.desc]

theorem Config.withOrder_cp (c : Config) (o : Order) : (Config.withOrder c o).cp = c.cp := by
  rw [Config.cp, Config.withOrder_desc]; rfl

/-- Constants stay well formed with an order their chipset takes (R250). -/
theorem Config.wf_withOrder {c : Config} {p : Platform} {o : Order} (h : c.wf p = true) (ho : c.chip ≠ .sk6812rgbw ∨ o = .rgbw) :
    (Config.withOrder c o).wf p = true := by
  have hpwm : (Config.withOrder c o).pwmWf p = c.pwmWf p := by
    simp only [Config.pwmWf, Config.zeroBitsWf, Config.withOrder_cp]; rfl
  simp only [Config.wf, Bool.and_eq_true, hpwm, Config.withOrder_desc] at h ⊢
  obtain ⟨⟨⟨⟨hplat, htable, hdesc⟩, hterm⟩, hbackoff⟩, hstrategy⟩ := h
  exact ⟨⟨⟨⟨hplat, Table.wf_setOrder htable ho, hdesc⟩, hterm⟩, hbackoff⟩, hstrategy⟩

/-- An RGBW instance takes no other order (R250). -/
theorem Config.wf_withOrder_rgbw {c : Config} {p : Platform} {o : Order} (hc : c.chip = .sk6812rgbw) (ho : o ≠ .rgbw) :
    (Config.withOrder c o).wf p = false := by
  refine Bool.eq_false_iff.mpr fun h => ho ?_
  have horder := Config.wf_order h hc
  rwa [Config.withOrder_desc] at horder

/-- No symbol depends on the order (R246). -/
theorem symbols_withOrder (c : Config) (o : Order) (b : Bool) :
    bbSymbol (Config.withOrder c o) b = bbSymbol c b ∧ fbSymbol (Config.withOrder c o) b = fbSymbol c b ∧
      pwmSymbol (Config.withOrder c o) b = pwmSymbol c b := by
  refine ⟨?_, ?_, ?_⟩
  · rw [bbSymbol, Config.withOrder_desc]; rfl
  · simp only [fbSymbol, fbHigh, Config.withOrder_cp]
  · simp only [pwmSymbol, pwmHigh, pwmPeriod, Config.withOrder_cp]; rfl

/-- An order code builds with its own order (R108). -/
theorem exec_orderInstr (s : State) (o : Order) : exec (orderInstr o) s = s.buildOrder o := by cases o <;> rfl

/-- Settles O31: an order code is a build with constants that are well formed exactly as its chipset takes the order. -/
theorem orderCodeOnlyEntersTheOrder : Obligations.OrderCodeOnlyEntersTheOrder := by
  intro s o hwf
  rw [exec_orderInstr, State.buildOrder]
  refine ⟨fun ho => ?_, fun hc ho => State.build_refused (Config.wf_withOrder_rgbw hc ho)⟩
  refine ⟨_, State.build_next (Config.wf_withOrder hwf ho), rfl, rfl, rfl, rfl, rfl, Config.withOrder_desc _ o, rfl,
    fun c hc => ?_, symbols_withOrder _ o⟩
  exact (Table.row_setRow ..).trans (if_neg hc)

end Sys2Proof.Machine
end

section
/-! A step runs the decoded instruction: what each of the machine's readers executes (R91, R150, R195, R200, R220). -/

namespace Sys2Proof.Machine

/-- In the sequencer's turn an idle instance's step is its host's move, stalled or not. -/
theorem step_of_idle {s : State} (h : s.sequencerTurn) (hf : s.inst.fsm = .idle) : step s = s.idleStep := by
  have ⟨_, _, _, _, _, hstuck⟩ := h
  rw [step_of_turn h, sequence_of hstuck, hf]

/-- Past bit 7 no byte is read (R153, R224). -/
theorem State.fetchByte_held {s : State} (h : s.inst.bitIx ≠ 7) : s.fetchByte = .next s := if_neg h

section
variable {s : State} {r : List HostMove} (hf : s.inst.fsm = .idle) (hd : s.done = false)
include hf hd

/-- A command word at the port of an idle instance is decoded and executed (R91). -/
theorem State.freeTurn.step_cmd (h : s.freeTurn) {w : CmdWord} (hh : s.host = .cmd w :: r) :
    step s = exec (decodeCmd w) { s with host := r } := by
  have ⟨_, hfree⟩ := h
  simp only [h.step_idle hf, State.idleStep, hd, Bool.false_eq_true, if_false, hh, act_of_free hfree, State.popHost, List.tail_cons]

/-- A type tag is decoded and built with, in a stalled cycle too (R106, log 20). -/
theorem step_chip (h : s.sequencerTurn) {w : BitVec 3} (hh : s.host = .chip w :: r) :
    step s = exec (decodeChip w) { s with host := r } := by
  simp only [step_of_idle h hf, State.idleStep, hd, Bool.false_eq_true, if_false, hh, State.popHost, List.tail_cons]

/-- So is an order code (R108, log 20). -/
theorem step_order (h : s.sequencerTurn) {w : BitVec 2} (hh : s.host = .order w :: r) :
    step s = exec (decodeOrder w) { s with host := r } := by
  simp only [step_of_idle h hf, State.idleStep, hd, Bool.false_eq_true, if_false, hh, State.popHost, List.tail_cons]

end

/-- After bit 7 a high phase of the bit-bang engine sends the bit of CUR (R150). -/
theorem State.freeTurn.step_bbHigh_held {s : State} (h : s.freeTurn) (h7 : s.inst.bitIx ≠ 7) (hf : s.inst.fsm = .bbHigh) :
    step s = exec (if s.inst.curBit then .sym1 else .sym0) s := by
  have ⟨⟨_, _, _, _, _, hstuck⟩, _⟩ := h
  rw [h.step_of_act (by rw [sequence_of hstuck, hf]), State.fetchByte_held h7]
  rfl

/-- So does one of the fallback engine (R220). -/
theorem State.freeTurn.step_fbHigh_held {s : State} (h : s.freeTurn) (h7 : s.inst.bitIx ≠ 7) (hf : s.inst.fsm = .fbHigh) :
    step s = exec (if s.inst.curBit then .fbSym1 else .fbSym0) s := by
  have ⟨⟨_, _, _, _, _, hstuck⟩, _⟩ := h
  rw [h.step_of_act (by rw [sequence_of hstuck, hf]), State.fetchByte_held h7]
  rfl

section
variable {s : State} {u : Nat} {w : PwmUnit} {i : Inst} (ho : s.owner u = some i) (hp : w.pos < w.seqCnt.toNat)
include ho hp

/-- A unit with no entry fetched executes the one its DMA reads (R195). -/
theorem State.unitStep_reads (hf : w.fetched = none) : s.unitStep u w =
    s.asInst i.id (exec (decodeDuty i.cfg.cp.duty1 (s.dutyEntry i (w.seqPtr.toNat + w.pos)))) := by
  rw [State.unitStep, if_neg (Nat.not_le.mpr hp), ho]
  simp only [hf]
  rfl

/-- A unit with an entry fetched executes the entry's symbol, where it has one (R200). -/
theorem State.unitStep_symbol {e : Entry} {k : Instr} (hf : w.fetched = some e) (hk : symbolOf i.cfg e = some k) :
    s.unitStep u w = s.asInst i.id (exec k) := by
  rw [State.unitStep, if_neg (Nat.not_le.mpr hp), ho]
  simp only [hf, hk]

end

/-- Settles O32: each reader's step, by the agent whose turn it is. -/
theorem stepRunsTheDecodedInstruction : Obligations.StepRunsTheDecodedInstruction := by
  refine ⟨fun s w r h hf hd hh => h.step_cmd hf hd hh, fun s r h hf hd => ?_, fun s h h7 => ?_,
    fun s u w i hr he hu hp ho => ?_⟩
  · exact ⟨fun w hh => step_chip hf hd h hh, fun w hh => step_order hf hd h hh⟩
  · exact ⟨h.step_bbHigh_held h7, h.step_fbHigh_held h7⟩
  · rw [step_of_unit hr he hu]
    exact ⟨State.unitStep_reads ho hp, fun e k => State.unitStep_symbol ho hp⟩

end Sys2Proof.Machine
end

section
/-! The latch timer: when a latch wait ends, how long the line has been silent by then, and what stamps END_TIME (R130 to R138). -/

namespace Sys2Proof.Machine

/-! ## A wait for a cycle to come -/

/-- A wait for the first unstalled cycle from d on, while no other agent acts: up to its end no unstalled cycle from d on passes, and it
ends in one, with an event of another agent, or not at all (R17, R288). -/
theorem State.pauseEnd_due {s : State} (h : s.othersWait) {d : Nat} (hd : s.t < d) :
    let c := s.pauseEnd (nextFree s.blockers (max s.t d))
    s.t < c ∧ (∀ e ∈ s.nextEvents, c ≤ e) ∧ (∀ k, s.t ≤ k → k < c → s.blocked k ∨ ¬ d ≤ k) ∧
    (d ≤ c ∧ ¬ s.blocked c ∨ c ∈ s.nextEvents ∨ ∀ k, s.t ≤ k → s.blocked k ∨ ¬ d ≤ k) := by
  obtain ⟨hgt, hle, hend⟩ := State.pauseEnd_wait h (stop := nextFree s.blockers (max s.t d)) fun _ => nextFree_max_gt hd
  refine ⟨hgt, fun e he => hle e (Or.inr he), ?_⟩
  cases hstop : nextFree s.blockers (max s.t d) with
  | none =>
    have hall : ∀ k, s.t ≤ k → s.blocked k ∨ ¬ d ≤ k := fun k hk =>
      (freeFrom_none hstop k hk).imp_right of_decide_eq_false
    exact ⟨fun k hk _ => hall k hk, Or.inr (Or.inr hall)⟩
  | some e =>
    rw [hstop] at hle hend
    obtain ⟨-, hfree, hdue, hbefore⟩ := freeFrom_iff.mp hstop
    have hce := hle e (Or.inl rfl)
    refine ⟨fun k hk hkc => (hbefore k hk (Nat.lt_of_lt_of_le hkc hce)).imp_right of_decide_eq_false, ?_⟩
    rcases hend with ⟨hnone, -⟩ | hstops | hevent
    · cases hnone
    · rw [← Option.some.inj hstops]
      exact Or.inl ⟨of_decide_eq_true hdue, Bool.eq_false_iff.mp hfree⟩
    · exact Or.inr (Or.inl hevent)

/-! ## The latch wait -/

section
variable {s : State} (hf : s.inst.fsm = .waitLatch)
include hf

/-- Before the latch condition has held the sequencer waits for the latch wait's end (R131). -/
theorem State.sequencerTurn.step_latchClosed (h : s.sequencerTurn) (hd : ¬ s.latchDue ≤ s.t) :
    step s = .next (s.pause s.latchEnd) := by
  have ⟨_, _, _, _, _, hstuck⟩ := h
  rw [step_of_turn h, sequence_of hstuck, hf]
  exact if_neg (by simpa [State.latchOpen] using hd)

/-- From then on an unstalled sequencer starts the engine of the STRATEGY (R132, R300). -/
theorem State.freeTurn.step_latchOpen (h : s.freeTurn) (hd : s.latchDue ≤ s.t) : step s = .next s.leaveLatch := by
  have ⟨⟨_, _, _, _, _, hstuck⟩, _⟩ := h
  refine h.step_of_act (k := fun s => .next s.leaveLatch) ?_
  rw [sequence_of hstuck, hf]
  exact if_pos (decide_eq_true hd)

end

/-- Settles O35: the wait is over from `latchDue` on; before it the step is a pause for that cycle, after it the start of the engine. -/
theorem latchWaitEndsAtTheFirstChance : Obligations.LatchWaitEndsAtTheFirstChance := by
  intro s ht hf hm
  simp only [← State.latchDue_iff hm]
  refine ⟨fun hclosed => ?_, fun hopen hs => ?_⟩
  · obtain ⟨hgt, hevents, hbefore, hend⟩ := State.pauseEnd_due (State.othersWait_of_turn ht) (Nat.lt_of_not_le hclosed)
    exact ⟨s.pauseEnd s.latchEnd, hgt, ht.step_latchClosed hf hclosed, hbefore, hevents, hend⟩
  · have hfree : s.freeTurn := ⟨ht, hs⟩
    rw [hfree.step_latchOpen hf hopen, State.leaveLatch]
    exact ⟨fun hst => by rw [hst]; rfl, fun hst => by rw [hst]⟩

/-! ## The silence before a frame -/

theorem State.seqendHandler_fsm (s : State) (u : Nat) : (s.seqendHandler u).inst.fsm = s.inst.fsm := by
  unfold State.seqendHandler State.clearActive
  split
  · split <;> rfl
  · split <;> rfl
  · rfl

theorem State.startPwm_t (s : State) : s.startPwm.t = s.t := by
  rcases s.startPwm_cases with ⟨u, w, -, -, -, e⟩ | ⟨ev, -, e⟩ <;> rw [e]

/-- An action leaves WAIT_LATCH only when the latch wait is over, and takes no time (R131). -/
theorem State.Acts.latchOpen_of_leaves {s s' : State} (h : s.Acts s') (hf : s.inst.fsm = .waitLatch)
    (hf' : s'.inst.fsm ≠ .waitLatch) : s'.t = s.t ∧ s.latchOpen = true := by
  cases h with
  | bbStart _ ho => exact ⟨rfl, ho⟩
  | pwmStart _ ho => exact ⟨s.startPwm_t, ho⟩
  | handler u => exact absurd ((s.seqendHandler_fsm u).trans hf) hf'
  | pass c | waited c => exact absurd (by simpa using hf) hf'
  | envUnit | envNone | envSeqend | envGpio | unitEnd | unitFetch | unitPlay | finished => exact absurd hf hf'
  | selected _ _ hfsm => rw [hf] at hfsm; exact absurd hfsm (by decide)
  | wrote _ _ hfsm | command _ _ hfsm | built _ hfsm | afterEnd hfsm | afterUpdate _ hfsm | afterTransmit hfsm
  | afterNone hfsm | bbBit _ _ _ hfsm | bbAfter hfsm | encodes _ _ hfsm | encoded _ _ _ hfsm | played hfsm
  | tornDown _ _ hfsm | fbBit _ _ hfsm | fbAfter hfsm | checked hfsm | again hfsm =>
    rw [hf] at hfsm; cases hfsm

/-- US counts at most the microseconds that have begun since a cycle, however often it has wrapped (R43, R138). -/
theorem usAt_sub_usAt_le (m : Nat) {t0 k : Nat} (h : t0 ≤ k) : (usAt m k - usAt m t0).toNat ≤ k / m - t0 / m := by
  have := Nat.div_le_div_right (c := m) h
  simp only [usAt, BitVec.toNat_sub, BitVec.toNat_ofNat]
  omega

/-- Between the stamp and a cycle in which US has gone d on lie d - 1 whole microseconds and a cycle (R137). -/
theorem cycles_of_usAt_sub {m d t0 k : Nat} (hm : 0 < m) (hd : 1 ≤ d) (h : t0 ≤ k)
    (hus : d ≤ (usAt m k - usAt m t0).toNat) : (d - 1) * m + 1 ≤ k - t0 := by
  have hdiv : t0 / m + 1 + (d - 1) ≤ k / m := by
    have := usAt_sub_usAt_le m h
    omega
  have hk : (t0 / m + 1) * m + (d - 1) * m ≤ k := by
    rw [← Nat.add_mul]
    exact (Nat.le_div_iff_mul_le hm).mp hdiv
  have ht0 : t0 < (t0 / m + 1) * m := (Nat.div_lt_iff_lt_mul hm).mp (Nat.lt_succ_self _)
  omega

/-- US is d in no cycle before the d-th microsecond begins (R43, R136). -/
theorem cycles_of_usAt {m d k : Nat} (hm : 0 < m) (hus : d ≤ (usAt m k).toNat) : d * m ≤ k :=
  (Nat.le_div_iff_mul_le hm).mp (Nat.le_trans hus (Nat.mod_le _ _))

/-- Settles O36: WAIT_LATCH is left no earlier than a cycle of the wait in which US was DLY past END_TIME, and that many microseconds
are that many cycles, from the stamp or from time 0. -/
theorem latchSilenceIsKept : Obligations.LatchSilenceIsKept := by
  intro s s' hpast hf h hf' hm hd
  obtain ⟨ht, hopen⟩ := (step_acts_of_past h hpast).latchOpen_of_leaves hf hf'
  obtain ⟨k, hbegan, hk, hus⟩ := (State.latchDue_iff hm s.t).mp (of_decide_eq_true hopen)
  refine ⟨ht, fun t0 ht0 hstamp => ?_, fun hzero => ?_⟩
  · rw [hstamp] at hus
    have := cycles_of_usAt_sub hm hd (Nat.le_trans ht0 hbegan) hus
    omega
  · have hreset : State.reset.inst.endTime = 0#32 := rfl
    rw [hzero, hreset, BitVec.sub_zero] at hus
    exact Nat.le_trans (cycles_of_usAt hm hus) hk

/-! ## The stamp -/

/-- Settles O49: an action that is no build and no turn stamps END_TIME only where it completes a frame. -/
theorem onlyAFinishedFrameStamps : Obligations.OnlyAFinishedFrameStamps := by
  intro s s' hpast hb h
  exact (State.acts_kept (step_acts_of_past h hpast) hb).endTime

end Sys2Proof.Machine
end

section
/-! A symbol of the bit-bang engine under any stall set, its durations those of the chipset's row (R154 to R156); the TRANSMIT that
sends nothing (R151). -/

namespace Sys2Proof.Machine

/-! ## The bit-bang symbol -/

/-- Both phases of either symbol have at least one cycle and fewer than 2^32 (R244). -/
theorem bbPhases_wf {c : Config} {p : Platform} (h : c.wf p = true) (b : Bool) :
    (0 < (if b then c.desc.t1h else c.desc.t0h) ∧ (if b then c.desc.t1h else c.desc.t0h) < 2 ^ 32) ∧
    (0 < (if b then c.desc.t1l else c.desc.t0l) ∧ (if b then c.desc.t1l else c.desc.t0l) < 2 ^ 32) := by
  obtain ⟨⟨h0h, h0l, h1h, h1l⟩, b0h, b0l, b1h, b1l⟩ := desc_wf h
  cases b
  · exact ⟨⟨h0h, b0h⟩, h0l, b0l⟩
  · exact ⟨⟨h1h, b1h⟩, h1l, b1l⟩

section
variable {s : State} {high low : Nat} (hu : s.noUnitOn s.inst.pin) (hhigh : high < 2 ^ 32) (hlow : low < 2 ^ 32)
include hu hhigh hlow

/-- A symbol whose high phase no cycle ends (R336). -/
theorem State.bbSymbol_stuckHigh (ho : s.phaseStop high s.t = none) :
    s.bbSymbol high low = s.stuckIn .bbHigh true (s.phaseStart s.t) := by
  rw [State.bbSymbol_eq hu hhigh hlow, ho, Option.elim_none]

/-- A symbol whose low phase no cycle ends, one cycle into that phase (R336). -/
theorem State.bbSymbol_stuckLow {t1 : Nat} (ho1 : s.phaseStop high s.t = some t1) (ho2 : s.phaseStop low t1 = none) :
    s.bbSymbol high low = { s with
      t := t1 + 1
      inst := { s.inst with
        fsm := .bbLow, evt := pinEvt s.plat.nPins s.inst.evt s.inst.pin, bitStart := s.phaseStart t1, stuck := true }
      gpio := gpioUpdate s.plat.nPins s.gpio s.inst.pin fun q => { q with out := false }
      obs := { s.obs with wave := s.obs.wave ++ (s.shownSegs true s.t t1 ++ s.shownSegs false t1 (t1 + 1)) } } := by
  rw [State.bbSymbol_eq hu hhigh hlow, ho1, Option.elim_some, ho2, Option.elim_none, State.stuckIn, State.held_held]
  rfl

end

/-- Settles O20: `phaseStop` is the end of a phase in the statement's sense, and the symbol goes by the ends of its two phases. -/
theorem symbolPhasesUnderStalls : Obligations.SymbolPhasesUnderStalls := by
  intro s b hu hwf high low after
  obtain ⟨⟨hhigh0, hhigh⟩, hlow0, hlow⟩ : (0 < high ∧ high < 2 ^ 32) ∧ 0 < low ∧ low < 2 ^ 32 := bbPhases_wf hwf b
  have hexec : exec (if b then .sym1 else .sym0) s = .next (s.bbSymbol high low) := exec_sym s b
  simp only [hexec, ← s.phaseStop_iff _ _ hhigh, ← s.phaseStop_iff _ _ hlow]
  refine ⟨fun t1 t2 ho1 ho2 => ⟨?_, ?_, ?_⟩, fun ho => ?_, fun t1 ho1 ho2 => ?_, fun hw => ?_⟩
  · exact State.phaseOver_gt hhigh0 ((s.phaseStop_iff _ _ hhigh).mp ho1)
  · exact State.phaseOver_gt hlow0 ((s.phaseStop_iff _ _ hlow).mp ho2)
  · exact congrArg _ (State.bbSymbol_over hu hhigh hlow ho1 ho2)
  · exact congrArg _ (State.bbSymbol_stuckHigh hu hhigh hlow (Option.eq_none_iff_forall_ne_some.mpr ho))
  · exact congrArg _ (State.bbSymbol_stuckLow hu hhigh hlow ho1 (Option.eq_none_iff_forall_ne_some.mpr ho2))
  · obtain ⟨t1, ho1⟩ := State.phaseStop_ends hw hhigh s.t
    obtain ⟨t2, ho2⟩ := State.phaseStop_ends hw hlow t1
    exact ⟨t1, t2, ho1, ho2⟩

/-! ## TRANSMIT with nothing to send -/

/-- A null buffer or a zero length makes TRANSMIT a no-op, ahead of every other test (R151). -/
theorem exec_transmit_noop {buf : Addr} {len : Count} (h : buf = 0 ∨ len = 0) (dly : Time32) (s : State) :
    exec (.transmit buf len dly) s = .next ((s.latchOperands buf len dly).raise .noopTx).complete :=
  if_pos h

/-- Settles O16: the no-op with its operands latched, NOOP_TX raised and the command completed. -/
theorem transmitNoop : Obligations.TransmitNoop := fun _ _ dly s h => exec_transmit_noop h dly s

end Sys2Proof.Machine
end

section
/-! Commands that wait for ACTIVE = 0, and UPDATE_LENGTH (R181 to R184, R265, R300). -/

namespace Sys2Proof.Machine

/-! ## UPDATE_LENGTH -/

/-- A BITBANG instance has no duty RAM to allocate (R184). -/
theorem exec_updateLength_bitbang {s : State} (hst : s.inst.cfg.strategy = .bitbang) (n : Count) :
    exec (.updateLength n) s = .next s.complete := by
  simp only [exec, execUpdateLength, hst]

/-- A PWMDMA instance waits while ACTIVE = 1 (R183). -/
theorem exec_updateLength_wait {s : State} (hst : s.inst.cfg.strategy = .pwmdma) (ha : s.inst.active = true) (n : Count) :
    exec (.updateLength n) s = .next (s.waitFor (.updateLength n)) := by
  simp only [exec, execUpdateLength, hst, ha, if_true]

/-- With ACTIVE = 0 it allocates in the accepting cycle (R181). -/
theorem exec_updateLength_now {s : State} (hst : s.inst.cfg.strategy = .pwmdma) (ha : s.inst.active = false) (n : Count) :
    exec (.updateLength n) s = .next (s.updateAction n) := by
  simp only [exec, execUpdateLength, hst, ha, Bool.false_eq_true, if_false]

/-- Settles O14: on a BITBANG instance the command is its completion. -/
theorem updateLengthOnBitbangDoesNothing : Obligations.UpdateLengthOnBitbangDoesNothing :=
  fun n _ hst => exec_updateLength_bitbang hst n

/-- Settles O15: the three outcomes of the allocation, each over an empty duty RAM, which reads as free values. -/
theorem updateLengthAllocates : Obligations.UpdateLengthAllocates := by
  intro n s hst ha need fresh
  rw [exec_updateLength_now hst ha, State.updateAction, show s.inst.need n = need from rfl]
  refine ⟨fun hn => ?_, fun hn hfits => ?_, fun hn htoo => ?_, fun cap k => rfl⟩
  · rw [if_pos hn]; rfl
  · rw [if_neg hn, if_pos hfits]; rfl
  · rw [if_neg hn, if_neg (Nat.not_le.mpr htoo)]; rfl

/-! ## Waiting for ACTIVE = 0 -/

/-- END waits while ACTIVE = 1 (R265). -/
theorem exec_endPin_wait {s : State} (ha : s.inst.active = true) : exec .endPin s = .next (s.waitFor .endPin) :=
  if_pos ha

/-- With ACTIVE = 0 it releases the pin in the accepting cycle (R264). -/
theorem exec_endPin_now {s : State} (ha : s.inst.active = false) : exec .endPin s = .next s.endAction :=
  if_neg (Bool.eq_false_iff.mp ha)

/-- A TRANSMIT that is no no-op and wraps nothing waits, its operands latched, while ACTIVE = 1 (R300). -/
theorem exec_transmit_wait {s : State} {buf : Addr} {len : Count} (dly : Time32) (hbuf : buf ≠ 0) (hlen : len ≠ 0)
    (hwrap : buf.toNat + len.toNat ≤ 2 ^ 32) (ha : s.inst.active = true) :
    exec (.transmit buf len dly) s = .next ((s.latchOperands buf len dly).waitFor .transmit) := by
  have hfits : bufferWraps buf len = false := decide_eq_false (Nat.not_lt.mpr hwrap)
  simp only [exec, execTransmit, hbuf, hlen, or_self, hfits, ha, Bool.false_eq_true, if_false, if_true]

/-- In WAIT_ACTIVE with ACTIVE = 1 the sequencer waits for no cycle of its own (R265, R300). -/
theorem State.sequencerTurn.step_waitActive {s : State} (h : s.sequencerTurn) (hf : s.inst.fsm = .waitActive)
    (ha : s.inst.active = true) : step s = .next (s.pause none) := by
  have ⟨_, _, _, _, _, hstuck⟩ := h
  rw [step_of_turn h, sequence_of hstuck, hf]
  exact if_pos ha

/-- With ACTIVE = 0 it makes the waiting command's action (R300). -/
theorem State.freeTurn.step_afterActive {s : State} (h : s.freeTurn) (hf : s.inst.fsm = .waitActive)
    (ha : s.inst.active = false) : step s = s.afterActive := by
  have ⟨⟨_, _, _, _, _, hstuck⟩, _⟩ := h
  refine h.step_of_act ?_
  rw [sequence_of hstuck, hf]
  exact if_neg (Bool.eq_false_iff.mp ha)

/-- Settles O13: accepted with ACTIVE = 1 the three commands wait; the wait is a pause without an end; and the action after it is the one
each command makes when it is accepted with ACTIVE = 0. -/
theorem commandsWaitForActive : Obligations.CommandsWaitForActive := by
  refine ⟨fun s ha => ⟨exec_endPin_wait ha, fun hst n => exec_updateLength_wait hst ha n, fun buf len dly hbuf hlen hwrap =>
    exec_transmit_wait dly hbuf hlen hwrap ha⟩, fun s ht hf ha => ?_, fun s h hf ha => ?_⟩
  · exact State.passesOn_of (State.othersWait_of_turn ht) (ht.step_waitActive hf ha)
  · rw [h.step_afterActive hf ha, State.afterActive]
    refine ⟨fun hcmd => ?_, fun n hcmd hst => ?_, fun hcmd hbuf hlen hwrap => ?_⟩
    · rw [hcmd, exec_endPin_now ha]
    · rw [hcmd, exec_updateLength_now hst ha]
    · rw [hcmd, exec_transmit_now hbuf hlen hwrap ha]
      rfl

end Sys2Proof.Machine
end

section
/-! The PWM units: one played entry, and the end of a sequence (R195, R196, R200). -/

namespace Sys2Proof.Machine

/-! ## One played entry -/

/-- The claimed unit plays an entry over its interval and goes on to the next (R195). -/
theorem State.playEntry_of {s : State} {u : Nat} {w : PwmUnit} (hu : s.inst.unit = some u) (hw : s.pwmAt u = some w)
    (cmp : BitVec 15) : s.playEntry cmp = .next { s with
      pwm := s.pwm.set u { w with pos := w.pos + 1, fetched := none, due := w.due + w.period }
      obs := { s.obs with wave := s.obs.wave ++ s.playSegs w cmp } } :=
  State.onUnit_of hu hw _

/-- A pin that does not resolve has no line (R202 (h)). -/
theorem State.playSegs_unresolved {s : State} {w : PwmUnit} (hpin : ¬ w.pselPin.toNat < s.plat.nPins) (cmp : BitVec 15) :
    s.playSegs w cmp = [] := by
  rw [State.playSegs_eq]
  exact if_neg fun h => hpin h.2

section
variable {s : State} {w : PwmUnit} (hcon : w.pselConnected = true)
include hcon

/-- A data bit is the one-bit sequence of its class (R200). -/
theorem State.playSegs_bit {k : ClassParams} (hd : k.dutyWf = true) (hp : 1 ≤ w.prescaler.toNat) (htop : w.top = k.top) (b : Bool) :
    let high := (cmpOf (bitEntry k b)).toNat * w.prescaler.toNat
    s.playSegs w (cmpOf (bitEntry k b)) =
      if w.pselPin.toNat < s.plat.nPins then symbolSegs w.pselPin w.due high (w.period - high) else [] := by
  intro high
  split
  · next hpin =>
    have hlt : ∀ b, 0 < (cmpOf (bitEntry k b)).toNat * w.prescaler.toNat ∧
        (cmpOf (bitEntry k b)).toNat * w.prescaler.toNat < w.period := by
      rw [PwmUnit.period, htop]
      exact pwmHigh_lt hd hp
    have hone := entrySegs_bits hcon hpin _ (fun _ => rfl) hlt [b] w.due
    simpa only [List.map_cons, List.map_nil, entrySegs, bitSegs, List.append_nil] using hone
  · next hpin => exact State.playSegs_unresolved hpin _

/-- A terminator is low for the whole interval (R200). -/
theorem State.playSegs_term (hperiod : 0 < w.period) : s.playSegs w 0 =
    if w.pselPin.toNat < s.plat.nPins then [{ pin := w.pselPin, start := w.due, level := .l, cycles := w.period }] else [] := by
  split
  · next hpin =>
    have hcmp : cmpOf term = 0 := by decide
    have hone := entrySegs_terms hcon hpin hperiod 1 w.due
    simpa only [hcmp, List.replicate_one, entrySegs, List.append_nil, List.range_one, List.map_cons, List.map_nil, Nat.zero_mul,
      Nat.add_zero] using hone
  · next hpin => exact State.playSegs_unresolved hpin _

end

/-- Settles O24: the symbol's compare value is played by the claimed unit, as one bit of a sequence or as one terminator. -/
theorem pwmSymbolFillsItsInterval : Obligations.PwmSymbolFillsItsInterval := by
  intro s u w hu hw hcon hd hp hpre htop period after
  have hperiod : w.period = period := by rw [PwmUnit.period, hpre, htop]
  rw [← hpre] at hp
  refine ⟨fun b => ?_, ?_⟩
  · intro high
    have hexec : exec (if b then .pwmSym1 else .pwmSym0) s = s.playEntry (cmpOf (bitEntry s.inst.cfg.cp b)) := by
      cases b <;> rfl
    have hhigh : (cmpOf (bitEntry s.inst.cfg.cp b)).toNat * w.prescaler.toNat = high := by rw [hpre]; rfl
    rw [hexec, State.playEntry_of hu hw, State.playSegs_bit hcon hd hp htop, hhigh, hperiod]
  · have hpos : 0 < w.period := by
      have := pwmHigh_lt hd hp true
      rw [PwmUnit.period, htop]; omega
    rw [show exec .pwmTerm s = s.playEntry 0 from rfl, State.playEntry_of hu hw, State.playSegs_term hcon hpos, hperiod]

/-! ## The end of a sequence -/

/-- The low tail of a unit as one segment, none without a line or a cycle (R196). -/
theorem State.tailSegs_eq (s : State) (w : PwmUnit) (c : Nat) : s.tailSegs w c =
    if w.pselConnected = true ∧ w.pselPin.toNat < s.plat.nPins ∧ w.due < c then
      [{ pin := w.pselPin, start := w.due, level := .l, cycles := c - w.due }] else [] := by
  simp only [State.tailSegs, playSeg, State.pinResolves, Bool.and_eq_true, decide_eq_true_eq, ← and_assoc]
  by_cases hline : w.pselConnected = true ∧ w.pselPin.toNat < s.plat.nPins
  · by_cases hc : w.due < c
    · rw [if_pos hline, if_neg (by omega), if_pos ⟨hline, hc⟩]
    · rw [if_pos hline, if_pos (by omega), if_neg fun h => hc h.2]
  · rw [if_neg hline, if_neg fun h => hline h.1]

/-- Settles O28: the acting unit has no entry left, so its step is the sequence end. -/
theorem unitStopsAtSequenceEnd : Obligations.UnitStopsAtSequenceEnd := by
  intro s u w hr he hdue hover
  rw [step_of_unit hr he hdue, State.unitStep, if_pos hover, State.sequenceEnd, State.tailSegs_eq]
  rfl

end Sys2Proof.Machine
end

section
/-! The expander: the claim of a unit or the fallback, and the end of ENCODING (R188 to R194). -/

namespace Sys2Proof.Machine

/-! ## The claim -/

/-- Too small a buffer takes the fallback (R188). -/
theorem State.startPwm_short {s : State} (h : s.inst.dutyCap.toNat < s.inst.seqLen) : s.startPwm = s.startFallback :=
  if_pos h

section
variable {s : State} (h : s.inst.seqLen ≤ s.inst.dutyCap.toNat)
include h

/-- With no free unit the fallback is taken with NO_PWM raised (R190, R297). -/
theorem State.startPwm_noUnit (hnone : s.scan = none) : s.startPwm = (s.raise .noPwm).startFallback := by
  rw [State.startPwm, if_neg (Nat.not_lt.mpr h), hnone]

/-- The unit the scan finds is claimed (R190). -/
theorem State.startPwm_claims {u : Nat} {w : PwmUnit} (hscan : s.scan = some u) (hw : s.pwmAt u = some w) :
    s.startPwm = { s with
      pwm := s.pwm.set u { w with enable := true }, inst := { s.inst with unit := some u, fsm := .encoding } } := by
  rw [State.startPwm, if_neg (Nat.not_lt.mpr h), hscan]
  simp only [State.claim, hw]
  rfl

end

/-- Settles O37: the latch wait is over, so the step is the expander's start, which goes by the buffer's size and the scan. -/
theorem expanderClaimsOrFallsBack : Obligations.ExpanderClaimsOrFallsBack := by
  intro s hfree hf hst hopen fallback seq
  have hstep : step s = .next s.startPwm := by
    rw [hfree.step_latchOpen hf (of_decide_eq_true hopen), State.leaveLatch, hst]
  rw [hstep]
  refine ⟨fun hshort => ?_, fun hcap hall => ?_, fun u w hcap hw hen hcon hbelow => ?_⟩
  · rw [State.startPwm_short hshort]; rfl
  · rw [State.startPwm_noUnit hcap (State.scan_none fun w hw => PwmUnit.not_free_iff.mpr (hall w hw))]; rfl
  · have hscan : s.scan = some u := State.scan_some hw (PwmUnit.free_iff.mpr ⟨hen, hcon⟩) fun v w' hv hw' =>
      PwmUnit.not_free_iff.mpr (hbelow v w' hv hw')
    rw [State.startPwm_claims hcap hscan hw]

/-! ## ENCODING -/

/-- Time passes in a begun ENCODING as it does before its beginning: no line reads the registers that it changes. -/
theorem State.beginEncoding_passTo (s : State) (c e : Nat) : (s.beginEncoding c).passTo e =
    { s.beginEncoding c with t := max s.t e, obs := (s.passTo e).obs } := by
  rw [State.beginEncoding_eq, State.passTo_eq, State.passTo_eq]
  rfl

/-- Whether an identifier is an instance's is a matter of the identifiers only (R286). -/
theorem State.instOf_isSome_congr {s t : State} (hid : t.inst.id = s.inst.id) (hpeers : t.peers = s.peers) (id : Nat) :
    (t.instOf id).isSome = (s.instOf id).isSome := by
  rw [State.instOf, State.instOf, hid, hpeers]
  split <;> rfl

/-- The units that play go by the pool, the registry and the instances' identifiers (R194, R196). -/
theorem State.players_congr {s t : State} (hpwm : t.pwm = s.pwm) (hreg : t.registry = s.registry)
    (hid : t.inst.id = s.inst.id) (hpeers : t.peers = s.peers) : t.players = s.players := by
  have hplaying : t.playing = s.playing := by
    funext u w
    simp only [State.playing, State.owner, State.registryAt, hreg]
    cases s.registry.getD u none with
    | none => rfl
    | some id => exact congrArg (w.run && ·) (State.instOf_isSome_congr hid hpeers id)
  rw [State.players, State.players, hpwm, hplaying]

/-- Nor do the cycles of the other agents' events. -/
theorem State.beginEncoding_pauseEnd (s : State) (c : Nat) (stop : Option Nat) :
    (s.beginEncoding c).pauseEnd stop = s.pauseEnd stop := by
  have hplayers : (s.beginEncoding c).players = s.players := by
    rw [State.beginEncoding_eq]
    exact State.players_congr rfl rfl rfl rfl
  rw [State.pauseEnd, State.nextEvents, hplayers, State.beginEncoding_eq]
  rfl

/-- The end of ENCODING, once fixed, stays (log 9). -/
theorem State.beginEncoding_inst {s : State} {c : Nat} (hend : s.encodingEnd = some c) :
    (s.beginEncoding c).inst = { s.inst with encEnd := some c } := by
  rw [State.beginEncoding_eq]
  cases h : s.inst.encEnd with
  | none => rfl
  | some d =>
    rw [State.encodingEnd, h] at hend
    obtain rfl : d = c := Option.some.inj hend
    rfl

/-- ENCODING begun in this cycle ends in an unstalled cycle with exactly E unstalled ones before it (R191, R202 (e)). -/
theorem State.encodingEnd_begins {s : State} {c : Nat} (hnone : s.inst.encEnd = none) (hend : s.encodingEnd = some c) :
    s.t ≤ c ∧ ¬ s.blocked c ∧ s.freeCycles s.t c = s.encodingTime := by
  rw [State.encodingEnd, hnone] at hend
  obtain ⟨hle, hfree, hcount⟩ := afterCounted_some hend
  exact ⟨hle, Bool.eq_false_iff.mp hfree, by rw [s.freeCycles_of_le hle, hcount]⟩

/-- ENCODING ends in its cycle unless an event of another agent comes first, up to which time passes (R191, R288). -/
theorem State.freeTurn.step_encoding {s : State} {u c : Nat} {w : PwmUnit} (h : s.freeTurn) (hf : s.inst.fsm = .encoding)
    (hu : s.inst.unit = some u) (hw : s.pwmAt u = some w) (hwrap : s.inst.buf.toNat + s.inst.len.toNat ≤ 2 ^ 32)
    (hcap : s.inst.seqLen ≤ s.inst.dutyCap.toNat) (hend : s.encodingEnd = some c) :
    step s = .next (if ∀ e ∈ s.nextEvents, c < e then s.finishEncoding c u w else (s.beginEncoding c).pause (some c)) := by
  have ⟨⟨_, _, _, _, _, hstuck⟩, _⟩ := h
  rw [h.step_of_act (by rw [sequence_of hstuck, hf]), State.encodingStep, if_neg (Nat.not_lt.mpr hwrap),
    if_neg (Nat.not_lt.mpr hcap), State.onUnit_of hu hw]
  simp only [hend, List.all_eq_true, decide_eq_true_eq]
  split <;> rfl

/-- Settles O39: with no event up to its end ENCODING finishes, as the written-out state says; with one it begins and pauses, and that
event bounds the pause. -/
theorem encodingConfiguresAndStarts : Obligations.EncodingConfiguresAndStarts := by
  intro s u w c hfree hf hu hw hwrap hcap hend
  have hstep := hfree.step_encoding hf hu hw hwrap hcap hend
  refine ⟨fun hnone => State.encodingEnd_begins hnone hend, fun hlate => ?_, fun e he hec => ?_⟩
  · rw [if_pos hlate, State.finishEncoding_eq] at hstep
    exact ⟨_, hstep, rfl, rfl, rfl, rfl, rfl, rfl, rfl, rfl, rfl, rfl, rfl⟩
  · obtain ⟨hturn, -⟩ := hfree
    have hwait := State.othersWait_of_turn hturn
    have hlater : s.t < c := Nat.lt_of_lt_of_le (State.nextEvents_gt hwait he) hec
    obtain ⟨hgt, hle, -⟩ := State.pauseEnd_wait hwait (stop := some c) fun d hd => Option.some.inj hd ▸ hlater
    rw [if_neg fun hlate => absurd (hlate e he) (Nat.not_lt.mpr hec), State.pause, State.beginEncoding_pauseEnd,
      State.beginEncoding_passTo, Nat.max_eq_right (Nat.le_of_lt hgt)] at hstep
    have hinst := State.beginEncoding_inst hend
    rw [State.beginEncoding_eq] at hstep hinst
    exact ⟨_, hstep, hgt, hle e (Or.inr he), hinst, rfl, rfl, rfl, rfl, rfl, rfl, rfl, rfl, rfl⟩

end Sys2Proof.Machine
end

section
/-! The fallback engine under any stall set: its symbols, the self-check and the backoff (R220 to R231). -/

namespace Sys2Proof.Machine

/-! ## The fallback symbol -/

/-- Both parts of either symbol of the fallback engine end within FB_PERIOD, the high one with at least one cycle (R101). -/
theorem fbParts_wf {k : ClassParams} (h : k.fbWf = true) (b : Bool) :
    0 < (if b then k.fbT1H else k.fbT0H) ∧ (if b then k.fbT1H else k.fbT0H) < k.fbPeriod ∧ k.fbPeriod < 2 ^ 32 := by
  simp only [ClassParams.fbWf, Bool.and_eq_true, decide_eq_true_eq] at h
  obtain ⟨⟨⟨h0, h01⟩, h1⟩, hp⟩ := h
  cases b
  · exact ⟨h0, h01.trans h1, hp⟩
  · exact ⟨h0.trans h01, h1, hp⟩

section
variable {s : State} {hb : Nat} (hu : s.noUnitOn s.inst.pin) (hhigh : hb < 2 ^ 32) (hper : s.inst.cfg.cp.fbPeriod < 2 ^ 32)
include hu hhigh hper

/-- A symbol whose high part no cycle ends (R336). -/
theorem State.fbSymbol_stuckHigh (ho : s.compareStop s.t hb s.t = none) :
    s.fbSymbol hb = s.stuckIn .fbHigh true (cycAt s.t) := by
  rw [State.fbSymbol_eq hu hhigh hper, ho, Option.elim_none]

/-- A symbol whose low part no cycle ends, one cycle into that part (R336). -/
theorem State.fbSymbol_stuckLow {t1 : Nat} (ho1 : s.compareStop s.t hb s.t = some t1)
    (ho2 : s.compareStop s.t s.inst.cfg.cp.fbPeriod t1 = none) :
    s.fbSymbol hb = { s with
      t := t1 + 1
      inst := { s.inst with
        fsm := .fbLow, evt := pinEvt s.plat.nPins s.inst.evt s.inst.pin, bitStart := cycAt s.t, stuck := true }
      gpio := gpioUpdate s.plat.nPins s.gpio s.inst.pin fun q => { q with out := false }
      obs := { s.obs with wave := s.obs.wave ++ (s.shownSegs true s.t t1 ++ s.shownSegs false t1 (t1 + 1)) } } := by
  rw [State.fbSymbol_eq hu hhigh hper, ho1, Option.elim_some, ho2, Option.elim_none, State.stuckIn, State.held_held]
  rfl

end

/-- Settles O23: `compareStop` is the end of a part in the statement's sense, and the symbol goes by the ends of its two parts. -/
theorem fallbackSymbolUnderStalls : Obligations.FallbackSymbolUnderStalls := by
  intro s b hu hwf hb after
  obtain ⟨-, hlt, hper⟩ : 0 < hb ∧ hb < s.inst.cfg.cp.fbPeriod ∧ s.inst.cfg.cp.fbPeriod < 2 ^ 32 := fbParts_wf hwf b
  have hhigh : hb < 2 ^ 32 := hlt.trans hper
  have hexec : exec (if b then .fbSym1 else .fbSym0) s = .next (s.fbSymbol hb) := exec_fbSym s b
  simp only [hexec, ← s.compareStop_iff _ _ _ hhigh, ← s.compareStop_iff _ _ _ hper]
  refine ⟨fun t1 t2 ho1 ho2 => ?_, fun ho => ?_, fun t1 ho1 ho2 => ?_, fun hw => ?_⟩
  · exact congrArg _ (State.fbSymbol_over hu hhigh hper ho1 ho2)
  · exact congrArg _ (State.fbSymbol_stuckHigh hu hhigh hper (Option.eq_none_iff_forall_ne_some.mpr ho))
  · exact congrArg _ (State.fbSymbol_stuckLow hu hhigh hper ho1 (Option.eq_none_iff_forall_ne_some.mpr ho2))
  · obtain ⟨t1, ho1⟩ := State.compareStop_ends hw hhigh s.t s.t
    obtain ⟨t2, ho2⟩ := State.compareStop_ends hw hper s.t t1
    exact ⟨t1, t2, ho1, ho2⟩

/-! ## The self-check -/

section
variable {s : State} (h : s.freeTurn) (hf : s.inst.fsm = .fbCheck)
include h hf

/-- The self-check is the step (R226). -/
theorem State.freeTurn.step_fbCheck : step s = .next s.selfCheck := by
  have ⟨⟨_, _, _, _, _, hstuck⟩, _⟩ := h
  exact h.step_of_act (k := fun s => .next s.selfCheck) (by rw [sequence_of hstuck, hf])

/-- A check that fails with a resend left backs off (R228). -/
theorem State.freeTurn.step_checkResends (hfail : s.checkFails = true) (hleft : s.inst.cfg.retryLimit ≠ some s.inst.retries) :
    step s = .next s.resend := by
  rw [h.step_fbCheck hf, State.selfCheck, if_pos hfail, Inst.retriesSpent, if_neg (by simpa using hleft)]

/-- A check that fails with none left gives up (R229). -/
theorem State.freeTurn.step_checkGivesUp (hfail : s.checkFails = true) (hspent : s.inst.cfg.retryLimit = some s.inst.retries) :
    step s = .next (s.raise .retryExhausted).stamp.complete := by
  rw [h.step_fbCheck hf, State.selfCheck, if_pos hfail, Inst.retriesSpent, if_pos (decide_eq_true hspent)]

end

/-- Settles O41: the three outcomes of the check, each written out by its operations. -/
theorem selfCheckAt125Percent : Obligations.SelfCheckAt125Percent := by
  intro s h hf elapsed expected
  refine ⟨fun hpass => ?_, fun hfail hleft => ?_, fun hfail hspent => ?_⟩
  · exact h.step_checkPasses hf (decide_eq_false (Nat.not_lt.mpr hpass))
  · exact h.step_checkResends hf (decide_eq_true hfail) hleft
  · exact h.step_checkGivesUp hf (decide_eq_true hfail) hspent

/-! ## The backoff -/

section
variable {s : State} (hf : s.inst.fsm = .fbBackoff)
include hf

/-- Before the backoff condition has held the sequencer waits for the backoff's end (R228). -/
theorem State.sequencerTurn.step_backoffClosed (h : s.sequencerTurn) (hd : ¬ s.backoffDue ≤ s.t) :
    step s = .next (s.pause s.backoffEnd) := by
  have ⟨_, _, _, _, _, hstuck⟩ := h
  rw [step_of_turn h, sequence_of hstuck, hf]
  exact if_neg (by simpa [State.backoffOver] using hd)

/-- From then on the next attempt is the action to make, held up by a stall only (R225, R228). -/
theorem State.sequencerTurn.step_backoffOver (h : s.sequencerTurn) (hd : s.backoffDue ≤ s.t) :
    step s = s.act fun s => .next s.startAttempt := by
  have ⟨_, _, _, _, _, hstuck⟩ := h
  rw [step_of_turn h, sequence_of hstuck, hf]
  exact if_pos (decide_eq_true hd)

end

/-- Settles O42: the backoff is over from `backoffDue` on; before it the step is a pause for that cycle, after it a new attempt. -/
theorem backoffThenAWholeNewAttempt : Obligations.BackoffThenAWholeNewAttempt := by
  intro s ht hf hm hb past
  have hpast (c : Nat) : past c ↔ s.backoffDue ≤ c := (State.backoffDue_iff hm hb c).symm
  simp only [hpast]
  refine ⟨fun hclosed => ?_, fun hover hs => ?_⟩
  · obtain ⟨hgt, hevents, hbefore, hend⟩ := State.pauseEnd_due (State.othersWait_of_turn ht) (Nat.lt_of_not_le hclosed)
    exact ⟨s.pauseEnd s.backoffEnd, hgt, ht.step_backoffClosed hf hclosed, hbefore, hevents, hend⟩
  · rw [ht.step_backoffOver hf hover, act_of_free hs]
    rfl

end Sys2Proof.Machine
end

section
/-! The resend loop that never ends: the bits a slow request stretches, one attempt after another (R226 to R229, R336). -/

namespace Sys2Proof.Machine

/-! ## A request low in one cycle of every p -/

/-- A request that from a cycle on is low in the last cycle of every p cycles only, counted with a phase (log 4). -/
def slowRequest (start phase p : Nat) : Window := { start := start, len := p - 1, period := p, phase := phase }

section
variable {start phase p t : Nat} (hs : start ≤ t)
include hs

/-- It is low in the last cycle of each round, and in no other. -/
theorem slowRequest_low_iff : inWindows [slowRequest start phase p] t = false ↔ p - 1 ≤ (t - start + phase) % p := by
  simp [inWindows, inWindow, slowRequest, hs]

/-- The d-th cycle after a low one is the d-th of the next round (R290). -/
theorem slowRequest_rest_add (hp : 0 < p) (hl : inWindows [slowRequest start phase p] t = false) {d : Nat} (hd : 0 < d) :
    (t + d - start + phase) % p = (d - 1) % p := by
  have hlt := Nat.mod_lt (t - start + phase) hp
  have hrest := (slowRequest_low_iff hs).mp hl
  have hdiv := Nat.div_add_mod (t - start + phase) p
  have hround : t + d - start + phase = p * ((t - start + phase) / p + 1) + (d - 1) := by
    rw [Nat.mul_add, Nat.mul_one]
    omega
  rw [hround, Nat.mul_add_mod]

/-- A round after a low cycle is the next low one. -/
theorem slowRequest_low_next (hp : 0 < p) (hl : inWindows [slowRequest start phase p] t = false) :
    inWindows [slowRequest start phase p] (t + p) = false := by
  rw [slowRequest_low_iff (Nat.le_add_right_of_le hs), slowRequest_rest_add hs hp hl hp, Nat.mod_eq_of_lt (by omega)]

/-- In between it is high. -/
theorem slowRequest_high_between (hl : inWindows [slowRequest start phase p] t = false) {c : Nat} (h1 : t < c) (h2 : c < t + p) :
    inWindows [slowRequest start phase p] c = true := by
  obtain ⟨d, rfl⟩ := Nat.exists_eq_add_of_lt h1
  rw [← Bool.not_eq_false, slowRequest_low_iff (by omega), Nat.add_assoc, slowRequest_rest_add hs (by omega) hl (Nat.succ_pos d),
    Nat.mod_eq_of_lt (by omega)]
  omega

end

/-! ## A bit that such a request stretches -/

/-- With such a request a wait for CYC to advance by up to p cycles, begun in a low cycle, ends in the next low one (R223). -/
theorem State.compareStop_slow {s : State} {start phase p n : Nat} (hb : s.blockers = [slowRequest start phase p])
    (hs : start ≤ s.t) (hl : inWindows s.blockers s.t = false) (h0 : 0 < n) (hn : n ≤ p) (hp : p < 2 ^ 32) :
    s.compareStop s.t n s.t = some (s.t + p) := by
  rw [hb] at hl
  refine (s.compareStop_iff s.t _ _ (by omega)).mpr ?_
  refine ⟨Nat.le_add_right _ _, ?_, ?_, fun c hc hcp => ?_⟩
  · rw [State.blocked, hb, slowRequest_low_next hs (by omega) hl]
    exact Bool.false_ne_true
  · rw [cycAt_sub_toNat _ _ (Nat.le_add_right _ _), Nat.add_sub_cancel_left, Nat.mod_eq_of_lt hp]
    exact hn
  · rcases Nat.eq_or_lt_of_le hc with rfl | hlt
    · exact Or.inr (by simpa using h0)
    · exact Or.inl (by rw [State.blocked, hb]; exact slowRequest_high_between hs hl hlt hcp)

/-- A wait for CYC to have advanced by up to p cycles that begins p cycles on, unstalled, takes no time (R223, R231). -/
theorem State.compareStop_passed {s : State} {p n : Nat} (hl : inWindows s.blockers (s.t + p) = false) (hn : n ≤ p)
    (hp : p < 2 ^ 32) : s.compareStop s.t n (s.t + p) = some (s.t + p) := by
  refine (s.compareStop_iff s.t _ _ (by omega)).mpr ?_
  refine ⟨Nat.le_refl _, Bool.eq_false_iff.mp hl, ?_, fun c hc hcp => absurd hcp (Nat.not_lt.mpr hc)⟩
  rw [cycAt_sub_toNat _ _ (Nat.le_add_right _ _), Nat.add_sub_cancel_left, Nat.mod_eq_of_lt hp]
  exact hn

/-! ## The position in the frame -/

/-- The bits of the frame before the current one (R30). -/
def Inst.bitsBefore (i : Inst) : Nat := 8 * i.byteIx.toNat + (7 - i.bitIx.val)

/-- The last bit has all the others before it. -/
theorem Inst.bitsBefore_last {i : Inst} (hl : i.lastBit = true) (hi : i.byteIx.toNat < i.len.toNat) :
    i.bitsBefore + 1 = 8 * i.len.toNat := by
  obtain ⟨hbit, hbyte⟩ := (Inst.lastBit_iff i).mp hl
  rw [Inst.bitsBefore, hbit, Fin.val_zero]
  omega

/-- The next position is inside the frame, one bit on (R30). -/
theorem Inst.nextPos_inside {i : Inst} (hl : ¬ i.lastBit = true) (hi : i.byteIx.toNat < i.len.toNat) :
    ∃ j k, i.nextPos = { i with byteIx := j, bitIx := k } ∧ j.toNat < i.len.toNat ∧ i.nextPos.bitsBefore = i.bitsBefore + 1 := by
  rw [Inst.lastBit_iff] at hl
  have hk := i.bitIx.isLt
  rw [Inst.nextPos]
  split
  · next hbit =>
    have hnext : i.byteIx.toNat + 1 < i.len.toNat := Nat.lt_of_not_le fun h => hl ⟨hbit, h⟩
    have hadd : (i.byteIx + 1).toNat = i.byteIx.toNat + 1 := BitVec.toNat_add_of_lt (hnext.trans i.len.isLt)
    refine ⟨_, _, rfl, hadd ▸ hnext, ?_⟩
    simp only [Inst.bitsBefore, hadd, hbit]
    rfl
  · next hbit =>
    have hpos : i.bitIx.val ≠ 0 := fun h => hbit (Fin.ext h)
    refine ⟨_, _, rfl, hi, ?_⟩
    simp only [Inst.bitsBefore, Fin.val_sub_one_of_ne_zero hbit]
    omega

/-! ## The loop -/

/-- What the loop rests on and no step of it changes: no limit on resends, every bit stretched past 5/4 of FB_PERIOD by `nmi_req`, an
attempt shorter than a round of CYC, nothing else to come, and a frame of some bytes that do not wrap (R226, R229). -/
structure State.ResendScene (s : State) (start phase p : Nat) : Prop where
  unlimited : s.inst.cfg.retryLimit = none
  timing : s.inst.cfg.cp.fbWf = true
  slow : 5 * s.inst.cfg.cp.fbPeriod < 4 * p
  noWrap : 8 * s.inst.len.toNat * p < 2 ^ 32
  request : s.nmi = [slowRequest start phase p]
  begun : start ≤ s.t
  env : s.env = []
  rst : s.rst = []
  atRest : s.unitsAtRest
  noUnit : s.noUnitOn s.inst.pin
  len : s.inst.len ≠ 0
  fits : s.inst.buf.toNat + s.inst.len.toNat ≤ 2 ^ 32
  notStuck : s.inst.stuck = false

/-- n bits of p cycles have passed since the snapshot of CYC_START (R220). -/
def State.bitsSinceStart (s : State) (p n : Nat) : Prop := ∃ t0, s.inst.cycStart = cycAt t0 ∧ s.t = t0 + n * p

/-- In the cycle of the snapshot none has. -/
theorem State.bitsSinceStart_zero {s : State} (hc : s.inst.cycStart = cycAt s.t) (p : Nat) : s.bitsSinceStart p 0 :=
  ⟨s.t, hc, by rw [Nat.zero_mul, Nat.add_zero]⟩

/-- Where an attempt of the loop is: at the start or the end of a bit, at the check, each in a cycle in which `nmi_req` is low; or in the
backoff, at any time (R300). -/
inductive State.ResendPhase (s : State) (p : Nat) : Prop
  | bitStart : s.inst.fsm = .fbHigh → s.inst.irqMask = true → inWindows s.nmi s.t = false →
      s.inst.byteIx.toNat < s.inst.len.toNat → s.bitsSinceStart p s.inst.bitsBefore → ResendPhase s p
  | bitEnd : s.inst.fsm = .fbLow → s.inst.irqMask = true → inWindows s.nmi s.t = false →
      s.inst.byteIx.toNat < s.inst.len.toNat → s.bitsSinceStart p (s.inst.bitsBefore + 1) → ResendPhase s p
  | check : s.inst.fsm = .fbCheck → s.inst.unmaskedAt = some s.t → inWindows s.nmi s.t = false →
      s.bitsSinceStart p (8 * s.inst.len.toNat) → ResendPhase s p
  | backoff : s.inst.fsm = .fbBackoff → ResendPhase s p

/-- The fallback is in its resend loop. -/
structure State.Resending (s : State) (start phase p : Nat) : Prop where
  scene : s.ResendScene start phase p
  phase : s.ResendPhase p

/-- A step of the loop: it goes on, and no `done` has pulsed. -/
def State.ResendsOn (s : State) (start phase p : Nat) : Prop :=
  ∃ t, step s = .next t ∧ t.Resending start phase p ∧ t.obs.dones = s.obs.dones

/-- Masked, or in the cycle the mask closed, only `nmi_req` stalls the sequencer (R291, R293). -/
theorem State.not_stalled_of_nmi {s : State} (hm : s.inst.irqMask = true ∨ s.inst.unmaskedAt = some s.t)
    (hn : inWindows s.nmi s.t = false) : s.stalled = false := by
  rcases hm with hm | hm
  · simp [State.stalled, State.masked, hn, hm]
  · simp [State.stalled, hn, hm]

/-- An unstalled cycle is one in which `nmi_req` is low (R291). -/
theorem State.nmi_low {s : State} (h : s.stalled = false) : inWindows s.nmi s.t = false := by
  rw [State.stalled, Bool.or_eq_false_iff] at h
  exact h.1

section
variable {s : State} {start phase p : Nat} (h : s.ResendScene start phase p)
include h

/-- In the fallback's states of FSM it is the sequencer's turn. -/
theorem State.ResendScene.turn (hf : s.inst.fsm ≠ .idle ∧ s.inst.fsm ≠ .playing) : s.sequencerTurn :=
  State.turn_of_rest h.env h.rst h.atRest (State.finisher_busy hf) h.notStuck

/-- A stretched bit is shorter than a round of CYC. -/
theorem State.ResendScene.period_lt : p < 2 ^ 32 := by
  have hpos := count_pos h.len
  exact Nat.lt_of_le_of_lt (Nat.le_mul_of_pos_left p (by omega)) h.noWrap

/-- A passing of time leaves the scene as it is. -/
theorem State.ResendScene.passTo (c : Nat) : (s.passTo c).ResendScene start phase p := by
  rw [State.passTo_eq]
  exact { h with begun := Nat.le_trans h.begun (Nat.le_max_left _ _) }

/-- A bit of the loop takes p cycles, to a cycle in which `nmi_req` is low again (R223, R231). -/
theorem State.ResendScene.fbSymbol_slow (hm : s.inst.irqMask = true) (hl : inWindows s.nmi s.t = false) (b : Bool) :
    inWindows s.nmi (s.t + p) = false ∧ ∃ bs ev g gs,
      s.fbSymbol (if b then s.inst.cfg.cp.fbT1H else s.inst.cfg.cp.fbT0H) = { s with
        t := s.t + p, inst := { s.inst with fsm := .fbLow, evt := ev, bitStart := bs }, gpio := g
        obs := { s.obs with wave := s.obs.wave ++ gs } } := by
  obtain ⟨hpos, hlt, hper⟩ := fbParts_wf h.timing b
  have hslow := h.slow
  have hblock : s.blockers = s.nmi := if_pos (by rw [State.masked, hm, Bool.true_or])
  have hlow : inWindows s.nmi (s.t + p) = false := by
    rw [h.request] at hl ⊢
    exact slowRequest_low_next h.begun (by omega) hl
  have hfirst := State.compareStop_slow (hblock.trans h.request) h.begun (by rw [hblock]; exact hl) hpos (by omega) h.period_lt
  have hsecond := State.compareStop_passed (s := s) (n := s.inst.cfg.cp.fbPeriod) (by rw [hblock]; exact hlow) (by omega)
    h.period_lt
  exact ⟨hlow, _, _, _, _, State.fbSymbol_over h.noUnit (hlt.trans hper) hper hfirst hsecond⟩

/-- From the start of a bit the loop goes on to its end. -/
theorem State.ResendScene.step_bitStart (hf : s.inst.fsm = .fbHigh) (hm : s.inst.irqMask = true) (hl : inWindows s.nmi s.t = false)
    (hi : s.inst.byteIx.toNat < s.inst.len.toNat) (hn : s.bitsSinceStart p s.inst.bitsBefore) : s.ResendsOn start phase p := by
  have hfree : s.freeTurn := ⟨h.turn (by simp [hf]), State.not_stalled_of_nmi (Or.inl hm) hl⟩
  have haddr : s.inst.byteAddr < 2 ^ 32 := Nat.lt_of_lt_of_le (Nat.add_lt_add_left hi _) h.fits
  have hscene : s.withByte.ResendScene start phase p := { h with }
  obtain ⟨hlow, bs, ev, g, gs, hsym⟩ := hscene.fbSymbol_slow hm hl s.bitNow
  obtain ⟨t0, hstart, ht⟩ := hn
  have hstep := hfree.step_fbHigh hf haddr
  rw [exec_fbSym] at hstep
  refine ⟨_, hstep.trans (congrArg _ hsym), ⟨?_, ?_⟩, rfl⟩
  · exact { h with begun := Nat.le_add_right_of_le h.begun }
  · refine .bitEnd rfl hm hlow hi ⟨t0, hstart, ?_⟩
    show s.t + p = t0 + (s.inst.bitsBefore + 1) * p
    rw [ht, Nat.succ_mul, Nat.add_assoc]

/-- From the end of a bit it goes on to the next bit, or after the last one to the check (R220). -/
theorem State.ResendScene.step_bitEnd (hf : s.inst.fsm = .fbLow) (hm : s.inst.irqMask = true) (hl : inWindows s.nmi s.t = false)
    (hi : s.inst.byteIx.toNat < s.inst.len.toNat) (hn : s.bitsSinceStart p (s.inst.bitsBefore + 1)) :
    s.ResendsOn start phase p := by
  have hfree : s.freeTurn := ⟨h.turn (by simp [hf]), State.not_stalled_of_nmi (Or.inl hm) hl⟩
  refine ⟨_, hfree.step_fbLow hf, ?_⟩
  rw [State.afterPeriod]
  split
  · next hlast =>
    rw [Inst.bitsBefore_last hlast hi] at hn
    exact ⟨⟨{ h with }, .check rfl rfl hl hn⟩, rfl⟩
  · next hlast =>
    obtain ⟨j, k, hpos, hinside, hnext⟩ := Inst.nextPos_inside hlast hi
    rw [← hnext, hpos] at hn
    rw [State.nextBit, hpos]
    exact ⟨⟨{ h with }, .bitStart rfl hm hl hinside hn⟩, rfl⟩

/-- An attempt of 8 LEN stretched bits fails the check (R226). -/
theorem State.ResendScene.checkFails (hn : s.bitsSinceStart p (8 * s.inst.len.toNat)) : s.checkFails = true := by
  obtain ⟨t0, hstart, ht⟩ := hn
  have helapsed : s.elapsedCycles = 8 * s.inst.len.toNat * p := by
    rw [State.elapsedCycles, State.cyc, hstart, cycAt_sub_toNat _ _ (by omega), ht, Nat.add_sub_cancel_left,
      Nat.mod_eq_of_lt h.noWrap]
  have hpos := count_pos h.len
  rw [State.checkFails, helapsed, Inst.expectedCycles]
  refine decide_eq_true ?_
  calc 5 * (8 * s.inst.len.toNat * s.inst.cfg.cp.fbPeriod) = 8 * s.inst.len.toNat * (5 * s.inst.cfg.cp.fbPeriod) :=
        Nat.mul_left_comm ..
    _ < 8 * s.inst.len.toNat * (4 * p) := Nat.mul_lt_mul_of_pos_left h.slow (by omega)
    _ = 4 * (8 * s.inst.len.toNat * p) := Nat.mul_left_comm ..

/-- The check fails and a resend is left, so the loop goes on to the backoff (R228, R229). -/
theorem State.ResendScene.step_check (hf : s.inst.fsm = .fbCheck) (hu : s.inst.unmaskedAt = some s.t)
    (hl : inWindows s.nmi s.t = false) (hn : s.bitsSinceStart p (8 * s.inst.len.toNat)) : s.ResendsOn start phase p := by
  have hfree : s.freeTurn := ⟨h.turn (by simp [hf]), State.not_stalled_of_nmi (Or.inr hu) hl⟩
  have hleft : s.inst.cfg.retryLimit ≠ some s.inst.retries := by rw [h.unlimited]; exact nofun
  exact ⟨_, hfree.step_checkResends hf (h.checkFails hn) hleft, ⟨{ h with }, .backoff rfl⟩, rfl⟩

/-- A pause in the backoff stays in it. -/
theorem State.ResendScene.pause (hf : s.inst.fsm = .fbBackoff) {stop : Option Nat} (hstep : step s = .next (s.pause stop)) :
    s.ResendsOn start phase p :=
  ⟨_, hstep, ⟨h.passTo _, .backoff (by rw [State.pause, State.passTo_inst, hf])⟩, s.passTo_dones _⟩

/-- The backoff goes on, or a new attempt begins at the first bit (R225, R228). -/
theorem State.ResendScene.step_backoff (hf : s.inst.fsm = .fbBackoff) : s.ResendsOn start phase p := by
  have hturn : s.sequencerTurn := h.turn (by simp [hf])
  by_cases hdue : s.backoffDue ≤ s.t
  · have hstep := hturn.step_backoffOver hf hdue
    cases hstalled : s.stalled with
    | true =>
      rw [State.act, if_pos hstalled] at hstep
      exact h.pause hf hstep
    | false =>
      rw [act_of_free hstalled] at hstep
      have hstart : s.startAttempt.bitsSinceStart p 0 := State.bitsSinceStart_zero rfl p
      exact ⟨_, hstep, ⟨{ h with }, .bitStart rfl rfl (State.nmi_low (s := s) hstalled) (count_pos h.len) hstart⟩, rfl⟩
  · exact h.pause hf (hturn.step_backoffClosed hf hdue)

end

/-- Every step of the loop stays in it. -/
theorem State.Resending.step {s : State} {start phase p : Nat} (h : s.Resending start phase p) : s.ResendsOn start phase p := by
  obtain ⟨hscene, hphase⟩ := h
  cases hphase with
  | bitStart hf hm hl hi hn => exact hscene.step_bitStart hf hm hl hi hn
  | bitEnd hf hm hl hi hn => exact hscene.step_bitEnd hf hm hl hi hn
  | check hf hu hl hn => exact hscene.step_check hf hu hl hn
  | backoff hf => exact hscene.step_backoff hf

/-- So does every run. -/
theorem run_resending {start phase p : Nat} : ∀ (n : Nat) {s : State}, s.Resending start phase p →
    ∃ t, Sys2Proof.core.run n s = .next t ∧ t.Resending start phase p ∧ t.obs.dones = s.obs.dones
  | 0, s, h => ⟨s, run_zero s, h, rfl⟩
  | n + 1, s, h => by
    obtain ⟨m, hstep, hm, hdones⟩ := h.step
    obtain ⟨t, hrun, ht, hdones'⟩ := run_resending n hm
    exact ⟨t, (run_succ hstep n).trans hrun, ht, hdones'.trans hdones⟩

/-- In the loop FSM is in one of the fallback's states (R300). -/
theorem State.ResendPhase.fsm {s : State} {p : Nat} (h : s.ResendPhase p) :
    s.inst.fsm ∈ [Fsm.fbHigh, .fbLow, .fbCheck, .fbBackoff] := by
  cases h with
  | bitStart hf | bitEnd hf | check hf | backoff hf => rw [hf]; decide

/-- Settles O60: the loop is an invariant of the step, and the start of an attempt is in it. -/
theorem resendLoopNeverEnds : Obligations.ResendLoopNeverEnds := by
  intro s start phase p n hlimit htiming hslow hwrap hnmi hstart henv hrst hrest hunit hlen hfits hf hmask hstuck hbyte hbit hcyc hs
  have hscene : s.ResendScene start phase p :=
    { unlimited := hlimit, timing := htiming, slow := hslow, noWrap := hwrap, request := hnmi, begun := hstart, env := henv
      rst := hrst, atRest := hrest, noUnit := hunit, len := hlen, fits := hfits, notStuck := hstuck }
  have hinside : s.inst.byteIx.toNat < s.inst.len.toNat := by rw [hbyte]; exact count_pos hlen
  have hbits : s.bitsSinceStart p s.inst.bitsBefore := by
    rw [Inst.bitsBefore, hbyte, hbit]
    exact State.bitsSinceStart_zero hcyc p
  obtain ⟨t, hrun, ht, hdones⟩ := run_resending n ⟨hscene, .bitStart hf hmask (State.nmi_low hs) hinside hbits⟩
  exact ⟨t, hrun, ht.phase.fsm, ht.scene.notStuck, hdones⟩

end Sys2Proof.Machine
end

section
/-! SET_PIN, BEGIN and END with ACTIVE = 0: the next state written out (R260 to R264). -/

namespace Sys2Proof.Machine

/-- Claiming a pin, `configure_as_output` and then `set_low`, is one GPIO action (R261 (e), R262). -/
theorem State.setLow_configureOutput (s : State) (p : Pin) :
    (s.configureOutput p).setLow p = s.gpioAct p fun _ => { dir := .output, out := false } := by
  rw [State.configureOutput, State.setLow]
  simp only [State.gpioAct_eq, pinEvt_pinEvt, gpioUpdate_twice]

/-- A block that has not begun only takes the new pin (R261). -/
theorem exec_setPin_unbegun {s : State} (hb : s.inst.begun = false) (p : Pin) :
    exec (.setPin p) s = .next (s.setPinReg p).complete :=
  if_neg (Bool.eq_false_iff.mp hb)

/-- A begun block releases the old pin, takes the new one and claims it (R260, R261). -/
theorem exec_setPin_begun {s : State} (hb : s.inst.begun = true) (p : Pin) :
    exec (.setPin p) s = .next
      (((s.configureInput s.inst.pin).setPinReg p).gpioAct p fun _ => { dir := .output, out := false }).complete := by
  rw [← State.setLow_configureOutput]
  exact if_pos hb

/-- BEGIN claims the pin and sets BEGUN (R262). -/
theorem exec_beginPin (s : State) : exec .beginPin s = .next
    ((s.gpioAct s.inst.pin fun _ => { dir := .output, out := false }).setBegun true).complete := by
  rw [← State.setLow_configureOutput]
  rfl

/-- Settles O10: not begun, only PIN changes; begun, two GPIO actions, on the old pin and then on the new one. -/
theorem setPinMovesThePin : Obligations.SetPinMovesThePin := by
  refine ⟨decodeCmd_setPin, fun p s => ?_⟩
  refine ⟨fun hb => exec_setPin_unbegun hb p, fun hb => ?_⟩
  rw [exec_setPin_begun hb, State.configureInput, State.gpioAct_eq, State.gpioAct_eq]
  rfl

/-- Settles O11: the claim is one GPIO action on the pin, and BEGUN is set after it. -/
theorem beginClaimsThePin : Obligations.BeginClaimsThePin := by
  refine ⟨decodeCmd_begin, fun s => ?_⟩
  rw [exec_beginPin, State.gpioAct_eq]
  rfl

/-- Settles O12: with ACTIVE = 0 END does not wait, and the release is one GPIO action that keeps the output bit. -/
theorem endReleasesThePin : Obligations.EndReleasesThePin := by
  intro s ha
  rw [exec_endPin_now ha, State.endAction, State.configureInput, State.gpioAct_eq]
  rfl

end Sys2Proof.Machine
end

section
/-! The SEQEND handler: its first chance and what it clears (R285 to R289); and which requests stall the sequencer inside a masked window
and outside one (R291, R293). -/

namespace Sys2Proof.Machine

/-! ## The requests that stall -/

/-- Inside a masked window the sequencer is stalled by `nmi_req` only (R291). -/
theorem State.stalled_masked {s : State} (hm : s.masked = true) : s.stalled = inWindows s.nmi s.t := by
  simp [State.stalled, hm]

/-- Outside one, from the cycle after it closed on, either request stalls it (R291, R293). -/
theorem State.stalled_unmasked {s : State} (hm : s.masked = false) (hu : s.inst.unmaskedAt ≠ some s.t) :
    s.stalled = inWindows (s.nmi ++ s.irq) s.t := by
  simp [State.stalled, inWindows_append, hm, hu]

/-- Settles O43: which requests stall is said by the mask, and `inWindows` says what a raised request is. -/
theorem maskKeepsIrqOut : Obligations.MaskKeepsIrqOut :=
  fun s => ⟨fun hm => by rw [s.stalled_masked hm]; exact inWindows_iff,
    fun hm hu => by rw [s.stalled_unmasked hm hu]; exact inWindows_iff⟩

/-! ## The handler's first chance -/

/-- A pending sequence end is handled in an unstalled cycle with no mask (R288). -/
theorem State.stalled_of_noHandler {s : State} (hp : true ∈ s.pend) (hm : s.masked = false) (h : s.handlerDue = none) :
    s.stalled = true := by
  by_contra hs
  have hnone : s.pend.findIdx? id = none := by simpa [State.handlerDue, hm, hs] using h
  exact absurd (List.findIdx?_eq_none_iff.mp hnone true hp) (by decide)

/-- With nothing masked a pending handler can run in the next unstalled cycle (R288). -/
theorem State.handlerChance_pending {s : State} (hp : true ∈ s.pend) (hm : s.masked = false) :
    s.handlerChance = nextFree s.blockers s.t := by
  have hany : s.pend.any id = true := List.any_eq_true.mpr ⟨true, hp, rfl⟩
  simp [State.handlerChance, hany, hm]

/-- A stalled sequencer with an event in the next unstalled cycle lets time pass beyond no unstalled cycle (R288, R291). -/
theorem State.sequence_le_of_freeEvent {s m : State} {c : Nat} (hs : s.stalled = true)
    (hevent : ∀ e, nextFree s.blockers s.t = some e → e ∈ s.nextEvents) (h : s.sequence = .next m) (hle : s.t ≤ c)
    (hc : ¬ s.blocked c) : m.t ≤ c := by
  have hlt : s.t < c := Nat.lt_of_le_of_ne hle fun e => hc (e ▸ State.blocked_of_stalled hs)
  obtain ⟨e, he, hec⟩ := nextFree_le hle (Bool.eq_false_iff.mpr hc)
  rcases State.sequence_staysBy hs h with ht | hall
  · omega
  · have := hall e (hevent e he); omega

/-- While a sequence end is pending and nothing is masked, no action lets time pass beyond an unstalled cycle (R288). -/
theorem State.agentStep_le_of_pending {s m : State} {c : Nat} (hp : true ∈ s.pend) (hm : s.masked = false)
    (h : s.agentStep = .next m) (hle : s.t ≤ c) (hc : ¬ s.blocked c) : m.t ≤ c := by
  have hevent : ∀ e, nextFree s.blockers s.t = some e → e ∈ s.nextEvents := fun e he =>
    (s.mem_nextEvents e).mpr (Or.inr (Or.inr (Or.inl ((State.handlerChance_pending hp hm).trans he))))
  rcases State.agentStep_t h with ht | ⟨⟨-, -, hdue, -⟩, hseq⟩
  · omega
  · exact State.sequence_le_of_freeEvent (State.stalled_of_noHandler hp hm hdue) hevent hseq hle hc

/-! ## What the handler clears -/

/-- The handler of a unit that is nobody's only takes the sequence end back (R289). -/
theorem State.seqendHandler_foreign {s : State} {u : Nat} (hreg : s.registryAt u = none) :
    s.seqendHandler u = s.setPend u false := by
  have hreg' : (s.setPend u false).registryAt u = none := hreg
  rw [State.seqendHandler, hreg']

/-- The handler of a unit of an instance also stops the unit and clears that instance's ACTIVE (R288). -/
theorem State.seqendHandler_claimed {s : State} {u id : Nat} {w : PwmUnit} (hreg : s.registryAt u = some id)
    (hw : s.pwmAt u = some w) :
    s.seqendHandler u = ((s.setPend u false).setPwm u { w with run := false }).clearActive id := by
  have hreg' : (s.setPend u false).registryAt u = some id := hreg
  rw [State.seqendHandler, hreg', hw]

/-- ACTIVE of an instance is cleared where that instance is, running or parked. -/
theorem State.clearActive_eq (s : State) (id : Nat) : s.clearActive id = { s with
    inst := if s.inst.id = id then { s.inst with active := false } else s.inst
    peers := if s.inst.id = id then s.peers else s.peers.map (fun i => if i.id = id then { i with active := false } else i) } := by
  by_cases h : s.inst.id = id
  · simp only [State.clearActive, if_pos h]; rfl
  · simp only [State.clearActive, if_neg h]

/-- Settles O29: an unstalled cycle with a handler pending is an event no step passes over, and in it the handler's step is the whole
action. -/
theorem seqendHandlerClearsActive : Obligations.SeqendHandlerClearsActive := by
  refine ⟨fun s s' c hp hm h hpast => State.agentStep_le_of_pending hp hm (agentStep_of_past h hpast),
    fun s u hr he hu hh => ?_⟩
  have ⟨hs, hm, hpend, hlowest⟩ := State.handlerDue_some hh
  refine ⟨hs, hm, hpend, hlowest, fun hreg => ?_, fun id w hreg hw => ?_⟩
  · rw [step_of_handler hr he hu hh, State.seqendHandler_foreign hreg]
    rfl
  · rw [step_of_handler hr he hu hh, State.seqendHandler_claimed hreg hw, State.clearActive_eq]
    rfl

end Sys2Proof.Machine
end
